-- ==== Sys2Proof/Word.lean ====
section
/-! DEFINITION. The plain words of the part: bytes, 16-bit values, addresses, clients, lines, resources and classes (00_scope.md 5.2). -/

namespace Sys2Proof

/-- One byte of a frame, a carriage or the configuration image. -/
abbrev Byte := BitVec 8

/-- A 16-bit value: session tag, session count, table check, profile check, resource mask. -/
abbrev Word := BitVec 16

/-- A station address, 0..15. -/
abbrev Addr := Fin 16

/-- A client, 0..15: 0..7 are line clients and 8..15 software clients. -/
abbrev Client := Fin 16

/-- A line pair REQ/GNT, 0..7; line n always works through slot n. -/
abbrev LineNo := Fin 8

/-- A resource set as its mask: bit r stands for resource r (11_formats.md). -/
abbrev Mask := BitVec 16

/-- A claim class, 0..3, 3 the highest (R3). -/
abbrev Class := Fin 4

/-- The sixteen addresses, and the sixteen clients, in ascending order (00_scope.md 5.3). -/
def sixteen : List (Fin 16) := [0, 1, 2, 3, 4, 5, 6, 7, 8, 9, 10, 11, 12, 13, 14, 15]

/-- The eight lines in ascending order. -/
def eight : List (Fin 8) := [0, 1, 2, 3, 4, 5, 6, 7]

end Sys2Proof
end

