-- ==== Sys2Proof/Config.lean ====
section
/-! DEFINITION. The fixed figures of the part (00_scope.md 1.1 and the rules cited). No value is left free: every constant here is stated by the spec. -/

namespace Sys2Proof.Config

/-- Claim Pool capacity (R4). -/
def poolCapacity : Nat := 64

/-- Outbox capacity (R107). -/
def outboxCapacity : Nat := 8

/-- Most Outbox entries below tier 3 (R109). -/
def lowTierCapacity : Nat := 6

/-- Event Queue capacity with its EVENTS_LOST entry (R184). -/
def eventCapacity : Nat := 32

/-- Catch-up buffer capacity (R156). -/
def catchUpCapacity : Nat := 32

/-- The void count at which a station enters FAULTED (R99). -/
def voidLimit : Nat := 16

/-- The own-void run at which a station enters FAULTED (R100). -/
def voidRunLimit : Nat := 4

/-- Length of the system section of the configuration image, bytes (R177). -/
abbrev systemLength : Nat := 53

/-- Length of the local section of the configuration image, bytes (R177). -/
abbrev localLength : Nat := 25

/-- Most data bytes one LOAD frame carries (R175). -/
def loadMax : Nat := 39

/-- Most bytes one READ_CONFIG returns (R179). -/
def readMax : Nat := 40

/-- Milliseconds of one unit of the beacon interval, of retry remaining and of absence times (11.4, R189, R191). -/
def beaconUnitMs : Nat := 8

/-- The idle gap in bit times (R84). -/
def idleGap : Nat := 11

/-- The filler byte the port sends outside status and response data (11.3). -/
def filler : Byte := 0xFF#8

/-- Low bits of the generator x^16 + x^12 + x^5 + 1 (R162, R193). -/
def generator : Word := 0x1021#16

/-- Initial value of every cyclic check, all ones (R162, R193). -/
def checkInit : Word := 0xFFFF#16

end Sys2Proof.Config
end

