-- ==== Sys2Proof/Syntax.lean ====
section
/-! DEFINITION. The notices of the Claim Bus (11.2) and the commands of spec/opcode_table.json, one constructor per row. -/

namespace Sys2Proof

/-- The body of a notice: its kind and the fields 11.2 gives it. A field whose coding does not name every value it can hold
is kept as the bits carried, so that R194 can be applied to it; unused bits are not kept (R194). -/
inductive Body where
  /-- FOUND: the founder's profile check. -/
  | found (profileCheck : Word)
  /-- JOIN: the sender's profile check. -/
  | join (profileCheck : Word)
  /-- ADMIT: the joiner, and the session count every station holds once the ADMIT has been taken (R148). -/
  | admitJoiner (joiner : Addr) (count : Word)
  /-- REFUSE: the joiner and the reason nibble (BUSY 1, PROFILE 2, ADDRESS 3). -/
  | refuse (joiner : Addr) (reason : Fin 16)
  /-- SNAP-MEMBERS: one byte per address, state code × 16 + sponsor. -/
  | snapMembers (records : Vector Byte 16)
  /-- SNAP-CLAIM: pool position, then every field of the pool record; `standing` is the code byte. -/
  | snapClaim (position : Byte) (station : Addr) (client : Client) (set : Mask) (requested effective : Class)
      (passed : Fin 16) (standing : Byte)
  /-- SNAP-END: the copy's table check and record count. -/
  | snapEnd (check : Word) (count : Byte)
  /-- CLAIM: client, requested class, resource mask. -/
  | claim (client : Client) (cls : Class) (set : Mask)
  /-- WITHDRAW: client. -/
  | withdraw (client : Client)
  /-- RELEASE: client and the reason nibble (NORMAL 0, FORCED 1). -/
  | release (client : Client) (reason : Fin 16)
  /-- LEAVE: the reason byte (STOP 0, RESYNC 1, ABANDON 2). -/
  | leave (reason : Byte)
  /-- EVICT: target. -/
  | evict (target : Addr)
  /-- BEACON: table check, session count, sync flag. -/
  | beacon (check : Word) (count : Word) (sync : Bool)
deriving DecidableEq, Repr

/-- A notice as carried: header (session tag, sender) and body (11.1). -/
structure Notice where
  tag : Word
  sender : Addr
  body : Body
deriving DecidableEq, Repr

/-- The reception faults of R92. -/
inductive ReceptionFault where
  /-- The kind field names no notice kind. -/
  | unknownKind
  /-- The kind's tier differs from the winning contention number's. -/
  | tierMismatch
  /-- The winning number's class differs from the CLAIM's, or is not 0 for another kind. -/
  | classMismatch
  /-- The carriage stopped before its last check bit. -/
  | stopped
  /-- The received check differs from the computed one. -/
  | checkMismatch
deriving DecidableEq, Repr

/-- What a station knows of a round that was taken: it carried the notice itself, or it heard the winning contention number
and the carriage bytes (header, body, check) as a listener (R88, R91, R92). -/
inductive Hearing where
  | own
  | other (winning : Byte) (carriage : List Byte)
deriving DecidableEq, Repr

/-- Whether the work a command leads to at the next block is done in the same event or waits for the table's later row
(EDGE_HANDED_ON for R71, NOTICE_EFFECTS_MADE for R97). -/
inductive Timing where
  | atOnce
  | later
deriving DecidableEq, Repr

/-- The commands of the part: one constructor per row of spec/opcode_table.json, in the table's order. -/
inductive Instr where
  /-- LOAD_PROFILE (R178). -/
  | loadProfile (offset : Byte) (data : List Byte)
  /-- LOAD_LOCAL (R178). -/
  | loadLocal (offset : Byte) (data : List Byte)
  /-- READ_CONFIG (R179). -/
  | readConfig (part offset count : Byte)
  /-- START (R180). -/
  | start
  /-- STOP (R131, R181). -/
  | stop
  /-- RESYNC (R181). -/
  | resync
  /-- CLEAR_FAULT (R142, R181). -/
  | clearFault
  /-- CLAIM command (R47). -/
  | claim (client : Byte) (set : Mask) (cls : Byte)
  /-- CANCEL (R50). -/
  | cancel (client : Byte)
  /-- RELEASE command (R59, R61). -/
  | release (client : Byte)
  /-- RENEW (R57). -/
  | renew (client : Byte)
  /-- READ_EVENT (R185). -/
  | readEvent
  /-- READ_STATUS (R188). -/
  | readStatus
  /-- READ_SLOT (R189). -/
  | readSlot (client : Byte)
  /-- READ_RESOURCE (R190). -/
  | readResource (resource : Byte)
  /-- READ_MEMBER (R191). -/
  | readMember (address : Byte)
  /-- A frame that reaches its decision point and is answered BAD_FRAME: identifier and parameter bytes (R175). -/
  | badFrame (ident : Byte) (params : List Byte)
  /-- SSN rises before the decision point; the bytes received until then (R175). -/
  | frameAborted (received : List Byte)
  /-- The last response byte of a READ_EVENT has been shifted out (R185). -/
  | eventRemoval
  /-- RESETN is asserted, or power comes up (R106). -/
  | hardwareReset
  /-- RESETN is released with these levels on the straps (R195). -/
  | resetRelease (address : Addr) (fast : Bool)
  /-- A sampled rise of REQ (R71, R72). -/
  | reqRise (line : LineNo) (handOn : Timing)
  /-- A sampled fall of REQ (R71, R75). -/
  | reqFall (line : LineNo) (handOn : Timing)
  /-- A start bit on an idle bus (R84). -/
  | roundStart
  /-- The end of a round taken without a void (R96). -/
  | roundTaken (hearing : Hearing) (effects : Timing)
  /-- The end of a voided round: whether this station won contention and carried, and the reception fault it found as a
  listener, if any (R93, R98). -/
  | roundVoided (won : Bool) (fault : Option ReceptionFault)
  /-- A station that does not vote found a reception fault in a round that was not voided (R95). -/
  | roundMissed (fault : ReceptionFault)
  /-- CBD or CBV has been dominant for the stuck limit (R103). -/
  | busStuck
  /-- Both lines recessive for the idle gap in bus-stuck state (R105). -/
  | busRecovered
  /-- The listen window expires (R128). -/
  | listenWindowExpiry
  /-- The answer limit expires (R143). -/
  | answerLimitExpiry
  /-- The backoff wait ends (R145). -/
  | backoffEnd
  /-- The snapshot limit expires (R159). -/
  | snapshotLimitExpiry
  /-- The beacon timer expires (R139). -/
  | beaconTimerExpiry
  /-- A member's absence timer reaches the absence limit (R136). -/
  | absenceTimerExpiry (member : Addr)
  /-- The lease timer of a slot expires (R58). -/
  | leaseExpiry (client : Client)
  /-- The yield timer of a slot expires (R60). -/
  | yieldExpiry (client : Client)
  /-- The retry timer of a line slot expires (R62). -/
  | retryExpiry (line : LineNo)
  /-- Room appears in the Outbox and it serves the owed notices (R112). -/
  | owedNoticePlaced
  /-- A sampled edge of the line is handed on to the Local Claim Unit (R71). -/
  | edgeHandedOn (line : LineNo)
  /-- The effects of a delivered notice are made (R97). -/
  | noticeEffectsMade
deriving DecidableEq, Repr

end Sys2Proof
end

