-- ==== Sys2Proof/Decode.lean ====
section
/-! DEFINITION. Layouts of 11_formats.md: the cyclic check, the carriage of a notice (encoder, and a listener's reception with
the faults of R92), and the Card Port frame (R174, R175). No row of spec/opcode_table.json gives bits, so `decodeTableWord`
spells no command. -/

namespace Sys2Proof

/-! ### Bytes, nibbles and words (11_formats.md, opening: high byte first) -/

/-- High nibble and low nibble of one byte: hi × 16 + lo. -/
def nibbles (hi lo : Fin 16) : Byte := BitVec.ofNat 8 (hi.val * 16 + lo.val)

/-- Bits 7..4 of a byte. -/
def hiNibble (b : Byte) : Fin 16 := ⟨b.toNat / 16, by have := b.isLt; omega⟩

/-- Bits 3..0 of a byte. -/
def loNibble (b : Byte) : Fin 16 := ⟨b.toNat % 16, by omega⟩

/-- High byte of a word. -/
def hiByte (w : Word) : Byte := w.extractLsb' 8 8

/-- Low byte of a word. -/
def loByte (w : Word) : Byte := w.extractLsb' 0 8

/-- A word from its high and low byte. -/
def wordOf (hi lo : Byte) : Word := hi ++ lo

/-- A word as it is sent and stored, high byte first. -/
def wordBytes (w : Word) : List Byte := [hiByte w, loByte w]

/-! ### The cyclic check (R162, R193) -/

/-- One bit fed to the check. -/
def checkBit (crc : Word) (bit : Bool) : Word :=
  if (crc.msb != bit) then (crc <<< 1) ^^^ Config.generator else crc <<< 1

/-- The eight bits of a byte, most significant first. -/
def bitsOf (b : Byte) : List Bool :=
  [b.getLsbD 7, b.getLsbD 6, b.getLsbD 5, b.getLsbD 4, b.getLsbD 3, b.getLsbD 2, b.getLsbD 1, b.getLsbD 0]

/-- A byte from its bits, most significant first. -/
def byteOfBits (b7 b6 b5 b4 b3 b2 b1 b0 : Bool) : Byte :=
  BitVec.ofNat 8 (b7.toNat * 128 + b6.toNat * 64 + b5.toNat * 32 + b4.toNat * 16 + b3.toNat * 8 + b2.toNat * 4 + b1.toNat * 2 +
    b0.toNat)

/-- One byte fed to the check, most significant bit first. -/
def checkByte (crc : Word) (b : Byte) : Word := (bitsOf b).foldl checkBit crc

/-- The 16-bit cyclic check with generator x^16+x^12+x^5+1, initial value all ones, no final inversion (R162). -/
def cyclicCheck (bytes : List Byte) : Word := bytes.foldl checkByte Config.checkInit

/-! ### Kinds, tiers and classes (R86, 11.2) -/

/-- Kind code (11.2). -/
def Body.code : Body → Fin 16
  | .found _ => 0
  | .join _ => 1
  | .admitJoiner _ _ => 2
  | .refuse _ _ => 3
  | .snapMembers _ => 4
  | .snapClaim _ _ _ _ _ _ _ _ => 5
  | .snapEnd _ _ => 6
  | .claim _ _ _ => 7
  | .withdraw _ => 8
  | .release _ _ => 9
  | .leave _ => 10
  | .evict _ => 11
  | .beacon _ _ _ => 12

/-- Tier of a kind code (table of R86); none for a code that names no kind (R193). -/
def tierOfCode (code : Fin 16) : Option Nat :=
  match code.val with
  | 8 | 9 | 10 | 11 => some 3
  | 2 | 3 | 4 | 5 | 6 | 12 => some 2
  | 7 => some 1
  | 0 | 1 => some 0
  | _ => none

/-- Tier of a notice (R86). -/
def Body.tier : Body → Nat
  | .release _ _ | .withdraw _ | .leave _ | .evict _ => 3
  | .admitJoiner _ _ | .refuse _ _ | .snapMembers _ | .snapClaim _ _ _ _ _ _ _ _ | .snapEnd _ _ | .beacon _ _ _ => 2
  | .claim _ _ _ => 1
  | .found _ | .join _ => 0

/-- Class of a notice: a CLAIM's requested class, 0 for every other kind (R86). -/
def Body.cls : Body → Class
  | .claim _ c _ => c
  | .found _ | .join _ | .admitJoiner _ _ | .refuse _ _ | .snapMembers _ | .snapClaim _ _ _ _ _ _ _ _ | .snapEnd _ _
  | .withdraw _ | .release _ _ | .leave _ | .evict _ | .beacon _ _ _ => 0

/-- A claim notice's client (R110). -/
def claimClient : Body → Option Client
  | .claim c _ _ => some c
  | .withdraw c => some c
  | .release c _ => some c
  | .found _ | .join _ | .admitJoiner _ _ | .refuse _ _ | .snapMembers _ | .snapClaim _ _ _ _ _ _ _ _ | .snapEnd _ _ | .leave _
  | .evict _ | .beacon _ _ _ => none

/-- A LEAVE. -/
def Body.isLeave : Body → Bool
  | .leave _ => true
  | _ => false

/-- A BEACON. -/
def Body.isBeacon : Body → Bool
  | .beacon _ _ _ => true
  | _ => false

/-- A JOIN. -/
def Body.isJoin : Body → Bool
  | .join _ => true
  | _ => false

/-- A FOUND. -/
def Body.isFound : Body → Bool
  | .found _ => true
  | _ => false

/-- An ADMIT. -/
def Body.isAdmit : Body → Bool
  | .admitJoiner _ _ => true
  | _ => false

/-- An EVICT of t. -/
def Body.isEvictOf (t : Addr) : Body → Bool
  | .evict e => decide (e = t)
  | _ => false

/-- The three snapshot kinds. -/
def Body.isSnap : Body → Bool
  | .snapMembers _ | .snapClaim _ _ _ _ _ _ _ _ | .snapEnd _ _ => true
  | _ => false

/-- Body length in bytes of a kind code (11.2). -/
def bodyLength (code : Fin 16) : Nat :=
  match code.val with
  | 0 | 1 => 2
  | 2 | 6 | 7 => 3
  | 4 => 16
  | 5 => 6
  | 12 => 5
  | 3 | 8 | 9 | 10 | 11 => 1
  | _ => 0

/-! ### Carriage encoder (11.1, 11.2, R193) -/

/-- The class byte of a pool record: requested × 64 + effective × 16 + passed count (R162). -/
def classByte (requested effective : Class) (passed : Fin 16) : Byte :=
  BitVec.ofNat 8 (requested.val * 64 + effective.val * 16 + passed.val)

/-- The body bytes of a notice (11.2); unused bits are sent as 0. -/
def Body.bytes : Body → List Byte
  | .found k => wordBytes k
  | .join k => wordBytes k
  | .admitJoiner j n => nibbles j 0 :: wordBytes n
  | .refuse j r => [nibbles j r]
  | .snapMembers v => v.toList
  | .snapClaim p st c m rq ef ps sd => [p, nibbles st c] ++ wordBytes m ++ [classByte rq ef ps, sd]
  | .snapEnd k n => wordBytes k ++ [n]
  | .claim c k m => nibbles c ⟨k.val, by omega⟩ :: wordBytes m
  | .withdraw c => [nibbles c 0]
  | .release c r => [nibbles c r]
  | .leave r => [r]
  | .evict t => [nibbles t 0]
  | .beacon k n s => wordBytes k ++ wordBytes n ++ [if s then 1#8 else 0#8]

/-- Header and body of a notice in carriage order. -/
def Notice.content (n : Notice) : List Byte :=
  wordBytes n.tag ++ [nibbles n.sender n.body.code] ++ n.body.bytes

/-- The whole carriage: header, body and the two check bytes (R193). -/
def Notice.carriage (n : Notice) : List Byte := n.content ++ wordBytes (cyclicCheck n.content)

/-- The bit times of one carriage byte as levels, true for dominant: a released frame bit, a dominant frame bit, then the data
bits, a 0 driven dominant (R193). -/
def byteLevels (b : Byte) : List Bool := false :: true :: (bitsOf b).map (fun x => !x)

/-- The levels of a whole carriage on CBD as its carrier drives it (R193). -/
def Notice.levels (n : Notice) : List Bool := n.carriage.flatMap byteLevels

/-- Round length in bit times: start bit, 8 contention bits, ten bit times a carriage byte, vote window of 2 (11.2). -/
def roundBits (n : Notice) : Nat := 1 + 8 + 10 * n.carriage.length + 2

/-! ### Reception by a listener (R92, R193, R194) -/

/-- The data bytes in the levels a listener samples on CBD after contention: ten bit times a byte, of which the two frame bits are
sampled and not used; a dominant data bit (true) is a 0 (R193). -/
def bytesOfLevels : List Bool → List Byte
  | _ :: _ :: l7 :: l6 :: l5 :: l4 :: l3 :: l2 :: l1 :: l0 :: rest =>
    byteOfBits (!l7) (!l6) (!l5) (!l4) (!l3) (!l2) (!l1) (!l0) :: bytesOfLevels rest
  | _ => []

/-- The carrier's read-back of what it drives, frame bits and all: a bit it released and sampled dominant is a mismatch (R91, R193). -/
def readBackMismatch (driven sampled : List Bool) : Bool := (driven.zip sampled).any fun x => !x.1 && x.2

/-- The body a kind code and its body bytes stand for; unused bits are ignored (R194): a CLAIM's class is the low two bits of its
nibble (log 24), and of a BEACON's sync byte only bit 0 is read. None where the bytes are not the kind's length. -/
def decodeBody (code : Fin 16) (bytes : List Byte) : Option Body :=
  match code.val, bytes with
  | 0, [a, b] => some (.found (wordOf a b))
  | 1, [a, b] => some (.join (wordOf a b))
  | 2, [j, a, b] => some (.admitJoiner (hiNibble j) (wordOf a b))
  | 3, [j] => some (.refuse (hiNibble j) (loNibble j))
  | 4, [a, b, c, d, e, f, g, h, i, j, k, l, m, n, o, p] =>
    some (.snapMembers #v[a, b, c, d, e, f, g, h, i, j, k, l, m, n, o, p])
  | 5, [p, sc, a, b, k, sd] =>
    some (.snapClaim p (hiNibble sc) (loNibble sc) (wordOf a b) ⟨k.toNat / 64, by have := k.isLt; omega⟩
      ⟨k.toNat / 16 % 4, by omega⟩ (loNibble k) sd)
  | 6, [a, b, n] => some (.snapEnd (wordOf a b) n)
  | 7, [ck, a, b] => some (.claim (hiNibble ck) ⟨(loNibble ck).val % 4, by omega⟩ (wordOf a b))
  | 8, [c] => some (.withdraw (hiNibble c))
  | 9, [c] => some (.release (hiNibble c) (loNibble c))
  | 10, [r] => some (.leave r)
  | 11, [t] => some (.evict (hiNibble t))
  | 12, [a, b, c, d, s] => some (.beacon (wordOf a b) (wordOf c d) (s.getLsbD 0))
  | _, _ => none

/-- What a listener receives: a sound notice, or the first reception fault it finds. -/
inductive Reception where
  | notice (n : Notice)
  | fault (f : ReceptionFault)
deriving DecidableEq, Repr

/-- Tier field of a contention number (11.1). -/
def numberTier (w : Byte) : Nat := w.toNat / 64

/-- Class field of a contention number (11.1). -/
def numberClass (w : Byte) : Nat := w.toNat / 16 % 4

/-- The class test of R92, once the header (and, for a CLAIM, the class byte) has been received; a CLAIM's class is the low two bits
of its nibble (R194, log 24). -/
def classFault (winning : Byte) (code : Fin 16) (rest : List Byte) : Bool :=
  if code.val = 7 then
    match rest with
    | b :: _ => decide ((loNibble b).val % 4 ≠ numberClass winning)
    | [] => false
  else decide (numberClass winning ≠ 0)

/-- A listener's reception of a carriage after contention was won with `winning` (R92): the faults in the order in which they
are found. A listener knows the last check byte from the kind, so bytes beyond it are not received. -/
def receive (winning : Byte) (bytes : List Byte) : Reception :=
  match bytes with
  | t1 :: t0 :: h :: rest =>
    match tierOfCode (loNibble h) with
    | none => .fault .unknownKind
    | some tier =>
      if tier ≠ numberTier winning then .fault .tierMismatch
      else if classFault winning (loNibble h) rest then .fault .classMismatch
      else
        match rest.drop (bodyLength (loNibble h)) with
        | k1 :: k0 :: _ =>
          if wordOf k1 k0 ≠ cyclicCheck (t1 :: t0 :: h :: rest.take (bodyLength (loNibble h))) then .fault .checkMismatch
          else
            match decodeBody (loNibble h) (rest.take (bodyLength (loNibble h))) with
            | some body => .notice ⟨wordOf t1 t0, hiNibble h, body⟩
            | none => .fault .stopped
        | _ => .fault .stopped
  | _ => .fault .stopped

/-- The bit times after which CBD has been recessive for the idle gap, of levels sampled when it had been recessive for `run` bit
times before them (R84, R92). -/
def stoppedAt (run : Nat) : List Bool → Option Nat
  | [] => none
  | true :: ls => (stoppedAt 0 ls).map (· + 1)
  | false :: ls => if Config.idleGap ≤ run + 1 then some 1 else (stoppedAt (run + 1) ls).map (· + 1)

/-- The recessive bit times at the end of the contention that the number won: its trailing zeros, up to all eight (R88). -/
def recessiveEnd (winning : Byte) : Nat := ((bitsOf winning).reverse.takeWhile (!·)).length

/-- The bit time, counted from the first of the carriage, that completes the idle gap, so that the carriage has stopped (R92). -/
def carriageStop (winning : Byte) (levels : List Bool) : Option Nat := stoppedAt (recessiveEnd winning) levels

/-- The levels a listener receives from: those up to the stop of the carriage (R92). -/
def beforeStop (winning : Byte) (levels : List Bool) : List Bool :=
  match carriageStop winning levels with
  | some k => levels.take k
  | none => levels

/-- A listener's reception of the levels it samples on CBD after contention (R92, R193): a carriage that stops before its last check
bit is a stopped one, unless another fault was found first. -/
def receiveLevels (winning : Byte) (levels : List Bool) : Reception :=
  receive winning (bytesOfLevels (beforeStop winning levels))

/-- The kind code in the header of a carriage (11.2). -/
def kindOf (bytes : List Byte) : Fin 16 := loNibble (bytes.getD 2 0#8)

/-- The bit times of the carriage a listener has sampled when its reception ends, with a notice or with the fault found (R92, R193):
none where it has not ended with these levels. -/
def receptionEnd (winning : Byte) (levels : List Bool) : Option Nat :=
  let code := kindOf (bytesOfLevels levels)
  match receiveLevels winning levels with
  | .fault .unknownKind | .fault .tierMismatch => some 30
  | .fault .classMismatch => some (if code.val = 7 then 40 else 30)
  | .fault .checkMismatch | .notice _ => some (10 * (5 + bodyLength code))
  | .fault .stopped => carriageStop winning levels

/-- The contention number: tier, class and rotation rank (R86). -/
def contentionNumber (tier : Nat) (cls : Class) (rank : Fin 16) : Byte :=
  BitVec.ofNat 8 (tier * 64 + cls.val * 16 + rank.val)

/-- Rotation rank: 15 minus ((address − pointer) mod 16) (R86). -/
def rotationRank (address pointer : Addr) : Fin 16 := 15 - (address - pointer)

/-! ### The Card Port frame (R174, R175, 11.3) -/

/-- Whether a parameter length is allowed for an identifier (tables of R175 and 11.3); false for an identifier that names no
command. -/
def lengthAllowed (ident : Byte) (len : Nat) : Bool :=
  match ident.toNat with
  | 0x01 | 0x02 => decide (2 ≤ len ∧ len ≤ 40)
  | 0x03 => decide (len = 3)
  | 0x20 => decide (len = 4)
  | 0x21 | 0x22 | 0x23 | 0x32 | 0x33 | 0x34 => decide (len = 1)
  | 0x10 | 0x11 | 0x12 | 0x13 | 0x30 | 0x31 => decide (len = 0)
  | _ => false

/-- The command a frame that reached its decision point stands for: BAD_FRAME where the identifier names no command or the
length is not allowed for it (R175). -/
def decodeFrame (ident : Byte) (params : List Byte) : Instr :=
  if lengthAllowed ident params.length then
    match ident.toNat, params with
    | 0x01, o :: ds => .loadProfile o ds
    | 0x02, o :: ds => .loadLocal o ds
    | 0x03, [s, o, n] => .readConfig s o n
    | 0x10, [] => .start
    | 0x11, [] => .stop
    | 0x12, [] => .resync
    | 0x13, [] => .clearFault
    | 0x20, [c, a, b, k] => .claim c (wordOf a b) k
    | 0x21, [c] => .cancel c
    | 0x22, [c] => .release c
    | 0x23, [c] => .renew c
    | 0x30, [] => .readEvent
    | 0x31, [] => .readStatus
    | 0x32, [c] => .readSlot c
    | 0x33, [r] => .readResource r
    | 0x34, [a] => .readMember a
    | _, _ => .badFrame ident params
  else .badFrame ident params

/-- The identifier and parameter bytes of a command that is a frame with a decision point; none for the other commands. -/
def encodeFrame : Instr → Option (Byte × List Byte)
  | .loadProfile o ds => some (0x01#8, o :: ds)
  | .loadLocal o ds => some (0x02#8, o :: ds)
  | .readConfig s o n => some (0x03#8, [s, o, n])
  | .start => some (0x10#8, [])
  | .stop => some (0x11#8, [])
  | .resync => some (0x12#8, [])
  | .clearFault => some (0x13#8, [])
  | .claim c m k => some (0x20#8, c :: wordBytes m ++ [k])
  | .cancel c => some (0x21#8, [c])
  | .release c => some (0x22#8, [c])
  | .renew c => some (0x23#8, [c])
  | .readEvent => some (0x30#8, [])
  | .readStatus => some (0x31#8, [])
  | .readSlot c => some (0x32#8, [c])
  | .readResource r => some (0x33#8, [r])
  | .readMember a => some (0x34#8, [a])
  | .badFrame i ps => some (i, ps)
  | .frameAborted _ | .eventRemoval | .hardwareReset | .resetRelease _ _ | .reqRise _ _ | .reqFall _ _ | .roundStart
  | .roundTaken _ _ | .roundVoided _ _ | .roundMissed _ | .busStuck | .busRecovered | .listenWindowExpiry
  | .answerLimitExpiry | .backoffEnd | .snapshotLimitExpiry | .beaconTimerExpiry | .absenceTimerExpiry _ | .leaseExpiry _
  | .yieldExpiry _ | .retryExpiry _ | .owedNoticePlaced | .edgeHandedOn _ | .noticeEffectsMade => none

/-- Whether the bytes of a frame reach its decision point: identifier, length byte L and L parameter bytes (R174). -/
def reachesDecision : List Byte → Bool
  | _ :: len :: ps => decide (len.toNat ≤ ps.length)
  | _ => false

/-- The whole bytes in the bits clocked in on SDI since SSN fell, most significant bit first; the bits of a byte that is not whole yet
are left out (R174). -/
def bytesOfBits : List Bool → List Byte
  | b7 :: b6 :: b5 :: b4 :: b3 :: b2 :: b1 :: b0 :: rest => byteOfBits b7 b6 b5 b4 b3 b2 b1 b0 :: bytesOfBits rest
  | _ => []

/-- The command of a frame whose SDI bytes are these when SSN rises: decided at its decision point, the bytes after it ignored, or
aborted before it (R174, R175). -/
def frameCommand (bytes : List Byte) : Instr :=
  match bytes with
  | ident :: len :: ps =>
    if len.toNat ≤ ps.length then decodeFrame ident (ps.take len.toNat) else .frameAborted bytes
  | _ => .frameAborted bytes

/-- The command a word of spec/opcode_table.json spells: none, for no row of the table gives bits. -/
def decodeTableWord (_nbits _w : Nat) : Option Instr := none

end Sys2Proof
end

