-- ==== Sys2Proof/Machine/State.lean ====
section
/-! DEFINITION. Everything the spec gives one station, block by block (00_scope.md 2.2), as plain data; the reset state; the
reasons a step can stop. -/

namespace Sys2Proof.Machine

/-! ### Names -/

/-- Station states (R119). -/
inductive StationState where
  | offline | listening | founding | seeking | backoff | loading | announcing | active | leaving | faulted
deriving DecidableEq, Repr

/-- Causes of STATION_STATE (R120, R183). -/
inductive Cause where
  | start | listenEnd | sessionHeard | founded | stop | resync | abandon | left | evicted | refusedBusy | refusedProfile
  | refusedAddress | backoffEnd | admitted | snapshotDone | sponsorLost | synced | sessionLost | sessionSilent | voidLimit
  | receiveLimit | clearFault
deriving DecidableEq, Repr

/-- Member record states (R121). -/
inductive MemberState where
  | absent | joining | syncing | present
deriving DecidableEq, Repr

/-- Standing of a claim record (R5). -/
inductive Standing where
  | waiting | holding
deriving DecidableEq, Repr

/-- Local claim slot states (R44). -/
inductive SlotState where
  | free | pending | queued | waiting | granted | yielding | releasing | withdrawing | retry
deriving DecidableEq, Repr

/-- Kind of a slot's notice in the Outbox or owed (R42). -/
inductive SlotNotice where
  | none | claim | withdraw | release
deriving DecidableEq, Repr

/-- Release reason of a slot (R42). -/
inductive ReleaseReason where
  | normal | forced | leave
deriving DecidableEq, Repr

/-- CLAIM_ENDED reasons, and none for a slot that has ended no claim (R42, R183). -/
inductive EndReason where
  | none | released | forced | withdrawn | refusedPoolFull | refusedDuplicate | refusedNotMember | evicted | left
  | sessionLost | fault | resync
deriving DecidableEq, Repr

/-- Lease mode of a resource or claim (R2). -/
inductive LeaseMode where
  | fixed | renewable
deriving DecidableEq, Repr

/-- DIVERGENCE actions (R166). -/
inductive DivergenceAction where
  | recorded | cleared | resync
deriving DecidableEq, Repr

/-- Where a LEAVING station goes when its LEAVE is taken (R132). -/
inductive LeaveDest where
  | offline | seeking
deriving DecidableEq, Repr

/-- A REQ edge (R71). -/
inductive Edge where
  | rise | fall
deriving DecidableEq, Repr

/-- What snapshot building awaits (R154, R155). -/
inductive Building where
  | idle | members | claims
deriving DecidableEq, Repr

/-- Statuses of the Card Port (R176). -/
inductive Status where
  | ok | wrongState | badParameter | locked | badConfig | slotBusy | notGranted | notWaiting | denied | tooLate
  | alreadyReleasing | noEvent | badFrame
deriving DecidableEq, Repr

/-! ### Bus Interface (05, 06) -/

/-- Straps as sampled at the release of RESETN (R195). -/
structure Straps where
  address : Addr
  fast : Bool
deriving DecidableEq, Repr

/-- The block that made a notice (R107). -/
inductive Owner where
  | claimUnit (client : Client)
  | session
deriving DecidableEq, Repr

/-- An Outbox entry (R107). Tier and class are `Body.tier` and `Body.cls`; the fields of a BEACON or ADMIT that are filled at
carriage are left 0 here. -/
structure Entry where
  body : Body
  tag : Word
  owner : Owner
  number : Nat
  voids : Nat
  offered : Bool
  removal : Bool
deriving DecidableEq, Repr

/-- The Outbox: entries in the order of R108, and the next placement number. -/
structure Outbox where
  entries : List Entry
  nextNumber : Nat
deriving DecidableEq, Repr

/-- The round in progress as this station sees it: its contention number where it contends (R84, R86). -/
structure Round where
  number : Option Byte
deriving DecidableEq, Repr

/-- A notice with the mark saying whether this station carried it (R96). -/
structure Heard where
  notice : Notice
  own : Bool
deriving DecidableEq, Repr

/-- The Bus Interface beside its Outbox (R90, R97, R100, R103). -/
structure Bus where
  pointer : Addr
  voidRun : Nat
  stuck : Bool
  round : Option Round
  delivered : Option Heard
deriving DecidableEq, Repr

/-! ### Session Controller (07, 08) -/

/-- A member record and whether its fields agree with its integrity check (R121). -/
structure Member where
  state : MemberState
  sponsor : Option Addr
  sound : Bool
deriving DecidableEq, Repr

/-- The Membership Table (R121). -/
abbrev Table := Vector Member 16

/-- The LEAVE reasons of 11.5. -/
inductive LeaveReason where
  | stop | resync | abandon
deriving DecidableEq, Repr

/-- Station state, Membership Table, session scalars, founding counter, and of a LEAVING
station the leave destination, the sync flag of the state it left and the reason of the LEAVE it queued (R119 to R124, R132, R135,
R194). -/
structure Session where
  station : StationState
  members : Table
  founded : Bool
  tag : Word
  count : Word
  counter : BitVec 12
  leaveDest : Option LeaveDest
  leftSynced : Bool
  leaveReason : Option LeaveReason
deriving DecidableEq, Repr

/-- The Session Controller's timers: elapsed milliseconds while a timer runs, none while it is stopped; and the heard flag. -/
structure Timers where
  listen : Option Nat
  answer : Option Nat
  heard : Bool
  backoff : Option Nat
  snapshot : Option Nat
  beacon : Option Nat
  absence : Vector (Option Nat) 16
deriving DecidableEq, Repr

/-- Local state of a joiner (R154 to R156). -/
structure Joiner where
  sponsor : Option Addr
  building : Building
  catchUp : List Heard
deriving DecidableEq, Repr

/-- An answer-list entry (R147): a JOINER with whether its JOIN's profile check equals this station's, or a CLASH. -/
inductive Answer where
  | joiner (profileEqual : Bool)
  | clash
deriving DecidableEq, Repr

/-- The next-item mark of a serving sponsor (R151, R152). -/
inductive NextItem where
  | members
  | claim (position : Nat)
  | last
  | done
deriving DecidableEq, Repr

/-- A claim record and whether its fields agree with its integrity check (R5, R6). -/
structure PoolRecord where
  station : Addr
  client : Client
  set : Mask
  requested : Class
  effective : Class
  passed : Fin 16
  standing : Standing
  sound : Bool
deriving DecidableEq, Repr

/-- The serving state with its snapshot copy (R151). -/
structure Serving where
  joiner : Addr
  members : Table
  records : List PoolRecord
  check : Word
  next : NextItem
deriving DecidableEq, Repr

/-- Local state of a sponsor, and the Session Controller's owed notices (R111, R147, R151). -/
structure Sponsor where
  answers : Vector (Option Answer) 16
  serving : Option Serving
  owedAnswer : Option Body
  owedBeacon : Bool
  owedEvicts : Vector Bool 16
deriving DecidableEq, Repr

/-! ### Table Engine (01, 02) -/

/-- The Claim Pool and the frozen flag (R4, R40, R41). -/
structure Pool where
  records : List PoolRecord
  frozen : Bool
deriving DecidableEq, Repr

/-! ### Local Claim Unit and Client Line Unit (03, 04) -/

/-- Lease parameters of a claim (R45). -/
structure LeaseParams where
  mode : LeaseMode
  length : Nat
  limit : Nat
  window : Nat
deriving DecidableEq, Repr

/-- A local claim slot (R42). Its source is fixed by the client number. The three remaining times are held in milliseconds. -/
structure Slot where
  state : SlotState
  set : Mask
  cls : Class
  params : LeaseParams
  leaseMs : Nat
  yieldMs : Nat
  renewals : Nat
  outboxEntry : SlotNotice
  owed : SlotNotice
  reason : ReleaseReason
  closing : Bool
  removalPending : Bool
  lastEnd : EndReason
  retryMs : Nat
deriving DecidableEq, Repr

/-- Line state (R70), and the edges sampled but not yet handed on, oldest first (R71). -/
structure Line where
  req : Bool
  gnt : Bool
  rearm : Bool
  edges : List Edge
deriving DecidableEq, Repr

/-! ### Card Port (10) -/

/-- Kind of an event with its reason (R183). -/
inductive EventKind where
  | claimGranted
  | claimYield
  | claimEnded (reason : EndReason)
  | stationState (state : StationState) (cause : Cause)
  | memberState (state : MemberState)
  | divergence (action : DivergenceAction)
  | busStuck
  | busRecovered
  | addressClash
  | eventsLost (lost : Nat)
deriving DecidableEq, Repr

/-- An Event Queue entry: kind with reason, address or client, session count at posting (R183). -/
structure Event where
  kind : EventKind
  who : Fin 16
  count : Word
deriving DecidableEq, Repr

/-- The status and response data of a frame (R174, R176). -/
structure Response where
  status : Status
  data : List Byte
deriving DecidableEq, Repr

/-- The Card Port: configuration image and lock (R177), Event Queue and ATTN (R183, R186), the last frame's answer, and
whether a READ_EVENT response is being shifted out (R185). -/
structure Port where
  system : Vector Byte 53
  loc : Vector Byte 25
  locked : Bool
  events : List Event
  attn : Bool
  response : Option Response
  reading : Bool
deriving DecidableEq, Repr

/-! ### Agreement Checker (09) -/

/-- Checks, suspect and resync-pending flag (R163, R164, R166, R167). -/
structure Checker where
  tableCheck : Word
  profileCheck : Word
  suspect : Option Addr
  resyncPending : Bool
deriving DecidableEq, Repr

/-- One station, and the commands that wait for it, first in, first out. -/
structure State where
  resetHeld : Bool
  straps : Straps
  outbox : Outbox
  bus : Bus
  session : Session
  timers : Timers
  joiner : Joiner
  sponsor : Sponsor
  pool : Pool
  slots : Vector Slot 16
  lines : Vector Line 8
  port : Port
  checker : Checker
  pending : List Instr
deriving DecidableEq, Repr

/-- Why a step stops with a fault. No meaning raises one: the spec names no condition in which the part stops (its FAULTED
is a station state, R101), so the type is empty and nothing is lost by it (safe). -/
inductive Fault
deriving DecidableEq, Repr

/-- Why a step is refused. -/
inductive Refusal where
  /-- Raised by an arm of `exec` whose command has no meaning yet; safe, since the model stops. No arm raises it now. -/
  | notModelled (mnemonic : String)
deriving DecidableEq, Repr

/-! ### Values after hardware reset -/

/-- An ABSENT member record (R121). -/
def Member.absent : Member := ⟨.absent, none, true⟩

/-- The all-ABSENT table. -/
def Table.empty : Table := Vector.replicate 16 Member.absent

/-- Cleared lease parameters (R43). -/
def LeaseParams.cleared : LeaseParams := ⟨.fixed, 0, 0, 0⟩

/-- A FREE slot that keeps its last end reason (R43). -/
def Slot.freeWith (last : EndReason) : Slot :=
  { state := .free, set := 0#16, cls := 0, params := .cleared, leaseMs := 0, yieldMs := 0, renewals := 0, outboxEntry := .none,
    owed := .none, reason := .normal, closing := false, removalPending := false, lastEnd := last, retryMs := 0 }

/-- A line after hardware reset (R70). -/
def Line.reset : Line := ⟨false, false, false, []⟩

/-- The check of the all-ABSENT table and an empty pool: sixteen zero bytes (R162, R173). -/
def emptyCheck : Word := cyclicCheck (List.replicate 16 0#8)

/-- Session timers all stopped (R142, R161). -/
def Timers.stopped : Timers :=
  ⟨none, none, false, none, none, none, Vector.replicate 16 none⟩

/-- No joiner's state (R161). -/
def Joiner.none : Joiner := ⟨.none, .idle, []⟩

/-- No answers, not serving, nothing owed (R161, R117). -/
def Sponsor.none : Sponsor := ⟨Vector.replicate 16 .none, .none, .none, false, Vector.replicate 16 false⟩

/-- The empty Outbox (R106). -/
def Outbox.empty : Outbox := ⟨[], 1⟩

/-- The part with RESETN asserted, every block at its hardware-reset values (R41, R43, R70, R106, R142, R161, R173, R192), no
command waiting. The straps are not sampled yet (log 4). -/
def State.reset : State :=
  { resetHeld := true
    straps := ⟨0, false⟩
    outbox := .empty
    bus := ⟨0, 0, false, none, none⟩
    session := ⟨.offline, .empty, false, 0#16, 0#16, 0#12, none, false, none⟩
    timers := .stopped
    joiner := .none
    sponsor := .none
    pool := ⟨[], false⟩
    slots := Vector.replicate 16 (.freeWith .none)
    lines := Vector.replicate 8 .reset
    port := ⟨Vector.replicate 53 0#8, Vector.replicate 25 0#8, false, [], false, none, false⟩
    checker := ⟨emptyCheck, 0#16, none, false⟩
    pending := [] }

end Sys2Proof.Machine
end

