-- ==== Sys2Proof/Machine/Operands.lean ====
section
/-! DEFINITION. Operand forms: resource sets, the fields of the configuration image (R177, 11.4), lease parameters (R45), image
validation (R180), writing and reading image bytes (R178, R179), and the codes of 11.5. -/

namespace Sys2Proof.Machine

/-! ### Resource sets -/

/-- The resources of a mask, in ascending order. -/
def resources (m : Mask) : List (Fin 16) := sixteen.filter fun r => m.getLsbD r.val

/-- Two sets share a resource. -/
def shares (a b : Mask) : Bool := (a &&& b) != 0#16

/-- A set of 1 to 4 resources, every one below N (R3, R11, R47, R180). -/
def setValid (n : Nat) (m : Mask) : Bool :=
  decide (1 ≤ (resources m).length) && decide ((resources m).length ≤ 4) && (resources m).all fun r => decide (r.val < n)

/-! ### Clients and lines -/

/-- The client of line n. -/
def clientOf (n : LineNo) : Client := ⟨n.val, by omega⟩

/-- The line of a line client; none for a software client (R42). -/
def lineOf (c : Client) : Option LineNo := if h : c.val < 8 then some ⟨c.val, h⟩ else none

/-- A client byte that names a software client 8..15 (R47, R182). -/
def softwareClient (b : Byte) : Option Client :=
  if h : 8 ≤ b.toNat ∧ b.toNat < 16 then some ⟨b.toNat, h.2⟩ else none

/-- A byte that names a client or an address, 0..15 (R189, R191). -/
def sixteenOf (b : Byte) : Option (Fin 16) := if h : b.toNat < 16 then some ⟨b.toNat, h⟩ else none

/-! ### Fields of the configuration image (11.4) -/

/-- Resource count N. -/
def Port.n (p : Port) : Nat := (p.system[0]).toNat

/-- Lease mode of resource r. -/
def Port.leaseMode (p : Port) (r : Fin 16) : LeaseMode :=
  if (p.system[1 + 3 * r.val]'(by omega)).getLsbD 0 then .renewable else .fixed

/-- Lease length of resource r, in lease units. -/
def Port.leaseLength (p : Port) (r : Fin 16) : Nat := (p.system[2 + 3 * r.val]'(by omega)).toNat

/-- Renewal limit of resource r. -/
def Port.renewalLimit (p : Port) (r : Fin 16) : Nat := (hiNibble (p.system[3 + 3 * r.val]'(by omega))).val

/-- Yield window of resource r; a stored 0 acts as 1 (R2, R45). -/
def Port.yieldWindow (p : Port) (r : Fin 16) : Nat :=
  let y := (loNibble (p.system[3 + 3 * r.val]'(by omega))).val
  if y = 0 then 1 else y

/-- Promotion threshold T. -/
def Port.threshold (p : Port) : Nat := (p.system[49]).toNat

/-- Lease unit in milliseconds. -/
def Port.leaseUnit (p : Port) : Nat := (p.system[50]).toNat

/-- Beacon interval in milliseconds: the stored value × 8 ms. -/
def Port.beaconInterval (p : Port) : Nat := (p.system[51]).toNat * Config.beaconUnitMs

/-- Absence limit in beacon intervals. -/
def Port.absenceLimit (p : Port) : Nat := (p.system[52]).toNat

/-- Line n is enabled (R69). -/
def Port.lineEnabled (p : Port) (n : LineNo) : Bool := (p.loc[3 * n.val]'(by omega)).getLsbD 7

/-- Class of line n's binding (R69). -/
def Port.lineClass (p : Port) (n : LineNo) : Class :=
  ⟨(p.loc[3 * n.val]'(by omega)).toNat % 4, by omega⟩

/-- Resource set of line n's binding (R69). -/
def Port.lineSet (p : Port) (n : LineNo) : Mask :=
  wordOf (p.loc[3 * n.val + 1]'(by omega)) (p.loc[3 * n.val + 2]'(by omega))

/-- Auto-rejoin flag. -/
def Port.autoRejoin (p : Port) : Bool := (p.loc[24]).getLsbD 0

/-- The listen window's length: absence limit plus one, in beacon intervals (R126). -/
def Port.listenLimit (p : Port) : Nat := (p.absenceLimit + 1) * p.beaconInterval

/-- The length of the absence limit, the answer limit and the snapshot limit in milliseconds (R136, R143, R154). -/
def Port.absenceMs (p : Port) : Nat := p.absenceLimit * p.beaconInterval

/-- The backoff wait of a station: own address plus one, in beacon intervals (R145). -/
def Port.backoffLimit (p : Port) (own : Addr) : Nat := (own.val + 1) * p.beaconInterval

/-- The profile check: the cyclic check over the 53 system bytes (R164). -/
def Port.profileCheck (p : Port) : Word := cyclicCheck p.system.toList

/-! ### Lease parameters (R45) -/

/-- The parameters of one resource alone. -/
def Port.resourceParams (p : Port) (r : Fin 16) : LeaseParams :=
  ⟨p.leaseMode r, p.leaseLength r, p.renewalLimit r, p.yieldWindow r⟩

/-- Two resources combined in a bundle: FIXED if either is, and the smaller of each length, limit and window (R45). -/
def LeaseParams.combine (a b : LeaseParams) : LeaseParams :=
  ⟨if a.mode = .fixed ∨ b.mode = .fixed then .fixed else .renewable, min a.length b.length, min a.limit b.limit,
    min a.window b.window⟩

/-- The lease parameters of a resource set (R45). -/
def Port.leaseParams (p : Port) (m : Mask) : LeaseParams :=
  match resources m with
  | [] => .cleared
  | r :: rs => (rs.map p.resourceParams).foldl LeaseParams.combine (p.resourceParams r)

/-! ### Image validation (R180) -/

/-- Section and offset of the first check of R180 that fails; none where the image is valid. -/
def Port.firstFailure (p : Port) : Option (Byte × Byte) :=
  if ¬ (1 ≤ p.n ∧ p.n ≤ 16) then some (0#8, 0#8)
  else
    match sixteen.find? fun r => decide (r.val < p.n ∧ p.leaseLength r < 1) with
    | some r => some (0#8, BitVec.ofNat 8 (2 + 3 * r.val))
    | none =>
      if 15 < p.threshold then some (0#8, 49#8)
      else if ¬ (1 ≤ p.leaseUnit ∧ p.leaseUnit ≤ 64) then some (0#8, 50#8)
      else if (p.system[51]).toNat < 1 then some (0#8, 51#8)
      else if ¬ (3 ≤ p.absenceLimit ∧ p.absenceLimit ≤ 15) then some (0#8, 52#8)
      else
        match eight.find? fun n => p.lineEnabled n && !setValid p.n (p.lineSet n) with
        | some n => some (1#8, BitVec.ofNat 8 (3 * n.val + 1))
        | none => none

/-! ### Image bytes -/

/-- Write bytes from an offset on, in the order received (R178). -/
def writeBytes {k : Nat} (v : Vector Byte k) (offset : Nat) : List Byte → Vector Byte k
  | [] => v
  | b :: bs => writeBytes (v.setIfInBounds offset b) (offset + 1) bs

/-- `count` bytes from an offset on (R179). -/
def readBytes (bytes : List Byte) (offset count : Nat) : List Byte := (bytes.drop offset).take count

/-! ### Codes (11.3, 11.5) -/

def StationState.code : StationState → Byte
  | .offline => 0 | .listening => 1 | .founding => 2 | .seeking => 3 | .backoff => 4 | .loading => 5 | .announcing => 6
  | .active => 7 | .leaving => 8 | .faulted => 9

def Cause.code : Cause → Byte
  | .start => 1 | .listenEnd => 2 | .sessionHeard => 3 | .founded => 4 | .stop => 5 | .resync => 6 | .abandon => 7
  | .left => 8 | .evicted => 9 | .refusedBusy => 10 | .refusedProfile => 11 | .refusedAddress => 12 | .backoffEnd => 13
  | .admitted => 14 | .snapshotDone => 15 | .sponsorLost => 16 | .synced => 17 | .sessionLost => 18 | .sessionSilent => 19
  | .voidLimit => 20 | .receiveLimit => 21 | .clearFault => 22

def MemberState.code : MemberState → Fin 16
  | .absent => 0 | .joining => 1 | .syncing => 2 | .present => 3

def Standing.code : Standing → Byte
  | .waiting => 0 | .holding => 1

def SlotState.code : SlotState → Byte
  | .free => 0 | .pending => 1 | .queued => 2 | .waiting => 3 | .granted => 4 | .yielding => 5 | .releasing => 6
  | .withdrawing => 7 | .retry => 8

def SlotNotice.code : SlotNotice → Fin 16
  | .none => 0 | .claim => 1 | .withdraw => 2 | .release => 3

def ReleaseReason.code : ReleaseReason → Byte
  | .normal => 0 | .forced => 1 | .leave => 2

def EndReason.code : EndReason → Byte
  | .none => 0 | .released => 1 | .forced => 2 | .withdrawn => 3 | .refusedPoolFull => 4 | .refusedDuplicate => 5
  | .refusedNotMember => 6 | .evicted => 7 | .left => 8 | .sessionLost => 9 | .fault => 10 | .resync => 11

def LeaseMode.code : LeaseMode → Byte
  | .fixed => 0 | .renewable => 1

def DivergenceAction.code : DivergenceAction → Byte
  | .recorded => 1 | .cleared => 2 | .resync => 3

def Status.code : Status → Byte
  | .ok => 0x00 | .wrongState => 0x01 | .badParameter => 0x02 | .locked => 0x03 | .badConfig => 0x04 | .slotBusy => 0x05
  | .notGranted => 0x06 | .notWaiting => 0x07 | .denied => 0x08 | .tooLate => 0x09 | .alreadyReleasing => 0x0A
  | .noEvent => 0x0B | .badFrame => 0x0C

/-- Event kind code (11.5). -/
def EventKind.code : EventKind → Byte
  | .claimGranted => 1 | .claimYield => 2 | .claimEnded _ => 3 | .stationState _ _ => 4 | .memberState _ => 5
  | .divergence _ => 6 | .busStuck => 7 | .busRecovered => 8 | .addressClash => 9 | .eventsLost _ => 10

/-- First reason byte of an event entry (11.5). -/
def EventKind.first : EventKind → Byte
  | .claimEnded r => r.code
  | .stationState st _ => st.code
  | .memberState m => BitVec.ofNat 8 m.code.val
  | .divergence a => a.code
  | .eventsLost k => BitVec.ofNat 8 k
  | .claimGranted | .claimYield | .busStuck | .busRecovered | .addressClash => 0

/-- Second reason byte of an event entry (11.5). -/
def EventKind.second : EventKind → Byte
  | .stationState _ c => c.code
  | .claimEnded _ | .memberState _ | .divergence _ | .eventsLost _ | .claimGranted | .claimYield | .busStuck | .busRecovered
  | .addressClash => 0

/-- An event entry as READ_EVENT returns it, 6 bytes (11.5). -/
def Event.bytes (e : Event) : List Byte :=
  [e.kind.code, BitVec.ofNat 8 e.who.val, e.kind.first, e.kind.second] ++ wordBytes e.count

/-- The REFUSE reasons of 11.5. -/
def refuseBusy : Fin 16 := 1
def refuseProfile : Fin 16 := 2
def refuseAddress : Fin 16 := 3

def LeaveReason.code : LeaveReason → Byte
  | .stop => 0 | .resync => 1 | .abandon => 2

/-- The cause a queued LEAVE gives STATION_STATE (R120, R132). -/
def LeaveReason.cause : LeaveReason → Cause
  | .stop => .stop | .resync => .resync | .abandon => .abandon

/-- The leave destination a queued LEAVE records (R132). -/
def LeaveReason.dest : LeaveReason → LeaveDest
  | .stop => .offline | .resync => .seeking | .abandon => .seeking

/-- The CLAIM_ENDED reason that a LEAVE queued with this reason gives the station's slots (table of R64); none where no event is
posted. -/
def LeaveReason.ends : LeaveReason → Option EndReason
  | .stop => some .left | .resync => some .resync | .abandon => none

end Sys2Proof.Machine
end

