-- ==== Sys2Proof/Machine/TablePool.lean ====
section
/-! DEFINITION. The Claim Pool as a list: key order, grantable records, the grant pass with passed counts and promotion
(R23 to R30), the resource view (R8, R9), and the table check's byte sequence (R162). -/

namespace Sys2Proof.Machine

/-- A WAITING record (R5). -/
def PoolRecord.isWaiting (r : PoolRecord) : Bool := decide (r.standing = .waiting)

/-- A HOLDING record (R5). -/
def PoolRecord.isHolding (r : PoolRecord) : Bool := decide (r.standing = .holding)

/-- The record of a (station, client) pair. -/
def PoolRecord.isOf (station : Addr) (client : Client) (r : PoolRecord) : Bool :=
  decide (r.station = station) && decide (r.client = client)

/-! ### Key order and grantable records -/

/-- The better key: the higher effective class, and of equal classes the earlier position (R23). -/
def betterKey (w : PoolRecord) (j : Nat) (r : PoolRecord) (i : Nat) : Bool :=
  decide (r.effective < w.effective) || (decide (w.effective = r.effective) && decide (j < i))

/-- Some resource of the set has a holder (R25, blocked by holding). -/
def blockedByHolding (recs : List PoolRecord) (set : Mask) : Bool := recs.any fun h => h.isHolding && shares h.set set

/-- Another WAITING record with a better key contains a resource of the record's set (R25, blocked by order). -/
def blockedByOrder (recs : List PoolRecord) (r : PoolRecord) (i : Nat) : Bool :=
  recs.zipIdx.any fun w => w.1.isWaiting && shares w.1.set r.set && betterKey w.1 w.2 r i

/-- A grantable record at position i (R25). -/
def grantable (recs : List PoolRecord) (r : PoolRecord) (i : Nat) : Bool :=
  r.isWaiting && !blockedByHolding recs r.set && !blockedByOrder recs r i

/-- The better of two candidates, the first kept unless the second has the better key. -/
def pickBetter (acc : Option (PoolRecord × Nat)) (r : PoolRecord × Nat) : Option (PoolRecord × Nat) :=
  match acc with
  | none => some r
  | some a => if betterKey r.1 r.2 a.1 a.2 then some r else some a

/-- The grantable record with the best key, and its position (R27). -/
def bestGrantable (recs : List PoolRecord) : Option (PoolRecord × Nat) :=
  (recs.zipIdx.filter fun r => grantable recs r.1 r.2).foldl pickBetter none

/-! ### One grant (R27, R28, R29) -/

/-- A WAITING record that a grant has overtaken: its passed count goes up by one; with promotion off it stops at 15 (R28);
with promotion on, a count that reaches T raises the effective class by one, to a ceiling of 3, and is set to 0 (R29). -/
def overtaken (t : Nat) (w : PoolRecord) : PoolRecord :=
  if t = 0 then { w with passed := Fin.ofNat 16 (min (w.passed.val + 1) 15) }
  else if t ≤ w.passed.val + 1 then { w with passed := 0, effective := Fin.ofNat 4 (min (w.effective.val + 1) 3) }
  else { w with passed := Fin.ofNat 16 (min (w.passed.val + 1) 15) }

/-- What the grant of g at position i makes of the record w at position j. -/
def afterGrant (t : Nat) (g : PoolRecord) (i : Nat) (w : PoolRecord) (j : Nat) : PoolRecord :=
  if j = i then { w with standing := .holding }
  else if w.isWaiting && shares w.set g.set && decide (j < i) then overtaken t w
  else w

/-- The pool after the grant of g at position i. -/
def grantAt (t : Nat) (recs : List PoolRecord) (g : PoolRecord) (i : Nat) : List PoolRecord :=
  recs.zipIdx.map fun w => afterGrant t g i w.1 w.2

/-- A grant pass made: the pool it leaves, the records granted in the order of the grants, and whether it stopped at a record
that fails its integrity check (R40). -/
structure Pass where
  records : List PoolRecord
  granted : List PoolRecord
  failed : Bool
deriving DecidableEq, Repr

/-- The grant pass step by step (R26, R27, R30). Each step reads every record, for no record is known to be grantable while one is
not read (R6, R25); a record that fails stops the pass there, and the grants made stand (R40). The first argument bounds the number
of steps; each grant takes one WAITING record, so the pool's length is enough. -/
def grantSteps (t : Nat) : Nat → List PoolRecord → Pass
  | 0, recs => ⟨recs, [], false⟩
  | k + 1, recs =>
    if recs.any fun r => !r.sound then ⟨recs, [], true⟩
    else
      match bestGrantable recs with
      | none => ⟨recs, [], false⟩
      | some (g, i) =>
        let rest := grantSteps t k (grantAt t recs g i)
        ⟨rest.records, g :: rest.granted, rest.failed⟩

/-- The whole pass over a pool, with promotion threshold t. -/
def grantPass (t : Nat) (recs : List PoolRecord) : Pass := grantSteps t recs.length recs

/-- What the search for the record of a pair finds, reading the pool from its head (R6, R40). -/
inductive Search where
  | found (r : PoolRecord)
  | missing
  | failing
deriving DecidableEq, Repr

/-- The search for the record of a pair: it stops at the record, or at the first that fails its integrity check. -/
def searchPool (station : Addr) (client : Client) : List PoolRecord → Search
  | [] => .missing
  | r :: rs =>
    if !r.sound then .failing
    else if r.isOf station client then .found r
    else searchPool station client rs

/-- The standing of the record a search found (R35). -/
def Search.standing : Search → Option Standing
  | .found r => some r.standing
  | .missing | .failing => none

/-- The pool without the record of a pair; a failing record has no fields to compare. -/
def withoutPair (station : Addr) (client : Client) (recs : List PoolRecord) : List PoolRecord :=
  recs.filter fun r => !(r.sound && r.isOf station client)

/-! ### Resource view (R8, R9) -/

/-- The holder of resource r; no set contains a number above 15. -/
def holderOf (recs : List PoolRecord) (r : Nat) : Option PoolRecord :=
  recs.find? fun h => h.isHolding && h.set.getLsbD r

/-- The WAITING records whose set contains r, with their positions. -/
def waitersOf (recs : List PoolRecord) (r : Nat) : List (PoolRecord × Nat) :=
  recs.zipIdx.filter fun w => w.1.isWaiting && w.1.set.getLsbD r

/-- The first waiter of r: the one with the best key. -/
def firstWaiter (recs : List PoolRecord) (r : Nat) : Option PoolRecord :=
  ((waitersOf recs r).foldl pickBetter none).map Prod.fst

/-- View state of a resource (R9). -/
inductive ViewState where
  | free | held | reserved
deriving DecidableEq, Repr

def ViewState.code : ViewState → Nat
  | .free => 0 | .held => 1 | .reserved => 2

/-- The view state of resource r (table of R9). -/
def viewState (recs : List PoolRecord) (r : Nat) : ViewState :=
  if (holderOf recs r).isSome then .held
  else if (waitersOf recs r).isEmpty then .free
  else .reserved

/-- Whether any WAITING record contains a resource of the set (R39). -/
def anyWaiter (recs : List PoolRecord) (set : Mask) : Bool := recs.any fun w => w.isWaiting && shares w.set set

/-! ### Table check (R162) -/

/-- The byte of a member record: state code × 16 + sponsor, 0 where it has none. -/
def Member.byte (m : Member) : Byte := nibbles m.state.code (m.sponsor.getD 0)

/-- The five bytes of a pool record. -/
def PoolRecord.bytes (r : PoolRecord) : List Byte :=
  [nibbles r.station r.client] ++ wordBytes r.set ++ [classByte r.requested r.effective r.passed, r.standing.code]

/-- The table check of a Membership Table and a Claim Pool. -/
def tableCheckOf (members : Table) (recs : List PoolRecord) : Word :=
  cyclicCheck (members.toList.map Member.byte ++ recs.flatMap PoolRecord.bytes)

/-! ### Snapshot records (R20, R194) -/

/-- The record a SNAP-CLAIM carries, or none where R194 says it is not appended: a standing code above 1, an effective class
below the requested class, or a mask that names no resource, more than four, or one at N or above. -/
def snapRecord (n : Nat) (station : Addr) (client : Client) (set : Mask) (requested effective : Class) (passed : Fin 16)
    (standing : Byte) : Option PoolRecord :=
  if standing.toNat ≤ 1 ∧ requested ≤ effective ∧ setValid n set = true then
    some ⟨station, client, set, requested, effective, passed, if standing = 0#8 then .waiting else .holding, true⟩
  else none

end Sys2Proof.Machine
end

