-- ==== Sys2Proof/Machine/Members.lean ====
section
/-! DEFINITION. The Membership Table as data: current sponsor (R146), and the membership effect of each notice kind
(R125 step 3, R133, R137, R140, R146, R149, R150). -/

namespace Sys2Proof.Machine

/-- State of a member record. -/
def Table.stateOf (t : Table) (a : Addr) : MemberState := (t.get a).state

/-- A record written anew, with its integrity check (R121); ABSENT and PRESENT records have no sponsor. -/
def Table.write (t : Table) (a : Addr) (st : MemberState) (sponsor : Option Addr) : Table :=
  t.set a.val ⟨st, if st = .absent ∨ st = .present then none else sponsor, true⟩ a.isLt

/-- The current sponsor for a: the lowest-addressed PRESENT member other than a (R146). -/
def Table.currentSponsor (t : Table) (a : Addr) : Option Addr :=
  sixteen.find? fun p => decide (p ≠ a) && decide (t.stateOf p = .present)

/-- Some record is SYNCING (R148, R150). -/
def Table.anySyncing (t : Table) : Bool := sixteen.any fun a => decide (t.stateOf a = .syncing)

/-- The records JOINING or SYNCING under sponsor p, in ascending address order (R133, R137). -/
def Table.sponsoredBy (t : Table) (p : Addr) : List Addr :=
  sixteen.filter fun a =>
    (decide (t.stateOf a = .joining) || decide (t.stateOf a = .syncing)) && decide ((t.get a).sponsor = some p)

/-- Several records made ABSENT. -/
def Table.makeAbsent (t : Table) : List Addr → Table
  | [] => t
  | a :: as => Table.makeAbsent (t.write a .absent none) as

/-- The number of PRESENT records other than a (R134). -/
def Table.othersPresent (t : Table) (a : Addr) : Nat :=
  (sixteen.filter fun p => decide (p ≠ a) && decide (t.stateOf p = .present)).length

/-- The clash answerer for a: the lowest-addressed PRESENT member other than a, or, where there is none, a itself if PRESENT
(R147). -/
def Table.clashAnswerer (t : Table) (a : Addr) : Option Addr :=
  match t.currentSponsor a with
  | some p => some p
  | none => if t.stateOf a = .present then some a else none

/-- A table with the changes of state made, in the order in which they are made. -/
structure TableChange where
  table : Table
  changes : List (Addr × MemberState)
deriving DecidableEq, Repr

/-- Removal of a member: its record, then the records it sponsored in ascending address order, become ABSENT (R133, R137). -/
def Table.remove (t : Table) (a : Addr) : TableChange :=
  let t1 := t.write a .absent none
  let gone := t1.sponsoredBy a
  ⟨t1.makeAbsent gone, (a, .absent) :: gone.map fun g => (g, .absent)⟩

/-- An ADMIT's three conditions (R150). -/
def Table.admitEffective (t : Table) (sender joiner : Addr) : Bool :=
  decide (t.stateOf joiner = .joining) && decide ((t.get joiner).sponsor = some sender) && !t.anySyncing

/-- The membership effect of a notice (table of R125). -/
def memberEffect (t : Table) (n : Notice) : TableChange :=
  match n.body with
  | .join _ =>
    match t.stateOf n.sender, t.currentSponsor n.sender with
    | .absent, some p => ⟨t.write n.sender .joining (some p), [(n.sender, .joining)]⟩
    | .joining, some p => ⟨t.write n.sender .joining (some p), []⟩
    | _, _ => ⟨t, []⟩
  | .admitJoiner j _ =>
    if t.admitEffective n.sender j then ⟨t.write j .syncing (t.get j).sponsor, [(j, .syncing)]⟩ else ⟨t, []⟩
  | .refuse j r =>
    if (r = refuseBusy ∨ r = refuseProfile) ∧ t.stateOf j = .joining ∧ (t.get j).sponsor = some n.sender then
      ⟨t.write j .absent none, [(j, .absent)]⟩
    else ⟨t, []⟩
  | .leave _ => if t.stateOf n.sender = .absent then ⟨t, []⟩ else t.remove n.sender
  | .evict e => if t.stateOf e = .syncing ∨ t.stateOf e = .present then t.remove e else ⟨t, []⟩
  | .beacon _ _ sync =>
    if sync = true ∧ t.stateOf n.sender = .syncing then ⟨t.write n.sender .present none, [(n.sender, .present)]⟩
    else ⟨t, []⟩
  | .found _ | .snapMembers _ | .snapClaim _ _ _ _ _ _ _ _ | .snapEnd _ _ | .claim _ _ _ | .withdraw _ | .release _ _ =>
    ⟨t, []⟩

/-- The stations whose pool records a notice removes (R17): a LEAVE's sender and the records that reverted, the records an
EVICT made ABSENT. -/
def removedStations (n : Notice) (changes : List (Addr × MemberState)) : List Addr :=
  match n.body with
  | .leave _ => n.sender :: (changes.map Prod.fst).filter fun a => decide (a ≠ n.sender)
  | .evict _ => changes.map Prod.fst
  | .found _ | .join _ | .admitJoiner _ _ | .refuse _ _ | .snapMembers _ | .snapClaim _ _ _ _ _ _ _ _ | .snapEnd _ _
  | .claim _ _ _ | .withdraw _ | .release _ _ | .beacon _ _ _ => []

/-- The member records the handling of a notice reads: the sender's, and those its membership effect looks at (log 8). -/
def recordsRead (n : Notice) : List Addr :=
  match n.body with
  | .join _ | .admitJoiner _ _ | .leave _ | .evict _ => sixteen
  | .refuse j _ => [n.sender, j]
  | .found _ | .snapMembers _ | .snapClaim _ _ _ _ _ _ _ _ | .snapEnd _ _ | .claim _ _ _ | .withdraw _ | .release _ _
  | .beacon _ _ _ => [n.sender]

/-- Whether a notice applied to the replica increases the session count (R123). -/
def counted : Body → Bool
  | .join _ | .admitJoiner _ _ | .refuse _ _ | .claim _ _ _ | .withdraw _ | .release _ _ | .leave _ | .evict _ => true
  | .found _ | .beacon _ _ _ | .snapMembers _ | .snapClaim _ _ _ _ _ _ _ _ | .snapEnd _ _ => false

/-- The record a SNAP-MEMBERS byte sets (R155, R194): a state field of 4..15 sets ABSENT; the sponsor nibble counts for JOINING
and SYNCING alone. -/
def memberOfByte (b : Byte) : Member :=
  match (hiNibble b).val with
  | 1 => ⟨.joining, some (loNibble b), true⟩
  | 2 => ⟨.syncing, some (loNibble b), true⟩
  | 3 => ⟨.present, none, true⟩
  | _ => ⟨.absent, none, true⟩

/-- The table a SNAP-MEMBERS sets. -/
def tableOfBytes (v : Vector Byte 16) : Table :=
  #v[memberOfByte v[0], memberOfByte v[1], memberOfByte v[2], memberOfByte v[3], memberOfByte v[4], memberOfByte v[5],
    memberOfByte v[6], memberOfByte v[7], memberOfByte v[8], memberOfByte v[9], memberOfByte v[10], memberOfByte v[11],
    memberOfByte v[12], memberOfByte v[13], memberOfByte v[14], memberOfByte v[15]]

/-- The bytes of a SNAP-MEMBERS made from a table (R152). -/
def bytesOfTable (t : Table) : Vector Byte 16 :=
  #v[t[0].byte, t[1].byte, t[2].byte, t[3].byte, t[4].byte, t[5].byte, t[6].byte, t[7].byte, t[8].byte, t[9].byte,
    t[10].byte, t[11].byte, t[12].byte, t[13].byte, t[14].byte, t[15].byte]

end Sys2Proof.Machine
end

