-- ==== Sys2Proof/Machine/OutboxList.lean ====
section
/-! DEFINITION. The Outbox as a list: order (R108), room (R109), limits (R110), placing, purging and clearing (R116, R117). -/

namespace Sys2Proof.Machine

/-- The order of entries: tier, then class, higher first, then placement number, lower first (R108). -/
def Entry.before (a b : Entry) : Bool :=
  decide (b.body.tier < a.body.tier) ||
    (decide (a.body.tier = b.body.tier) &&
      (decide (b.body.cls < a.body.cls) || (decide (a.body.cls = b.body.cls) && decide (a.number < b.number))))

/-- A placed entry goes to the place its tier, class and number give it; the others keep their order (R108). -/
def insertEntry (e : Entry) : List Entry → List Entry
  | [] => [e]
  | x :: xs => if e.before x then e :: x :: xs else x :: insertEntry e xs

/-- Entries below tier 3. -/
def lowTier (es : List Entry) : Nat := (es.filter fun e => decide (e.body.tier < 3)).length

/-- Room for a notice of a tier (table of R109). -/
def Outbox.room (o : Outbox) (tier : Nat) : Bool :=
  decide (o.entries.length < Config.outboxCapacity) &&
    (decide (tier = 3) || decide (lowTier o.entries < Config.lowTierCapacity))

/-- A LEAVE waits in the Outbox (R116). A LEAVE that a clearing left only to be settled by its round does not count (log 10). -/
def Outbox.hasLeave (o : Outbox) : Bool := o.entries.any fun e => e.body.isLeave && !e.removal

/-- What a submitting block is told (R109, R110, R116). -/
inductive Submitted where
  | placed | standing | slotBusy | leaving | noRoom
deriving DecidableEq, Repr

/-- The limits of R110: none where no limit forbids the placing. -/
def Outbox.limit (o : Outbox) (body : Body) : Option Submitted :=
  match body with
  | .beacon _ _ _ => if o.entries.any fun e => e.body.isBeacon then some .standing else none
  | .evict t => if o.entries.any fun e => e.body.isEvictOf t then some .standing else none
  | .claim c _ _ => if o.entries.any fun e => decide (claimClient e.body = some c) then some .slotBusy else none
  | .withdraw c => if o.entries.any fun e => decide (claimClient e.body = some c) then some .slotBusy else none
  | .release c _ => if o.entries.any fun e => decide (claimClient e.body = some c) then some .slotBusy else none
  | .found _ | .join _ | .admitJoiner _ _ | .refuse _ _ | .snapMembers _ | .snapClaim _ _ _ _ _ _ _ _ | .snapEnd _ _
  | .leave _ => none

/-- Placing (R109): next placement number, 1 where the Outbox is empty (R107); void count 0, marks clear. -/
def Outbox.place (o : Outbox) (body : Body) (tag : Word) (owner : Owner) : Outbox :=
  let number := if o.entries.isEmpty then 1 else o.nextNumber
  ⟨insertEntry ⟨body, tag, owner, number, 0, false, false⟩ o.entries, number + 1⟩

/-- A submission that is not refused with leaving (R109, R110). -/
def Outbox.submit (o : Outbox) (body : Body) (tag : Word) (owner : Owner) : Outbox × Submitted :=
  match o.limit body with
  | some r => (o, r)
  | none => if o.room body.tier then (o.place body tag owner, .placed) else (o, .noRoom)

/-- The offered entry (R84). -/
def Outbox.offered (o : Outbox) : Option Entry := o.entries.find? Entry.offered

/-- The first entry is marked offered at a start bit (R84, R108). -/
def Outbox.offerFirst (o : Outbox) : Outbox :=
  match o.entries with
  | [] => o
  | e :: es => { o with entries := { e with offered := true } :: es }

/-- The entries without those a test names. -/
def Outbox.without (o : Outbox) (test : Entry → Bool) : Outbox := { o with entries := o.entries.filter fun e => !test e }

/-- Every entry changed alike. -/
def Outbox.map (o : Outbox) (f : Entry → Entry) : Outbox := { o with entries := o.entries.map f }

/-- What the removal of unsent entries leaves: those asked for leave, but an offered one stays with its removal pending (R113). -/
def Outbox.removeUnsent (o : Outbox) (test : Entry → Bool) : Outbox :=
  (o.map fun e => if test e && e.offered then { e with removal := true } else e).without fun e => test e && !e.offered

/-- What a purge or clearing leaves: the offered entry, to be removed by its round unless taken (R116, R117). -/
def Outbox.keepOffered (o : Outbox) : Outbox :=
  (o.without fun e => !e.offered).map fun e => { e with removal := true }

/-- Clearing on an eviction, a yield or a give-up: as a purge, and numbers start again from 1 (R117). -/
def Outbox.cleared (o : Outbox) : Outbox := { o.keepOffered with nextNumber := 1 }

/-- The entry of a client that a purge leaves in the Outbox (R63). -/
def Outbox.holdsFor (o : Outbox) (c : Client) : Bool := o.entries.any fun e => decide (e.owner = .claimUnit c)

end Sys2Proof.Machine
end

