-- ==== Sys2Proof/Machine/Flags.lean ====
section
/-! DEFINITION. Marks and flags worked out from State: which states hold a replica, vote, contend and run absence timers, the
sync flag, the latched mark, integrity failures. -/

namespace Sys2Proof.Machine

/-- This station's address (R195). -/
def State.own (s : State) : Addr := s.straps.address

/-- The slot of a client. -/
def State.slot (s : State) (c : Client) : Slot := s.slots.get c

/-- The line n. -/
def State.line (s : State) (n : LineNo) : Line := s.lines.get n

/-- The states that hold a replica and vote as listeners (R93, R119). -/
def StationState.inSession : StationState → Bool
  | .loading | .announcing | .active | .leaving => true
  | .offline | .listening | .founding | .seeking | .backoff | .faulted => false

/-- The states in which notices of the session are applied to the replica and indications given (R38, R125). -/
def StationState.applies : StationState → Bool
  | .announcing | .active | .leaving => true
  | .offline | .listening | .founding | .seeking | .backoff | .loading | .faulted => false

/-- The lock is clear in OFFLINE and FAULTED and set in every other state (R177, R178). -/
def StationState.locked : StationState → Bool
  | .offline | .faulted => false
  | .listening | .founding | .seeking | .backoff | .loading | .announcing | .active | .leaving => true

/-- The states in which the Bus Interface delivers (R96). -/
def StationState.delivers : StationState → Bool
  | .offline | .faulted => false
  | .listening | .founding | .seeking | .backoff | .loading | .announcing | .active | .leaving => true

/-- The station runs absence timers: ANNOUNCING, ACTIVE, or LEAVING entered from one of them (R135). -/
def State.runsAbsence (s : State) : Bool :=
  match s.session.station with
  | .announcing | .active => true
  | .leaving => s.session.leftSynced
  | .offline | .listening | .founding | .seeking | .backoff | .loading | .faulted => false

/-- The sync flag of a BEACON carried now (R139): the same condition as R135's. -/
def State.syncFlag (s : State) : Bool := s.runsAbsence

/-- The session count an event carries: the count held, 0 without a replica (R183). -/
def State.postCount (s : State) : Word := if s.session.founded then s.session.count else 0#16

/-- A line slot is latched: FREE, enabled, REQ high, re-arm clear, station not ACTIVE (R73). -/
def State.latched (s : State) (n : LineNo) : Bool :=
  decide ((s.slot (clientOf n)).state = .free) && s.port.lineEnabled n && (s.line n).req && !(s.line n).rearm &&
    decide (s.session.station ≠ .active)

/-- The five conditions of R72 for a claim on line n. -/
def State.lineReady (s : State) (n : LineNo) : Bool :=
  s.port.lineEnabled n && (s.line n).req && !(s.line n).rearm && decide ((s.slot (clientOf n)).state = .free) &&
    decide (s.session.station = .active)

/-- Every submission is refused with leaving: a LEAVE waits in the Outbox (R116), or it has been taken and the station is still
in LEAVING while the effects of the taking are being made (R132, R136, R139). -/
def State.refuses (s : State) : Bool := decide (s.session.station = .leaving) || s.outbox.hasLeave

/-- Some pool record fails its integrity check (R6). -/
def State.poolFails (s : State) : Bool := s.pool.records.any fun r => !r.sound

/-- Some of these member records fails its integrity check (R121). -/
def State.membersFail (s : State) (as : List Addr) : Bool := as.any fun a => !(s.session.members.get a).sound

/-- The notice an entry carries when its carriage begins: BEACON and ADMIT fields filled from the station as it stands (R91,
R139, R148); an ADMIT carried without a replica carries 0. -/
def State.filled (s : State) (e : Entry) : Notice :=
  match e.body with
  | .beacon _ _ _ => ⟨e.tag, s.own, .beacon s.checker.tableCheck s.session.count s.syncFlag⟩
  | .admitJoiner j _ => ⟨e.tag, s.own, .admitJoiner j (if s.session.founded then s.session.count + 1#16 else 0#16)⟩
  | .found _ | .join _ | .refuse _ _ | .snapMembers _ | .snapClaim _ _ _ _ _ _ _ _ | .snapEnd _ _ | .claim _ _ _
  | .withdraw _ | .release _ _ | .leave _ | .evict _ => ⟨e.tag, s.own, e.body⟩

/-- The carriage bytes this station drives if it wins contention now (R91). -/
def State.carriage (s : State) : Option (List Byte) := s.outbox.offered.map fun e => (s.filled e).carriage

/-- The contention number of an entry with the pointer as it stands (R86). -/
def State.numberOf (s : State) (e : Entry) : Byte :=
  contentionNumber e.body.tier e.body.cls (rotationRank s.own s.bus.pointer)

/-- The byte the port shifts out k bytes after the decision point: status, response data, then filler (R174). -/
def Port.shifted (p : Port) (k : Nat) : Byte :=
  match p.response with
  | none => Config.filler
  | some r => if k = 0 then r.status.code else (r.data[k - 1]?).getD Config.filler

/-- The byte the port shifts out in a frame that has these whole bytes of SDI: filler before the decision point, then the answer that
the port holds (R174). -/
def State.sdoByte (s : State) (received : List Byte) : Byte :=
  match received with
  | _ :: len :: ps => if len.toNat ≤ ps.length then s.port.shifted (ps.length - len.toNat) else Config.filler
  | _ => Config.filler

/-- The level of SDO, none where it is not driven: while SSN is high (no frame) or RESETN is asserted (R174, R192). In a frame the
bits clocked in on SDI so far say which bit is out, most significant first. The frame in progress is an input (log 33). -/
def State.sdo (s : State) (frame : Option (List Bool)) : Option Bool :=
  match frame with
  | none => none
  | some bits => if s.resetHeld then none else some ((s.sdoByte (bytesOfBits bits)).getLsbD (7 - bits.length % 8))

end Sys2Proof.Machine
end

