-- ==== Sys2Proof/Machine/Ops.lean ====
section
/-! DEFINITION. Shared operations of the blocks on State: updates, events, slots with their GNT, station state changes, the
queuing of a LEAVE, storage upsets, submissions of the Session Controller, answers and snapshots, owed notices. -/

namespace Sys2Proof.Machine

/-! ### Updates of one block -/

def State.setOutbox (s : State) (x : Outbox) : State := { s with outbox := x }
def State.setBus (s : State) (x : Bus) : State := { s with bus := x }
def State.setSession (s : State) (x : Session) : State := { s with session := x }
def State.setTimers (s : State) (x : Timers) : State := { s with timers := x }
def State.setJoiner (s : State) (x : Joiner) : State := { s with joiner := x }
def State.setSponsor (s : State) (x : Sponsor) : State := { s with sponsor := x }
def State.setPool (s : State) (x : Pool) : State := { s with pool := x }
def State.setPort (s : State) (x : Port) : State := { s with port := x }
def State.setChecker (s : State) (x : Checker) : State := { s with checker := x }
def State.setLine (s : State) (n : LineNo) (l : Line) : State := { s with lines := s.lines.set n.val l n.isLt }

/-- GNT of a line client's line is driven to a level; a software client has none (R76). -/
def State.driveGnt (s : State) (c : Client) (level : Bool) : State :=
  match lineOf c with
  | some n => s.setLine n { s.line n with gnt := level }
  | none => s

/-- A slot changes; GNT of a line slot is high exactly while the slot is GRANTED, in the same event (R76). The one way in which
a slot is written. -/
def State.setSlot (s : State) (c : Client) (v : Slot) : State :=
  ({ s with slots := s.slots.set c.val v c.isLt } : State).driveGnt c (decide (v.state = SlotState.granted))

/-! ### Events (R183, R184, R186) -/

/-- A posting reaches the queue (table of R184). -/
def enqueue (own : Addr) (q : List Event) (e : Event) : List Event :=
  match q.getLast? with
  | some ⟨.eventsLost k, w, n⟩ => q.dropLast ++ [⟨.eventsLost (min (k + 1) 255), w, n⟩]
  | _ =>
    if q.length < Config.eventCapacity - 1 then q ++ [e]
    else q ++ [⟨.eventsLost 1, own, e.count⟩]

/-- Post an event with the session count at posting; ATTN is asserted (R183, R186). -/
def State.post (s : State) (kind : EventKind) (who : Fin 16) : State :=
  s.setPort { s.port with events := enqueue s.own s.port.events ⟨kind, who, s.postCount⟩, attn := true }

/-! ### Station state -/

/-- The station state is replaced, and the lock of the configuration image follows it (R177). -/
def State.atStation (s : State) (st : StationState) : State :=
  (s.setSession { s.session with station := st }).setPort { s.port with locked := st.locked }

/-- A change of station state without its event: the lock follows it (R177), and leaving ACTIVE clears the suspect without an event
and empties the answer list and the serving state (R147, R153, R166). -/
def State.change (s : State) (st : StationState) : State :=
  let s1 :=
    if st = .active then s
    else
      (s.setSponsor { s.sponsor with answers := Sponsor.none.answers, serving := none }).setChecker
        { s.checker with suspect := none }
  s1.atStation st

/-- A change of station state, with its STATION_STATE (R120). -/
def State.enter (s : State) (st : StationState) (cause : Cause) : State :=
  (s.change st).post (.stationState st cause) s.own

/-- The replica is discarded (R7, R41, R134 step 4, R142, R173): table, founded flag, count and pool cleared with the freeze,
the session's timers stopped, the joiner's and the sponsor's state emptied, suspect and resync-pending cleared. The tag is
dealt with by the caller. -/
def State.discard (s : State) : State :=
  let s1 := s.setSession
    { s.session with
      members := .empty, founded := false, count := 0#16, leaveDest := none, leftSynced := false, leaveReason := none }
  let s2 := s1.setTimers
    { s1.timers with beacon := none, snapshot := none, absence := Timers.stopped.absence }
  let s3 := s2.setJoiner .none
  let s4 := s3.setSponsor { s3.sponsor with answers := Sponsor.none.answers, serving := none }
  let s5 := s4.setPool ⟨[], false⟩
  s5.setChecker { s5.checker with tableCheck := emptyCheck, suspect := none, resyncPending := false }

/-! ### Owed notices dropped, Outbox cleared (R116, R117) -/

/-- A slot's owed notice is dropped. -/
def State.dropSlotOwed (s : State) (c : Client) : State := s.setSlot c { s.slot c with owed := .none }

/-- Every owed notice of every block is dropped (R116, R117). -/
def State.dropOwed (s : State) : State :=
  sixteen.foldl State.dropSlotOwed
    (s.setSponsor { s.sponsor with owedAnswer := none, owedBeacon := false, owedEvicts := Sponsor.none.owedEvicts })

/-- The Outbox is cleared but for an offered entry, which its round settles (last three rows of R117). -/
def State.clearOutbox (s : State) : State := (s.setOutbox s.outbox.cleared).dropOwed

/-- A block offers a notice to the Outbox, with the tag the station holds (R107, R109, R110); a station that leaves refuses it
(R116). -/
def State.offer (s : State) (body : Body) (owner : Owner) : Outbox × Submitted :=
  if s.refuses then (s.outbox, .leaving) else s.outbox.submit body s.session.tag owner

/-- The Session Controller offers a notice. -/
def State.submit (s : State) (body : Body) : State × Submitted :=
  let r := s.offer body .session
  (s.setOutbox r.1, r.2)

/-! ### Queuing the station's LEAVE (R63, R116, R132) -/

/-- Where closing takes a slot, by its state (table of R63); `kept` is its outbox entry after the purge. The removal pending flag
stays, that of a slot whose offered CLAIM has just been taken too, in the event whose storage upset closes it: the model's choice (R42,
R63; log 42). -/
def Slot.closed (v : Slot) (kept : SlotNotice) : Slot :=
  match v.state with
  | .free => v
  | .pending | .queued | .waiting | .withdrawing =>
    { v with state := .withdrawing, closing := true, owed := .none, outboxEntry := kept }
  | .granted | .yielding =>
    { v with state := .releasing, reason := .leave, closing := true, owed := .none, outboxEntry := kept }
  | .releasing => { v with closing := true, owed := .none, outboxEntry := kept }
  | .retry => .freeWith v.lastEnd

/-- One slot is closed; its outbox entry stays only where that entry is still offered (R63). -/
def State.closeSlot (s : State) (c : Client) : State :=
  s.setSlot c ((s.slot c).closed (if s.outbox.holdsFor c then (s.slot c).outboxEntry else .none))

/-- The Outbox is purged but for an offered entry, and every owed notice is dropped (R116). -/
def State.purge (s : State) : State := (s.setOutbox s.outbox.keepOffered).dropOwed

/-- Every slot is closed, in ascending client order (R63). -/
def State.closeSlots (s : State) : State := sixteen.foldl State.closeSlot s

/-- The station's LEAVE is placed with the tag it holds (R132); it finds room in the purged Outbox, and it is no submission that
R116 refuses. -/
def State.placeLeave (s : State) (r : LeaveReason) : State :=
  s.setOutbox (s.outbox.submit (.leave r.code) s.session.tag .session).1

/-- Snapshot building, replay and the snapshot limit stop (R132, R160). -/
def State.stopLoading (s : State) : State := (s.setJoiner .none).setTimers { s.timers with snapshot := none }

/-- The leave destination and the reason are recorded, with the sync flag of the state that is left (R132, R135, R194). -/
def State.recordLeave (s : State) (r : LeaveReason) : State :=
  s.setSession { s.session with leaveDest := some r.dest, leftSynced := s.syncFlag, leaveReason := some r }

/-- The station queues its LEAVE: purge, slots closed, LEAVE placed, serving and building stopped, leave destination recorded,
LEAVING entered (R132). -/
def State.queueLeave (s : State) (r : LeaveReason) : State :=
  ((s.purge.closeSlots.placeLeave r).stopLoading.recordLeave r).enter .leaving r.cause

/-! ### Storage upsets (R40, R56, R167) -/

/-- The resync-pending flag is set, and DIVERGENCE posted with this station's address (R167). -/
def State.markUpset (s : State) : State :=
  (s.setChecker { s.checker with resyncPending := true }).post (.divergence .resync) s.own

/-- A storage upset is reported to the Agreement Checker (R167). -/
def State.upset (s : State) : State :=
  if s.checker.resyncPending then s
  else
    match s.session.station with
    | .active | .announcing | .loading => s.markUpset.queueLeave .resync
    | .leaving => s.markUpset
    | .offline | .listening | .founding | .seeking | .backoff | .faulted => s

/-- A pool record was found failing: the pool is frozen and the upset reported (R40). -/
def State.freeze (s : State) : State := (s.setPool { s.pool with frozen := true }).upset

/-- Member records are read; one that fails is a storage upset, and the records are used as stored (R121). -/
def State.readMembers (s : State) (as : List Addr) : State := if s.membersFail as then s.upset else s

/-- A mismatch between an indication and a slot (R56): a storage upset in ACTIVE and ANNOUNCING, ignored otherwise. -/
def State.mismatch (s : State) : State :=
  match s.session.station with
  | .active | .announcing => s.upset
  | .leaving | .offline | .listening | .founding | .seeking | .backoff | .loading | .faulted => s

/-- The Table Engine's answer to the waiter query (R39). -/
inductive WaiterAnswer where
  | waiter | noWaiter | unknown
deriving DecidableEq, Repr

/-- The waiter query: UNKNOWN where the pool is frozen or a record read fails, which freezes it (R39, R40). -/
def State.waiterQuery (s : State) (set : Mask) : State × WaiterAnswer :=
  if s.pool.frozen then (s, .unknown)
  else if s.poolFails then (s.freeze, .unknown)
  else (s, if anyWaiter s.pool.records set then .waiter else .noWaiter)

/-! ### Submissions of the Session Controller (R109 to R111, R136, R139, R143) -/

/-- A JOIN with the tag sought and the profile check is placed (R143). -/
def State.placeJoin (s : State) : State := (s.submit (.join s.checker.profileCheck)).1

/-- A BEACON is submitted if none is placed or owed; told no room, it is owed (R139). -/
def State.submitBeacon (s : State) : State :=
  if s.sponsor.owedBeacon then s
  else
    let r := s.submit (.beacon 0#16 0#16 false)
    match r.2 with
    | .noRoom => r.1.setSponsor { r.1.sponsor with owedBeacon := true }
    | .placed | .standing | .slotBusy | .leaving => r.1

/-- EVICT(m) is submitted if none of this station's is placed or owed; told no room, it is owed (R136). -/
def State.submitEvict (s : State) (m : Addr) : State :=
  if s.sponsor.owedEvicts.get m then s
  else
    let r := s.submit (.evict m)
    match r.2 with
    | .noRoom => r.1.setSponsor { r.1.sponsor with owedEvicts := r.1.sponsor.owedEvicts.set m.val true m.isLt }
    | .placed | .standing | .slotBusy | .leaving => r.1

/-! ### Answers and snapshot notices (R147, R148, R152) -/

/-- An answer or snapshot notice is submitted as soon as it is made; told no room, it is the one owed (R148). -/
def State.submitAnswer (s : State) (body : Body) : State :=
  let r := s.submit body
  match r.2 with
  | .noRoom => r.1.setSponsor { r.1.sponsor with owedAnswer := some body }
  | .placed | .standing | .slotBusy | .leaving => r.1

/-- The SNAP-CLAIM of a copied record at a position (R152). -/
def snapClaimOf (position : Nat) (r : PoolRecord) : Body :=
  .snapClaim (BitVec.ofNat 8 position) r.station r.client r.set r.requested r.effective r.passed r.standing.code

/-- The next snapshot notice of a serving state, and the mark after it (R152). -/
def Serving.make (v : Serving) : Option (Body × NextItem) :=
  match v.next with
  | .members => some (.snapMembers (bytesOfTable v.members), if v.records.isEmpty then .last else .claim 0)
  | .claim i =>
    match v.records[i]? with
    | some r => some (snapClaimOf i r, if i + 1 < v.records.length then .claim (i + 1) else .last)
    | none => none
  | .last => some (.snapEnd v.check (BitVec.ofNat 8 v.records.length), .done)
  | .done => none

/-- This station may make answers and snapshot notices: ACTIVE, and none owed (R148). -/
def State.mayAnswer (s : State) : Bool := decide (s.session.station = .active) && s.sponsor.owedAnswer.isNone

/-- Its SNAP entries in the Outbox (R152). -/
def Outbox.snaps (o : Outbox) : Nat := (o.entries.filter fun e => e.body.isSnap).length

/-- The next snapshot notice is made where fewer than two are placed and none is owed (R152). -/
def State.makeSnap (s : State) : State :=
  match s.sponsor.serving with
  | none => s
  | some v =>
    if s.mayAnswer && decide (s.outbox.snaps < 2) then
      match v.make with
      | none => s
      | some (body, next) =>
        (s.setSponsor { s.sponsor with serving := some { v with next := next } }).submitAnswer body
    else s

/-- The answer to an answer-list entry, decided when it is made (table of R148). -/
def State.answerBody (s : State) (a : Addr) : Answer → Body
  | .clash => .refuse a refuseAddress
  | .joiner false => .refuse a refuseProfile
  | .joiner true =>
    if s.session.members.anySyncing || s.outbox.entries.any (fun e => e.body.isAdmit) then .refuse a refuseBusy
    else .admitJoiner a 0#16

/-- The member records that the decision of an answer reads (R121, R148): all of them where it asks whether one is SYNCING. -/
def Answer.reads : Answer → List Addr
  | .joiner true => sixteen
  | .joiner false | .clash => []

/-- The answer for address a is decided, made and its entry removed (R147, R148). A failing record met in the decision is a storage
upset (R167): the station then leaves ACTIVE and makes no answer. -/
def State.makeAnswer (s : State) (a : Addr) : State :=
  if s.mayAnswer then
    match s.sponsor.answers.get a with
    | none => s
    | some w =>
      let t := s.readMembers w.reads
      if t.mayAnswer then
        (t.setSponsor { t.sponsor with answers := t.sponsor.answers.set a.val none a.isLt }).submitAnswer (t.answerBody a w)
      else t
  else s

/-- Answer and snapshot notices are made: serving work first, at most two, then the entries in ascending address order (R148). -/
def State.makeAnswers (s : State) : State := sixteen.foldl State.makeAnswer s.makeSnap.makeSnap

/-! ### Owed notices served when room appears (R112) -/

/-- The notice body of a slot's notice kind (R49, R60). -/
def slotBody (c : Client) (v : Slot) : SlotNotice → Option Body
  | .none => none
  | .claim => some (.claim c v.cls v.set)
  | .withdraw => some (.withdraw c)
  | .release => some (.release c (if v.reason = .forced then 1 else 0))

/-- An owed EVICT is tested and placed if it fits. -/
def State.serveEvict (s : State) (t : Addr) : State :=
  if s.sponsor.owedEvicts.get t then
    let r := s.submit (.evict t)
    match r.2 with
    | .placed | .standing =>
      r.1.setSponsor { r.1.sponsor with owedEvicts := r.1.sponsor.owedEvicts.set t.val false t.isLt }
    | .noRoom | .slotBusy | .leaving => s
  else s

/-- A slot's owed notice of one of two sorts (CLAIM, or WITHDRAW and RELEASE) is tested and placed if it fits; a slot whose owed
CLAIM is placed goes from PENDING to QUEUED (R49). -/
def State.serveSlot (claims : Bool) (s : State) (c : Client) : State :=
  let v := s.slot c
  if decide (v.owed = .claim) = claims then
    match slotBody c v v.owed with
    | none => s
    | some body =>
      let r := s.offer body (.claimUnit c)
      match r.2 with
      | .placed =>
        (s.setOutbox r.1).setSlot c
          { v with owed := .none, outboxEntry := v.owed, state := if claims then .queued else v.state }
      | .slotBusy => s.mismatch
      | .standing | .noRoom | .leaving => s
  else s

/-- The owed answer or snapshot notice. -/
def State.serveAnswer (s : State) : State :=
  match s.sponsor.owedAnswer with
  | none => s
  | some body =>
    let r := s.submit body
    match r.2 with
    | .placed => r.1.setSponsor { r.1.sponsor with owedAnswer := none }
    | .standing | .noRoom | .slotBusy | .leaving => s

/-- The owed BEACON. -/
def State.serveBeacon (s : State) : State :=
  if s.sponsor.owedBeacon then
    let r := s.submit (.beacon 0#16 0#16 false)
    match r.2 with
    | .placed | .standing => r.1.setSponsor { r.1.sponsor with owedBeacon := false }
    | .noRoom | .slotBusy | .leaving => s
  else s

/-- The owed notices are offered the room, each tested once, in the order of R112. -/
def State.serveOwed (s : State) : State :=
  let s1 := sixteen.foldl State.serveEvict s
  let s2 := sixteen.foldl (State.serveSlot false) s1
  let s3 := s2.serveAnswer.serveBeacon
  sixteen.foldl (State.serveSlot true) s3

/-- At the end of an event that placed the owed answer or snapshot notice, or in which one of the station's SNAP entries left,
the next are made (R148). -/
def State.answersAfter (before s : State) (snapLeft : Bool) : State :=
  if snapLeft || (before.sponsor.owedAnswer.isSome && s.sponsor.owedAnswer.isNone) then s.makeAnswers else s

/-- Room appears outside the taking of a notice: owed notices are served (R112), and answers made where one was placed (R148). -/
def State.roomEvent (s : State) : State := State.answersAfter s s.serveOwed false

/-- Removal of unsent entries is requested (R113): those not offered leave at once and room appears; an offered one is marked
removal pending and its round settles it. -/
def State.requestRemoval (s : State) (test : Entry → Bool) : State :=
  let left := s.outbox.removeUnsent test
  if left.entries.length < s.outbox.entries.length then (s.setOutbox left).roomEvent else s.setOutbox left

end Sys2Proof.Machine
end

