-- ==== Sys2Proof/Machine/Claims.lean ====
section
/-! DEFINITION. The Local Claim Unit and the Client Line Unit (03, 04): submitting a slot's notice, starting and ending a claim,
the line test of R72, withdrawal, release, yield, renewal, falls of REQ, indications, teardown, and the settling of the
offered entry (R114). -/

namespace Sys2Proof.Machine

/-! ### Line test and the start of a claim (R47, R48, R49, R72) -/

/-- A slot that has taken a set and a class, with its lease parameters (R45). -/
def State.started (s : State) (c : Client) (set : Mask) (cls : Class) : Slot :=
  { Slot.freeWith (s.slot c).lastEnd with set := set, cls := cls, params := s.port.leaseParams set }

/-- A claim starts on slot c: its CLAIM is placed (QUEUED) or owed (PENDING) (R47, R48, R49). Refused slot busy, the slot is
kept and the refusal is a mismatch (R110). Refused with leaving, it goes on as placed and purged (R116). -/
def State.startClaim (s : State) (c : Client) (set : Mask) (cls : Class) : State :=
  let v := s.started c set cls
  let r := s.offer (.claim c cls set) (.claimUnit c)
  match r.2 with
  | .placed => (s.setOutbox r.1).setSlot c { v with state := .queued, outboxEntry := .claim }
  | .noRoom => s.setSlot c { v with state := .pending, owed := .claim }
  | .leaving => s.setSlot c { v with state := .queued }
  | .standing | .slotBusy => s.mismatch

/-- A line claim starts from the line's binding (R48). -/
def State.lineClaim (s : State) (n : LineNo) : State := s.startClaim (clientOf n) (s.port.lineSet n) (s.port.lineClass n)

/-- R72 is tested for line n, and a line claim handed in when it passes. -/
def State.testLine (s : State) (n : LineNo) : State := if s.lineReady n then s.lineClaim n else s

/-- Every line is tested in ascending order, on entry to ACTIVE (R73). -/
def State.testLines (s : State) : State := eight.foldl State.testLine s

/-- R72 is tested for the line of a client whose slot has returned to FREE; a software client has none. -/
def State.testClient (s : State) (c : Client) : State :=
  match lineOf c with
  | some n => s.testLine n
  | none => s

/-- The re-arm flag of a line client is set where its REQ is sampled high (R78, R79). -/
def State.rearmIfHigh (s : State) (c : Client) : State :=
  match lineOf c with
  | some n => if (s.line n).req then s.setLine n { s.line n with rearm := true } else s
  | none => s

/-! ### The end of a claim (R43, sections 3.3 to 3.8) -/

/-- The slot goes to FREE and posts CLAIM_ENDED (R43). -/
def State.endSlot (s : State) (c : Client) (reason : EndReason) : State :=
  (s.setSlot c (.freeWith reason)).post (.claimEnded reason) c

/-- The slot goes to FREE with no event and keeps its last end reason (R43, R62). -/
def State.freeSlot (s : State) (c : Client) : State := s.setSlot c (.freeWith (s.slot c).lastEnd)

/-- One slot ends by a teardown (R64 to R67): a slot in RETRY posts nothing, nor does any where no reason is given. -/
def State.teardownSlot (reason : Option EndReason) (s : State) (c : Client) : State :=
  match (s.slot c).state, reason with
  | .free, _ => s
  | .retry, _ => s.freeSlot c
  | _, some r => s.endSlot c r
  | _, none => s.freeSlot c

/-- Every slot ends, in ascending client order. -/
def State.teardown (s : State) (reason : Option EndReason) : State := sixteen.foldl (State.teardownSlot reason) s

/-! ### WITHDRAW and RELEASE (R49, R50, R59, R60) -/

/-- The slot submits a WITHDRAW and is WITHDRAWING (R50, R51). -/
def State.submitWithdraw (s : State) (c : Client) : State :=
  let v := { s.slot c with state := .withdrawing, removalPending := false, outboxEntry := .none }
  let r := s.offer (.withdraw c) (.claimUnit c)
  match r.2 with
  | .placed => (s.setOutbox r.1).setSlot c { v with outboxEntry := .withdraw }
  | .noRoom => s.setSlot c { v with owed := .withdraw }
  | .leaving => s.setSlot c v
  | .standing | .slotBusy => s.mismatch

/-- The slot submits a RELEASE with a reason and is RELEASING (R59, R60). -/
def State.submitRelease (s : State) (c : Client) (reason : ReleaseReason) : State :=
  let v := { s.slot c with state := .releasing, reason := reason }
  let r := s.offer (.release c (if reason = .forced then 1 else 0)) (.claimUnit c)
  match r.2 with
  | .placed => (s.setOutbox r.1).setSlot c { v with outboxEntry := .release }
  | .noRoom => s.setSlot c { v with owed := .release }
  | .leaving => s.setSlot c v
  | .standing | .slotBusy => s.mismatch

/-- A withdrawal in PENDING, QUEUED or WAITING (R50); a slot in another state is left. The room event of a CLAIM removed at once
stands before the slot's CLAIM_ENDED(WITHDRAWN), the model's choice (R112, R113; log 40). The CLAIM of a QUEUED slot that is not
found in the Outbox has been taken, and its indication is to come: the slot waits for it as for an offered one (R113, log 15). -/
def State.withdrawSlot (s : State) (c : Client) : State :=
  match (s.slot c).state with
  | .pending => (s.endSlot c .withdrawn).testClient c
  | .queued =>
    let mine : Entry → Bool := fun e => decide (e.owner = .claimUnit c)
    let t := s.requestRemoval mine
    if s.outbox.entries.any fun e => mine e && !e.offered then (t.endSlot c .withdrawn).testClient c
    else t.setSlot c { t.slot c with state := .withdrawing, removalPending := true }
  | .waiting => s.submitWithdraw c
  | .free | .granted | .yielding | .releasing | .withdrawing | .retry => s

/-! ### Leases (R54, R55, R58) -/

/-- A lease starts or restarts: lease remaining is the lease length (R54, R55). -/
def State.leaseStart (s : State) (c : Client) (renewals : Nat) : Slot :=
  { s.slot c with state := .granted, leaseMs := (s.slot c).params.length * s.port.leaseUnit, renewals := renewals }

/-- The slot goes to YIELDING and posts CLAIM_YIELD (R58). -/
def State.toYielding (s : State) (c : Client) : State :=
  (s.setSlot c
    { s.slot c with state := .yielding, leaseMs := 0, yieldMs := (s.slot c).params.window * s.port.leaseUnit }).post
      .claimYield c

/-- The renewal decision for a GRANTED slot (R55): the state after it, and whether it was allowed. -/
def State.renewal (s : State) (c : Client) : State × Bool :=
  let q := s.waiterQuery (s.slot c).set
  let t := q.1
  let v := t.slot c
  match v.params.mode, q.2 with
  | .fixed, _ => (t, false)
  | .renewable, .unknown => (t, false)
  | .renewable, .noWaiter => (t.setSlot c (t.leaseStart c 0), true)
  | .renewable, .waiter =>
    if v.renewals < v.params.limit then (t.setSlot c (t.leaseStart c (v.renewals + 1)), true) else (t, false)

/-- The lease timer of a GRANTED slot expires (R58, R77). A query that found a failing record has closed the slot, which then
does not yield. -/
def State.leaseExpired (s : State) (c : Client) : State :=
  match lineOf c with
  | some n =>
    if (s.line n).req then
      let r := s.renewal c
      if r.2 then r.1 else if (r.1.slot c).state = .granted then r.1.toYielding c else r.1
    else s.toYielding c
  | none => s.toYielding c

/-! ### Edges of REQ (R71, R75) -/

/-- A fall of REQ acts on the slot (table of R75). -/
def State.fallSlot (s : State) (c : Client) : State :=
  match (s.slot c).state with
  | .pending | .queued | .waiting => s.withdrawSlot c
  | .granted | .yielding => s.submitRelease c .normal
  | .retry => (s.freeSlot c).testClient c
  | .free | .releasing | .withdrawing => s

/-- An edge is handed on to the Local Claim Unit (R71). -/
def State.handEdge (s : State) (n : LineNo) : Edge → State
  | .rise => s.testLine n
  | .fall => s.fallSlot (clientOf n)

/-- Edges are handed on, oldest first. -/
def State.handEdges (s : State) (n : LineNo) : List Edge → State
  | [] => s
  | e :: es => (s.handEdge n e).handEdges n es

/-- A sampled edge of an enabled line is handed on at once, after those that still wait, or later (R71; log 6). -/
def State.edge (s : State) (n : LineNo) (e : Edge) : Timing → State
  | .later => s.setLine n { s.line n with edges := (s.line n).edges ++ [e] }
  | .atOnce => (s.setLine n { s.line n with edges := [] }).handEdges n ((s.line n).edges ++ [e])

/-! ### Settling the offered entry (R114) -/

/-- A slot that ends when it is told that its entry is removed (R51); a closing one goes on waiting (R63). -/
def Slot.endsRemoved (v : Slot) : Bool := !v.closing && decide (v.state = .withdrawing) && v.removalPending

/-- The owner of a claim notice is told removed (R51, R63). -/
def State.toldRemoved (s : State) (c : Client) : State :=
  let v := s.slot c
  if v.closing then s.setSlot c { v with outboxEntry := .none, removalPending := false }
  else if v.endsRemoved then s.endSlot c .withdrawn
  else s

/-- A round settled, with what its event still owes: whether an entry left the Outbox, so that room appears (R112), whether that
entry was a SNAP (R148), and the client whose slot ended, whose line is tested once the room has been offered. -/
structure Settled where
  state : State
  room : Bool
  snap : Bool
  ended : Option Client
deriving DecidableEq, Repr

/-- The client whose slot ends when the owner of an entry is told removed. -/
def State.endedBy (s : State) : Owner → Option Client
  | .claimUnit c => if (s.slot c).endsRemoved then some c else none
  | .session => none

/-- The owner of an entry is told removed; the Session Controller acts on its own request at once and is not told. -/
def State.tellOwner (s : State) : Owner → State
  | .claimUnit c => s.toldRemoved c
  | .session => s

/-- The offered entry is settled (R96, R98, R103, R114): taken, it leaves; otherwise it stays, or is removed where a removal was
asked, and its owner is told. -/
def State.settle (s : State) (taken : Bool) : Settled :=
  match s.outbox.offered with
  | none => ⟨s, false, false, none⟩
  | some e =>
    let gone := s.setOutbox (s.outbox.without Entry.offered)
    if taken then ⟨gone, true, e.body.isSnap, none⟩
    else if e.removal then ⟨gone.tellOwner e.owner, true, e.body.isSnap, s.endedBy e.owner⟩
    else ⟨s.setOutbox (s.outbox.map fun e => { e with offered := false }), false, false, none⟩

/-- R72 is tested for the line of a client whose slot has ended. -/
def State.testEnded (s : State) : Option Client → State
  | some c => s.testClient c
  | none => s

/-- The one room event of the end of a round (R112): the owed notices are served, then the line of the slot that ended is tested:
what is owed is placed before what is submitted later. -/
def State.offerRoom (s : State) (room : Bool) (ended : Option Client) : State :=
  (if room then s.serveOwed else s).testEnded ended

/-- What the settling of a round that did not take the offered entry leads to in its event: the room offered, answers made where
R148 calls for them. -/
def Settled.close (before : State) (x : Settled) : State :=
  State.answersAfter before (x.state.offerRoom x.room x.ended) x.snap

/-- The end of a round that did not take the offered entry, as one event. -/
def State.settleKept (s : State) : State := (s.settle false).close s

/-- The carried entry's void count is increased (R99). -/
def State.countVoid (s : State) : State :=
  s.setOutbox (s.outbox.map fun e => if e.offered then { e with voids := e.voids + 1 } else e)

/-! ### Indications (R35, R36, R53, R56) -/

/-- Why a taken CLAIM is refused (R11, R12). -/
inductive ClaimRefusal where
  | notMember | duplicate | poolFull
deriving DecidableEq, Repr

/-- The CLAIM_ENDED reason of a refusal (R12, R51). -/
def ClaimRefusal.ends : ClaimRefusal → EndReason
  | .notMember => .refusedNotMember
  | .duplicate => .refusedDuplicate
  | .poolFull => .refusedPoolFull

/-- The cause of a member removal (R18, R35). -/
inductive RemovalCause where
  | leave | evict
deriving DecidableEq, Repr

/-- Indications of the Table Engine with their further content (R35, R36): `standing` is that of the record removed, none where
the notice found no record. -/
inductive Indication where
  | accepted
  | refused (reason : ClaimRefusal)
  | granted
  | withdrawn (standing : Option Standing)
  | released (forced : Bool) (standing : Option Standing)
  | removed (cause : RemovalCause) (standing : Standing)
deriving DecidableEq, Repr

/-- A refused CLAIM of a QUEUED slot (R53, R79, R80): a line slot refused POOL_FULL goes to RETRY; another refusal of a line slot
sets its re-arm flag where REQ is high. -/
def State.refuseQueued (s : State) (c : Client) (reason : ClaimRefusal) : State :=
  if (lineOf c).isSome ∧ reason = .poolFull then
    (s.setSlot c
      { s.slot c with state := .retry, outboxEntry := .none, lastEnd := reason.ends, retryMs := s.port.beaconInterval }).post
        (.claimEnded reason.ends) c
  else
    let t := s.endSlot c reason.ends
    (if reason = .poolFull then t else t.rearmIfHigh c).testClient c

/-- The slot of client c acts on an indication (table of R53). `ends` is the CLAIM_ENDED reason of the teardown in hand (R64, R65,
R141), on which a REMOVED ends its slot; no other indication reads it. -/
def State.indicate (s : State) (c : Client) (i : Indication) (ends : Option EndReason := none) : State :=
  let v := s.slot c
  match i, v.state with
  | .accepted, .queued => s.setSlot c { v with state := .waiting, outboxEntry := .none }
  | .accepted, .withdrawing =>
    if v.closing then
      if v.outboxEntry = .claim then s.setSlot c { v with outboxEntry := .none, removalPending := false } else s.mismatch
    else if v.removalPending then s.submitWithdraw c
    else s.mismatch
  | .refused r, .queued => s.refuseQueued c r
  | .refused r, .withdrawing => if v.outboxEntry = .claim then (s.endSlot c r.ends).testClient c else s.mismatch
  | .granted, .waiting => (s.setSlot c (s.leaseStart c 0)).post .claimGranted c
  | .granted, .withdrawing => s
  | .withdrawn _, .withdrawing => (s.endSlot c .withdrawn).testClient c
  | .released false _, .releasing => (s.endSlot c .released).testClient c
  | .released true _, .releasing => ((s.endSlot c .forced).rearmIfHigh c).testClient c
  | .removed _ _, _ => State.teardownSlot ends s c
  | _, _ => s.mismatch

end Sys2Proof.Machine
end

