-- ==== Sys2Proof/Machine/Engine.lean ====
section
/-! DEFINITION. The Table Engine on State: taken CLAIM, WITHDRAW and RELEASE, member removals and grant passes, with their
indications (01 sections 1.5 and 1.6, 02). `tell` is false for replayed notices, which give no indications (R21, R38). -/

namespace Sys2Proof.Machine

/-- An indication for a client of this station, where indications are given and the record is this station's (R35, R38). -/
def State.tellOwn (s : State) (tell : Bool) (station : Addr) (c : Client) (i : Indication) (ends : Option EndReason := none) :
    State :=
  if tell && decide (station = s.own) then s.indicate c i ends else s

/-- One grant indication for each record of this station granted, in the order of the grants (R36). -/
def State.tellGrants (tell : Bool) (s : State) (r : PoolRecord) : State := s.tellOwn tell r.station r.client .granted

/-- A grant pass over the pool held (R26 to R30), and its indications. Stopped at a failing record, it freezes the pool; the grants
made until then stand, with their indications given (R40). -/
def State.runPass (s : State) (tell : Bool) : State :=
  let p := grantPass s.port.threshold s.pool.records
  let t := p.granted.foldl (State.tellGrants tell) (s.setPool { s.pool with records := p.records })
  if p.failed then t.freeze else t

/-- A frozen pool is not touched, and no indication is given (R38, R40). A closing slot whose offered entry is taken meanwhile
therefore keeps its outbox entry and its removal pending flag until the teardown of the LEAVE, the model's choice beside R42 (log
39). -/
def State.withPool (s : State) (work : State → State) : State := if s.pool.frozen then s else work s

/-- The record an accepted CLAIM appends (R13). -/
def claimRecord (station : Addr) (client : Client) (cls : Class) (set : Mask) : PoolRecord :=
  ⟨station, client, set, cls, cls, 0, .waiting, true⟩

/-- A taken CLAIM that passed tests 1 and 2 of R11: the search for its pair decides test 3, or meets a failing record and stops the
work (R40); a full pool decides test 4; otherwise the record is appended (R12, R13) and a pass runs. -/
def State.admitClaim (tell : Bool) (station : Addr) (client : Client) (cls : Class) (set : Mask) (s : State) : State :=
  match searchPool station client s.pool.records with
  | .failing => s.freeze
  | .found _ => s.tellOwn tell station client (.refused .duplicate)
  | .missing =>
    if Config.poolCapacity ≤ s.pool.records.length then s.tellOwn tell station client (.refused .poolFull)
    else
      let t := s.setPool { s.pool with records := s.pool.records ++ [claimRecord station client cls set] }
      (t.tellOwn tell station client .accepted).runPass tell

/-- A taken CLAIM (R11 to R13): tests 1 and 2 read no pool record. -/
def State.takeClaim (s : State) (tell : Bool) (station : Addr) (client : Client) (cls : Class) (set : Mask) : State :=
  s.withPool fun s =>
    if s.session.members.stateOf station ≠ .present ∨ setValid s.port.n set = false then
      s.tellOwn tell station client (.refused .notMember)
    else s.admitClaim tell station client cls set

/-- The record of a pair is removed where the search finds it, the outcome indicated with the standing of the record removed, and a
pass run where a record was removed (R14, R16, R35). A search that meets a failing record stops the work (R40). -/
def State.dropRecord (tell : Bool) (station : Addr) (client : Client) (i : Option Standing → Indication) (s : State) : State :=
  let found := searchPool station client s.pool.records
  match found with
  | .failing => s.freeze
  | .missing => s.tellOwn tell station client (i found.standing)
  | .found _ =>
    let t := s.setPool { s.pool with records := withoutPair station client s.pool.records }
    (t.tellOwn tell station client (i found.standing)).runPass tell

/-- A taken WITHDRAW (R14). -/
def State.takeWithdraw (s : State) (tell : Bool) (station : Addr) (client : Client) : State :=
  s.withPool (State.dropRecord tell station client .withdrawn)

/-- A taken RELEASE (R16); a reason code of 2..15 is indicated as NORMAL (R194). -/
def State.takeRelease (s : State) (tell : Bool) (station : Addr) (client : Client) (reason : Fin 16) : State :=
  s.withPool (State.dropRecord tell station client (.released (decide (reason = 1))))

/-- One REMOVED indication, with its cause and the standing of the record removed (R18, R35); `ends` as for `State.indicate`. -/
def State.tellRemoved (tell : Bool) (cause : RemovalCause) (ends : Option EndReason) (s : State) (r : PoolRecord) : State :=
  s.tellOwn tell r.station r.client (.removed cause r.standing) ends

/-- Every record of the stations is removed in one step, REMOVED given in pool order, and one pass run where at least one
record was removed (R18, R37). The removal reads every record, and one that fails stops it before the step (R40). -/
def State.dropStations (tell : Bool) (cause : RemovalCause) (ends : Option EndReason) (stations : List Addr) (s : State) :
    State :=
  let gone := s.pool.records.filter fun r => decide (r.station ∈ stations)
  let rest := s.pool.records.filter fun r => decide (r.station ∉ stations)
  if s.poolFails then s.freeze
  else if gone.isEmpty then s
  else (gone.foldl (State.tellRemoved tell cause ends) (s.setPool { s.pool with records := rest })).runPass tell

/-- A member removal at the Table Engine (R17, R18). -/
def State.removeRecords (s : State) (tell : Bool) (cause : RemovalCause) (ends : Option EndReason) (stations : List Addr) :
    State :=
  if stations.isEmpty then s else s.withPool (State.dropStations tell cause ends stations)

/-- The pool effect of a notice (R125 step 4): the stations are those whose records the membership effect removes; `ends` as for
`State.indicate`. The cause of REMOVED is the kind of the notice, LEAVE also where a LEAVE of this station's address that it did not
carry evicts it, the model's choice (log 36). -/
def State.poolEffect (s : State) (tell : Bool) (n : Notice) (ends : Option EndReason) (stations : List Addr) : State :=
  match n.body with
  | .claim c k m => s.takeClaim tell n.sender c k m
  | .withdraw c => s.takeWithdraw tell n.sender c
  | .release c r => s.takeRelease tell n.sender c r
  | .leave _ => s.removeRecords tell .leave ends stations
  | .evict _ => s.removeRecords tell .evict ends stations
  | .found _ | .join _ | .admitJoiner _ _ | .refuse _ _ | .snapMembers _ | .snapClaim _ _ _ _ _ _ _ _ | .snapEnd _ _
  | .beacon _ _ _ => s

end Sys2Proof.Machine
end

