-- ==== Sys2Proof/Machine/SessionOps.lean ====
section
/-! DEFINITION. The Session Controller's handling of delivered notices by station state (07, 08, 09): listening and founding,
seeking, loading with catch-up and replay, application to the replica, sponsor's work, beacon comparison, leaving, eviction,
giving up and yielding. -/

namespace Sys2Proof.Machine

/-! ### Changes of station state (R126, R127, R134, R138, R143, R160, R171) -/

/-- The tag is replaced (R122). -/
def State.setTag (s : State) (tag : Word) : State := s.setSession { s.session with tag := tag }

/-- The station goes to SEEKING and places a JOIN with the tag it holds (R143). -/
def State.seek (s : State) (cause : Cause) : State := (s.enter .seeking cause).placeJoin

/-- The tag is discarded and the station goes to OFFLINE (R122). -/
def State.goOffline (s : State) (cause : Cause) : State := (s.setTag 0#16).enter .offline cause

/-- The tag is discarded, the listen window starts from zero and the station is LISTENING (R126, R134, R143). -/
def State.goListening (s : State) (cause : Cause) : State :=
  ((s.setTag 0#16).setTimers { s.timers with listen := some 0 }).enter .listening cause

/-- At STOP its unsent FOUND is removed (R113). -/
def State.removeFound (s : State) : State := s.requestRemoval fun e => e.body.isFound

/-- At STOP its unsent JOIN is removed (R113). -/
def State.removeJoin (s : State) : State := s.requestRemoval fun e => e.body.isJoin

/-- The listen window stops. -/
def State.stopListen (s : State) : State := s.setTimers { s.timers with listen := none }

/-- The answer limit stops. -/
def State.stopAnswer (s : State) : State := s.setTimers { s.timers with answer := none }

/-! ### Teardowns of the membership -/

/-- A LOADING or ANNOUNCING station gives up (R160). -/
def State.giveUp (s : State) (cause : Cause) : State := s.discard.clearOutbox.seek cause

/-- A LOADING station abandons (R159). -/
def State.abandon (s : State) : State := s.queueLeave .abandon

/-- The session yields to a greater tag (R171): the slots end first, then the replica is discarded and the Outbox cleared. -/
def State.yieldTo (s : State) (tag : Word) : State :=
  let t := ((s.teardown (some .sessionLost)).discard.clearOutbox).setTag tag
  (t.setTimers { t.timers with heard := false }).seek .sessionLost

/-- The station takes its own LEAVE: what follows the count, the membership effect and the removals (R134 steps 2 to 5). It ends
with an empty Outbox and owes nothing (R116, R117; log 35). The slots end by the reason of the LEAVE it queued (R64, R194). -/
def State.ownLeave (s : State) : State :=
  let t := (s.teardown (s.session.leaveReason.bind LeaveReason.ends)).discard.clearOutbox
  if s.session.leaveDest = some .offline then t.goOffline .left
  else if 0 < s.session.members.othersPresent s.own then t.seek .left
  else t.goListening .left

/-- The station is evicted: what follows the count, the membership effect and the removals (R138 steps 2 to 4; R160 in
ANNOUNCING and LOADING). `st` is the station state in which the notice was taken (log 31). -/
def State.evicted (s : State) (st : StationState) : State :=
  let t := (s.teardown (some .evicted)).discard.clearOutbox
  match st with
  | .leaving => if s.session.leaveDest = some .seeking then t.seek .evicted else t.goOffline .evicted
  | .active => if s.port.autoRejoin then t.seek .evicted else t.goOffline .evicted
  | .offline | .listening | .founding | .seeking | .backoff | .loading | .announcing | .faulted => t.seek .evicted

/-- Entry to FAULTED (R101, R142): Outbox and owed notices cleared, replica and tag discarded, every session timer stopped,
STATION_STATE posted, then the slots end. -/
def State.enterFaulted (s : State) (cause : Cause) : State :=
  let t := ((s.setOutbox .empty).dropOwed.discard).setTag 0#16
  (((t.setTimers .stopped).setBus { t.bus with voidRun := 0 }).enter .faulted cause).teardown (some .fault)

/-! ### Listening and founding (R127, R129) -/

/-- The table of a new session: the founder PRESENT, every other record ABSENT (R129). -/
def founderTable (own : Addr) : Table := Table.empty.write own .present none

/-- A FOUNDING station takes its own FOUND (R129); the change to ACTIVE is posted at the end of the event (`State.postActive`). -/
def State.found (s : State) (tag : Word) : State :=
  let s1 := s.setSession
    { s.session with members := founderTable s.own, founded := true, tag := tag, count := 0#16, leaveDest := none }
  let s2 := (s1.setPool ⟨[], false⟩).setTimers { s1.timers with beacon := some 0, absence := Timers.stopped.absence }
  let s3 := s2.setChecker { s2.checker with suspect := none, resyncPending := false }
  (s3.change .active).testLines

/-- A session is heard (R127). Its FOUND has been recalled (`State.recall`). -/
def State.hearSession (s : State) (tag : Word) : State := (s.stopListen.setTag tag).seek .sessionHeard

/-- A FOUND with another profile check is heard (R127). Its FOUND has been recalled. -/
def State.refuseFounder (s : State) : State := s.stopListen.goOffline .refusedProfile

/-- A notice that this station did not found by: R127 (the profile test is for a FOUND it did not carry). -/
def State.hear (s : State) (h : Heard) : State :=
  match h.notice.body with
  | .found k => if h.own = false ∧ k ≠ s.checker.profileCheck then s.refuseFounder else s.hearSession h.notice.tag
  | .join _ | .admitJoiner _ _ | .refuse _ _ | .snapMembers _ | .snapClaim _ _ _ _ _ _ _ _ | .snapEnd _ _ | .claim _ _ _
  | .withdraw _ | .release _ _ | .leave _ | .evict _ | .beacon _ _ _ => s.hearSession h.notice.tag

/-- A notice taken in FOUNDING (R127, R129). -/
def State.takeFounding (s : State) (h : Heard) : State :=
  if h.own then if h.notice.body.isFound then s.found h.notice.tag else s else s.hear h

/-! ### Seeking (R143, R144, R154) -/

/-- The heard flag is set by a notice this station did not carry (R143, R144). -/
def State.noteHeard (s : State) (own : Bool) : State :=
  if own then s else s.setTimers { s.timers with heard := true }

/-- A SEEKING station is admitted and enters LOADING (R154). Its JOIN has been recalled. -/
def State.enterLoading (s : State) (sponsor : Addr) (count : Word) : State :=
  let s2 := s.setSession { s.session with members := .empty, founded := true, count := count }
  let s3 := (s2.setPool ⟨[], false⟩).setJoiner ⟨some sponsor, .members, []⟩
  let s4 := s3.setTimers { s3.timers with answer := none, snapshot := some 0, beacon := some 0 }
  let s5 := s4.setBus { s4.bus with voidRun := 0 }
  let s6 := s5.setChecker { s5.checker with tableCheck := emptyCheck, suspect := none, resyncPending := false }
  s6.enter .loading .admitted

/-- A REFUSE that names a SEEKING station (table of R144; R194 for other codes). Its JOIN has been recalled. -/
def State.refused (s : State) (reason : Fin 16) (own : Bool) : State :=
  if reason = refuseBusy then
    (s.setTimers { s.timers with answer := none, backoff := some 0 }).enter .backoff .refusedBusy
  else if reason = refuseProfile then s.stopAnswer.goOffline .refusedProfile
  else if reason = refuseAddress then s.stopAnswer.goOffline .refusedAddress
  else s.noteHeard own

/-- A notice taken in SEEKING (R130, R143, R144, R169). -/
def State.takeSeeking (s : State) (h : Heard) : State :=
  if h.notice.tag ≠ s.session.tag then s
  else
    match h.notice.body with
    | .found _ => s
    | .join _ => if h.own then s.setTimers { s.timers with answer := some 0, heard := false } else s.noteHeard h.own
    | .admitJoiner j n => if j = s.own then s.enterLoading h.notice.sender n else s.noteHeard h.own
    | .refuse j r => if j = s.own then s.refused r h.own else s.noteHeard h.own
    | .snapMembers _ | .snapClaim _ _ _ _ _ _ _ _ | .snapEnd _ _ | .claim _ _ _ | .withdraw _ | .release _ _ | .leave _
    | .evict _ | .beacon _ _ _ => s.noteHeard h.own

/-! ### Application to the replica, steps 1 to 4 of R125 -/

/-- The session count is increased where the kind counts (R123). -/
def State.countNotice (s : State) (b : Body) : State :=
  if counted b then s.setSession { s.session with count := s.session.count + 1#16 } else s

/-- ADDRESS_CLASH for a notice with this station's address that it did not carry (R141). -/
def State.noteClash (s : State) (h : Heard) : State :=
  if h.notice.sender = s.own ∧ h.own = false then s.post .addressClash h.notice.sender else s

/-- Step 1 of R125, with the clash a notice shows and the member records its handling reads. That ADDRESS_CLASH stands before the
MEMBER_STATEs of the same notice is the model's choice (log 30). -/
def State.stepOne (s : State) (h : Heard) : State :=
  ((s.countNotice h.notice.body).noteClash h).readMembers (recordsRead h.notice)

/-- The sender's running absence timer restarts (R125 step 2, R135). -/
def State.restartAbsence (s : State) (sender : Addr) : State :=
  let st := s.session.members.stateOf sender
  if (st = .syncing ∨ st = .present) ∧ sender ≠ s.own then
    s.setTimers
      { s.timers with absence := s.timers.absence.set sender.val ((s.timers.absence.get sender).map fun _ => 0) sender.isLt }
  else s

/-- A changed record's absence timer (table of R135). -/
def State.changedTimer (s : State) (a : Addr) (st : MemberState) : Option Nat :=
  match st with
  | .absent => none
  | .syncing => if a ≠ s.own ∧ s.runsAbsence then some 0 else s.timers.absence.get a
  | .joining | .present => s.timers.absence.get a

/-- One changed record: its absence timer, and MEMBER_STATE (R121). -/
def State.memberChanged (s : State) (c : Addr × MemberState) : State :=
  (s.setTimers { s.timers with absence := s.timers.absence.set c.1.val (s.changedTimer c.1 c.2) c.1.isLt }).post
    (.memberState c.2) c.1

/-- The table is replaced. -/
def State.setMembers (s : State) (t : Table) : State := s.setSession { s.session with members := t }

/-- The membership effect with its timers and events (R125 step 3). -/
def State.liveMembers (s : State) (e : TableChange) : State := e.changes.foldl State.memberChanged (s.setMembers e.table)

/-! ### Local effects (R125 step 5) -/

/-- JOINER entries whose record left JOINING or names another sponsor are removed (R147). -/
def State.pruneAnswers (s : State) : State :=
  s.setSponsor
    { s.sponsor with answers := Vector.ofFn fun a : Addr =>
        match s.sponsor.answers.get a with
        | some (.joiner p) =>
          if s.session.members.stateOf a = .joining ∧ (s.session.members.get a).sponsor = some s.own then some (.joiner p)
          else none
        | x => x }

/-- The target a taken LEAVE or EVICT names (R115). -/
def namedTarget (n : Notice) : Option Addr :=
  match n.body with
  | .leave _ => some n.sender
  | .evict t => some t
  | .found _ | .join _ | .admitJoiner _ _ | .refuse _ _ | .snapMembers _ | .snapClaim _ _ _ _ _ _ _ _ | .snapEnd _ _
  | .claim _ _ _ | .withdraw _ | .release _ _ | .beacon _ _ _ => none

/-- The suspect is cleared where its record has left PRESENT (R166). -/
def State.clearSuspect (s : State) : State :=
  match s.checker.suspect with
  | some a =>
    if s.session.members.stateOf a = .present then s
    else (s.setChecker { s.checker with suspect := none }).post (.divergence .cleared) a
  | none => s

/-- Serving ends at the taking of the station's own SNAP-END (R153). -/
def State.checkServing (s : State) (h : Heard) : State :=
  match h.own, h.notice.body with
  | true, .snapEnd _ _ => s.setSponsor { s.sponsor with serving := none }
  | _, _ => s

/-- An answer-list entry is made, replacing any the address had (R147). -/
def State.setAnswer (s : State) (a : Addr) (x : Answer) : State :=
  s.setSponsor { s.sponsor with answers := s.sponsor.answers.set a.val (some x) a.isLt }

/-- The answer list after a JOIN has been applied at an ACTIVE station (R147). -/
def State.listJoin (s : State) (sender : Addr) (check : Word) : State :=
  match s.session.members.stateOf sender with
  | .joining =>
    if (s.session.members.get sender).sponsor = some s.own then
      s.setAnswer sender (.joiner (decide (check = s.checker.profileCheck)))
    else s
  | .syncing | .present => if s.session.members.clashAnswerer sender = some s.own then s.setAnswer sender .clash else s
  | .absent => s

/-- The sponsor copies its replica and serves, or finds a failing record (R151). -/
def State.startServing (s : State) (joiner : Addr) : State :=
  if s.poolFails then s.freeze
  else if s.membersFail sixteen then s.upset
  else
    s.setSponsor
      { s.sponsor with
        serving := some
          ⟨joiner, s.session.members, s.pool.records, tableCheckOf s.session.members s.pool.records, .members⟩ }

/-- The sender's part in its own ADMIT (R150, R151). -/
def State.ownAdmit (s : State) (joiner : Addr) (effective : Bool) : State :=
  if effective then s.startServing joiner
  else if s.session.members.stateOf joiner = .joining ∧ (s.session.members.get joiner).sponsor = some s.own then
    s.setAnswer joiner (.joiner true)
  else s

/-- A beacon comparison has been made (table of R166). -/
def State.compared (s : State) (sender : Addr) (equal : Bool) : State :=
  match equal, s.checker.suspect with
  | false, none => (s.setChecker { s.checker with suspect := some sender }).post (.divergence .recorded) sender
  | false, some a =>
    if a = sender then s
    else
      ((s.setChecker { s.checker with suspect := none, resyncPending := true }).post (.divergence .resync) sender).queueLeave
        .resync
  | true, none => s
  | true, some a => (s.setChecker { s.checker with suspect := none }).post (.divergence .cleared) a

/-- A BEACON applied (R140, R165): the station's own makes it ACTIVE where it made its record PRESENT in ANNOUNCING (the change is
posted at the end of the event, `State.postActive`), and its latched lines are tested (R73); another's
is compared by an ACTIVE station. The current table check is still the one from before the notice (R163). -/
def State.takeBeacon (s : State) (h : Heard) (promoted : Bool) (check count : Word) (sync : Bool) : State :=
  match s.session.station with
  | .announcing => if h.own && promoted && decide (h.notice.sender = s.own) then (s.change .active).testLines else s
  | .active =>
    if sync = true ∧ h.notice.sender ≠ s.own ∧ s.session.members.stateOf h.notice.sender = .present then
      s.compared h.notice.sender (decide (check = s.checker.tableCheck) && decide (count = s.session.count))
    else s
  | .offline | .listening | .founding | .seeking | .backoff | .loading | .leaving | .faulted => s

/-- The local effects of a kind (R125 step 5). An own effective ADMIT that is taken in LEAVING starts no serving (log 32). -/
def State.kindEffects (s : State) (h : Heard) (e : TableChange) : State :=
  match h.notice.body with
  | .join k => if s.session.station = .active then s.listJoin h.notice.sender k else s
  | .admitJoiner j _ => if s.session.station = .active ∧ h.own then s.ownAdmit j (decide (e.changes ≠ [])) else s
  | .beacon k n sync => s.takeBeacon h (decide (e.changes ≠ [])) k n sync
  | .found _ | .refuse _ _ | .snapMembers _ | .snapClaim _ _ _ _ _ _ _ _ | .snapEnd _ _ | .claim _ _ _ | .withdraw _
  | .release _ _ | .leave _ | .evict _ => s

/-- The local effects of an applied notice that does not end the station's membership. A suspect whose record the notice takes out of
PRESENT is cleared here, with its event; where a storage upset in an earlier step of the event has taken the station out of ACTIVE,
it has been cleared without one by then, the model's choice (R166; log 41). -/
def State.localEffects (s : State) (h : Heard) (e : TableChange) : State :=
  (s.pruneAnswers.clearSuspect.checkServing h).kindEffects h e

/-! ### A notice of the session in ANNOUNCING, ACTIVE or LEAVING (R125) -/

/-- A LEAVE with this station's address that is not its own LEAVE taken in LEAVING, or an EVICT that names it (R138, R141). -/
def losesPlace (own : Addr) (n : Notice) : Bool := decide (namedTarget n = some own)

/-- How a taken notice ends this station's membership: its own LEAVE (R134), an eviction (R138, R141, R160), or the loss of its
sponsor in ANNOUNCING (R160). -/
inductive Ending where
  | left
  | evicted
  | sponsorLost
deriving DecidableEq, Repr

/-- Whether a notice with membership effect e ends the membership of a station that takes it in state `st`, and how. -/
def ending (own : Addr) (st : StationState) (h : Heard) (e : TableChange) : Option Ending :=
  match h.own, st, h.notice.body with
  | true, .leaving, .leave _ => some .left
  | _, _, _ =>
    if losesPlace own h.notice then some .evicted
    else if st = .announcing ∧ e.changes.any (fun c => decide (c = (own, MemberState.absent))) = true then some .sponsorLost
    else none

/-- The CLAIM_ENDED reason on which a REMOVED of this notice ends a slot (R64, R65, R141): that of the LEAVE this station queued,
whatever reason the LEAVE taken carries (R194), and EVICTED else. -/
def removalReason (queued : Option LeaveReason) : Option Ending → Option EndReason
  | some .left => queued.bind LeaveReason.ends
  | some .evicted | some .sponsorLost | none => some .evicted

/-- Steps 1 to 4 of R125 for a notice with membership effect e. -/
def State.fourSteps (s : State) (h : Heard) (e : TableChange) (ends : Option EndReason) : State :=
  let t := ((s.stepOne h).restartAbsence h.notice.sender).liveMembers e
  t.poolEffect true h.notice ends (removedStations h.notice e.changes)

/-- The end of the membership after steps 1 to 4; `st` is the state in which the notice was taken. -/
def State.endMembership (s : State) (st : StationState) : Ending → State
  | .left => s.ownLeave
  | .evicted => s.evicted st
  | .sponsorLost => s.giveUp .sponsorLost

/-- A notice applied to the replica (R125). One that ends the membership has its steps made as in LEAVING, so that an upset met in
them is reported and queues no LEAVE, and the one change of station state is the ending's (R120, R167; log 31). -/
def State.applyNotice (s : State) (h : Heard) : State :=
  let e := memberEffect s.session.members h.notice
  let x := ending s.own s.session.station h e
  match x with
  | some y => ((s.change .leaving).fourSteps h e (removalReason s.session.leaveReason x)).endMembership s.session.station y
  | none => (s.fourSteps h e (removalReason s.session.leaveReason x)).localEffects h e

/-! ### Session tags (R169, R171) -/

/-- A notice that bears another tag in LOADING, ANNOUNCING, ACTIVE or LEAVING: ignored where lower; where greater, the session
yields, except for FOUND and JOIN (R169). -/
def State.otherTag (s : State) (n : Notice) : State :=
  if n.tag < s.session.tag then s
  else if n.body.isFound || n.body.isJoin then s
  else s.yieldTo n.tag

/-- A notice taken in ANNOUNCING, ACTIVE or LEAVING; a FOUND has no effect (R130). -/
def State.takeMember (s : State) (h : Heard) : State :=
  if h.notice.body.isFound then s
  else if h.notice.tag = s.session.tag then s.applyNotice h
  else s.otherTag h.notice

/-! ### Loading (R155 to R160) -/

/-- A SNAP-MEMBERS of the recorded sponsor (R155). -/
def State.buildMembers (s : State) (v : Vector Byte 16) : State :=
  if s.joiner.building = .members then
    let t := s.setMembers (tableOfBytes v)
    if t.session.members.stateOf t.own = .syncing ∧ (t.session.members.get t.own).sponsor = t.joiner.sponsor then
      t.setJoiner { t.joiner with building := .claims }
    else t.abandon
  else s

/-- A SNAP-CLAIM of the recorded sponsor (R20, R155, R194). -/
def State.buildClaim (s : State) (position : Byte) (r : Option PoolRecord) : State :=
  match r with
  | some x =>
    if s.joiner.building = .claims ∧ position.toNat = s.pool.records.length ∧
        s.pool.records.length < Config.poolCapacity then
      s.setPool { s.pool with records := s.pool.records ++ [x] }
    else s
  | none => s

/-- One buffered notice is replayed with the effects of steps 1, 3 and 4 of R125 (R157); a storage upset ends the replay. -/
def State.replay (s : State) (h : Heard) : State :=
  if s.session.station = .loading then
    let s1 := s.stepOne h
    let e := memberEffect s1.session.members h.notice
    (s1.setMembers e.table).poolEffect false h.notice none (removedStations h.notice e.changes)
  else s

/-- An absence timer from zero for every other SYNCING or PRESENT record (R135, R157). -/
def State.absenceStart (s : State) : Vector (Option Nat) 16 :=
  Vector.ofFn fun a : Addr =>
    if a ≠ s.own ∧ (s.session.members.stateOf a = .syncing ∨ s.session.members.stateOf a = .present) then some 0 else none

/-- Steps 3 to 5 of R157. -/
def State.announce (s : State) : State :=
  let s1 := s.setTimers { s.timers with absence := s.absenceStart, snapshot := none }
  ((s1.setJoiner .none).enter .announcing .snapshotDone).submitBeacon

/-- The final pass of a completed snapshot (R34); a pool that a failing record froze stays as it is. -/
def State.finalPass (s : State) : State := s.withPool fun t => t.runPass false

/-- A complete snapshot (R157): replay, one more pass, ANNOUNCING. -/
def State.complete (s : State) : State :=
  let t := s.joiner.catchUp.foldl State.replay s
  if t.session.station = .loading then
    let u := t.finalPass
    if u.session.station = .loading then u.announce else u
  else t

/-- A SNAP-END of the recorded sponsor (R157): every record is read to work out the check (R163). -/
def State.endSnapshot (s : State) (check : Word) (count : Byte) : State :=
  let t := if s.poolFails then s.freeze else s.readMembers sixteen
  if t.session.station = .loading then
    if check = tableCheckOf t.session.members t.pool.records ∧ count.toNat = t.pool.records.length then t.complete
    else t.abandon
  else t

/-- A notice goes to the tail of the catch-up buffer, or overflows it (R156). -/
def State.buffer (s : State) (h : Heard) : State :=
  if s.joiner.catchUp.length < Config.catchUpCapacity then
    s.setJoiner { s.joiner with catchUp := s.joiner.catchUp ++ [h] }
  else s.abandon

/-- A notice of the session taken in LOADING (R155, R156, R160). -/
def State.load (s : State) (h : Heard) : State :=
  let fromSponsor := decide (some h.notice.sender = s.joiner.sponsor)
  match h.notice.body with
  | .found _ => s
  | .snapMembers v => if fromSponsor then s.buildMembers v else s.buffer h
  | .snapClaim p st c m rq ef ps sd =>
    if fromSponsor then s.buildClaim p (snapRecord s.port.n st c m rq ef ps sd) else s.buffer h
  | .snapEnd k n => if fromSponsor then s.endSnapshot k n else s.buffer h
  | .leave _ => if fromSponsor then s.giveUp .sponsorLost else s.buffer h
  | .evict t =>
    if t = s.own then s.giveUp .evicted
    else if some t = s.joiner.sponsor then s.giveUp .sponsorLost
    else s.buffer h
  | .join _ | .admitJoiner _ _ | .refuse _ _ | .claim _ _ _ | .withdraw _ | .release _ _ | .beacon _ _ _ => s.buffer h

/-- A notice taken in LOADING (R130, R169). -/
def State.takeLoading (s : State) (h : Heard) : State :=
  if h.notice.body.isFound then s
  else if h.notice.tag = s.session.tag then s.load h
  else s.otherTag h.notice

/-! ### Delivery (R96, R97, R125, R163) -/

/-- A delivered notice by station state (R125, R169). -/
def State.handle (s : State) (h : Heard) : State :=
  match s.session.station with
  | .offline | .faulted | .backoff => s
  | .listening => s.hear h
  | .founding => s.takeFounding h
  | .seeking => s.takeSeeking h
  | .loading => s.takeLoading h
  | .announcing | .active | .leaving => s.takeMember h

/-! ### The dating of what a taken round posts ahead of its notice's effects (R96, R183) -/

/-- The session count is replaced. -/
def State.setCount (s : State) (n : Word) : State := s.setSession { s.session with count := n }

/-- The session count with a taken notice applied to the replica (R123); that of a notice which is not applied stays. -/
def State.countAfter (s : State) (n : Notice) : Word :=
  if s.session.station.applies && decide (n.tag = s.session.tag) && counted n.body then s.session.count + 1#16 else s.session.count

/-- Work in the event of a taken notice that comes ahead of the notice's own effects: what it posts carries the session count with the
notice applied (R183), and the count stands as before when it is done. -/
def State.dated (s : State) (n : Notice) (work : State → State) : State :=
  (work (s.setCount (s.countAfter n))).setCount s.session.count

/-! ### The room of a taken notice (R112, R113) -/

/-- An owed SNAP is dropped (R153). -/
def State.dropOwedSnap (s : State) : State :=
  match s.sponsor.owedAnswer with
  | some b => if b.isSnap then s.setSponsor { s.sponsor with owedAnswer := none } else s
  | none => s

/-- Unsent entries are asked back (R113); the room is offered later in the event. -/
def State.askBack (s : State) (test : Entry → Bool) : State := s.setOutbox (s.outbox.removeUnsent test)

/-- The station's own EVICT of the target a taken LEAVE or EVICT names is asked back, and an owed one dropped (R115). -/
def State.recallEvict (s : State) (n : Notice) : State :=
  match namedTarget n with
  | some t =>
    (s.setSponsor { s.sponsor with owedEvicts := s.sponsor.owedEvicts.set t.val false t.isLt }).askBack
      fun e => e.body.isEvictOf t
  | none => s

/-- Serving ends where the notice makes the joiner's record ABSENT: unsent SNAP entries are asked back, an owed SNAP is dropped
(R153). -/
def State.recallSnaps (s : State) (n : Notice) : State :=
  match s.sponsor.serving with
  | none => s
  | some v =>
    if (memberEffect s.session.members n).table.stateOf v.joiner = .absent then
      (s.setSponsor { s.sponsor with serving := none }).dropOwedSnap.askBack fun e => e.body.isSnap
    else s

/-- A SEEKING station takes its answer: an ADMIT or a REFUSE of a known reason that names it (R144, R154). -/
def State.answersJoin (s : State) (n : Notice) : Bool :=
  decide (n.tag = s.session.tag) &&
    match n.body with
    | .admitJoiner j _ => decide (j = s.own)
    | .refuse j r => decide (j = s.own) && (decide (r = refuseBusy) || decide (r = refuseProfile) || decide (r = refuseAddress))
    | .found _ | .join _ | .snapMembers _ | .snapClaim _ _ _ _ _ _ _ _ | .snapEnd _ _ | .claim _ _ _ | .withdraw _
    | .release _ _ | .leave _ | .evict _ | .beacon _ _ _ => false

/-- The requests of R113 that the taking of a notice leads to, made ahead of its other effects, so that what they free and what the
round's settling freed is one room event (R112; log 34). -/
def State.recall (s : State) (h : Heard) : State :=
  match s.session.station with
  | .listening => s.askBack fun e => e.body.isFound
  | .founding => if h.own then s else s.askBack fun e => e.body.isFound
  | .seeking => if s.answersJoin h.notice then s.askBack fun e => e.body.isJoin else s
  | .announcing | .active | .leaving =>
    if h.notice.tag = s.session.tag ∧ h.notice.body.isFound = false then
      (s.recallEvict h.notice).recallSnaps h.notice
    else s
  | .offline | .backoff | .loading | .faulted => s

/-- What the taking of a notice recalls leaves the Outbox, and the one room event of the notice follows: `room` says that an entry
left when its round was settled, `ended` whose slot ended then. A slot-busy refusal met in it (R110) is dated with the notice applied
(R183), and the notice is then handled by the state that the room event leaves (log 34). -/
def State.makeRoom (s : State) (h : Heard) (room : Bool) (ended : Option Client) : State :=
  let t := s.recall h
  t.dated h.notice fun u => u.offerRoom (room || decide (t.outbox.entries.length < s.outbox.entries.length)) ended

/-! ### The end of the event of a taken notice (R120, R148, R163) -/

/-- The event leaves the current table check as it stands. In LOADING nothing but the completed snapshot gives a new one: the partial
replica is not read (R21, R163, R173). A station that abandons keeps the check it held in LOADING until a notice changes what it
applies notices to, the model's choice (log 29). In the other states the check stands where table and pool do. -/
def State.keepsCheck (s before : State) : Bool :=
  match before.session.station with
  | .loading => decide (s.session.station ≠ .announcing)
  | .announcing | .active | .leaving | .offline | .listening | .founding | .seeking | .backoff | .faulted =>
    decide (s.session.members = before.session.members ∧ s.pool.records = before.pool.records ∧
      s.checker.tableCheck = before.checker.tableCheck)

/-- The current table check is worked out afresh at the end of an event that changed table or pool (or emptied them, R173), reading
every record (R163, R167). -/
def State.recheck (before s : State) : State :=
  if s.keepsCheck before then s
  else
    let t := s.setChecker { s.checker with tableCheck := tableCheckOf s.session.members s.pool.records }
    if t.poolFails then t.freeze else t.readMembers sixteen

/-- The entry to ACTIVE is posted once the whole event is made, with the cause of the state it was made from: an upset met later in
the event is then the only change of station state that the event posts (R120). -/
def State.postActive (before : StationState) (s : State) : State :=
  match before, s.session.station with
  | .founding, .active => s.post (.stationState .active .founded) s.own
  | .announcing, .active => s.post (.stationState .active .synced) s.own
  | _, _ => s

/-- Every effect of a taken notice, made as one event: room, the handling by station state, the table check afresh, and at the end
the sponsor's answers and snapshot notices (R148). -/
def State.takeNotice (s : State) (h : Heard) (room : Bool) (ended : Option Client) : State :=
  let t := s.makeRoom h room ended
  State.postActive s.session.station (State.recheck s (t.handle h)).makeAnswers

end Sys2Proof.Machine
end

