-- ==== Sys2Proof/Machine/Rounds.lean ====
section
/-! DEFINITION. Commands of the Claim Bus (05): the start and the end of a round, the stuck bus, the making of a delivered
notice's effects, and the room event (06). -/

namespace Sys2Proof.Machine

/-- What a command answers. -/
abbrev Outcome := Host.Outcome State Fault Refusal

/-! ### Parts of a round -/

/-- The bus with no round in progress. -/
def State.endRound (s : State) : State := s.setBus { s.bus with round := none }

/-- The effects of a delivered notice that are still to be made are made (R97): at the end of the next round, before any command that
can change the station state, since the state at delivery decides the handling (R125), and before any read of the station (R22;
log 5). -/
def State.flush (s : State) : State :=
  match s.bus.delivered with
  | none => s
  | some h => (s.setBus { s.bus with delivered := none }).takeNotice h false none

/-- Delivery of a round's notice once its offered entry is settled, unless the station is OFFLINE or FAULTED (R96). Effects made at
once are one event with the settling, and share its room event (R112); with effects made later the room is offered first (R97). What
the room leads to is dated as the settling is, with the notice applied, whenever its effects are made (R96, R183). -/
def Settled.deliver (x : Settled) (h : Heard) (effects : Timing) : State :=
  if x.state.session.station.delivers then
    match effects with
    | .atOnce => x.state.takeNotice h x.room x.ended
    | .later =>
      let t := x.state.dated h.notice fun s => s.offerRoom x.room x.ended
      t.setBus { t.bus with delivered := some h }
  else x.state.offerRoom x.room x.ended

/-- The pointer after a taken notice: (sender + 1) mod 16 (R90). -/
def pointerAfter (sender : Addr) : Addr := sender + 1

/-- Settling, own-void run and pointer at the end of a round taken (R96 steps 1 to 4). Settling and taking are one event, so a
CLAIM_ENDED(WITHDRAWN) that the settling posts carries the session count with the notice applied (R183), whenever its effects are
made. -/
def State.takeRound (s : State) (h : Heard) : Settled :=
  let x := (s.setCount (s.countAfter h.notice)).settle h.own
  let t := x.state.setCount s.session.count
  { x with state := t.setBus { t.bus with voidRun := 0, pointer := pointerAfter h.notice.sender, round := none } }

/-- The end of a round that is taken (R96). -/
def State.endTaken (s : State) (h : Heard) (effects : Timing) : State := (s.takeRound h).deliver h effects

/-- The end of a round that this station missed, or that was cut short: the offered entry is settled as lost (R95, R103,
R114; log 16). -/
def State.endUntaken (s : State) : State := s.settleKept.endRound

/-- This station contends in the round and its number is not below `winning`: then it would itself have won (R88). -/
def Round.wouldWin (r : Round) (winning : Byte) : Bool :=
  match r.number with
  | some n => decide (winning ≤ n)
  | none => false

/-- A station that is to carry: it contended in the round and offers an entry. -/
def State.carries (s : State) : Bool := s.outbox.offered.isSome

/-! ### ROUND_START -/

/-- ROUND_START (R84, R86, R104): a round begins on an idle bus; a station with an Outbox entry contends with its first entry.
No round begins in bus-stuck state, in a round, or while RESETN is asserted. -/
def State.roundStart (s : State) : State :=
  if s.resetHeld || s.bus.stuck || s.bus.round.isSome then s
  else
    match s.outbox.entries with
    | [] => s.setBus { s.bus with round := some ⟨none⟩ }
    | e :: _ =>
      if s.session.station = .faulted then s.setBus { s.bus with round := some ⟨none⟩ }
      else (s.setOutbox s.outbox.offerFirst).setBus { s.bus with round := some ⟨some (s.numberOf e)⟩ }

/-- ROUND_START. -/
def execRoundStart (s : State) : Outcome := .next s.roundStart

/-! ### ROUND_TAKEN -/

/-- The end of a taken round that this station carried (R96). -/
def State.takeOwn (s : State) (effects : Timing) : State :=
  match s.outbox.offered with
  | none => s
  | some e => s.endTaken ⟨s.filled e, true⟩ effects

/-- The end of a round another station carried, as this listener received it: taken, or missed with a reception fault where the
station does not vote (R93, R95). A voting station with a fault has voided the round, so this is then no end of a taken
round. -/
def State.takeOther (s : State) (received : Reception) (effects : Timing) : State :=
  match received with
  | .notice n => s.endTaken ⟨n, false⟩ effects
  | .fault _ => if s.session.station.inSession then s else s.endUntaken

/-- ROUND_TAKEN (R95, R96, R97): the effects of the notice before are made first (R163). -/
def State.roundTaken (s : State) (hearing : Hearing) (effects : Timing) : State :=
  match s.bus.round with
  | none => s
  | some r =>
    match hearing with
    | .own => if s.carries then s.flush.takeOwn effects else s
    | .other winning bytes =>
      if r.wouldWin winning then s else s.flush.takeOther (receive winning bytes) effects

/-- ROUND_TAKEN. -/
def execRoundTaken (hearing : Hearing) (effects : Timing) (s : State) : Outcome := .next (s.roundTaken hearing effects)

/-! ### ROUND_VOIDED -/

/-- The own-void run after a voided round: one more where this station pulled CBV as a listener (R93, R98, R100). -/
def State.runAfter (s : State) (carried : Bool) (fault : Option ReceptionFault) : Nat :=
  if !carried && fault.isSome && s.session.station.inSession then s.bus.voidRun + 1 else s.bus.voidRun

/-- The void count of the offered entry after a voided round it was carried in has reached its limit (R99, R114). -/
def State.voidLimitReached (s : State) (carried : Bool) : Bool :=
  match s.outbox.offered with
  | some e => carried && decide (Config.voidLimit ≤ e.voids + 1)
  | none => false

/-- Settling and own-void run at the end of a voided round (R98). -/
def State.voidRound (s : State) (carried : Bool) (fault : Option ReceptionFault) : Settled :=
  let x := (if carried then s.countVoid else s).settle false
  { x with state := x.state.setBus { x.state.bus with voidRun := s.runAfter carried fault, round := none } }

/-- The end of a voided round (R98 to R101). A fall to FAULTED comes after the settling of the offered entry and before the event's
room, R72's test of a slot that ended and the answers, so that it is the one change of station state the event posts (R101, R120);
that R72 is not tested ahead of it is the model's choice (log 37). A CLAIM_ENDED(WITHDRAWN) that the settling posts carries the count
still held, though the FAULT events of the same event carry 0: the model's reading (R183; log 18). -/
def State.endVoided (s : State) (carried : Bool) (fault : Option ReceptionFault) : State :=
  let x := s.voidRound carried fault
  if s.voidLimitReached carried then x.state.enterFaulted .voidLimit
  else if Config.voidRunLimit ≤ s.runAfter carried fault then x.state.enterFaulted .receiveLimit
  else x.close s

/-- ROUND_VOIDED (R98): `won` says that this station carried, which needs an offered entry. -/
def State.roundVoided (s : State) (won : Bool) (fault : Option ReceptionFault) : State :=
  match s.bus.round with
  | none => s
  | some _ => if won && !s.carries then s else s.flush.endVoided won fault

/-- ROUND_VOIDED. -/
def execRoundVoided (won : Bool) (fault : Option ReceptionFault) (s : State) : Outcome := .next (s.roundVoided won fault)

/-! ### ROUND_MISSED -/

/-- ROUND_MISSED (R95): only a station that does not vote misses a round; which fault it found changes nothing. -/
def State.roundMissed (s : State) : State :=
  match s.bus.round with
  | none => s
  | some _ => if s.flush.session.station.inSession then s else s.flush.endUntaken

/-- ROUND_MISSED. -/
def execRoundMissed (_fault : ReceptionFault) (s : State) : Outcome := .next s.roundMissed

/-! ### The stuck bus -/

/-- BUS_STUCK (R103, R104), after the effects of a delivered notice (log 5). The event is posted before the CLAIM_ENDED(WITHDRAWN) of
an offered CLAIM that the cut-short round removes, the model's choice (log 38). -/
def State.busStuck (s : State) : State :=
  if s.resetHeld || s.bus.stuck then s
  else
    let t := s.flush
    ((t.setBus { t.bus with stuck := true }).post .busStuck t.own).endUntaken

/-- BUS_STUCK. -/
def execBusStuck (s : State) : Outcome := .next s.busStuck

/-- BUS_RECOVERED (R105): every running absence timer restarts from zero; the other timers go on from their values. -/
def State.busRecovered (s : State) : State :=
  if s.resetHeld || !s.bus.stuck then s
  else
    ((s.setBus { s.bus with stuck := false }).setTimers
      { s.timers with absence := s.timers.absence.map fun t => t.map fun _ => 0 }).post .busRecovered s.own

/-- BUS_RECOVERED. -/
def execBusRecovered (s : State) : Outcome := .next s.busRecovered

/-! ### Effects made later, room served -/

/-- NOTICE_EFFECTS_MADE (R97). -/
def execNoticeEffectsMade (s : State) : Outcome := .next s.flush

/-- OWED_NOTICE_PLACED (R112). -/
def execOwedNoticePlaced (s : State) : Outcome := .next s.flush.roomEvent

end Sys2Proof.Machine
end

