-- ==== Sys2Proof/Machine/Lines.lean ====
section
/-! DEFINITION. Commands of reset and straps (R70, R106, R195) and of the client lines (04). -/

namespace Sys2Proof.Machine

/-! ### Reset -/

/-- HARDWARE_RESET: RESETN is asserted and every block takes its reset values (R41, R43, R70, R106, R142, R161, R173, R192); the
commands still waiting are not part of the station. -/
def State.hardwareReset (s : State) : State := { State.reset with pending := s.pending }

/-- HARDWARE_RESET. -/
def execHardwareReset (s : State) : Outcome := .next s.hardwareReset

/-- RESET_RELEASE: the straps are sampled (R195). -/
def State.resetRelease (s : State) (address : Addr) (fast : Bool) : State :=
  if s.resetHeld then { s with resetHeld := false, straps := ⟨address, fast⟩ } else s

/-- RESET_RELEASE. -/
def execResetRelease (address : Addr) (fast : Bool) (s : State) : Outcome := .next (s.resetRelease address fast)

/-! ### REQ

An edge that is handed on can start or let go a claim, and so change the station state (R56): the effects of a delivered notice are
made ahead of it (R125; log 5). -/

/-- The station that an edge meets: at once with the effects of a delivered notice made, later as it stands. -/
def State.meet (s : State) : Timing → State
  | .atOnce => s.flush
  | .later => s

/-- REQ_RISE (R71 to R74): no rise where the sampled level is high already. A disabled line keeps its level alone. -/
def State.reqRise (s : State) (line : LineNo) (handOn : Timing) : State :=
  if s.resetHeld || (s.line line).req then s
  else if s.port.lineEnabled line then
    let t := s.meet handOn
    (t.setLine line { t.line line with req := true }).edge line .rise handOn
  else s.setLine line { s.line line with req := true }

/-- REQ_RISE. -/
def execReqRise (line : LineNo) (handOn : Timing) (s : State) : Outcome := .next (s.reqRise line handOn)

/-- REQ_FALL (R71, R75, R78): the fall of an enabled line also clears its re-arm flag. -/
def State.reqFall (s : State) (line : LineNo) (handOn : Timing) : State :=
  if s.resetHeld || !(s.line line).req then s
  else if s.port.lineEnabled line then
    let t := s.meet handOn
    (t.setLine line { t.line line with req := false, rearm := false }).edge line .fall handOn
  else s.setLine line { s.line line with req := false }

/-- REQ_FALL. -/
def execReqFall (line : LineNo) (handOn : Timing) (s : State) : Outcome := .next (s.reqFall line handOn)

/-- EDGE_HANDED_ON (R71): the oldest edge that waits is handed on. -/
def State.edgeHandedOn (s : State) (line : LineNo) : State :=
  match (s.line line).edges with
  | [] => s
  | e :: es =>
    let t := s.flush
    (t.setLine line { t.line line with edges := es }).handEdge line e

/-- EDGE_HANDED_ON. -/
def execEdgeHandedOn (line : LineNo) (s : State) : Outcome := .next (s.edgeHandedOn line)

end Sys2Proof.Machine
end

