-- ==== Sys2Proof/Machine/Expiries.lean ====
section
/-! DEFINITION. Timer expiries (R58, R60, R62, R128, R136, R139, R143, R145, R159) and the tick of the local timebase that leads to
them (R46, R135; log 1, 2, 23). -/

namespace Sys2Proof.Machine

/-! ### Session timers -/

/-- The founding counter goes up by one, and from 4095 to 1; the tag is the counter and the own address (R124). -/
def State.nextTag (s : State) : State :=
  let counter : BitVec 12 := if s.session.counter = 4095#12 then 1#12 else s.session.counter + 1#12
  s.setSession { s.session with counter := counter, tag := counter ++ BitVec.ofNat 4 s.own.val }

/-- The rotation pointer is set to 0 (R128). -/
def State.zeroPointer (s : State) : State := s.setBus { s.bus with pointer := 0 }

/-- The FOUND with the tag held and the profile check is placed (R128). -/
def State.placeFound (s : State) : State := (s.submit (.found s.checker.profileCheck)).1

/-- An expiry that can change the station state acts where its timer runs. The effects of a delivered notice are made first, by the
state at delivery (R125; log 5), and may stop the timer. -/
def State.expire (s : State) (runs : State → Bool) (act : State → State) : State :=
  if runs s then if runs s.flush then act s.flush else s.flush else s

/-- The listen window runs (R126, R104). -/
def State.listenRuns (s : State) : Bool :=
  s.timers.listen.isSome && decide (s.session.station = .listening) && !s.bus.stuck

/-- The listen window ends: counter, tag, pointer, FOUND, FOUNDING (R124, R128). -/
def State.endListening (s : State) : State := s.stopListen.nextTag.zeroPointer.placeFound.enter .founding .listenEnd

/-- LISTEN_WINDOW_EXPIRY (R124, R128). -/
def State.listenWindowExpiry (s : State) : State := s.expire State.listenRuns State.endListening

/-- LISTEN_WINDOW_EXPIRY. -/
def execListenWindowExpiry (s : State) : Outcome := .next s.listenWindowExpiry

/-- The answer limit runs (R143, R104). -/
def State.answerRuns (s : State) : Bool :=
  s.timers.answer.isSome && decide (s.session.station = .seeking) && !s.bus.stuck

/-- No answer came: heard, a new JOIN; not heard, LISTENING (R143). -/
def State.endSeeking (s : State) : State :=
  if s.timers.heard then s.stopAnswer.placeJoin else s.stopAnswer.goListening .sessionSilent

/-- ANSWER_LIMIT_EXPIRY (R143). -/
def State.answerLimitExpiry (s : State) : State := s.expire State.answerRuns State.endSeeking

/-- ANSWER_LIMIT_EXPIRY. -/
def execAnswerLimitExpiry (s : State) : Outcome := .next s.answerLimitExpiry

/-- The backoff wait runs; a stuck bus does not pause it (R104, R145). -/
def State.backoffRuns (s : State) : Bool := s.timers.backoff.isSome && decide (s.session.station = .backoff)

/-- The backoff wait is over (R145). -/
def State.endBackoff (s : State) : State :=
  (s.setTimers { s.timers with backoff := none, heard := false }).seek .backoffEnd

/-- BACKOFF_END (R145). -/
def State.backoffEnd (s : State) : State := s.expire State.backoffRuns State.endBackoff

/-- BACKOFF_END. -/
def execBackoffEnd (s : State) : Outcome := .next s.backoffEnd

/-- The snapshot limit runs (R154, R104). -/
def State.snapshotRuns (s : State) : Bool :=
  s.timers.snapshot.isSome && decide (s.session.station = .loading) && !s.bus.stuck

/-- SNAPSHOT_LIMIT_EXPIRY (R159). -/
def State.snapshotLimitExpiry (s : State) : State := s.expire State.snapshotRuns State.abandon

/-- SNAPSHOT_LIMIT_EXPIRY. -/
def execSnapshotLimitExpiry (s : State) : Outcome := .next s.snapshotLimitExpiry

/-- BEACON_TIMER_EXPIRY (R139): the timer starts again from zero and a BEACON is submitted. -/
def State.beaconTimerExpiry (s : State) : State :=
  if s.timers.beacon.isSome ∧ s.bus.stuck = false then
    (s.setTimers { s.timers with beacon := some 0 }).submitBeacon
  else s

/-- BEACON_TIMER_EXPIRY. -/
def execBeaconTimerExpiry (s : State) : Outcome := .next s.beaconTimerExpiry

/-- The absence timer of a member runs and has not reached the absence limit (R135, R136). -/
def State.absenceRuns (s : State) (member : Addr) : Bool :=
  match s.timers.absence.get member with
  | some k => decide (k < s.port.absenceMs)
  | none => false

/-- ABSENCE_TIMER_EXPIRY (R136): the timer stands at the limit and EVICT of the member is submitted. A timer that stands at the
limit expires no second time. -/
def State.absenceTimerExpiry (s : State) (member : Addr) : State :=
  if s.absenceRuns member ∧ s.bus.stuck = false then
    (s.setTimers
      { s.timers with absence := s.timers.absence.set member.val (some s.port.absenceMs) member.isLt }).submitEvict member
  else s

/-- ABSENCE_TIMER_EXPIRY. -/
def execAbsenceTimerExpiry (member : Addr) (s : State) : Outcome := .next (s.absenceTimerExpiry member)

/-! ### Slot timers -/

/-- The lease of a client runs (R46, R58). -/
def State.leaseRuns (client : Client) (s : State) : Bool := decide ((s.slot client).state = .granted)

/-- A lease ends (R58, R77). -/
def State.endLease (client : Client) (s : State) : State :=
  (s.setSlot client { s.slot client with leaseMs := 0 }).leaseExpired client

/-- LEASE_EXPIRY (R58, R77): its renewal query can find a storage upset. -/
def State.leaseExpiry (s : State) (client : Client) : State := s.expire (State.leaseRuns client) (State.endLease client)

/-- LEASE_EXPIRY. -/
def execLeaseExpiry (client : Client) (s : State) : Outcome := .next (s.leaseExpiry client)

/-- The yield window of a client runs (R46, R60). -/
def State.yieldRuns (client : Client) (s : State) : Bool := decide ((s.slot client).state = .yielding)

/-- A yield window ends: the RELEASE is forced (R60). -/
def State.endYield (client : Client) (s : State) : State :=
  (s.setSlot client { s.slot client with yieldMs := 0 }).submitRelease client .forced

/-- YIELD_EXPIRY (R60): its RELEASE can be refused slot busy, a mismatch (R56, R110). -/
def State.yieldExpiry (s : State) (client : Client) : State := s.expire (State.yieldRuns client) (State.endYield client)

/-- YIELD_EXPIRY. -/
def execYieldExpiry (client : Client) (s : State) : Outcome := .next (s.yieldExpiry client)

/-- The retry timer of a line runs (R62). -/
def State.retryRuns (line : LineNo) (s : State) : Bool := decide ((s.slot (clientOf line)).state = .retry)

/-- A retry ends (R62, R80): with REQ high a new line claim starts in ACTIVE, the only state in which a slot is in RETRY (log 28);
with REQ low the slot goes to FREE. -/
def State.endRetry (line : LineNo) (s : State) : State :=
  if (s.line line).req ∧ s.session.station = .active then (s.freeSlot (clientOf line)).lineClaim line
  else (s.freeSlot (clientOf line)).testClient (clientOf line)

/-- RETRY_EXPIRY (R62, R80): its CLAIM can be refused slot busy, a mismatch (R56, R110). -/
def State.retryExpiry (s : State) (line : LineNo) : State := s.expire (State.retryRuns line) (State.endRetry line)

/-- RETRY_EXPIRY. -/
def execRetryExpiry (line : LineNo) (s : State) : Outcome := .next (s.retryExpiry line)

/-! ### The tick (log 1) -/

/-- One millisecond of a running session timer with its limit; an expired one stays at the limit. -/
def advance (limit : Nat) : Option Nat → Option Nat
  | none => none
  | some k => some (min (k + 1) limit)

/-- The timer is at its limit after the tick. -/
def due (limit : Nat) : Option Nat → Bool
  | none => false
  | some k => decide (limit ≤ k + 1)

/-- One millisecond of an absence timer: its expiry takes it to the limit, where it stays (R136). -/
def advanceAbsence (limit : Nat) : Option Nat → Option Nat
  | none => none
  | some k => some (if k + 1 < limit then k + 1 else k)

/-- The absence timer reaches its limit in this tick. -/
def reaches (limit : Nat) : Option Nat → Bool
  | none => false
  | some k => decide (k < limit ∧ limit ≤ k + 1)

/-- The session timers after one millisecond; in bus-stuck state only the backoff wait runs (R104). -/
def State.tickTimers (s : State) : Timers :=
  let b := advance (s.port.backoffLimit s.own) s.timers.backoff
  if s.bus.stuck then { s.timers with backoff := b }
  else
    { s.timers with
      listen := advance s.port.listenLimit s.timers.listen
      answer := advance s.port.absenceMs s.timers.answer
      backoff := b
      snapshot := advance s.port.absenceMs s.timers.snapshot
      beacon := advance s.port.beaconInterval s.timers.beacon
      absence := s.timers.absence.map (advanceAbsence s.port.absenceMs) }

/-- A slot after one millisecond (R46). -/
def Slot.tick (v : Slot) : Slot :=
  match v.state with
  | .granted => { v with leaseMs := v.leaseMs - 1 }
  | .yielding => { v with yieldMs := v.yieldMs - 1 }
  | .retry => { v with retryMs := v.retryMs - 1 }
  | .free | .pending | .queued | .waiting | .releasing | .withdrawing => v

/-- The expiry of a slot's timer at this tick. -/
def Slot.expiry (v : Slot) (c : Client) : List Instr :=
  match v.state with
  | .granted => if v.leaseMs ≤ 1 then [.leaseExpiry c] else []
  | .yielding => if v.yieldMs ≤ 1 then [.yieldExpiry c] else []
  | .retry =>
    match lineOf c with
    | some n => if v.retryMs ≤ 1 then [.retryExpiry n] else []
    | none => []
  | .free | .pending | .queued | .waiting | .releasing | .withdrawing => []

/-- The expiries of the session timers at this tick, those that a stuck bus pauses. -/
def State.sessionExpiries (s : State) : List Instr :=
  (if due s.port.listenLimit s.timers.listen then [Instr.listenWindowExpiry] else []) ++
  (if due s.port.absenceMs s.timers.answer then [Instr.answerLimitExpiry] else []) ++
  (if due s.port.absenceMs s.timers.snapshot then [Instr.snapshotLimitExpiry] else []) ++
  (if due s.port.beaconInterval s.timers.beacon then [Instr.beaconTimerExpiry] else []) ++
  sixteen.flatMap fun m => if reaches s.port.absenceMs (s.timers.absence.get m) then [Instr.absenceTimerExpiry m] else []

/-- The commands the tick leads to (order: log 23). -/
def State.expiries (s : State) : List Instr :=
  (if due (s.port.backoffLimit s.own) s.timers.backoff then [Instr.backoffEnd] else []) ++
  (if s.bus.stuck then [] else s.sessionExpiries) ++
  sixteen.flatMap fun c => (s.slot c).expiry c

/-- One millisecond of the local timebase; none passes while RESETN is asserted. -/
def State.tick (s : State) : State :=
  if s.resetHeld then s
  else
    { s with
      timers := s.tickTimers
      slots := s.slots.map Slot.tick
      pending := s.pending ++ s.expiries }

end Sys2Proof.Machine
end

