-- ==== Sys2Proof/Machine/CardPort.lean ====
section
/-! DEFINITION. Commands of the Card Port (10, 11.3): configuration, station, claim, event and inspection commands, bad and
aborted frames, event removal. -/

namespace Sys2Proof.Machine

/-- What a command decides: the station after its effect, its status and its response data (R174). -/
structure Decided where
  state : State
  status : Status
  data : List Byte
deriving DecidableEq, Repr

/-- A status other than OK changes no state of the station (R176). -/
def State.deny (s : State) (status : Status) : Decided := ⟨s, status, []⟩

/-- OK with no response data. -/
def State.accept (s : State) : Decided := ⟨s, .ok, []⟩

/-- A frame has passed its decision point: its answer is fixed, and no READ_EVENT response is left (R174). The port answers
nothing while RESETN is asserted (R192). -/
def State.frame (s : State) (d : Decided) : State :=
  if s.resetHeld then s
  else d.state.setPort { d.state.port with response := some ⟨d.status, d.data⟩, reading := false }

/-! ### Configuration image (R178, R179)

The lock follows the station state (R177): a LOAD command tests that of the station with the effects of a delivered notice made (R125;
log 5). -/

/-- LOAD_PROFILE, LOAD_LOCAL: LOCKED, then BAD_PARAMETER, then the write (R178); a frame with no data byte or more than 39 is
answered BAD_FRAME (R175). -/
def State.loadTests (s : State) (offset : Byte) (data : List Byte) (length : Nat) (written : State) : Decided :=
  if data.isEmpty ∨ Config.loadMax < data.length then s.deny .badFrame
  else if s.port.locked then s.deny .locked
  else if length < offset.toNat + data.length then s.deny .badParameter
  else written.accept

/-- LOAD_PROFILE decided. -/
def State.decideLoadProfile (s : State) (offset : Byte) (data : List Byte) : Decided :=
  s.loadTests offset data Config.systemLength
    (s.setPort { s.port with system := writeBytes s.port.system offset.toNat data })

/-- LOAD_PROFILE. -/
def execLoadProfile (offset : Byte) (data : List Byte) (s : State) : Outcome := .next (s.frame (s.flush.decideLoadProfile offset data))

/-- LOAD_LOCAL decided. -/
def State.decideLoadLocal (s : State) (offset : Byte) (data : List Byte) : Decided :=
  s.loadTests offset data Config.localLength (s.setPort { s.port with loc := writeBytes s.port.loc offset.toNat data })

/-- LOAD_LOCAL. -/
def execLoadLocal (offset : Byte) (data : List Byte) (s : State) : Outcome := .next (s.frame (s.flush.decideLoadLocal offset data))

/-- The bytes of a section: 0 for system, 1 for local (R179). -/
def Port.section? (p : Port) (sect : Byte) : Option (List Byte) :=
  if sect = 0#8 then some p.system.toList else if sect = 1#8 then some p.loc.toList else none

/-- READ_CONFIG decided (R179). -/
def State.decideReadConfig (s : State) (sect offset count : Byte) : Decided :=
  match s.port.section? sect with
  | none => s.deny .badParameter
  | some bytes =>
    if count.toNat = 0 ∨ Config.readMax < count.toNat ∨ bytes.length < offset.toNat + count.toNat then s.deny .badParameter
    else ⟨s, .ok, readBytes bytes offset.toNat count.toNat⟩

/-- READ_CONFIG. -/
def execReadConfig (sect offset count : Byte) (s : State) : Outcome := .next (s.frame (s.decideReadConfig sect offset count))

/-! ### Station commands (R131, R180, R181)

A command that can change the station state meets the station with the effects of a delivered notice made (R125; log 5). -/

/-- START accepted (R126, R164, R173, R180). -/
def State.startUp (s : State) : State :=
  let s1 := s.setChecker { s.checker with profileCheck := s.port.profileCheck, suspect := none, resyncPending := false }
  (s1.setTimers { s1.timers with listen := some 0 }).enter .listening .start

/-- START decided (R180). -/
def State.decideStart (s : State) : Decided :=
  if s.session.station = .offline then
    match s.port.firstFailure with
    | none => s.startUp.accept
    | some (sect, offset) => ⟨s, .badConfig, [sect, offset]⟩
  else s.deny .wrongState

/-- START. -/
def execStart (s : State) : Outcome := .next (s.frame s.flush.decideStart)

/-- STOP decided (tables of R131 and R181). -/
def State.decideStop (s : State) : Decided :=
  match s.session.station with
  | .listening => (s.stopListen.goOffline .stop).accept
  | .founding => (s.removeFound.goOffline .stop).accept
  | .seeking => (s.removeJoin.stopAnswer.goOffline .stop).accept
  | .backoff =>
    let t := s.removeJoin
    ((t.setTimers { t.timers with backoff := none }).goOffline .stop).accept
  | .loading | .announcing | .active => (s.queueLeave .stop).accept
  | .leaving => (s.setSession { s.session with leaveDest := some .offline }).accept
  | .offline | .faulted => s.deny .wrongState

/-- STOP. -/
def execStop (s : State) : Outcome := .next (s.frame s.flush.decideStop)

/-- RESYNC decided (R168, R181). -/
def State.decideResync (s : State) : Decided :=
  if s.session.station = .active then (s.queueLeave .resync).accept else s.deny .wrongState

/-- RESYNC. -/
def execResync (s : State) : Outcome := .next (s.frame s.flush.decideResync)

/-- CLEAR_FAULT decided (R102, R142). -/
def State.decideClearFault (s : State) : Decided :=
  if s.session.station = .faulted then (s.enter .offline .clearFault).accept else s.deny .wrongState

/-- CLEAR_FAULT. -/
def execClearFault (s : State) : Outcome := .next (s.frame s.flush.decideClearFault)

/-! ### Claim commands (R47, R50, R57, R59, R61, R182)

A claim command can find a mismatch or a failing record, and so change the station state (R56, R110): it meets the station with the
effects of a delivered notice made (R125; log 5). -/

/-- CLAIM decided: the tests of R47 in their order. -/
def State.decideClaim (s : State) (client : Byte) (set : Mask) (cls : Byte) : Decided :=
  if s.session.station ≠ .active then s.deny .wrongState
  else
    match softwareClient client with
    | none => s.deny .badParameter
    | some c =>
      if setValid s.port.n set = false ∨ 3 < cls.toNat then s.deny .badParameter
      else if (s.slot c).state ≠ .free then s.deny .slotBusy
      else (s.startClaim c set (Fin.ofNat 4 cls.toNat)).accept

/-- CLAIM. -/
def execClaim (client : Byte) (set : Mask) (cls : Byte) (s : State) : Outcome := .next (s.frame (s.flush.decideClaim client set cls))

/-- CANCEL decided by the slot's state (R50, R182). -/
def State.cancelSlot (s : State) (c : Client) : Decided :=
  match (s.slot c).state with
  | .pending | .queued | .waiting => (s.withdrawSlot c).accept
  | .granted | .yielding => s.deny .notWaiting
  | .free | .releasing | .withdrawing | .retry => s.deny .wrongState

/-- CANCEL decided. -/
def State.decideCancel (s : State) (client : Byte) : Decided :=
  match softwareClient client with
  | none => s.deny .badParameter
  | some c => s.cancelSlot c

/-- CANCEL. -/
def execCancel (client : Byte) (s : State) : Outcome := .next (s.frame (s.flush.decideCancel client))

/-- RELEASE decided by the slot's state (R59, R61). -/
def State.releaseSlot (s : State) (c : Client) : Decided :=
  match (s.slot c).state with
  | .granted | .yielding => (s.submitRelease c .normal).accept
  | .releasing => s.deny (if (s.slot c).reason = .forced then .tooLate else .alreadyReleasing)
  | .free | .pending | .queued | .waiting | .withdrawing | .retry => s.deny .notGranted

/-- RELEASE decided. -/
def State.decideRelease (s : State) (client : Byte) : Decided :=
  match softwareClient client with
  | none => s.deny .badParameter
  | some c => s.releaseSlot c

/-- RELEASE. -/
def execRelease (client : Byte) (s : State) : Outcome := .next (s.frame (s.flush.decideRelease client))

/-- RENEW decided by the slot's state (R55, R57). A denial for an unknown answer keeps the upset the query found (R39, R40). -/
def State.renewSlot (s : State) (c : Client) : Decided :=
  if (s.slot c).state = .granted then
    let r := s.renewal c
    ⟨r.1, if r.2 then .ok else .denied, []⟩
  else s.deny .notGranted

/-- RENEW decided. -/
def State.decideRenew (s : State) (client : Byte) : Decided :=
  match softwareClient client with
  | none => s.deny .badParameter
  | some c => s.renewSlot c

/-- RENEW. -/
def execRenew (client : Byte) (s : State) : Outcome := .next (s.frame (s.flush.decideRenew client))

/-! ### Events (R185); the events of a taken notice are read with the notice fully applied (R22; log 5) -/

/-- READ_EVENT decided. -/
def State.decideReadEvent (s : State) : Decided :=
  match s.port.events with
  | [] => s.deny .noEvent
  | e :: _ => ⟨s, .ok, e.bytes⟩

/-- The response of a READ_EVENT answered OK is being shifted out (R185). -/
def State.reading (s : State) : State :=
  if s.resetHeld then s else s.setPort { s.port with reading := !s.port.events.isEmpty }

/-- READ_EVENT. -/
def execReadEvent (s : State) : Outcome := .next (s.frame s.flush.decideReadEvent).reading

/-- EVENT_REMOVAL: the head entry leaves and ATTN follows (R185, R186). -/
def State.eventRemoval (s : State) : State :=
  match s.port.reading, s.port.events with
  | true, _ :: es => s.setPort { s.port with events := es, attn := !es.isEmpty, reading := false }
  | _, _ => s

/-- EVENT_REMOVAL. -/
def execEventRemoval (s : State) : Outcome := .next s.eventRemoval

/-! ### Inspection (R188 to R191)

A read is made of the station with every taken notice fully applied (R22): the effects of a delivered one are made first (log 5). -/

/-- One byte from its bits, bit 0 first. -/
def flagByte (b0 b1 b2 b3 : Bool) : Byte :=
  BitVec.ofNat 8 (b0.toNat + 2 * b1.toNat + 4 * b2.toNat + 8 * b3.toNat)

/-- A number in one byte. -/
def byteOf (n : Nat) : Byte := BitVec.ofNat 8 n

/-- An address, or 10h for none. -/
def addrOrNone : Option Addr → Byte
  | some a => byteOf a.val
  | none => 0x10#8

/-- The response data of READ_STATUS (R188, 11.3). -/
def State.statusBytes (s : State) : List Byte :=
  [s.session.station.code, byteOf (s.own.val + if s.straps.fast then 128 else 0)] ++ wordBytes s.session.tag ++
    wordBytes s.session.count ++
    [byteOf s.pool.records.length, byteOf s.outbox.entries.length, addrOrNone s.checker.suspect,
      flagByte s.bus.stuck s.pool.frozen false false, byteOf s.port.events.length]

/-- READ_STATUS decided. -/
def State.decideReadStatus (s : State) : Decided := ⟨s, .ok, s.statusBytes⟩

/-- READ_STATUS. -/
def execReadStatus (s : State) : Outcome := .next (s.frame s.flush.decideReadStatus)

/-- Whole lease units still to run, rounded down (R46). -/
def State.units (s : State) (ms : Nat) : Byte := byteOf (ms / s.port.leaseUnit)

/-- Bytes 0 to 14 of READ_SLOT (R42, R189, 11.3). -/
def State.slotBytes (s : State) (c : Client) : List Byte :=
  let v := s.slot c
  [v.state.code, byteOf ((if c.val < 8 then 0 else 128) + v.cls.val)] ++ wordBytes v.set ++
    [v.params.mode.code, byteOf v.params.length, byteOf (v.params.limit * 16 + v.params.window), s.units v.leaseMs,
      s.units v.yieldMs, byteOf v.renewals, nibbles v.outboxEntry.code v.owed.code,
      if v.state = .releasing then v.reason.code else 0#8, flagByte v.closing v.removalPending false false, v.lastEnd.code,
      byteOf (v.retryMs / Config.beaconUnitMs)]

/-- Bytes 15 to 18 of READ_SLOT: the line items of R82, 0 for a software client. -/
def State.lineBytes (s : State) (c : Client) : List Byte :=
  match lineOf c with
  | some n =>
    [byteOf ((if s.port.lineEnabled n then 128 else 0) + (s.port.lineClass n).val)] ++ wordBytes (s.port.lineSet n) ++
      [flagByte (s.line n).req (s.line n).gnt (s.line n).rearm (s.latched n)]
  | none => [0#8, 0#8, 0#8, 0#8]

/-- READ_SLOT decided (R189). -/
def State.decideReadSlot (s : State) (client : Byte) : Decided :=
  match sixteenOf client with
  | none => s.deny .badParameter
  | some c => ⟨s, .ok, s.slotBytes c ++ s.lineBytes c⟩

/-- READ_SLOT. -/
def execReadSlot (client : Byte) (s : State) : Outcome := .next (s.frame (s.flush.decideReadSlot client))

/-- A pair in one byte, 0 for none. -/
def pairByte : Option PoolRecord → Byte
  | some r => nibbles r.station r.client
  | none => 0#8

/-- The response data of READ_RESOURCE, worked out from the records that pass their check (R9, R190, 11.3). -/
def resourceBytes (recs : List PoolRecord) (r : Nat) (incomplete : Bool) : List Byte :=
  [byteOf ((viewState recs r).code + if incomplete then 128 else 0), pairByte (holderOf recs r),
    byteOf (waitersOf recs r).length, pairByte (firstWaiter recs r)]

/-- READ_RESOURCE decided (R190): a failing record freezes the pool and is a storage upset (R40). -/
def State.decideReadResource (s : State) (resource : Byte) : Decided :=
  if resource.toNat < s.port.n then
    ⟨if s.poolFails then s.freeze else s, .ok,
      resourceBytes (s.pool.records.filter PoolRecord.sound) resource.toNat s.poolFails⟩
  else s.deny .badParameter

/-- READ_RESOURCE. -/
def execReadResource (resource : Byte) (s : State) : Outcome := .next (s.frame (s.flush.decideReadResource resource))

/-- The response data of READ_MEMBER (R191, 11.3). -/
def State.memberBytes (s : State) (a : Addr) : List Byte :=
  let m := s.session.members.get a
  [byteOf m.state.code.val, addrOrNone m.sponsor] ++
    match s.timers.absence.get a with
    | some ms => [1#8] ++ wordBytes (BitVec.ofNat 16 (ms / Config.beaconUnitMs))
    | none => [0#8, 0#8, 0#8]

/-- READ_MEMBER decided (R191): a failing record is reported as stored, and the read is a storage upset. -/
def State.decideReadMember (s : State) (address : Byte) : Decided :=
  match sixteenOf address with
  | none => s.deny .badParameter
  | some a => ⟨s.readMembers [a], .ok, s.memberBytes a⟩

/-- READ_MEMBER. -/
def execReadMember (address : Byte) (s : State) : Outcome := .next (s.frame (s.flush.decideReadMember address))

/-! ### Frames that are no command (R175) -/

/-- BAD_FRAME decided: the frame changes nothing; one whose identifier and length are allowed is no bad frame. -/
def State.badFrame (s : State) (ident : Byte) (params : List Byte) : State :=
  if lengthAllowed ident params.length then s else s.frame (s.deny .badFrame)

/-- BAD_FRAME. -/
def execBadFrame (ident : Byte) (params : List Byte) (s : State) : Outcome := .next (s.badFrame ident params)

/-- FRAME_ABORTED: the frame leaves nothing, no status is shifted; bytes that reach a decision point are no aborted frame. -/
def State.frameAborted (s : State) (received : List Byte) : State :=
  if s.resetHeld || reachesDecision received then s else s.setPort { s.port with response := none, reading := false }

/-- FRAME_ABORTED. -/
def execFrameAborted (received : List Byte) (s : State) : Outcome := .next (s.frameAborted received)

end Sys2Proof.Machine
end

