-- ==== Sys2Proof/Machine/Dispatch.lean ====
section
/-! DEFINITION. The meaning of each command: one arm per constructor of `Instr`. -/

namespace Sys2Proof.Machine

/-- The effect of a command on everything but the queue of waiting commands. -/
def exec (i : Instr) (s : State) : Host.Outcome State Fault Refusal :=
  match i with
  | .loadProfile o d => Sys2Proof.Machine.execLoadProfile o d s
  | .loadLocal o d => Sys2Proof.Machine.execLoadLocal o d s
  | .readConfig p o n => Sys2Proof.Machine.execReadConfig p o n s
  | .start => Sys2Proof.Machine.execStart s
  | .stop => Sys2Proof.Machine.execStop s
  | .resync => Sys2Proof.Machine.execResync s
  | .clearFault => Sys2Proof.Machine.execClearFault s
  | .claim c m k => Sys2Proof.Machine.execClaim c m k s
  | .cancel c => Sys2Proof.Machine.execCancel c s
  | .release c => Sys2Proof.Machine.execRelease c s
  | .renew c => Sys2Proof.Machine.execRenew c s
  | .readEvent => Sys2Proof.Machine.execReadEvent s
  | .readStatus => Sys2Proof.Machine.execReadStatus s
  | .readSlot c => Sys2Proof.Machine.execReadSlot c s
  | .readResource r => Sys2Proof.Machine.execReadResource r s
  | .readMember a => Sys2Proof.Machine.execReadMember a s
  | .badFrame ident ps => Sys2Proof.Machine.execBadFrame ident ps s
  | .frameAborted bs => Sys2Proof.Machine.execFrameAborted bs s
  | .eventRemoval => Sys2Proof.Machine.execEventRemoval s
  | .hardwareReset => Sys2Proof.Machine.execHardwareReset s
  | .resetRelease a f => Sys2Proof.Machine.execResetRelease a f s
  | .reqRise n h => Sys2Proof.Machine.execReqRise n h s
  | .reqFall n h => Sys2Proof.Machine.execReqFall n h s
  | .roundStart => Sys2Proof.Machine.execRoundStart s
  | .roundTaken h e => Sys2Proof.Machine.execRoundTaken h e s
  | .roundVoided w f => Sys2Proof.Machine.execRoundVoided w f s
  | .roundMissed f => Sys2Proof.Machine.execRoundMissed f s
  | .busStuck => Sys2Proof.Machine.execBusStuck s
  | .busRecovered => Sys2Proof.Machine.execBusRecovered s
  | .listenWindowExpiry => Sys2Proof.Machine.execListenWindowExpiry s
  | .answerLimitExpiry => Sys2Proof.Machine.execAnswerLimitExpiry s
  | .backoffEnd => Sys2Proof.Machine.execBackoffEnd s
  | .snapshotLimitExpiry => Sys2Proof.Machine.execSnapshotLimitExpiry s
  | .beaconTimerExpiry => Sys2Proof.Machine.execBeaconTimerExpiry s
  | .absenceTimerExpiry m => Sys2Proof.Machine.execAbsenceTimerExpiry m s
  | .leaseExpiry c => Sys2Proof.Machine.execLeaseExpiry c s
  | .yieldExpiry c => Sys2Proof.Machine.execYieldExpiry c s
  | .retryExpiry n => Sys2Proof.Machine.execRetryExpiry n s
  | .owedNoticePlaced => Sys2Proof.Machine.execOwedNoticePlaced s
  | .edgeHandedOn n => Sys2Proof.Machine.execEdgeHandedOn n s
  | .noticeEffectsMade => Sys2Proof.Machine.execNoticeEffectsMade s

end Sys2Proof.Machine
end

