-- ==== Sys2Proof/Machine/Step.lean ====
section
/-! DEFINITION. One step: the command at the front of the queue, or one millisecond of the local timebase (log 1). -/

namespace Sys2Proof.Machine

/-- The first command of the queue is taken and run with the queue's rest; on an empty queue a millisecond passes. -/
def step (s : State) : Host.Outcome State Fault Refusal :=
  match s.pending with
  | [] => .next s.tick
  | c :: rest => exec c { s with pending := rest }

/-- The command a word spells, put at the front of the queue; no word spells one (no row of the table gives bits). -/
def State.withFetchWord (s : State) (nbits w : Nat) : State :=
  match decodeTableWord nbits w with
  | some c => { s with pending := c :: s.pending }
  | none => s

/-- The queue of a state whose next steps run these commands. -/
def State.withCommands (s : State) (cs : List Instr) : State := { s with pending := cs }

end Sys2Proof.Machine
end

