-- ==== Sys2Proof/Machine/BusLevels.lean ====
section
/-! DEFINITION. A round on the two lines of the Claim Bus bit by bit (R83 to R95): what a station drives, what it takes from the
levels it samples, and the command of the table that ends the round. A level is true where it is dominant. State holds no level
(log 20): each function is of the levels of the bit times so far. -/

namespace Sys2Proof.Machine

/-! ### The start bit (R83 to R85, R104) -/

/-- A line has been recessive in each of the last idle-gap bit times of its samples, oldest first (R84). -/
def recessiveGap (samples : List Bool) : Bool :=
  decide (samples.reverse.take Config.idleGap = List.replicate Config.idleGap false)

/-- The bus is idle: both lines have been recessive for the idle gap, by the samples since RESETN was released or bus-stuck state was left,
of which those before the first idle gap count for nothing (R84, R85). -/
def busIdle (cbd cbv : List Bool) : Bool := recessiveGap cbd && recessiveGap cbv

/-- The station drives a start bit in the bit time after these samples: it sees the bus idle, its Outbox is not empty, and it is not
FAULTED, not in bus-stuck state and not held in reset (R83, R84, R104). -/
def State.drivesStart (s : State) (cbd cbv : List Bool) : Bool :=
  busIdle cbd cbv && !s.outbox.entries.isEmpty && decide (s.session.station ≠ .faulted) && !s.bus.stuck && !s.resetHeld

/-- A round starts in the bit time after these samples, in which CBD is sampled at `level`: dominant on an idle bus, whoever drives it
(R84). The command is then ROUND_START. -/
def startBit (cbd cbv : List Bool) (level : Bool) : Bool := busIdle cbd cbv && level

/-! ### Contention on CBD (R88) -/

/-- The levels that stand for a contention number: most significant bit first, a 1 dominant and a 0 released (R88). -/
def numberLevels (number : Byte) : List Bool := bitsOf number

/-- The number that contention levels stand for, the winning number where the levels are those sampled (R88). -/
def numberRead : List Bool → Byte
  | [b7, b6, b5, b4, b3, b2, b1, b0] => byteOfBits b7 b6 b5 b4 b3 b2 b1 b0
  | _ => 0#8

/-- A station that contends with a number has lost contention: it released a bit that it sampled dominant (R88). -/
def lostContention (number : Byte) (sampled : List Bool) : Bool := readBackMismatch (numberLevels number) sampled

/-- What a station drives as long as its levels are read back: from a bit that it released and sampled dominant on it drives nothing
(R88, R91). -/
def drivenUntilMismatch : List Bool → List Bool → List Bool
  | l :: ls, x :: xs => l :: if !l && x then ls.map fun _ => false else drivenUntilMismatch ls xs
  | ls, _ => ls

/-- CBD in contention: the wired-AND of the stations that have not lost, each driving its levels bit by bit. -/
def contentionLine : Nat → List (List Bool) → List Bool
  | 0, _ => []
  | k + 1, stations =>
    let level := stations.any fun d => d.headD false
    level :: contentionLine k ((stations.filter fun d => d.headD false || !level).map List.tail)

/-! ### The carriage and the votes (R91 to R95) -/

/-- What a carrier drives on CBD: it stops after a bit that it released and sampled dominant, and after a bit time at which it sampled
CBV dominant (R91, R94). -/
def carrierDrives : List Bool → List Bool → List Bool → List Bool
  | l :: ls, c :: cs, v :: vs => l :: if (!l && c) || v then ls.map fun _ => false else carrierDrives ls cs vs
  | ls, _, _ => ls

/-- A voter holds CBV until CBD has been recessive for two consecutive bit times; `run` of them have passed (R94). -/
def held : Nat → List Bool → List Bool
  | run, c :: cs => if 2 ≤ run then false :: cs.map (fun _ => false) else true :: held (if c then 0 else run + 1) cs
  | _, [] => []

/-- What a voter drives on CBV over the bit times of `cbd`, its fault having been found with the first `found` of them (R94). -/
def votePull (found : Nat) (cbd : List Bool) : List Bool := (cbd.take found).map (fun _ => false) ++ held 0 (cbd.drop found)

/-- Where a carrier finds its read-back mismatch: the bit times it has sampled then (R91). -/
def mismatchFound (driven sampled : List Bool) : Option Nat :=
  ((driven.zip sampled).findIdx? fun x => !x.1 && x.2).map (· + 1)

/-- Where a listener finds its reception fault, and which (R92): none where it finds none with these levels. -/
def faultFound (winning : Byte) (cbd : List Bool) : Option (Nat × ReceptionFault) :=
  match receiveLevels winning cbd, receptionEnd winning cbd with
  | .fault f, some k => some (k, f)
  | _, _ => none

/-- The levels a station drives on CBV in a round (R93, R94): a carrier at its mismatch, a listener that votes at its fault. -/
def State.votes (s : State) (winning : Byte) (carried : Option (List Bool)) (cbd : List Bool) : List Bool :=
  let found := match carried with
    | some driven => mismatchFound driven cbd
    | none => if s.session.station.inSession then (faultFound winning cbd).map Prod.fst else none
  match found with
  | some k => votePull k cbd
  | none => cbd.map fun _ => false

/-- CBV was sampled dominant at a bit time from the first of the carriage to the last of the vote window: the round is voided
(R94). -/
def voided (cbv : List Bool) : Bool := cbv.any id

/-- The bit times from the first of the carriage to the end of a voided round: CBV is sampled recessive after it was dominant (R94). -/
def voidEnd (cbv : List Bool) : Option Nat :=
  (cbv.findIdx? id).bind fun k => ((cbv.drop k).findIdx? (!·)).map fun j => k + j + 1

/-- The command that a round's end is for a station that carried these levels, from its CBV samples to the end of the vote window (R94,
R95). -/
def carriedRound (cbv : List Bool) (effects : Timing) : Instr :=
  if voided cbv then .roundVoided true none else .roundTaken .own effects

/-- The command that a round's end is for a listener, from its samples of CBD and CBV (R92 to R95): voided by any vote, else taken as
received or missed with a fault, on which it did not vote; none while its reception has not ended. -/
def listenedRound (winning : Byte) (cbd cbv : List Bool) (effects : Timing) : Option Instr :=
  if voided cbv then some (.roundVoided false ((faultFound winning cbd).map Prod.snd))
  else
    match receiveLevels winning cbd, receptionEnd winning cbd with
    | .notice _, some _ => some (.roundTaken (.other winning (bytesOfLevels (beforeStop winning cbd))) effects)
    | .fault f, some _ => some (.roundMissed f)
    | _, none => none

end Sys2Proof.Machine
end

