-- ==== Sys2Proof/Safety.lean ====
section
/-! DEFINITION. What a good state is, and the words the statements use: the invariants of the part, the answer of a frame, the checks
of R180, a slot's submission (R49, R110, R116), the closing of a slot (R63). -/

namespace Sys2Proof.Machine

/-! ### Invariants -/

/-- GNT of every line is high exactly while its slot is GRANTED (R76). -/
def GntFollows (s : State) : Prop := ∀ n : LineNo, (s.line n).gnt = decide ((s.slot (clientOf n)).state = .granted)

/-- ATTN is asserted exactly while the Event Queue holds an entry (R186). -/
def AttnFollows (s : State) : Prop := s.port.attn = !s.port.events.isEmpty

/-- The image is locked in every station state but OFFLINE and FAULTED (R177, R178). -/
def LockFollows (s : State) : Prop :=
  s.port.locked = decide (s.session.station ≠ .offline ∧ s.session.station ≠ .faulted)

/-- An EVENTS_LOST entry. -/
def Event.isLost (e : Event) : Bool :=
  match e.kind with
  | .eventsLost _ => true
  | .claimGranted | .claimYield | .claimEnded _ | .stationState _ _ | .memberState _ | .divergence _ | .busStuck
  | .busRecovered | .addressClash => false

/-- The form of the Event Queue (R184): at most 32 entries, an EVENTS_LOST entry only at the end, and the 32nd only that. -/
def EventForm (q : List Event) : Prop :=
  q.length ≤ 32 ∧ (∀ e ∈ q.dropLast, e.isLost = false) ∧ (q.length = 32 → ∃ e ∈ q.getLast?, e.isLost = true)

/-- The form of the Outbox: at most 8 entries, at most 6 below tier 3, in the order of R108. -/
def OutboxForm (o : Outbox) : Prop :=
  o.entries.length ≤ 8 ∧ (o.entries.filter fun e => decide (e.body.tier < 3)).length ≤ 6 ∧
    o.entries.Pairwise fun a b => b.before a = false

/-- At most one entry is offered, and none outside a round (R84, R108, R114). -/
def OfferForm (s : State) : Prop :=
  (s.outbox.entries.filter Entry.offered).length ≤ 1 ∧ (s.bus.round = none → s.outbox.entries.filter Entry.offered = [])

/-- The Claim Pool holds at most 64 records and the catch-up buffer at most 32 notices (R4, R156). -/
def WithinCapacity (s : State) : Prop := s.pool.records.length ≤ 64 ∧ s.joiner.catchUp.length ≤ 32

/-- The current table check is the check of the table and the pool held (R163, R173). In LOADING it is the empty replica's (R21, R173),
which a station that leaves LOADING for LEAVING keeps until a notice changes its partial replica (log 29). -/
def CheckCurrent (s : State) : Prop :=
  if s.session.station = .loading then s.checker.tableCheck = emptyCheck
  else s.checker.tableCheck = tableCheckOf s.session.members s.pool.records ∨
    (s.session.station = .leaving ∧ s.session.leftSynced = false ∧ s.checker.tableCheck = emptyCheck)

/-- A member record has a sponsor exactly in JOINING and SYNCING (R121). -/
def TableForm (s : State) : Prop :=
  ∀ a : Addr, (s.session.members.get a).sponsor ≠ none ↔
    (s.session.members.get a).state = .joining ∨ (s.session.members.get a).state = .syncing

/-- A delivered notice that this station carried has its address as sender (R91, R96). -/
def CarriedOwn (s : State) : Prop := ∀ h : Heard, s.bus.delivered = some h → h.own = true → h.notice.sender = s.own

/-- The station holds a session's replica exactly in LOADING, ANNOUNCING, ACTIVE and LEAVING (R119, R122), and without one the
table reads all ABSENT, the count is 0 and the pool is empty and not frozen (R7, R41, R142). -/
def ReplicaForm (s : State) : Prop :=
  (s.session.founded = true ↔
    s.session.station = .loading ∨ s.session.station = .announcing ∨ s.session.station = .active ∨
      s.session.station = .leaving) ∧
  (s.session.founded = false →
    s.session.members = .empty ∧ s.session.count = 0#16 ∧ s.pool = ⟨[], false⟩)

/-- The suspect, the answer list and the serving state exist in ACTIVE only (R147, R153, R161, R166, R173). -/
def ActiveOnly (s : State) : Prop :=
  s.session.station ≠ .active →
    s.checker.suspect = none ∧ (∀ a : Addr, s.sponsor.answers.get a = none) ∧ s.sponsor.serving = none

/-- While RESETN is asserted every block stands at its reset values (R106, R192 and the other reset tables). -/
def ResetForm (s : State) : Prop := s.resetHeld = true → s = { State.reset with pending := s.pending }

/-- No HOLDING records of the pool share a resource (R27). -/
def HoldersDisjoint (recs : List PoolRecord) : Prop :=
  recs.Pairwise fun a b => a.isHolding = true → b.isHolding = true → shares a.set b.set = false

/-- No two records of the pool have the same station and client (R4). -/
def PairsDistinct (recs : List PoolRecord) : Prop :=
  recs.Pairwise fun a b => ¬ (a.station = b.station ∧ a.client = b.client)

/-- The form of the pool: one record a pair (R4), one holder a resource (R27), and, unless the pool is frozen, the stations of its
records PRESENT (R11, R18). -/
def PoolForm (s : State) : Prop :=
  PairsDistinct s.pool.records ∧ HoldersDisjoint s.pool.records ∧
    (s.pool.frozen = false → ∀ r ∈ s.pool.records, (s.session.members.get r.station).state = .present)

/-- The form of a slot of client c by its state (R42, R43, R44, R51, R62, R63). -/
def Slot.form (c : Client) (v : Slot) : Prop :=
  (match v.state with
    | .free => v = Slot.freeWith v.lastEnd
    | .pending => v.owed = .claim ∧ v.outboxEntry = .none
    | .queued => v.owed = .none ∧ v.outboxEntry = .claim
    | .waiting | .granted | .yielding => v.owed = .none ∧ v.outboxEntry = .none
    | .releasing =>
      (v.owed = .release ∧ v.outboxEntry = .none) ∨
        (v.owed = .none ∧ (v.outboxEntry = .release ∨ (v.closing = true ∧ v.outboxEntry = .none)))
    | .withdrawing =>
      (v.owed = .withdraw ∧ v.outboxEntry = .none) ∨
        (v.owed = .none ∧ (v.outboxEntry = .withdraw ∨ (v.outboxEntry = .claim ∧ (v.removalPending = true ∨ v.closing = true)) ∨
          (v.closing = true ∧ v.outboxEntry = .none)))
    | .retry => c.val < 8 ∧ v.owed = .none ∧ v.outboxEntry = .none) ∧
  (v.closing = true → (v.state = .releasing ∨ v.state = .withdrawing) ∧ v.owed = .none) ∧
  (v.removalPending = true → v.state = .withdrawing ∧ v.owed = .none)

/-- A slot that owes a notice has no claim notice of its client in the Outbox (R42, R110), and the owed answer or snapshot notice is of
their tier (R86, R111): placing what is owed is never refused slot busy. -/
def OwedApart (s : State) : Prop :=
  (∀ c : Client, (s.slot c).owed ≠ .none → ∀ e ∈ s.outbox.entries, claimClient e.body ≠ some c) ∧
    ∀ b ∈ s.sponsor.owedAnswer, b.tier = 2

/-- The slots by state: all FREE outside ACTIVE and LEAVING (R44); closing in LEAVING alone, where each is FREE or closing and where
alone the station's LEAVE is in the Outbox (R63, R116, R132). The owed answer or snapshot notice is one in kind (R111, R148). -/
def SlotsForm (s : State) : Prop :=
  (∀ c : Client, (s.slot c).form c) ∧
  (∀ c : Client, (s.slot c).closing = true → s.session.station = .leaving) ∧
  (s.session.station = .leaving → ∀ c : Client, (s.slot c).state = .free ∨ (s.slot c).closing = true) ∧
  (s.session.station ≠ .active → s.session.station ≠ .leaving → ∀ c : Client, (s.slot c).state = .free) ∧
  (s.outbox.hasLeave = true → s.session.station = .leaving) ∧ OwedApart s ∧
  ∀ b, s.sponsor.owedAnswer = some b → b.tier = 2 ∧ b.isBeacon = false

/-! ### Words of the statements -/

/-- The answer of a frame: status and response data stand, and no READ_EVENT response is in progress (R174). -/
def State.answered (s : State) (status : Status) (data : List Byte) : State :=
  { s with port := { s.port with response := some ⟨status, data⟩, reading := false } }

/-- An event as it is posted now: with the session count held, 0 without a replica (R183). -/
def State.event (s : State) (kind : EventKind) (who : Fin 16) : Event :=
  ⟨kind, who, if s.session.founded then s.session.count else 0#16⟩

/-- The session count with a taken notice applied to the replica (R123, R125): one more for a notice of the session of a kind that counts
in a state that applies it, and else the count held. -/
def State.countWith (s : State) (n : Notice) : Word :=
  if (s.session.station = .announcing ∨ s.session.station = .active ∨ s.session.station = .leaving) ∧ n.tag = s.session.tag ∧
      n.body.isFound = false ∧ n.body.isBeacon = false ∧ n.body.isSnap = false then s.session.count + 1#16
  else s.session.count

/-- No block owes a notice (R111). -/
def NothingOwed (s : State) : Prop :=
  (∀ c : Client, (s.slot c).owed = .none) ∧ s.sponsor.owedAnswer = none ∧ s.sponsor.owedBeacon = false ∧
    ∀ a : Addr, s.sponsor.owedEvicts.get a = false

/-- The station has no answer and no snapshot notice to make (R148). -/
def NothingToAnswer (s : State) : Prop := (∀ a : Addr, s.sponsor.answers.get a = none) ∧ s.sponsor.serving = none

/-- Every record of the pool and of the table passes its integrity check (R6, R121). -/
def AllSound (s : State) : Prop :=
  (∀ r ∈ s.pool.records, r.sound = true) ∧ ∀ a : Addr, (s.session.members.get a).sound = true

/-- The Outbox holds a claim notice of the client (R110). -/
def Outbox.hasClaimNotice (o : Outbox) (c : Client) : Bool := o.entries.any fun e => decide (claimClient e.body = some c)

/-- What becomes of a slot that submits its notice (R49, R110, R116): refused with leaving it goes on as if placed and purged;
refused slot busy, the station takes it for a mismatch; with room the notice is placed; without, it is owed. -/
def State.handedIn (s : State) (c : Client) (body : Body) (purged placed owed : Slot) : State :=
  if s.session.station = .leaving ∨ s.outbox.hasLeave = true then s.setSlot c purged
  else if s.outbox.hasClaimNotice c then s.mismatch
  else if s.outbox.room body.tier then
    (s.setOutbox (s.outbox.place body s.session.tag (.claimUnit c))).setSlot c placed
  else s.setSlot c owed

/-- A slot that takes a set and a class (R43, R45, R47, R48). -/
def State.takenUp (s : State) (c : Client) (set : Mask) (cls : Class) (state : SlotState) (entry owed : SlotNotice) : Slot :=
  { state := state, set := set, cls := cls, params := s.port.leaseParams set, leaseMs := 0, yieldMs := 0, renewals := 0,
    outboxEntry := entry, owed := owed, reason := .normal, closing := false, removalPending := false,
    lastEnd := (s.slot c).lastEnd, retryMs := 0 }

/-- The station with a claim started on a slot (R47, R48, R49). -/
def State.claimed (s : State) (c : Client) (set : Mask) (cls : Class) : State :=
  s.handedIn c (.claim c cls set) (s.takenUp c set cls .queued .none .none) (s.takenUp c set cls .queued .claim .none)
    (s.takenUp c set cls .pending .none .claim)

/-- The station with a slot's RELEASE submitted (R59, R60). -/
def State.released (s : State) (c : Client) (reason : ReleaseReason) (code : Fin 16) : State :=
  s.handedIn c (.release c code) { s.slot c with state := .releasing, reason := reason }
    { s.slot c with state := .releasing, reason := reason, outboxEntry := .release }
    { s.slot c with state := .releasing, reason := reason, owed := .release }

/-- The station with a slot's WITHDRAW submitted (R50). -/
def State.withdrawn (s : State) (c : Client) : State :=
  s.handedIn c (.withdraw c) { s.slot c with state := .withdrawing, removalPending := false, outboxEntry := .none }
    { s.slot c with state := .withdrawing, removalPending := false, outboxEntry := .withdraw }
    { s.slot c with state := .withdrawing, removalPending := false, outboxEntry := .none, owed := .withdraw }

/-- The station with a slot gone to FREE and CLAIM_ENDED posted (R43). -/
def State.ended (s : State) (c : Client) (reason : EndReason) : State :=
  (s.setSlot c (Slot.freeWith reason)).post (.claimEnded reason) c

/-- The checks of R180 in their order: whether the check passes, and the section and offset BAD_CONFIG names for it (11.4). -/
def Port.checks (p : Port) : List (Bool × Byte × Byte) :=
  [(decide (1 ≤ p.n ∧ p.n ≤ 16), 0#8, 0#8)] ++
  (sixteen.map fun r => (decide (p.n ≤ r.val ∨ 1 ≤ p.leaseLength r), 0#8, BitVec.ofNat 8 (2 + 3 * r.val))) ++
  [(decide (p.threshold ≤ 15), 0#8, 49#8), (decide (1 ≤ p.leaseUnit ∧ p.leaseUnit ≤ 64), 0#8, 50#8),
    (decide (1 ≤ (p.system[51]).toNat), 0#8, 51#8), (decide (3 ≤ p.absenceLimit ∧ p.absenceLimit ≤ 15), 0#8, 52#8)] ++
  eight.map fun n => (!p.lineEnabled n || setValid p.n (p.lineSet n), 1#8, BitVec.ofNat 8 (3 * n.val + 1))

/-- Section and offset of the first check that fails. -/
def Port.failing (p : Port) : Option (Byte × Byte) := (p.checks.find? fun c => !c.1).map Prod.snd

/-- A slot after the queuing of the station's LEAVE (table of R63); `kept` says that its entry is offered in the current round. -/
def Slot.afterLeave (v : Slot) (kept : Bool) : Slot :=
  let entry := if kept then v.outboxEntry else .none
  match v.state with
  | .free => { v with owed := .none }
  | .pending | .queued | .waiting | .withdrawing =>
    { v with state := .withdrawing, closing := true, owed := .none, outboxEntry := entry }
  | .granted | .yielding =>
    { v with state := .releasing, reason := .leave, closing := true, owed := .none, outboxEntry := entry }
  | .releasing => { v with closing := true, owed := .none, outboxEntry := entry }
  | .retry => Slot.freeWith v.lastEnd

/-- The CLAIM_ENDED events of a teardown in ascending client order (R66, R67), with the session count they carry: none for a slot
that is FREE or in RETRY. -/
def State.teardownEvents (s : State) (reason : EndReason) (count : Word) : List Event :=
  sixteen.filterMap fun c =>
    if (s.slot c).state = .free ∨ (s.slot c).state = .retry then none else some ⟨.claimEnded reason, c, count⟩

/-- A slot after a teardown (R66, R67). -/
def Slot.afterTeardown (v : Slot) (reason : EndReason) : Slot :=
  match v.state with
  | .free => { v with owed := .none }
  | .retry => Slot.freeWith v.lastEnd
  | .pending | .queued | .waiting | .granted | .yielding | .releasing | .withdrawing => Slot.freeWith reason

/-- The Event Queue after several postings in order (R183). -/
def State.queued (s : State) (es : List Event) : List Event := es.foldl (enqueue s.own) s.port.events

/-- A notice is the reason of a taking: the state in which its effects are made. -/
def State.taking (s : State) : State := { s with bus := { s.bus with delivered := none } }

/-- The entries that wait for the round in progress only: those offered, to be removed unless taken (R116, R117). -/
def Outbox.waitsForRound (o : Outbox) : List Entry :=
  (o.entries.filter Entry.offered).map fun e => { e with removal := true }

/-- R72 is tested for line n: with every condition met the line claim starts (R48). -/
def State.risen (s : State) (n : LineNo) : State :=
  if s.port.lineEnabled n = true ∧ (s.line n).req = true ∧ (s.line n).rearm = false ∧
      (s.slot (clientOf n)).state = .free ∧ s.session.station = .active then
    s.claimed (clientOf n) (s.port.lineSet n) (s.port.lineClass n)
  else s

/-- R72 is tested for the line of a client; a software client has none. -/
def State.retested (s : State) (c : Client) : State :=
  match lineOf c with
  | some n => s.risen n
  | none => s

/-- The station with a QUEUED slot's CLAIM asked back (R50, R113). -/
def State.askedBack (s : State) (c : Client) : State :=
  let mine : Entry → Bool := fun e => decide (e.owner = .claimUnit c)
  if s.outbox.entries.any fun e => mine e && !e.offered then
    (((s.setOutbox (s.outbox.removeUnsent mine)).roomEvent.ended c .withdrawn)).retested c
  else
    (s.setOutbox (s.outbox.removeUnsent mine)).setSlot c { s.slot c with state := .withdrawing, removalPending := true }

/-- The client of line n lets go (table of R75). -/
def State.letGo (s : State) (n : LineNo) : State :=
  match (s.slot (clientOf n)).state with
  | .pending => (s.ended (clientOf n) .withdrawn).risen n
  | .queued => s.askedBack (clientOf n)
  | .waiting => s.withdrawn (clientOf n)
  | .granted | .yielding => s.released (clientOf n) .normal 0
  | .retry => (s.setSlot (clientOf n) (Slot.freeWith (s.slot (clientOf n)).lastEnd)).risen n
  | .free | .releasing | .withdrawing => s

/-- The edges of line n are handed on in their order: a rise tests R72, a fall lets the claim go (R71). -/
def State.handedOn (s : State) (n : LineNo) (edges : List Edge) : State :=
  edges.foldl (fun t e => match e with | .rise => t.risen n | .fall => t.letGo n) s

/-- The station in FAULTED (R101, R142 and the tables of R41, R67, R106, R161, R173): STATION_STATE is posted before the slots
end, and without a replica every event carries the count 0. -/
def State.fallen (s : State) (cause : Cause) : State :=
  { s with
    outbox := ⟨[], 1⟩
    bus := { s.bus with voidRun := 0 }
    session := { s.session with
      station := .faulted, members := .empty, founded := false, tag := 0#16, count := 0#16, leaveDest := none,
      leftSynced := false, leaveReason := none }
    timers := .stopped
    joiner := .none
    sponsor := .none
    pool := ⟨[], false⟩
    slots := Vector.ofFn fun c : Client => (s.slot c).afterTeardown .fault
    lines := Vector.ofFn fun n : LineNo => { s.line n with gnt := false }
    port := { s.port with
      locked := false, attn := true,
      events := (⟨.stationState .faulted cause, s.own, 0#16⟩ :: s.teardownEvents .fault 0#16).foldl (enqueue s.own)
        s.port.events }
    checker := ⟨cyclicCheck (List.replicate 16 0#8), s.checker.profileCheck, none, false⟩ }

/-- The station with an offered entry removed by its round, its removal having been asked, and its owner told (R51, R63, R114):
the Session Controller is not told. -/
def State.offerTold (s : State) : Owner → State
  | .session => s.setOutbox { s.outbox with entries := s.outbox.entries.filter fun x => !x.offered }
  | .claimUnit c =>
    let gone := s.setOutbox { s.outbox with entries := s.outbox.entries.filter fun x => !x.offered }
    if (s.slot c).closing = true then gone.setSlot c { s.slot c with outboxEntry := .none, removalPending := false }
    else if (s.slot c).state = .withdrawing ∧ (s.slot c).removalPending = true then gone.ended c .withdrawn
    else gone

/-- A later state t of the same event, with R72 tested for the line of the slot that ended when its offered entry was removed. -/
def State.offerTested (s : State) : Owner → State → State
  | .session, t => t
  | .claimUnit c, t =>
    if (s.slot c).closing = false ∧ (s.slot c).state = .withdrawing ∧ (s.slot c).removalPending = true then t.retested c else t

/-- The owed notices of the station in the order in which the Outbox serves them (R112). -/
def State.owedNotices (s : State) : List (Body × Owner) :=
  (sixteen.filterMap fun a => if s.sponsor.owedEvicts.get a then some (.evict a, .session) else none) ++
  (sixteen.filterMap fun c =>
    match (s.slot c).owed with
    | .withdraw => some (.withdraw c, .claimUnit c)
    | .release => some (.release c (if (s.slot c).reason = .forced then 1 else 0), .claimUnit c)
    | .none | .claim => none) ++
  (s.sponsor.owedAnswer.toList.map fun b => (b, .session)) ++
  (if s.sponsor.owedBeacon then [(.beacon 0#16 0#16 false, .session)] else []) ++
  sixteen.filterMap fun c =>
    if (s.slot c).owed = .claim then some (.claim c (s.slot c).cls (s.slot c).set, .claimUnit c) else none

/-- The Outbox with one owed notice tested, and placed where it has room for it (R109, R112). -/
def Outbox.served (tag : Word) (o : Outbox) (x : Body × Owner) : Outbox :=
  if o.room x.1.tier then o.place x.1 tag x.2 else o

/-- The replica as the notices of a session change it: table, session count and pool (R7, R121, R123). -/
structure Replica where
  members : Table
  count : Word
  records : List PoolRecord
deriving DecidableEq, Repr

/-- The pool after a notice whose membership effect leaves the table `new`, with N resources and promotion threshold t (R11 to
R18). -/
def Replica.poolAfter (r : Replica) (n t : Nat) (new : Table) (x : Notice) : List PoolRecord :=
  let pair := fun (c : Client) (q : PoolRecord) => decide (q.station = x.sender) && decide (q.client = c)
  let drop := fun (gone : PoolRecord → Bool) =>
    if r.records.any gone then (grantPass t (r.records.filter fun q => !gone q)).records else r.records
  match x.body with
  | .claim c k m =>
    if (r.members.get x.sender).state = .present ∧ setValid n m = true ∧ r.records.any (pair c) = false ∧
        r.records.length < 64 then
      (grantPass t (r.records ++ [⟨x.sender, c, m, k, k, 0, .waiting, true⟩])).records
    else r.records
  | .withdraw c => drop (pair c)
  | .release c _ => drop (pair c)
  | .leave _ => drop fun q => decide (q.station = x.sender) ||
      (decide ((new.get q.station).state = .absent) && decide ((r.members.get q.station).state ≠ .absent))
  | .evict _ => drop fun q => decide ((new.get q.station).state = .absent) && decide ((r.members.get q.station).state ≠ .absent)
  | .found _ | .join _ | .admitJoiner _ _ | .refuse _ _ | .snapMembers _ | .snapClaim _ _ _ _ _ _ _ _ | .snapEnd _ _
  | .beacon _ _ _ => r.records

/-- The replica after a notice: steps 1, 3 and 4 of R125. -/
def Replica.take (n t : Nat) (r : Replica) (x : Notice) : Replica :=
  let new := (memberEffect r.members x).table
  ⟨new, if x.body.isFound || x.body.isBeacon || x.body.isSnap then r.count else r.count + 1#16, r.poolAfter n t new x⟩

/-- The Outbox with the offered entry back in its place (R114). -/
def Outbox.kept (o : Outbox) : Outbox := { o with entries := o.entries.map fun e => { e with offered := false } }

/-- No offered entry is to be removed by the round. -/
def NoRemoval (s : State) : Prop := ∀ e ∈ s.outbox.entries, e.offered = true → e.removal = false

/-- The session timer of one member restarts where it runs, and the member is SYNCING or PRESENT and another station (R125 step 2). -/
def State.restarted (s : State) (m : Addr) : Timers :=
  if m ≠ s.own ∧ ((s.session.members.get m).state = .syncing ∨ (s.session.members.get m).state = .present) then
    { s.timers with absence := s.timers.absence.set m.val ((s.timers.absence.get m).map fun _ => 0) m.isLt }
  else s.timers

/-- The Outbox with a notice of the Session Controller submitted (R109, R110, R116): unchanged where a LEAVE waits in it or it
has no room. -/
def Outbox.offeredTo (o : Outbox) (body : Body) (tag : Word) : Outbox :=
  if o.hasLeave then o else if o.room body.tier then o.place body tag .session else o

/-- A snapshot notice x is made, with the serving state that follows: placed where the Outbox has room for it, owed else (R148). -/
def State.snapMade (s : State) (x : Body) (after : Serving) : State :=
  { s with
    outbox := (if s.outbox.room 2 = true then s.outbox.place x s.session.tag .session else s.outbox)
    sponsor := { s.sponsor with serving := some after, owedAnswer := (if s.outbox.room 2 = true then none else some x) } }

/-- The taking of the notice leads to no request of R113: no FOUND or JOIN of this station is answered by it, and in a session it
names no target of an EVICT and leaves the joiner served its record. -/
def State.recallsNothing (s : State) (n : Notice) : Prop :=
  s.session.station = .offline ∨ s.session.station = .backoff ∨ s.session.station = .loading ∨ s.session.station = .faulted ∨
    ((s.session.station = .announcing ∨ s.session.station = .active ∨ s.session.station = .leaving) ∧ namedTarget n = none ∧
      ∀ v, s.sponsor.serving = some v → ((memberEffect s.session.members n).table.get v.joiner).state ≠ .absent)

end Sys2Proof.Machine
end

