-- ==== Sys2Proof/WellFormed.lean ====
section
/-! DEFINITION. Which terms of `Instr` are commands the outside can really give. The meanings are total and do not rest on it. -/

namespace Sys2Proof

/-- A LOAD frame carries 1 to 39 data bytes (R175). -/
def loadWellFormed (data : List Byte) : Bool := decide (1 ≤ data.length) && decide (data.length ≤ Config.loadMax)

/-- A carriage heard in a round that this station takes is one it received without a fault (R95), no byte more and no byte
less: the carriage of some notice, unused bits apart. -/
def hearingWellFormed : Hearing → Bool
  | .own => true
  | .other winning carriage =>
    match receive winning carriage with
    | .notice n => decide (n.carriage.length = carriage.length)
    | .fault _ => false

/-- Well-formed commands: the operands are ones the row's event can have. -/
def Instr.wellFormed : Instr → Bool
  | .loadProfile _ data => loadWellFormed data
  | .loadLocal _ data => loadWellFormed data
  | .badFrame ident params => !lengthAllowed ident params.length && decide (params.length ≤ 255)
  | .frameAborted received => !reachesDecision received
  | .roundTaken hearing _ => hearingWellFormed hearing
  | .roundVoided won fault => !(won && fault.isSome)
  | .readConfig _ _ _ | .start | .stop | .resync | .clearFault | .claim _ _ _ | .cancel _ | .release _ | .renew _
  | .readEvent | .readStatus | .readSlot _ | .readResource _ | .readMember _ | .eventRemoval | .hardwareReset
  | .resetRelease _ _ | .reqRise _ _ | .reqFall _ _ | .roundStart | .roundMissed _ | .busStuck | .busRecovered
  | .listenWindowExpiry | .answerLimitExpiry | .backoffEnd | .snapshotLimitExpiry | .beaconTimerExpiry
  | .absenceTimerExpiry _ | .leaseExpiry _ | .yieldExpiry _ | .retryExpiry _ | .owedNoticePlaced | .edgeHandedOn _
  | .noticeEffectsMade => true

end Sys2Proof
end

