-- ==== Sys2Proof/Certificates/Slice0/Obligations.lean ====
section
/-! DEFINITION. The statements for the provers. A right-hand side names no meaning: it is built of the primitive updates of
Machine/Ops.lean (`setSlot`, `post`, `enter`, …) and of the words of Safety.lean, so that it says the whole next state. -/

open Sys2Proof Sys2Proof.Machine

/-! ### Steps, reset, straps -/

/-- A step takes the command at the front of the queue and runs it with the queue's rest; every command answers a next state, and
none touches the commands that wait. -/
def Obligations.StepRunsFrontCommand : Prop :=
  (∀ (c : Instr) (rest : List Instr) (s : State), s.pending = c :: rest → step s = exec c { s with pending := rest }) ∧
  ∀ (c : Instr) (s : State), ∃ t : State, exec c s = .next t ∧ t.pending = s.pending

/-- With no command waiting a step is one millisecond of the timebase (the model's choice, log 1): none passes while RESETN is
asserted; else the timers of GRANTED, YIELDING and RETRY slots count down whatever the bus does (R46), a stuck bus stops the
session timers but not the backoff wait (R104), an expiry is queued for each timer that reaches its limit, each once and no other
command, and nothing else changes. -/
def Obligations.EmptyQueueTicksTheTimers : Prop :=
  ∀ s : State, s.pending = [] →
    (s.resetHeld = true → step s = .next s) ∧
    (s.resetHeld = false →
      ∃ t : State, step s = .next t ∧ t = { s with slots := t.slots, timers := t.timers, pending := t.pending } ∧
        t.pending.Nodup ∧
        (∀ x ∈ t.pending, (∃ c : Client, x = .leaseExpiry c ∨ x = .yieldExpiry c) ∨ (∃ n : LineNo, x = .retryExpiry n) ∨
          (∃ m : Addr, x = .absenceTimerExpiry m) ∨
          x ∈ [Instr.backoffEnd, .listenWindowExpiry, .answerLimitExpiry, .snapshotLimitExpiry, .beaconTimerExpiry]) ∧
        (∀ c : Client, t.slot c =
          if (s.slot c).state = .granted then { s.slot c with leaseMs := (s.slot c).leaseMs - 1 }
          else if (s.slot c).state = .yielding then { s.slot c with yieldMs := (s.slot c).yieldMs - 1 }
          else if (s.slot c).state = .retry then { s.slot c with retryMs := (s.slot c).retryMs - 1 }
          else s.slot c) ∧
        (∀ c : Client, Instr.leaseExpiry c ∈ t.pending ↔ (s.slot c).state = .granted ∧ (s.slot c).leaseMs ≤ 1) ∧
        (∀ c : Client, Instr.yieldExpiry c ∈ t.pending ↔ (s.slot c).state = .yielding ∧ (s.slot c).yieldMs ≤ 1) ∧
        (∀ n : LineNo, Instr.retryExpiry n ∈ t.pending ↔
          (s.slot (clientOf n)).state = .retry ∧ (s.slot (clientOf n)).retryMs ≤ 1) ∧
        t.timers.backoff = s.timers.backoff.map (fun k => min (k + 1) (s.port.backoffLimit s.own)) ∧
        (Instr.backoffEnd ∈ t.pending ↔ ∃ k, s.timers.backoff = some k ∧ s.port.backoffLimit s.own ≤ k + 1) ∧
        (s.bus.stuck = true → t.timers = { s.timers with backoff := t.timers.backoff } ∧
          Instr.listenWindowExpiry ∉ t.pending ∧ Instr.answerLimitExpiry ∉ t.pending ∧
          Instr.snapshotLimitExpiry ∉ t.pending ∧ Instr.beaconTimerExpiry ∉ t.pending ∧
          ∀ m, Instr.absenceTimerExpiry m ∉ t.pending) ∧
        (s.bus.stuck = false →
          t.timers.listen = s.timers.listen.map (fun k => min (k + 1) s.port.listenLimit) ∧
          t.timers.answer = s.timers.answer.map (fun k => min (k + 1) s.port.absenceMs) ∧
          t.timers.snapshot = s.timers.snapshot.map (fun k => min (k + 1) s.port.absenceMs) ∧
          t.timers.beacon = s.timers.beacon.map (fun k => min (k + 1) s.port.beaconInterval) ∧
          t.timers.heard = s.timers.heard ∧
          (∀ m : Addr, t.timers.absence.get m =
            (s.timers.absence.get m).map fun k => if k + 1 < s.port.absenceMs then k + 1 else k) ∧
          (Instr.listenWindowExpiry ∈ t.pending ↔ ∃ k, s.timers.listen = some k ∧ s.port.listenLimit ≤ k + 1) ∧
          (Instr.answerLimitExpiry ∈ t.pending ↔ ∃ k, s.timers.answer = some k ∧ s.port.absenceMs ≤ k + 1) ∧
          (Instr.snapshotLimitExpiry ∈ t.pending ↔ ∃ k, s.timers.snapshot = some k ∧ s.port.absenceMs ≤ k + 1) ∧
          (Instr.beaconTimerExpiry ∈ t.pending ↔ ∃ k, s.timers.beacon = some k ∧ s.port.beaconInterval ≤ k + 1) ∧
          (∀ m, Instr.absenceTimerExpiry m ∈ t.pending ↔
            ∃ k, s.timers.absence.get m = some k ∧ k < s.port.absenceMs ∧ s.port.absenceMs ≤ k + 1)))

/-- What hardware reset leaves, block by block, and HARDWARE_RESET leaves it whatever the station was doing. That RESETN
is still asserted then, and the values its whole state gives to what the spec does not name, are the model's (log 4, 14). -/
def Obligations.HardwareResetLeavesResetValues : Prop :=
  (let r := State.reset;
    r.outbox = ⟨[], 1⟩ ∧ r.bus = ⟨0, 0, false, none, none⟩ ∧
    r.session.station = .offline ∧ (∀ a : Addr, r.session.members.get a = ⟨.absent, none, true⟩) ∧
    r.session.founded = false ∧ r.session.tag = 0#16 ∧ r.session.count = 0#16 ∧ r.session.counter = 0#12 ∧
    r.session.leaveDest = none ∧ r.session.leaveReason = none ∧
    r.timers.listen = none ∧ r.timers.answer = none ∧ r.timers.heard = false ∧ r.timers.backoff = none ∧
    r.timers.snapshot = none ∧ r.timers.beacon = none ∧ (∀ a : Addr, r.timers.absence.get a = none) ∧
    r.joiner.sponsor = none ∧ r.joiner.catchUp = [] ∧
    (∀ a : Addr, r.sponsor.answers.get a = none) ∧ r.sponsor.serving = none ∧ NothingOwed r ∧
    r.pool = ⟨[], false⟩ ∧
    (∀ c : Client, r.slot c =
      { state := .free, set := 0#16, cls := 0, params := (r.slot c).params, leaseMs := 0, yieldMs := 0, renewals := 0,
        outboxEntry := .none, owed := .none, reason := (r.slot c).reason, closing := false, removalPending := false,
        lastEnd := .none, retryMs := 0 }) ∧
    (∀ n : LineNo, (r.line n).req = false ∧ (r.line n).gnt = false ∧ (r.line n).rearm = false) ∧
    (∀ i : Fin 53, r.port.system.get i = 0#8) ∧ (∀ i : Fin 25, r.port.loc.get i = 0#8) ∧ r.port.locked = false ∧
    r.port.events = [] ∧ r.port.attn = false ∧
    r.checker.tableCheck = cyclicCheck (List.replicate 16 0#8) ∧ r.checker.profileCheck = 0#16 ∧ r.checker.suspect = none ∧
    r.checker.resyncPending = false) ∧
  ∀ s : State, exec .hardwareReset s = .next { State.reset with pending := s.pending }

/-- The straps are sampled at the release of RESETN and held until the next hardware reset; the address is the sender of every
notice and READ_STATUS reports both, of the station u with the effects of a delivered notice made (log 5). A release of a part
whose RESETN is not asserted is none (the model's choice, log 3). -/
def Obligations.StrapsHeldUntilReset : Prop :=
  (∀ (s : State) (a : Addr) (f : Bool), exec (.resetRelease a f) s =
    .next (if s.resetHeld then { s with resetHeld := false, straps := ⟨a, f⟩ } else s)) ∧
  (∀ (c : Instr) (s t : State), c ≠ .hardwareReset → s.resetHeld = false → exec c s = .next t →
    t.straps = s.straps ∧ t.resetHeld = false) ∧
  (∀ (s : State) (e : Entry), (s.filled e).sender = s.straps.address) ∧
  ∀ s u : State, s.resetHeld = false → exec .noticeEffectsMade s = .next u → ∃ d, exec .readStatus s = .next (u.answered .ok d) ∧
    d[1]? = some (BitVec.ofNat 8 (s.straps.address.val + if s.straps.fast then 128 else 0))

/-! ### Configuration image (R177 to R180) -/

/-- LOAD_PROFILE and LOAD_LOCAL: LOCKED, then BAD_PARAMETER, then the bytes are written and no other byte changes; a frame with no
data byte or more than 39 is no LOAD (BAD_FRAME). In a state whose lock follows the station state (an invariant, stated below) it
is set exactly outside OFFLINE and FAULTED, the states READ_STATUS shows where no delivered notice is left to handle. That a LOAD
meets the station u with the effects of a delivered notice made, which is the station itself where none is left to handle, is the
model's choice (log 5). READ_CONFIG returns the bytes stored, in every station state, and changes nothing. -/
def Obligations.LoadWritesTheImage : Prop :=
  (∀ s : State, LockFollows s →
    (s.port.locked = true ↔ s.session.station ≠ .offline ∧ s.session.station ≠ .faulted) ∧
    (s.resetHeld = false → s.bus.delivered = none → ∃ d, exec .readStatus s = .next (s.answered .ok d) ∧
      (s.port.locked = true ↔ d[0]? ≠ some StationState.offline.code ∧ d[0]? ≠ some StationState.faulted.code))) ∧
  (∀ (s : State) (o : Byte) (d : List Byte), s.resetHeld = false →
    ∃ u : State, exec .noticeEffectsMade s = .next u ∧ (s.bus.delivered = none → u = s) ∧
    exec (.loadProfile o d) s = .next (
      if d.length < 1 ∨ 39 < d.length then u.answered .badFrame []
      else if u.port.locked then u.answered .locked []
      else if 53 < o.toNat + d.length then u.answered .badParameter []
      else ({ u with port := { u.port with system := (Vector.ofFn fun i : Fin 53 =>
          if o.toNat ≤ i.val ∧ i.val < o.toNat + d.length then d.getD (i.val - o.toNat) 0#8
          else u.port.system.get i) } } : State).answered .ok []) ∧
    exec (.loadLocal o d) s = .next (
      if d.length < 1 ∨ 39 < d.length then u.answered .badFrame []
      else if u.port.locked then u.answered .locked []
      else if 25 < o.toNat + d.length then u.answered .badParameter []
      else ({ u with port := { u.port with loc := (Vector.ofFn fun i : Fin 25 =>
          if o.toNat ≤ i.val ∧ i.val < o.toNat + d.length then d.getD (i.val - o.toNat) 0#8
          else u.port.loc.get i) } } : State).answered .ok [])) ∧
  ∀ (s : State) (sect o n : Byte), s.resetHeld = false → exec (.readConfig sect o n) s = .next (
    if n.toNat = 0 ∨ 40 < n.toNat then s.answered .badParameter []
    else if sect = 0#8 ∧ o.toNat + n.toNat ≤ 53 then
      s.answered .ok ((s.port.system.toList.drop o.toNat).take n.toNat)
    else if sect = 1#8 ∧ o.toNat + n.toNat ≤ 25 then s.answered .ok ((s.port.loc.toList.drop o.toNat).take n.toNat)
    else s.answered .badParameter [])

/-- A change of station state: the lock follows it, STATION_STATE is posted with the count held, ATTN is asserted, and a station
that is not ACTIVE has no suspect, no answer list and no serving state. -/
def Obligations.EnteringAStatePostsAndLocks : Prop :=
  ∀ (s : State) (st : StationState) (cause : Cause), s.enter st cause =
    { s with
      session := { s.session with station := st },
      sponsor := (if st = .active then s.sponsor
        else { s.sponsor with answers := Vector.replicate 16 none, serving := none }),
      checker := (if st = .active then s.checker else { s.checker with suspect := none }),
      port := { s.port with
        locked := decide (st ≠ .offline ∧ st ≠ .faulted),
        events := enqueue s.own s.port.events (s.event (.stationState st cause) s.own),
        attn := true } }

/-- START with no delivered notice left to handle: WRONG_STATE outside OFFLINE, BAD_CONFIG with the section and offset of the first
failing check, and otherwise the profile check is worked out and the station listens from zero. -/
def Obligations.StartDecidesByTheImage : Prop :=
  ∀ s : State, s.resetHeld = false → s.bus.delivered = none →
    (s.session.station ≠ .offline → exec .start s = .next (s.answered .wrongState [])) ∧
    (s.session.station = .offline →
      (∀ sect off, s.port.failing = some (sect, off) → exec .start s = .next (s.answered .badConfig [sect, off])) ∧
      (s.port.failing = none → exec .start s = .next
        ((({ s with
            checker := { s.checker with
              profileCheck := cyclicCheck s.port.system.toList, suspect := none, resyncPending := false },
            timers := { s.timers with listen := some 0 } } : State).enter .listening .start).answered .ok [])))

/-! ### Station commands (R131, R132, R181) -/

/-- STOP in LISTENING, FOUNDING, SEEKING and BACKOFF: the unsent FOUND or JOIN is removed, the timer stops, the tag is discarded
and the station is OFFLINE. STOP in LEAVING turns the leave destination to OFFLINE; STOP in OFFLINE and FAULTED, RESYNC outside
ACTIVE and CLEAR_FAULT outside FAULTED are answered WRONG_STATE and change nothing; CLEAR_FAULT takes a FAULTED station to
OFFLINE. No delivered notice is left to handle; where one is, its effects come first (stated below, log 5). -/
def Obligations.StationCommandsByState : Prop :=
  (∀ s : State, s.resetHeld = false → s.bus.delivered = none → NothingOwed s →
      (s.session.station = .listening → exec .stop s = .next
        ((({ s with timers := { s.timers with listen := none }, session := { s.session with tag := 0#16 } } : State).enter
          .offline .stop).answered .ok [])) ∧
      (s.session.station = .founding → exec .stop s = .next
        ((({ s with outbox := s.outbox.removeUnsent (fun e => e.body.isFound), session := { s.session with tag := 0#16 } }
          : State).enter .offline .stop).answered .ok [])) ∧
      (s.session.station = .seeking → exec .stop s = .next
        ((({ s with outbox := s.outbox.removeUnsent (fun e => e.body.isJoin), timers := { s.timers with answer := none },
                    session := { s.session with tag := 0#16 } } : State).enter .offline .stop).answered .ok [])) ∧
      (s.session.station = .backoff → exec .stop s = .next
        ((({ s with outbox := s.outbox.removeUnsent (fun e => e.body.isJoin), timers := { s.timers with backoff := none },
                    session := { s.session with tag := 0#16 } } : State).enter .offline .stop).answered .ok []))) ∧
  (∀ s : State, s.resetHeld = false → s.bus.delivered = none →
      (s.session.station = .leaving → exec .stop s = .next
        (({ s with session := { s.session with leaveDest := some .offline } } : State).answered .ok [])) ∧
      (s.session.station = .offline ∨ s.session.station = .faulted → exec .stop s = .next (s.answered .wrongState [])) ∧
      (s.session.station ≠ .active → exec .resync s = .next (s.answered .wrongState [])) ∧
      (s.session.station ≠ .faulted → exec .clearFault s = .next (s.answered .wrongState [])) ∧
      (s.session.station = .faulted → exec .clearFault s = .next ((s.enter .offline .clearFault).answered .ok [])))

/-- The station queues its LEAVE at STOP in LOADING, ANNOUNCING and ACTIVE, at RESYNC in ACTIVE, and at the snapshot limit of a
LOADING station (no delivered notice left to handle): the Outbox holds the LEAVE and at most the offered entry, every owed notice
is dropped, every slot is closed, serving and building stop, and the station is LEAVING with its destination and the reason. A slot
that goes to RELEASING keeps its counts, the model's choice (log 14). An expiry of a snapshot limit that does not run is none (the
model's choice, log 3). -/
def Obligations.LeaveIsQueued : Prop :=
  (∀ s : State, s.resetHeld = false → s.bus.delivered = none →
    (s.session.station = .loading ∨ s.session.station = .announcing ∨ s.session.station = .active →
      exec .stop s = .next ((s.queueLeave .stop).answered .ok [])) ∧
    (s.session.station = .active → exec .resync s = .next ((s.queueLeave .resync).answered .ok []))) ∧
  (∀ s : State, s.bus.delivered = none → exec .snapshotLimitExpiry s = .next (
    if s.session.station = .loading ∧ s.timers.snapshot ≠ none ∧ s.bus.stuck = false then s.queueLeave .abandon else s)) ∧
  ∀ (s : State) (r : LeaveReason), (s.outbox.entries.filter Entry.offered).length ≤ 1 →
    (let t := s.queueLeave r;
    t.session = { s.session with
      station := .leaving, leaveDest := some (if r = .stop then LeaveDest.offline else .seeking),
      leftSynced := decide (s.session.station = .announcing ∨ s.session.station = .active ∨
        (s.session.station = .leaving ∧ s.session.leftSynced = true))
      leaveReason := some r } ∧
    t.outbox.entries = insertEntry
      ⟨.leave r.code, s.session.tag, .session, if s.outbox.waitsForRound = [] then 1 else s.outbox.nextNumber, 0, false,
        false⟩ s.outbox.waitsForRound ∧
    t.sponsor = Sponsor.none ∧ t.joiner = Joiner.none ∧ t.timers = { s.timers with snapshot := none } ∧
    t.checker = { s.checker with suspect := none } ∧
    (∀ k : Client, t.slot k = (s.slot k).afterLeave
      (s.outbox.entries.any fun e => e.offered && decide (e.owner = .claimUnit k))) ∧
    (∀ n : LineNo, t.line n = { s.line n with gnt := false }) ∧
    t.port = { s.port with
      locked := true, attn := true,
      events := enqueue s.own s.port.events (s.event (.stationState .leaving r.cause) s.own) } ∧
    t.pool = s.pool ∧ t.bus = s.bus ∧ t.straps = s.straps ∧ t.resetHeld = s.resetHeld ∧ t.pending = s.pending)

/-- A storage upset: with the resync-pending flag set it changes nothing; else, in a station that holds a replica, it
sets the flag and posts DIVERGENCE(own address, RESYNC), and an ACTIVE, ANNOUNCING or LOADING station queues LEAVE(RESYNC), while a
LEAVING one goes on with its LEAVE; one that holds none has nothing to upset. A pool record found failing freezes the pool first; a
mismatch of an indication is an upset in ACTIVE and ANNOUNCING alone. A taken CLAIM whose tests meet a failing record at the pool's
head is not applied: the pool stays, frozen, and the station resynchronises, whatever stands behind that record. That the search for
the pair starts at the head and stops at the first failing record is the model's choice (log 8). -/
def Obligations.StorageUpsetByStationState : Prop :=
  (∀ s : State,
    (let marked : State := ({ s with checker := { s.checker with resyncPending := true } } : State).post (.divergence .resync) s.own;
    (s.checker.resyncPending = true → s.upset = s) ∧
    (s.checker.resyncPending = false →
      (s.session.station = .active ∨ s.session.station = .announcing ∨ s.session.station = .loading →
        s.upset = marked.queueLeave .resync) ∧
      (s.session.station = .leaving → s.upset = marked) ∧
      (s.session.station ≠ .active → s.session.station ≠ .announcing → s.session.station ≠ .loading →
        s.session.station ≠ .leaving → s.upset = s)) ∧
    s.freeze = ({ s with pool := { s.pool with frozen := true } } : State).upset ∧
    (s.session.station = .active ∨ s.session.station = .announcing → s.mismatch = s.upset) ∧
    (s.session.station ≠ .active → s.session.station ≠ .announcing → s.mismatch = s))) ∧
  ∀ (s : State) (h : Heard) (c : Client) (k : Sys2Proof.Class) (m : Mask) (r : PoolRecord) (rs : List PoolRecord),
    s.session.station = .announcing ∨ s.session.station = .active → s.checker.resyncPending = false →
    s.bus.delivered = some h → h.notice.tag = s.session.tag → h.notice.body = .claim c k m →
    (s.session.members.get h.notice.sender).state = .present → (s.session.members.get h.notice.sender).sound = true →
    setValid s.port.n m = true → s.pool = ⟨r :: rs, false⟩ → r.sound = false →
    ∃ t : State, exec .noticeEffectsMade s = .next t ∧ t.pool = ⟨r :: rs, true⟩ ∧ t.checker.resyncPending = true ∧
      t.session = { s.session with
        station := .leaving, leaveDest := some .seeking, leftSynced := true, leaveReason := some .resync,
        count := s.session.count + 1#16 }

/-! ### Claim commands (R47, R50, R55, R57, R59, R61, R182) -/

/-- The CLAIM command: the tests of R47 in their order, and the claim that starts when all pass. That it meets the station u with
the effects of a delivered notice made, which is the station itself where none is left to handle, is the model's choice (R125; log
5). -/
def Obligations.ClaimCommandDecided : Prop :=
  ∀ (s : State) (client : Byte) (set : Mask) (cls : Byte), s.resetHeld = false →
    ∃ u : State, exec .noticeEffectsMade s = .next u ∧ (s.bus.delivered = none → u = s) ∧
    (u.session.station ≠ .active → exec (.claim client set cls) s = .next (u.answered .wrongState [])) ∧
    (u.session.station = .active →
      (¬ (8 ≤ client.toNat ∧ client.toNat ≤ 15) →
        exec (.claim client set cls) s = .next (u.answered .badParameter [])) ∧
      ∀ c : Client, 8 ≤ c.val → client = BitVec.ofNat 8 c.val →
        (¬ (1 ≤ (resources set).length ∧ (resources set).length ≤ 4 ∧ (∀ r ∈ resources set, r.val < u.port.n) ∧
            cls.toNat ≤ 3) → exec (.claim client set cls) s = .next (u.answered .badParameter [])) ∧
        (1 ≤ (resources set).length → (resources set).length ≤ 4 → (∀ r ∈ resources set, r.val < u.port.n) →
          ∀ k : Sys2Proof.Class, cls = BitVec.ofNat 8 k.val →
            exec (.claim client set cls) s = .next
              (if (u.slot c).state = .free then (u.claimed c set k).answered .ok [] else u.answered .slotBusy [])))

/-- The CANCEL command by the slot's state. A CLAIM that is offered in the round waits for it, as does one no longer found in the
Outbox (it has been taken and its indication is to come, the model's choice, log 15); one that is not offered leaves at once and
the owed notices are offered the room, ahead of the slot's CLAIM_ENDED (the model's choice, log 40). The RELEASE command by the
slot's state; a slot in RELEASING keeps its counts (the model's choice, log 14). Both meet the station u with the effects of a
delivered notice made, which is the station itself where none is left to handle (R125; log 5). -/
def Obligations.CancelAndReleaseDecided : Prop :=
  (∀ (s : State) (client : Byte), s.resetHeld = false →
      ∃ u : State, exec .noticeEffectsMade s = .next u ∧ (s.bus.delivered = none → u = s) ∧
      (¬ (8 ≤ client.toNat ∧ client.toNat ≤ 15) → exec (.cancel client) s = .next (u.answered .badParameter [])) ∧
      ∀ c : Client, 8 ≤ c.val → client = BitVec.ofNat 8 c.val →
        (let mine : Entry → Bool := fun e => decide (e.owner = .claimUnit c)
        ((u.slot c).state = .pending → exec (.cancel client) s = .next ((u.ended c .withdrawn).answered .ok [])) ∧
        ((u.slot c).state = .waiting → exec (.cancel client) s = .next ((u.withdrawn c).answered .ok [])) ∧
        ((u.slot c).state = .queued → (∃ e ∈ u.outbox.entries, mine e = true ∧ e.offered = false) →
          exec (.cancel client) s = .next
            (((u.setOutbox (u.outbox.removeUnsent mine)).roomEvent.ended c .withdrawn).answered .ok [])) ∧
        ((u.slot c).state = .queued → (∀ e ∈ u.outbox.entries, mine e = true → e.offered = true) →
          exec (.cancel client) s = .next
            (((u.setOutbox (u.outbox.removeUnsent mine)).setSlot c
              { u.slot c with state := .withdrawing, removalPending := true }).answered .ok [])) ∧
        ((u.slot c).state = .granted ∨ (u.slot c).state = .yielding →
          exec (.cancel client) s = .next (u.answered .notWaiting [])) ∧
        ((u.slot c).state = .free ∨ (u.slot c).state = .releasing ∨ (u.slot c).state = .withdrawing ∨
            (u.slot c).state = .retry → exec (.cancel client) s = .next (u.answered .wrongState [])))) ∧
  (∀ (s : State) (client : Byte), s.resetHeld = false →
      ∃ u : State, exec .noticeEffectsMade s = .next u ∧ (s.bus.delivered = none → u = s) ∧
      (¬ (8 ≤ client.toNat ∧ client.toNat ≤ 15) → exec (.release client) s = .next (u.answered .badParameter [])) ∧
      ∀ c : Client, 8 ≤ c.val → client = BitVec.ofNat 8 c.val →
        exec (.release client) s = .next (
          if (u.slot c).state = .granted ∨ (u.slot c).state = .yielding then (u.released c .normal 0).answered .ok []
          else if (u.slot c).state = .releasing then
            u.answered (if (u.slot c).reason = .forced then .tooLate else .alreadyReleasing) []
          else u.answered .notGranted []))

/-- The RENEW command: the decision of R55 by mode, waiter answer and renewal count; on an answer UNKNOWN (a frozen pool, or a
record that fails its check, which freezes the pool and is a storage upset) it is denied. That the answer is asked for in every
mode, FIXED too, and that the upset stands though the command is DENIED, is the model's choice (log 22), as is that any failing
record of the pool counts as read (log 8). No delivered notice is left to handle; where one is, its effects come first (stated
below, log 5). -/
def Obligations.RenewDecided : Prop :=
  ∀ (s : State) (client : Byte), s.resetHeld = false → s.bus.delivered = none →
    (¬ (8 ≤ client.toNat ∧ client.toNat ≤ 15) → exec (.renew client) s = .next (s.answered .badParameter [])) ∧
    ∀ c : Client, 8 ≤ c.val → client = BitVec.ofNat 8 c.val →
      ((s.slot c).state ≠ .granted → exec (.renew client) s = .next (s.answered .notGranted [])) ∧
      ((s.slot c).state = .granted →
        (s.pool.frozen = true → exec (.renew client) s = .next (s.answered .denied [])) ∧
        (s.pool.frozen = false → (∃ r ∈ s.pool.records, r.sound = false) →
          exec (.renew client) s = .next (s.freeze.answered .denied [])) ∧
        (s.pool.frozen = false → (∀ r ∈ s.pool.records, r.sound = true) →
          (let waiter := ∃ w ∈ s.pool.records, w.standing = .waiting ∧
            ∃ r : Fin 16, w.set.getLsbD r.val = true ∧ (s.slot c).set.getLsbD r.val = true
          let renewed := fun k => (s.setSlot c { s.slot c with
            leaseMs := (s.slot c).params.length * s.port.leaseUnit, renewals := k }).answered .ok []
          ((s.slot c).params.mode = .fixed → exec (.renew client) s = .next (s.answered .denied [])) ∧
          ((s.slot c).params.mode = .renewable → ¬ waiter → exec (.renew client) s = .next (renewed 0)) ∧
          ((s.slot c).params.mode = .renewable → waiter → (s.slot c).renewals < (s.slot c).params.limit →
            exec (.renew client) s = .next (renewed ((s.slot c).renewals + 1))) ∧
          ((s.slot c).params.mode = .renewable → waiter → (s.slot c).params.limit ≤ (s.slot c).renewals →
            exec (.renew client) s = .next (s.answered .denied [])))))

/-- The lease parameters of a set: FIXED if any resource of it is FIXED, and the smallest length, limit and window of the set, a
stored window of 0 taken as 1 first. -/
def Obligations.LeaseParametersOfASet : Prop :=
  ∀ (p : Port) (m : Mask), resources m ≠ [] →
    ((p.leaseParams m).mode = .fixed ↔ ∃ r ∈ resources m, p.leaseMode r = .fixed) ∧
    ((∀ r ∈ resources m, (p.leaseParams m).length ≤ (p.system.get ⟨2 + 3 * r.val, by omega⟩).toNat) ∧
      ∃ r ∈ resources m, (p.leaseParams m).length = (p.system.get ⟨2 + 3 * r.val, by omega⟩).toNat) ∧
    ((∀ r ∈ resources m, (p.leaseParams m).limit ≤ (p.system.get ⟨3 + 3 * r.val, by omega⟩).toNat / 16) ∧
      ∃ r ∈ resources m, (p.leaseParams m).limit = (p.system.get ⟨3 + 3 * r.val, by omega⟩).toNat / 16) ∧
    ((∀ r ∈ resources m,
        (p.leaseParams m).window ≤ max 1 ((p.system.get ⟨3 + 3 * r.val, by omega⟩).toNat % 16)) ∧
      ∃ r ∈ resources m,
        (p.leaseParams m).window = max 1 ((p.system.get ⟨3 + 3 * r.val, by omega⟩).toNat % 16))

/-! ### Events (R183 to R186) -/

/-- READ_EVENT returns the head entry and leaves the queue as it stands; the entry is removed when its last response byte is out,
and ATTN falls with the last entry; nothing is removed where no READ_EVENT response is being shifted out (the model's choice, log
3). READ_EVENT reads the station u with the effects of a delivered notice made, which is the station itself where none is left to
handle (log 5). -/
def Obligations.ReadEventKeepsHeadUntilRemoval : Prop :=
  (∀ s : State, s.resetHeld = false →
    ∃ u : State, exec .noticeEffectsMade s = .next u ∧ (s.bus.delivered = none → u = s) ∧
    (u.port.events = [] → exec .readEvent s = .next (u.answered .noEvent [])) ∧
    ∀ e es, u.port.events = e :: es →
      exec .readEvent s = .next
        { u with port := { u.port with response := some ⟨.ok, e.bytes⟩, reading := true } } ∧
      e.bytes.length = 6) ∧
  ∀ s : State,
    (∀ e es, s.port.reading = true → s.port.events = e :: es → exec .eventRemoval s = .next
      { s with port := { s.port with events := es, attn := decide (es ≠ []), reading := false } }) ∧
    (s.port.reading = false → exec .eventRemoval s = .next s)

/-- A posting reaches the queue by the table of R184, the form of the queue is kept, and READ_STATUS reports the number of
entries. That it reads the station u with the effects of a delivered notice made is the model's choice (R22; log 5). An entry is
six bytes by the layout of 11.5: kind code, address or client, two reason bytes, session count. -/
def Obligations.PostingReachesTheQueue : Prop :=
  (∀ (own : Addr) (q : List Event) (e : Event), EventForm q →
    ((∀ x ∈ q, x.isLost = false) → q.length < 31 → enqueue own q e = q ++ [e]) ∧
    ((∀ x ∈ q, x.isLost = false) → q.length = 31 → enqueue own q e = q ++ [⟨.eventsLost 1, own, e.count⟩]) ∧
    (∀ q' k w n, q = q' ++ [⟨.eventsLost k, w, n⟩] →
      (k < 255 → enqueue own q e = q' ++ [⟨.eventsLost (k + 1), w, n⟩]) ∧ (k = 255 → enqueue own q e = q)) ∧
    (e.isLost = false → EventForm (enqueue own q e))) ∧
  (∀ s u : State, s.resetHeld = false → exec .noticeEffectsMade s = .next u → ∃ d,
    exec .readStatus s = .next (u.answered .ok d) ∧ d[10]? = some (BitVec.ofNat 8 u.port.events.length)) ∧
  ∀ (who : Fin 16) (n : Word),
    (let bytes := fun (k : EventKind) (kind first second : Byte) => Event.bytes ⟨k, who, n⟩ =
      [kind, BitVec.ofNat 8 who.val, first, second, n.extractLsb' 8 8, n.extractLsb' 0 8];
    bytes .claimGranted 1#8 0#8 0#8 ∧ bytes .claimYield 2#8 0#8 0#8 ∧ bytes .busStuck 7#8 0#8 0#8 ∧
    bytes .busRecovered 8#8 0#8 0#8 ∧ bytes .addressClash 9#8 0#8 0#8 ∧
    (∀ k, bytes (.eventsLost k) 10#8 (BitVec.ofNat 8 k) 0#8) ∧
    (∀ x ∈ [(EndReason.released, 1#8), (.forced, 2#8), (.withdrawn, 3#8), (.refusedPoolFull, 4#8), (.refusedDuplicate, 5#8),
        (.refusedNotMember, 6#8), (.evicted, 7#8), (.left, 8#8), (.sessionLost, 9#8), (.fault, 10#8), (.resync, 11#8)],
      bytes (.claimEnded x.1) 3#8 x.2 0#8) ∧
    (∀ x ∈ [(MemberState.absent, 0#8), (.joining, 1#8), (.syncing, 2#8), (.present, 3#8)], bytes (.memberState x.1) 5#8 x.2 0#8) ∧
    (∀ x ∈ [(DivergenceAction.recorded, 1#8), (.cleared, 2#8), (.resync, 3#8)], bytes (.divergence x.1) 6#8 x.2 0#8) ∧
    ∀ x ∈ [(StationState.offline, 0#8), (.listening, 1#8), (.founding, 2#8), (.seeking, 3#8), (.backoff, 4#8), (.loading, 5#8),
        (.announcing, 6#8), (.active, 7#8), (.leaving, 8#8), (.faulted, 9#8)],
      ∀ y ∈ [(Cause.start, 1#8), (.listenEnd, 2#8), (.sessionHeard, 3#8), (.founded, 4#8), (.stop, 5#8), (.resync, 6#8),
        (.abandon, 7#8), (.left, 8#8), (.evicted, 9#8), (.refusedBusy, 10#8), (.refusedProfile, 11#8), (.refusedAddress, 12#8),
        (.backoffEnd, 13#8), (.admitted, 14#8), (.snapshotDone, 15#8), (.sponsorLost, 16#8), (.synced, 17#8), (.sessionLost, 18#8),
        (.sessionSilent, 19#8), (.voidLimit, 20#8), (.receiveLimit, 21#8), (.clearFault, 22#8)],
        bytes (.stationState x.1 y.1) 4#8 x.2 y.2)

/-! ### Inspection (R188 to R191) and frames that are no command (R175) -/

/-- READ_STATUS answers the eleven bytes of 11.3, and READ_SLOT the nineteen bytes of 11.3 for every client, the line items read 0
for a software client; a client above 15 is answered BAD_PARAMETER; the codes are those of 11.5. Both read the station u with every
taken notice fully applied, one just delivered included (R22; log 5), which is the station itself where none is left to handle, and
change nothing more. -/
def Obligations.ReadStatusAndSlotReport : Prop :=
  (∀ s : State, s.resetHeld = false →
    ∃ u : State, exec .noticeEffectsMade s = .next u ∧ (s.bus.delivered = none → u = s) ∧
    exec .readStatus s = .next (u.answered .ok
      [u.session.station.code, BitVec.ofNat 8 (u.straps.address.val + if u.straps.fast then 128 else 0),
        u.session.tag.extractLsb' 8 8, u.session.tag.extractLsb' 0 8,
        u.session.count.extractLsb' 8 8, u.session.count.extractLsb' 0 8,
        BitVec.ofNat 8 u.pool.records.length, BitVec.ofNat 8 u.outbox.entries.length,
        (match u.checker.suspect with | some a => BitVec.ofNat 8 a.val | none => 0x10#8),
        BitVec.ofNat 8 ((if u.bus.stuck then 1 else 0) + if u.pool.frozen then 2 else 0),
        BitVec.ofNat 8 u.port.events.length]) ∧
    (∀ b : Byte, 15 < b.toNat → exec (.readSlot b) s = .next (u.answered .badParameter [])) ∧
    ∀ c : Client,
      (let v := u.slot c
      let slotPart : List Byte :=
        [v.state.code, BitVec.ofNat 8 ((if c.val < 8 then 0 else 128) + v.cls.val), v.set.extractLsb' 8 8,
          v.set.extractLsb' 0 8, v.params.mode.code, BitVec.ofNat 8 v.params.length,
          BitVec.ofNat 8 (v.params.limit * 16 + v.params.window), BitVec.ofNat 8 (v.leaseMs / u.port.leaseUnit),
          BitVec.ofNat 8 (v.yieldMs / u.port.leaseUnit), BitVec.ofNat 8 v.renewals,
          BitVec.ofNat 8 (v.outboxEntry.code.val * 16 + v.owed.code.val),
          (if v.state = .releasing then v.reason.code else 0#8),
          BitVec.ofNat 8 ((if v.closing then 1 else 0) + if v.removalPending then 2 else 0), v.lastEnd.code,
          BitVec.ofNat 8 (v.retryMs / 8)]
      (8 ≤ c.val → exec (.readSlot (BitVec.ofNat 8 c.val)) s = .next (u.answered .ok (slotPart ++ [0#8, 0#8, 0#8, 0#8]))) ∧
      ∀ n : LineNo, c = clientOf n → exec (.readSlot (BitVec.ofNat 8 c.val)) s = .next (u.answered .ok (slotPart ++
        [BitVec.ofNat 8 ((if u.port.lineEnabled n then 128 else 0) + (u.port.lineClass n).val),
          (u.port.lineSet n).extractLsb' 8 8, (u.port.lineSet n).extractLsb' 0 8,
          BitVec.ofNat 8 ((if (u.line n).req then 1 else 0) + (if (u.line n).gnt then 2 else 0) +
            (if (u.line n).rearm then 4 else 0) +
            if v.state = .free ∧ u.port.lineEnabled n = true ∧ (u.line n).req = true ∧ (u.line n).rearm = false ∧
              u.session.station ≠ .active then 8 else 0)])))) ∧
  (∀ x ∈ [(StationState.offline, 0#8), (.listening, 1#8), (.founding, 2#8), (.seeking, 3#8), (.backoff, 4#8), (.loading, 5#8),
    (.announcing, 6#8), (.active, 7#8), (.leaving, 8#8), (.faulted, 9#8)], x.1.code = x.2) ∧
  (∀ x ∈ [(SlotState.free, 0#8), (.pending, 1#8), (.queued, 2#8), (.waiting, 3#8), (.granted, 4#8), (.yielding, 5#8),
    (.releasing, 6#8), (.withdrawing, 7#8), (.retry, 8#8)], x.1.code = x.2) ∧
  (∀ x ∈ [(SlotNotice.none, (0 : Fin 16)), (.claim, 1), (.withdraw, 2), (.release, 3)], x.1.code = x.2) ∧
  (∀ x ∈ [(ReleaseReason.normal, 0#8), (.forced, 1#8), (.leave, 2#8)], x.1.code = x.2) ∧
  (∀ x ∈ [(LeaseMode.fixed, 0#8), (.renewable, 1#8)], x.1.code = x.2) ∧
  ∀ x ∈ [(EndReason.none, 0#8), (.released, 1#8), (.forced, 2#8), (.withdrawn, 3#8), (.refusedPoolFull, 4#8),
    (.refusedDuplicate, 5#8), (.refusedNotMember, 6#8), (.evicted, 7#8), (.left, 8#8), (.sessionLost, 9#8), (.fault, 10#8),
    (.resync, 11#8)], x.1.code = x.2

/-- READ_RESOURCE, with no delivered notice left to handle: BAD_PARAMETER at N or above; otherwise the view state, the holder, the
queue length and the first waiter, worked out from the records that pass their check, with the incomplete mark where one fails,
which freezes the pool and is a storage upset: any failing record of the pool counts as one the answer needed (the model's choice,
log 8). READ_MEMBER: BAD_PARAMETER above 15; otherwise the record's state and sponsor and
the absence timer in whole 8 ms units; a record that fails its check is reported as stored and the read is a storage upset. -/
def Obligations.ReadResourceAndMemberReport : Prop :=
  (∀ (s : State) (b : Byte), s.resetHeld = false → s.bus.delivered = none →
      (s.port.n ≤ b.toNat → exec (.readResource b) s = .next (s.answered .badParameter [])) ∧
      (b.toNat < s.port.n →
        (let recs := s.pool.records.filter PoolRecord.sound
        let fails := ∃ x ∈ s.pool.records, x.sound = false
        ∃ view holder first : Byte,
          (fails → exec (.readResource b) s = .next (s.freeze.answered .ok
            [view + 128#8, holder, BitVec.ofNat 8 (recs.filter fun w => w.isWaiting && w.set.getLsbD b.toNat).length, first])) ∧
          (¬ fails → exec (.readResource b) s = .next (s.answered .ok
            [view, holder, BitVec.ofNat 8 (recs.filter fun w => w.isWaiting && w.set.getLsbD b.toNat).length, first])) ∧
          (view = 1#8 ↔ ∃ h ∈ recs, h.isHolding = true ∧ h.set.getLsbD b.toNat = true) ∧
          (view = 2#8 ↔ (¬ ∃ h ∈ recs, h.isHolding = true ∧ h.set.getLsbD b.toNat = true) ∧
            ∃ w ∈ recs, w.isWaiting = true ∧ w.set.getLsbD b.toNat = true) ∧
          (view = 0#8 ↔ ¬ ∃ x ∈ recs, x.set.getLsbD b.toNat = true) ∧
          (view = 1#8 → ∃ h ∈ recs, h.isHolding = true ∧ h.set.getLsbD b.toNat = true ∧ holder = nibbles h.station h.client) ∧
          (view ≠ 1#8 → holder = 0#8) ∧
          (∀ w i, recs[i]? = some w → w.isWaiting = true → w.set.getLsbD b.toNat = true →
            (∀ x j, recs[j]? = some x → x.isWaiting = true → x.set.getLsbD b.toNat = true → j ≠ i →
              betterKey w i x j = true) → first = nibbles w.station w.client) ∧
          ((¬ ∃ w ∈ recs, w.isWaiting = true ∧ w.set.getLsbD b.toNat = true) → first = 0#8)))) ∧
  (∀ (s : State), s.resetHeld = false → s.bus.delivered = none →
      (∀ b : Byte, 15 < b.toNat → exec (.readMember b) s = .next (s.answered .badParameter [])) ∧
      ∀ a : Addr,
        (let m := s.session.members.get a
        let data : List Byte := [BitVec.ofNat 8 m.state.code.val,
            (match m.sponsor with | some p => BitVec.ofNat 8 p.val | none => 0x10#8)] ++
          (match s.timers.absence.get a with
            | some k => [1#8, (BitVec.ofNat 16 (k / 8)).extractLsb' 8 8, (BitVec.ofNat 16 (k / 8)).extractLsb' 0 8]
            | none => [0#8, 0#8, 0#8])
        exec (.readMember (BitVec.ofNat 8 a.val)) s =
          .next ((if m.sound then s else s.upset).answered .ok data)))

/-- A frame whose identifier names no command, or whose length is not allowed for it by the table of R175, is answered BAD_FRAME
and changes nothing else; an aborted frame leaves no answer and nothing else. -/
def Obligations.BadAndAbortedFrames : Prop :=
  ∀ s : State, s.resetHeld = false →
    (∀ (i : Byte) (ps : List Byte), lengthAllowed i ps.length = false →
      exec (.badFrame i ps) s = .next (s.answered .badFrame [])) ∧
    (∀ bs : List Byte, (bs.length < 2 ∨ ∃ i l ps, bs = i :: l :: ps ∧ ps.length < l.toNat) →
      exec (.frameAborted bs) s = .next { s with port := { s.port with response := none, reading := false } }) ∧
    ∀ (i : Byte) (k : Nat), lengthAllowed i k = true ↔
      (i ∈ [0x01#8, 0x02#8] ∧ 2 ≤ k ∧ k ≤ 40) ∨ (i = 0x03#8 ∧ k = 3) ∨ (i = 0x20#8 ∧ k = 4) ∨
        (i ∈ [0x21#8, 0x22#8, 0x23#8, 0x32#8, 0x33#8, 0x34#8] ∧ k = 1) ∨
        (i ∈ [0x10#8, 0x11#8, 0x12#8, 0x13#8, 0x30#8, 0x31#8] ∧ k = 0)

/-! ### Client lines (R71 to R75, R78) -/

/-- A sampled rise of REQ: on an enabled line it is handed on at once, after the edges that still wait, and starts the line claim
of R72, or waits to be handed on; a disabled line keeps its level alone, and a level that is high already has no rise (the model's
choice, log 3). At once it meets the station u with the effects of a delivered notice made, which is the station itself where none
is left to handle (R125; log 5, 6). -/
def Obligations.ReqRiseStartsLineClaim : Prop :=
  ∀ (s : State) (n : LineNo), s.resetHeld = false →
    ∃ u : State, exec .noticeEffectsMade s = .next u ∧ (s.bus.delivered = none → u = s) ∧
    (∀ h, (s.line n).req = true → exec (.reqRise n h) s = .next s) ∧
    ((s.line n).req = false →
      (∀ h, s.port.lineEnabled n = false → exec (.reqRise n h) s = .next (s.setLine n { s.line n with req := true })) ∧
      (s.port.lineEnabled n = true → exec (.reqRise n .later) s = .next
        (s.setLine n { s.line n with req := true, edges := (s.line n).edges ++ [.rise] })) ∧
      (s.port.lineEnabled n = true → exec (.reqRise n .atOnce) s = .next
        ((u.setLine n { u.line n with req := true, edges := [] }).handedOn n ((u.line n).edges ++ [.rise]))) ∧
      (s.port.lineEnabled n = true → (u.line n).edges = [] → exec (.reqRise n .atOnce) s = .next
        (if (u.line n).rearm = false ∧ (u.slot (clientOf n)).state = .free ∧ u.session.station = .active then
          (u.setLine n { u.line n with req := true }).claimed (clientOf n) (u.port.lineSet n) (u.port.lineClass n)
        else u.setLine n { u.line n with req := true })))

/-- A sampled fall of REQ: it clears the re-arm flag of an enabled line, and lets the claim go by the slot's state (table of R75),
at once, after the edges that still wait, or when the edge is handed on. A level that is low already has no fall (the model's
choice, log 3). EDGE_HANDED_ON takes the oldest edge that waits: a rise tests R72, a fall lets the claim go, and with no edge
nothing changes; an edge sampled later and then handed on does what it does at once (the model's reading of the table's row, log
6). An edge that is handed on meets the station u with the effects of a delivered notice made, which is the station itself where
none is left to handle (R125; log 5). Letting a QUEUED claim go whose CLAIM is no longer in the Outbox waits in WITHDRAWING (log
15), the room of a CLAIM removed comes before its CLAIM_ENDED (log 40), and a slot in RELEASING keeps its counts (log 14): the
model's choices. -/
def Obligations.ReqFallLetsTheClaimGo : Prop :=
  (∀ (s : State) (n : LineNo), s.resetHeld = false →
      ∃ u : State, exec .noticeEffectsMade s = .next u ∧ (s.bus.delivered = none → u = s) ∧
      (∀ h, (s.line n).req = false → exec (.reqFall n h) s = .next s) ∧
      ((s.line n).req = true →
        (∀ h, s.port.lineEnabled n = false → exec (.reqFall n h) s = .next (s.setLine n { s.line n with req := false })) ∧
        (s.port.lineEnabled n = true → exec (.reqFall n .later) s = .next
          (s.setLine n { s.line n with req := false, rearm := false, edges := (s.line n).edges ++ [.fall] })) ∧
        (s.port.lineEnabled n = true → exec (.reqFall n .atOnce) s = .next
          ((u.setLine n { u.line n with req := false, rearm := false, edges := [] }).handedOn n ((u.line n).edges ++ [.fall]))) ∧
        (s.port.lineEnabled n = true → (u.line n).edges = [] → exec (.reqFall n .atOnce) s = .next
          ((u.setLine n { u.line n with req := false, rearm := false }).letGo n)))) ∧
  (∀ (s : State) (n : LineNo),
    ∃ u : State, exec .noticeEffectsMade s = .next u ∧ (s.bus.delivered = none → u = s) ∧
    ((s.line n).edges = [] → exec (.edgeHandedOn n) s = .next s) ∧
    (∀ es, (s.line n).edges = .rise :: es →
      exec (.edgeHandedOn n) s = .next ((u.setLine n { u.line n with edges := es }).risen n)) ∧
    ∀ es, (s.line n).edges = .fall :: es →
      exec (.edgeHandedOn n) s = .next ((u.setLine n { u.line n with edges := es }).letGo n)) ∧
  ∀ (s t : State) (n : LineNo), s.resetHeld = false → s.bus.delivered = none → (s.line n).edges = [] →
    s.port.lineEnabled n = true →
    ((s.line n).req = false → exec (.reqRise n .later) s = .next t →
      exec (.edgeHandedOn n) t = exec (.reqRise n .atOnce) s) ∧
    ((s.line n).req = true → exec (.reqFall n .later) s = .next t →
      exec (.edgeHandedOn n) t = exec (.reqFall n .atOnce) s)

/-! ### Rounds (R84 to R105) -/

/-- A station drives a start bit in a bit time before which it has sampled both lines recessive for the idle gap of 11 bit times,
where its Outbox holds an entry and it is neither FAULTED nor in bus-stuck state nor held in reset; in the round that begins it
contends exactly where it may drive one, whoever drove it. ROUND_START: on an idle bus the first entry of the Outbox is offered
and contends with tier × 64 + class × 16 + rank, the rank being 15 minus the distance from the rotation pointer; with an empty
Outbox, or in FAULTED, the station only listens. No round starts within a round, on a stuck bus or while RESETN is asserted (the
model's choice, log 3). Contention numbers order by tier, then class, then rank, and two stations with one pointer never have the
same number; a station whose number is not below the winning one hears no other station win. On the line each contending station
drives its number from the most significant bit, a 1 dominant, and nothing from a bit on that it released and sampled dominant;
the line then reads the greatest of the numbers, and a station has lost exactly where its own is below it. -/
def Obligations.RoundStartAndContention : Prop :=
  (∀ (s : State) (cbd cbv : List Bool),
    (let gap := fun levels : List Bool => 11 ≤ levels.length ∧
      ∀ i : Nat, levels.length ≤ i + 11 → i < levels.length → levels.getD i true = false;
    let may := s.outbox.entries ≠ [] ∧ s.session.station ≠ .faulted ∧ s.bus.stuck = false ∧ s.resetHeld = false;
    (s.drivesStart cbd cbv = true ↔ gap cbd ∧ gap cbv ∧ may) ∧
    (∀ level, startBit cbd cbv level = true ↔ gap cbd ∧ gap cbv ∧ level = true) ∧
    (s.bus.round = none → s.outbox.offered = none → s.bus.stuck = false → s.resetHeld = false →
      ∃ t : State, exec .roundStart s = .next t ∧ (t.outbox.offered ≠ none ↔ may)))) ∧
  (∀ s : State,
      ((s.resetHeld = true ∨ s.bus.stuck = true ∨ s.bus.round ≠ none) → exec .roundStart s = .next s) ∧
      (s.resetHeld = false → s.bus.stuck = false → s.bus.round = none →
        (s.outbox.entries = [] ∨ s.session.station = .faulted →
          exec .roundStart s = .next { s with bus := { s.bus with round := some ⟨none⟩ } }) ∧
        ∀ e es, s.outbox.entries = e :: es → s.session.station ≠ .faulted →
          exec .roundStart s = .next { s with
            outbox := { s.outbox with entries := { e with offered := true } :: es }
            bus := { s.bus with round := some ⟨some (BitVec.ofNat 8
              (e.body.tier * 64 + e.body.cls.val * 16 + (15 - (s.own.val + 16 - s.bus.pointer.val) % 16)))⟩ } })) ∧
  ((∀ (t1 t2 : Nat) (k1 k2 : Sys2Proof.Class) (r1 r2 : Fin 16), t1 < 4 → t2 < 4 →
      (contentionNumber t1 k1 r1 < contentionNumber t2 k2 r2 ↔
        t1 < t2 ∨ t1 = t2 ∧ (k1 < k2 ∨ k1 = k2 ∧ r1 < r2))) ∧
    (∀ a b p : Addr, rotationRank a p = rotationRank b p → a = b) ∧
    ∀ (s : State) (k w : Byte) (bs : List Byte) (e : Timing), s.bus.round = some ⟨some k⟩ → w ≤ k →
      exec (.roundTaken (.other w bs) e) s = .next s) ∧
  ∀ ks : List Byte, ks ≠ [] →
    (let line := contentionLine 8 (ks.map numberLevels);
    let drives := fun k : Byte => drivenUntilMismatch (numberLevels k) line;
    line.length = 8 ∧
    (∀ i : Nat, i < 8 →
      (∀ k : Byte, (drives k)[i]? = some (k.getLsbD (7 - i) &&
        !(List.range i).any fun j => !k.getLsbD (7 - j) && line.getD j false)) ∧
      line.getD i false = ks.any fun k => (drives k).getD i false) ∧
    numberRead line ∈ ks ∧ ∀ k ∈ ks, k ≤ numberRead line ∧ (lostContention k line = true ↔ k < numberRead line))

/-- The end of a round that this station carried, with the effects still to be made: the entry leaves the Outbox, the pointer is
its own address plus one, the own-void run is 0 and the notice is delivered unless the station is OFFLINE or FAULTED. Where
notices are owed, the same event offers them the room of the entry taken, as OWED_NOTICE_PLACED does, ahead of the notice's
effects (R112); what that posts carries the session count with the notice applied (R183). The end of a round that another station
carried and this one received without a fault: a lost offer stays in the Outbox, the pointer is the sender's address plus one, the
own-void run is 0 and the notice is delivered. What is carried bears the entry's tag and this station's address; a BEACON the
table check, the session count and the sync flag of the station, an ADMIT the count that the session holds after it, or 0 without
a replica, and every other kind the fields of its entry. The fields are filled as the station stands at the round's end, the
model's choice (log 9). -/
def Obligations.TakenRoundSettlesAndDelivers : Prop :=
  (∀ (s : State) (e : Entry), s.bus.round ≠ none → s.bus.delivered = none → s.outbox.offered = some e → NothingOwed s →
      exec (.roundTaken .own .later) s = .next { s with
        outbox := { s.outbox with entries := s.outbox.entries.filter fun x => !x.offered }
        bus := { s.bus with
          pointer := s.own + 1, voidRun := 0, round := none,
          delivered := (if s.session.station ≠ .offline ∧ s.session.station ≠ .faulted then some ⟨s.filled e, true⟩ else none) } }) ∧
  (∀ (s t : State) (e : Entry), s.bus.round ≠ none → s.bus.delivered = none → s.outbox.offered = some e →
      s.sponsor.owedAnswer = none ∨ NothingToAnswer s →
      exec .owedNoticePlaced (State.setCount { s with
        outbox := { s.outbox with entries := s.outbox.entries.filter fun x => !x.offered }
        bus := { s.bus with pointer := s.own + 1, voidRun := 0, round := none } } (s.countWith (s.filled e))) = .next t →
      exec (.roundTaken .own .later) s = .next { t.setCount s.session.count with bus := { t.bus with
        delivered := (if s.session.station ≠ .offline ∧ s.session.station ≠ .faulted then some ⟨s.filled e, true⟩ else none) } }) ∧
  (∀ (s : State) (r : Round) (w : Byte) (bs : List Byte) (n : Notice), s.bus.round = some r → s.bus.delivered = none →
      (∀ k, r.number = some k → k < w) → receive w bs = .notice n → NoRemoval s →
      exec (.roundTaken (.other w bs) .later) s = .next { s with
        outbox := s.outbox.kept
        bus := { s.bus with
          pointer := n.sender + 1, voidRun := 0, round := none,
          delivered := (if s.session.station ≠ .offline ∧ s.session.station ≠ .faulted then some ⟨n, false⟩ else none) } }) ∧
  ∀ (s : State) (e : Entry), (s.filled e).tag = e.tag ∧ (s.filled e).sender = s.straps.address ∧
    (∀ k n f, e.body = .beacon k n f → (s.filled e).body = .beacon s.checker.tableCheck s.session.count
      (decide (s.session.station = .announcing ∨ s.session.station = .active ∨
        (s.session.station = .leaving ∧ s.session.leftSynced = true)))) ∧
    (∀ j n, e.body = .admitJoiner j n →
      (s.filled e).body = .admitJoiner j (if s.session.founded then s.session.count + 1#16 else 0#16)) ∧
    (e.body.isBeacon = false → e.body.isAdmit = false → (s.filled e).body = e.body)

/-- An offered entry whose removal was asked leaves the Outbox at the end of the round that does not take it, be the round lost,
voided, missed or cut short by a stuck bus; of the claim notices, a slot that waited for it in WITHDRAWING ends as WITHDRAWN, and
a closing one only notes that its entry is gone (R51, R63, R114); one of the Session Controller just leaves. The same event offers
the room to the owed notices, as OWED_NOTICE_PLACED does (R112), and then tests R72 for the slot that ended. In a taken round what
this posts, the slot's CLAIM_ENDED first, carries the session count with the notice applied (R183). A missed round is settled as a
lost one (the model's choice, log 16). Where the round takes the station to FAULTED, R72 is not tested for the slot that ended
(the model's choice, log 37), and its CLAIM_ENDED carries the count held, as it does where a greater tag ends the session in the
same event (log 18); BUS_STUCK is posted before the slot's CLAIM_ENDED (the model's choice, log 38). -/
def Obligations.LostOfferIsRemoved : Prop :=
  ∀ (s : State) (e : Entry), s.outbox.offered = some e → e.removal = true → NothingToAnswer s → s.bus.delivered = none →
    (let fell := s.offerTold e.owner;
    let ends := fun (c : Instr) (told : State) (bus : Bus) => ∀ t : State, exec .owedNoticePlaced told = .next t →
      exec c s = .next (let u := s.offerTested e.owner t; { u with bus := bus });
    (∀ (r : Round) (w : Byte) (bs : List Byte) (n : Notice), s.bus.round = some r → (∀ k, r.number = some k → k < w) →
      receive w bs = .notice n →
      ∀ t : State, exec .owedNoticePlaced ((s.setCount (s.countWith n)).offerTold e.owner) = .next t →
        exec (.roundTaken (.other w bs) .later) s = .next
          (let u := (s.offerTested e.owner t).setCount s.session.count;
          { u with bus := { s.bus with
            pointer := n.sender + 1, voidRun := 0, round := none,
            delivered := (if s.session.station ≠ .offline ∧ s.session.station ≠ .faulted then some ⟨n, false⟩ else none) } })) ∧
    (∀ fault : Option ReceptionFault, s.bus.round ≠ none →
      (let run := if fault ≠ none ∧ (s.session.station = .loading ∨ s.session.station = .announcing ∨
          s.session.station = .active ∨ s.session.station = .leaving) then s.bus.voidRun + 1 else s.bus.voidRun;
      let bus := { s.bus with voidRun := run, round := none };
      (4 ≤ run → exec (.roundVoided false fault) s = .next (({ fell with bus := bus } : State).fallen .receiveLimit)) ∧
      (run < 4 → ends (.roundVoided false fault) fell bus))) ∧
    (∀ fault : Option ReceptionFault, s.bus.round ≠ none →
      (let bus := { s.bus with round := none };
      let t : State := { fell with bus := bus };
      (16 ≤ e.voids + 1 → exec (.roundVoided true fault) s = .next (t.fallen .voidLimit)) ∧
      (e.voids + 1 < 16 → 4 ≤ s.bus.voidRun → exec (.roundVoided true fault) s = .next (t.fallen .receiveLimit)) ∧
      (e.voids + 1 < 16 → s.bus.voidRun < 4 → ends (.roundVoided true fault) fell bus))) ∧
    (∀ fault : ReceptionFault, s.bus.round ≠ none → s.session.station ≠ .loading → s.session.station ≠ .announcing →
      s.session.station ≠ .active → s.session.station ≠ .leaving →
      ends (.roundMissed fault) fell { s.bus with round := none }) ∧
    (s.resetHeld = false → s.bus.stuck = false →
      ends .busStuck ((s.post .busStuck s.own).offerTold e.owner) { s.bus with stuck := true, round := none }))

/-- Effects made later are the effects made at once where the notice recalls nothing from the Outbox, or the round leaves nothing
owed and no entry to remove, and NOTICE_EFFECTS_MADE without a delivered notice changes nothing (the model's reading of the table's
row, log 5). A command that can change the station state, or whose answer or effect rests on it, acts on the station with the
effects of a delivered notice made, so that the notice is handled by the state at its delivery (R125) and every read finds it fully
applied (R22): START, STOP, RESYNC, CLEAR_FAULT, the LOAD and the claim commands, the reads, an edge of REQ that is handed on, the
end of a round, room, the stuck bus, and the expiry of a slot timer or a session timer that runs. -/
def Obligations.EffectsLaterEqualEffectsAtOnce : Prop :=
  (∀ s : State, s.bus.delivered = none → exec .noticeEffectsMade s = .next s) ∧
  (∀ (s t : State) (h : Hearing), s.bus.round ≠ none → s.bus.delivered = none →
    (NothingOwed s ∧ NoRemoval s) ∨ (∀ n : Notice,
      (∃ e, h = .own ∧ s.outbox.offered = some e ∧ n = s.filled e) ∨ (∃ w bs, h = .other w bs ∧ receive w bs = .notice n) →
      s.recallsNothing n) →
    exec (.roundTaken h .later) s = .next t → exec .noticeEffectsMade t = exec (.roundTaken h .atOnce) s) ∧
  ∀ s u : State, exec .noticeEffectsMade s = .next u →
    u.bus.delivered = none ∧ exec .owedNoticePlaced s = exec .owedNoticePlaced u ∧
    (s.resetHeld = false →
      (∀ c ∈ [Instr.start, .stop, .resync, .clearFault, .readEvent, .readStatus], exec c s = exec c u) ∧
      (∀ b : Byte, ∀ c ∈ [Instr.readResource b, .readMember b, .readSlot b, .cancel b, .release b, .renew b],
        exec c s = exec c u) ∧
      (∀ (b : Byte) (m : Mask) (k : Byte), exec (.claim b m k) s = exec (.claim b m k) u) ∧
      (∀ (o : Byte) (d : List Byte), ∀ c ∈ [Instr.loadProfile o d, .loadLocal o d], exec c s = exec c u) ∧
      (∀ n : LineNo, s.port.lineEnabled n = true →
        exec (.reqRise n .atOnce) s = (if (s.line n).req = true then .next s else exec (.reqRise n .atOnce) u) ∧
        exec (.reqFall n .atOnce) s = (if (s.line n).req = false then .next s else exec (.reqFall n .atOnce) u)) ∧
      (s.bus.stuck = false → exec .busStuck s = exec .busStuck u)) ∧
    (∀ n : LineNo, ((s.line n).edges ≠ [] → exec (.edgeHandedOn n) s = exec (.edgeHandedOn n) u) ∧
      ((s.slot (clientOf n)).state = .retry → exec (.retryExpiry n) s = exec (.retryExpiry n) u)) ∧
    (∀ c : Client, (s.slot c).state = .yielding → exec (.yieldExpiry c) s = exec (.yieldExpiry c) u) ∧
    (∀ c : Client, (s.slot c).state = .granted → exec (.leaseExpiry c) s = exec (.leaseExpiry c) u) ∧
    (∀ r : Round, s.bus.round = some r →
      (s.outbox.offered ≠ none → (∀ t, exec (.roundTaken .own t) s = exec (.roundTaken .own t) u) ∧
        ∀ f, exec (.roundVoided true f) s = exec (.roundVoided true f) u) ∧
      (∀ (w : Byte) (bs : List Byte) (t : Timing), (∀ k, r.number = some k → k < w) →
        exec (.roundTaken (.other w bs) t) s = exec (.roundTaken (.other w bs) t) u) ∧
      (∀ f, exec (.roundVoided false f) s = exec (.roundVoided false f) u) ∧
      (u.session.station ≠ .loading → u.session.station ≠ .announcing → u.session.station ≠ .active →
        u.session.station ≠ .leaving → ∀ f, exec (.roundMissed f) s = exec (.roundMissed f) u)) ∧
    (s.session.station = .backoff → s.timers.backoff ≠ none → exec .backoffEnd s = exec .backoffEnd u) ∧
    (s.bus.stuck = false →
      (s.session.station = .listening → s.timers.listen ≠ none → exec .listenWindowExpiry s = exec .listenWindowExpiry u) ∧
      (s.session.station = .seeking → s.timers.answer ≠ none → exec .answerLimitExpiry s = exec .answerLimitExpiry u) ∧
      (s.session.station = .loading → s.timers.snapshot ≠ none → exec .snapshotLimitExpiry s = exec .snapshotLimitExpiry u))

/-- The end of a voided round: the carried entry's void count goes up by one and 16 voids take the station to FAULTED
(VOID_LIMIT); a fault found as a voting listener adds one to the own-void run and a run of 4 takes it there (RECEIVE_LIMIT); the
offer stays. A round missed by a station that does not vote leaves all but the offer as it is (that it is settled as a lost one
is the model's choice, log 16); a stuck bus posts BUS_STUCK and ends the round, and its recovery posts BUS_RECOVERED and
restarts every running absence timer. That a missed round in a voting state, or a second stuck bus, changes nothing is the
model's choice (log 3), as is the count 0 in the events of the fall to FAULTED (log 18). -/
def Obligations.VoidedMissedAndStuckRounds : Prop :=
  (∀ s : State, s.bus.round ≠ none → s.bus.delivered = none → NoRemoval s →
      (∀ fault : Option ReceptionFault,
        (let run := if fault ≠ none ∧ (s.session.station = .loading ∨ s.session.station = .announcing ∨
            s.session.station = .active ∨ s.session.station = .leaving) then s.bus.voidRun + 1 else s.bus.voidRun;
        let t : State := { s with outbox := s.outbox.kept, bus := { s.bus with voidRun := run, round := none } };
        exec (.roundVoided false fault) s = .next (if 4 ≤ run then t.fallen .receiveLimit else t))) ∧
      ∀ (e : Entry) (fault : Option ReceptionFault), s.outbox.offered = some e →
        (let t : State := { s with
          outbox := { s.outbox with entries := s.outbox.entries.map fun x =>
            if x.offered = true then { x with voids := x.voids + 1, offered := false } else x }
          bus := { s.bus with round := none } };
        exec (.roundVoided true fault) s = .next (
          if 16 ≤ e.voids + 1 then t.fallen .voidLimit
          else if 4 ≤ s.bus.voidRun then t.fallen .receiveLimit
          else t))) ∧
  (∀ s : State, NoRemoval s →
      (∀ f, s.bus.round ≠ none → s.bus.delivered = none → exec (.roundMissed f) s = .next (
        if s.session.station = .loading ∨ s.session.station = .announcing ∨ s.session.station = .active ∨
          s.session.station = .leaving then s
        else { s with outbox := s.outbox.kept, bus := { s.bus with round := none } })) ∧
      (s.resetHeld = false → s.bus.stuck = false → s.bus.delivered = none → exec .busStuck s = .next { s with
        outbox := s.outbox.kept
        bus := { s.bus with round := none, stuck := true }
        port := { s.port with events := enqueue s.own s.port.events (s.event .busStuck s.own), attn := true } }) ∧
      (s.resetHeld = false → s.bus.stuck = true →
        exec .busStuck s = .next s ∧
        exec .busRecovered s = .next { s with
          bus := { s.bus with stuck := false }
          timers := { s.timers with absence := Vector.ofFn fun a : Addr => (s.timers.absence.get a).map fun _ => 0 }
          port := { s.port with events := enqueue s.own s.port.events (s.event .busRecovered s.own), attn := true } }))

/-! ### Notices taken outside the session (R127 to R130, R143 to R145, R154) -/

/-- A FOUNDING station that takes its own FOUND is ACTIVE in a session of its own: tag of the FOUND, count 0, its own record
PRESENT, pool empty, beacon timer from zero; then every line is tested in ascending order, and each that passes claims (R73);
STATION_STATE(ACTIVE, FOUNDED) is posted in the same event. -/
def Obligations.FounderFoundsTheSession : Prop :=
  ∀ (s : State) (tag k : Word), s.session.station = .founding → s.bus.delivered = some ⟨⟨tag, s.own, .found k⟩, true⟩ →
    s.session.members = .empty → s.pool = ⟨[], false⟩ → NothingToAnswer s →
    (∀ e ∈ s.outbox.entries, claimClient e.body = none) →
    (let table : Table := Vector.ofFn fun a : Addr => if a = s.own then ⟨.present, none, true⟩ else ⟨.absent, none, true⟩;
    let founded : State := { s.taking with
      session := { s.session with
        station := .active, members := table, founded := true, tag := tag, count := 0#16, leaveDest := none }
      timers := { s.timers with beacon := some 0, absence := Vector.replicate 16 none }
      port := { s.port with locked := true }
      checker := ⟨tableCheckOf table [], s.checker.profileCheck, none, false⟩ };
    exec .noticeEffectsMade s = .next ((eight.foldl State.risen founded).post (.stationState .active .founded) s.own))

/-- An ANNOUNCING station that takes its own synchronized BEACON while its record is SYNCING: the record becomes PRESENT with
MEMBER_STATE, the station is ACTIVE, and every line is tested in ascending order, so that each latched one claims (R73);
STATION_STATE(ACTIVE, SYNCED) is posted in the same event. The count stays; the table check follows the new table. -/
def Obligations.OwnBeaconMakesActive : Prop :=
  ∀ (s : State) (check n : Word), s.session.station = .announcing →
    s.bus.delivered = some ⟨⟨s.session.tag, s.own, .beacon check n true⟩, true⟩ →
    (s.session.members.get s.own).state = .syncing → AllSound s → NothingToAnswer s → s.checker.suspect = none →
    (∀ e ∈ s.outbox.entries, claimClient e.body = none) →
    (let table : Table := Vector.ofFn fun a : Addr => if a = s.own then ⟨.present, none, true⟩ else s.session.members.get a;
    let synced : State := { s.taking with
      session := { s.session with station := .active, members := table }
      port := { s.port with
        locked := true, attn := true, events := enqueue s.own s.port.events (s.event (.memberState .present) s.own) }
      checker := { s.checker with tableCheck := tableCheckOf table s.pool.records } };
    exec .noticeEffectsMade s = .next ((eight.foldl State.risen synced).post (.stationState .active .synced) s.own))

/-- A LISTENING station at any notice, one that it carried itself too (a FOUND or JOIN left offered by STOP), and a FOUNDING one
at a notice that it did not carry hears a session: it takes the tag, removes its FOUND, queues a JOIN and is SEEKING; at a FOUND
it did not carry whose profile check differs it is OFFLINE instead. -/
def Obligations.SessionIsHeard : Prop :=
  ∀ (s : State) (n : Notice) (own : Bool),
    s.session.station = .listening ∨ (s.session.station = .founding ∧ own = false) →
    s.bus.delivered = some ⟨n, own⟩ → NothingOwed s →
    (let cleared : State := { s.taking with
      timers := { s.timers with listen := none }, outbox := s.outbox.removeUnsent fun e => e.body.isFound };
    ((own = false ∧ ∃ k, n.body = .found k ∧ k ≠ s.checker.profileCheck) → exec .noticeEffectsMade s = .next
      (({ cleared with session := { s.session with tag := 0#16 } } : State).enter .offline .refusedProfile)) ∧
    ((own = false → ∀ k, n.body = .found k → k = s.checker.profileCheck) → exec .noticeEffectsMade s = .next
      (({ cleared with
          session := { s.session with tag := n.tag }
          outbox := cleared.outbox.offeredTo (.join s.checker.profileCheck) n.tag } : State).enter .seeking .sessionHeard)))

/-- Notices without an effect: any in OFFLINE, BACKOFF and FAULTED, a FOUND in SEEKING and in a session, one with another tag in
SEEKING, one with a lower tag in a session, and a JOIN of another tag there. A FOUND with the own
tag and address that the station did not carry posts no ADDRESS_CLASH there (the model's choice, log 12); the OFFLINE case reads the
state at the making of the effects (log 5). -/
def Obligations.NoticeWithoutEffect : Prop :=
  ∀ (s : State) (h : Heard), s.bus.delivered = some h → NothingToAnswer s →
    (s.session.station = .offline ∨ s.session.station = .backoff ∨ s.session.station = .faulted ∨
      (s.session.station = .seeking ∧ (h.notice.body.isFound = true ∨ h.notice.tag ≠ s.session.tag)) ∨
      ((s.session.station = .loading ∨ s.session.station = .announcing ∨ s.session.station = .active ∨
          s.session.station = .leaving) ∧
        (h.notice.body.isFound = true ∨ h.notice.tag < s.session.tag ∨
          (h.notice.body.isJoin = true ∧ h.notice.tag ≠ s.session.tag)))) →
    exec .noticeEffectsMade s = .next s.taking

/-- A SEEKING station and the notices of the tag it seeks: its own JOIN starts the answer limit, another's notice sets the heard
flag. A SEEKING station that takes an ADMIT naming it enters LOADING with the count carried and nothing built; one that takes a
REFUSE naming it goes on by its reason, and another reason code only sets the heard flag. -/
def Obligations.SeekingStationTakesNotices : Prop :=
  (∀ (s : State) (h : Heard), s.session.station = .seeking → s.bus.delivered = some h → h.notice.tag = s.session.tag →
      h.notice.body.isFound = false →
      (∀ k, h.own = true → h.notice.body = .join k → exec .noticeEffectsMade s = .next
        { s.taking with timers := { s.timers with answer := some 0, heard := false } }) ∧
      (h.own = false → (∀ j n, h.notice.body = .admitJoiner j n → j ≠ s.own) → (∀ j r, h.notice.body = .refuse j r → j ≠ s.own) →
        exec .noticeEffectsMade s = .next { s.taking with timers := { s.timers with heard := true } })) ∧
  (∀ (s : State) (sender : Addr), s.session.station = .seeking → NothingOwed s →
      (let clear : State := { s.taking with outbox := s.outbox.removeUnsent fun e => e.body.isJoin };
      (∀ n, s.bus.delivered = some ⟨⟨s.session.tag, sender, .admitJoiner s.own n⟩, false⟩ → exec .noticeEffectsMade s = .next
        (({ clear with
            session := { s.session with members := Vector.replicate 16 ⟨.absent, none, true⟩, founded := true, count := n }
            pool := ⟨[], false⟩
            joiner := ⟨some sender, .members, []⟩
            timers := { s.timers with answer := none, snapshot := some 0, beacon := some 0 }
            bus := { clear.bus with voidRun := 0 }
            checker := ⟨cyclicCheck (List.replicate 16 0#8), s.checker.profileCheck, none, false⟩ } : State).enter
          .loading .admitted)) ∧
      ∀ code : Fin 16, s.bus.delivered = some ⟨⟨s.session.tag, sender, .refuse s.own code⟩, false⟩ →
        exec .noticeEffectsMade s = .next (
          if code = 1 then
            ({ clear with timers := { s.timers with answer := none, backoff := some 0 } } : State).enter .backoff .refusedBusy
          else if code = 2 ∨ code = 3 then
            ({ clear with
                timers := { s.timers with answer := none }, session := { s.session with tag := 0#16 } } : State).enter .offline
              (if code = 2 then .refusedProfile else .refusedAddress)
          else { s.taking with timers := { s.timers with heard := true } })))

/-! ### Timers of the station state (R124, R126, R128, R143, R145) -/

/-- The listen window of a LISTENING station expires: counter and tag, pointer 0, FOUND queued, FOUNDING; the answer limit of a
SEEKING station expires: heard, a JOIN is queued anew, and else it listens afresh; the backoff wait ends, stuck bus or not:
SEEKING with a JOIN. No delivered notice is left to handle. An expiry of a timer that does not run, or in another state, is none
(the model's choice, log 3). -/
def Obligations.StationTimersExpire : Prop :=
  ∀ s : State, s.bus.delivered = none →
    exec .listenWindowExpiry s = .next (
      if s.timers.listen ≠ none ∧ s.session.station = .listening ∧ s.bus.stuck = false then
        (let counter : BitVec 12 := if s.session.counter = 4095#12 then 1#12 else s.session.counter + 1#12;
        let tag := BitVec.ofNat 16 (counter.toNat * 16 + s.own.val);
        ({ s with
            timers := { s.timers with listen := none }
            session := { s.session with counter := counter, tag := tag }
            bus := { s.bus with pointer := 0 }
            outbox := s.outbox.offeredTo (.found s.checker.profileCheck) tag } : State).enter .founding .listenEnd)
      else s) ∧
    exec .answerLimitExpiry s = .next (
      if s.timers.answer ≠ none ∧ s.session.station = .seeking ∧ s.bus.stuck = false then
        if s.timers.heard = true then
          { s with
            timers := { s.timers with answer := none }
            outbox := s.outbox.offeredTo (.join s.checker.profileCheck) s.session.tag }
        else ({ s with
          timers := { s.timers with answer := none, listen := some 0 }
          session := { s.session with tag := 0#16 } } : State).enter .listening .sessionSilent
      else s) ∧
    exec .backoffEnd s = .next (
      if s.timers.backoff ≠ none ∧ s.session.station = .backoff then
        ({ s with
            timers := { s.timers with backoff := none, heard := false }
            outbox := s.outbox.offeredTo (.join s.checker.profileCheck) s.session.tag } : State).enter .seeking .backoffEnd
      else s)

/-- The founding counter is 0 after hardware reset, is increased by one at each founding attempt, at the end of a listen window in
silence, from 4095 to 1, before the tag is formed from it and the own address, and is kept through everything else. No answer to
the host depends on it but through the tag. The rotation pointer changes only at the end of a taken round, to the sender's address
plus one, at the entry to FOUNDING, to 0, and at hardware reset, to 0. -/
def Obligations.FoundingCounterChangesOnlyAtFounding : Prop :=
  State.reset.session.counter = 0#12 ∧
  (∀ (c : Instr) (s t u : State) (k : BitVec 12), (encodeFrame c).isSome = true → exec c s = .next t →
    exec c { s with session := { s.session with counter := k } } = .next u → u.port.response = t.port.response) ∧
  (∀ (c : Instr) (s t : State), exec c s = .next t → c ≠ .hardwareReset →
    (s.session.station = .listening ∧ t.session.station = .founding →
      t.session.counter = (if s.session.counter = 4095#12 then 1#12 else s.session.counter + 1#12) ∧
      t.session.tag = BitVec.ofNat 16 (t.session.counter.toNat * 16 + s.own.val)) ∧
    (¬ (s.session.station = .listening ∧ t.session.station = .founding) → t.session.counter = s.session.counter) ∧
    (c = .listenWindowExpiry → s.timers.listen ≠ none → s.session.station = .listening → s.bus.stuck = false →
      s.bus.delivered = none →
      t.session.counter = (if s.session.counter = 4095#12 then 1#12 else s.session.counter + 1#12) ∧
      t.session.tag = BitVec.ofNat 16 (t.session.counter.toNat * 16 + s.own.val)) ∧
    (¬ (c = .listenWindowExpiry ∧ s.timers.listen ≠ none ∧ s.session.station = .listening ∧ s.bus.stuck = false) →
      t.session.counter = s.session.counter)) ∧
  ∀ (c : Instr) (s t : State), exec c s = .next t →
    t.bus.pointer = s.bus.pointer ∨
    (c = .hardwareReset ∧ t.bus.pointer = 0) ∨
    (c = .listenWindowExpiry ∧ s.session.station = .listening ∧ t.session.station = .founding ∧ t.bus.pointer = 0) ∨
    (∃ e, c = .roundTaken .own e ∧ t.bus.pointer = s.own + 1) ∨
    ∃ w bs n e, c = .roundTaken (.other w bs) e ∧ receive w bs = .notice n ∧ t.bus.pointer = n.sender + 1

/-- The beacon timer starts again from zero and a BEACON is queued, unless one is placed or owed; the absence timer of a member
stands at its limit and EVICT of the member is queued, unless one is placed or owed; told no room the notice is owed, and in
LEAVING, or while a LEAVE waits, nothing is queued. An expiry of a timer that does not run, or of one that stands at its limit, is
none (the model's choice, log 2). -/
def Obligations.BeaconAndAbsenceTimersExpire : Prop :=
  ∀ s : State,
    (let refused := s.session.station = .leaving ∨ s.outbox.hasLeave = true;
    exec .beaconTimerExpiry s = .next (
      if s.timers.beacon ≠ none ∧ s.bus.stuck = false then
        (let t : State := { s with timers := { s.timers with beacon := some 0 } };
        if s.sponsor.owedBeacon = true ∨ refused ∨ (∃ e ∈ s.outbox.entries, e.body.isBeacon = true) then t
        else if s.outbox.room 2 = true then
          { t with outbox := s.outbox.place (.beacon 0#16 0#16 false) s.session.tag .session }
        else { t with sponsor := { s.sponsor with owedBeacon := true } })
      else s) ∧
    ∀ m : Addr,
      exec (.absenceTimerExpiry m) s = .next (
        if (∃ k, s.timers.absence.get m = some k ∧ k < s.port.absenceMs) ∧ s.bus.stuck = false then
          (let t : State := { s with timers := { s.timers with
            absence := s.timers.absence.set m.val (some s.port.absenceMs) m.isLt } };
          if s.sponsor.owedEvicts.get m = true ∨ refused ∨
            (∃ e ∈ s.outbox.entries, e.body.isEvictOf m = true) then t
          else if s.outbox.room 3 = true then { t with outbox := s.outbox.place (.evict m) s.session.tag .session }
          else { t with sponsor := { s.sponsor with owedEvicts := s.sponsor.owedEvicts.set m.val true m.isLt } })
        else s))

/-! ### Slot timers (R46, R55, R58, R60, R62, R77, R80) -/

/-- A lease that expires goes to YIELDING for a software client and a line with REQ low; with REQ high it is renewed by R55 where
the answer allows it, and goes to YIELDING else. The yield window that expires forces the RELEASE (reason FORCED, code 1); the
retry timer that expires starts the line claim anew with REQ high in ACTIVE, and with REQ low frees the slot without an event. A
lease whose query meets a failing record (any of the pool, log 8) freezes the pool, which is a storage upset (log 22): a slot that
the station's LEAVE then closes does not yield. An expiry in another slot state is none (the model's choice, log 2). Of a lease,
no delivered notice is left to handle, and a yield or retry expiry meets the station u with its effects made, which is the station
itself where none is left (R125; log 5). -/
def Obligations.SlotTimersExpire : Prop :=
  (∀ (s : State) (c : Client),
      ((s.slot c).state ≠ .granted → exec (.leaseExpiry c) s = .next s) ∧
      ((s.slot c).state = .granted → s.bus.delivered = none →
        (let v := s.slot c;
        let yielded := (s.setSlot c
          { v with state := .yielding, leaseMs := 0, yieldMs := v.params.window * s.port.leaseUnit }).post .claimYield c;
        let renewed := fun k => s.setSlot c { v with leaseMs := v.params.length * s.port.leaseUnit, renewals := k };
        ((∀ n, c = clientOf n → (s.line n).req = false) → exec (.leaseExpiry c) s = .next yielded) ∧
        ∀ n, c = clientOf n → (s.line n).req = true →
          (s.pool.frozen = true → exec (.leaseExpiry c) s = .next yielded) ∧
          (s.pool.frozen = false → (∃ r ∈ s.pool.records, r.sound = false) →
            (let f := (s.setSlot c { v with leaseMs := 0 }).freeze;
            exec (.leaseExpiry c) s = .next (
              if (f.slot c).state = .granted then (f.setSlot c { f.slot c with
                state := .yielding, leaseMs := 0, yieldMs := v.params.window * s.port.leaseUnit }).post .claimYield c
              else f) ∧
            (s.session.station = .active → s.checker.resyncPending = false →
              f.session.station = .leaving ∧ (f.slot c).state = .releasing ∧ f.pool = ⟨s.pool.records, true⟩))) ∧
          (s.pool.frozen = false → (∀ r ∈ s.pool.records, r.sound = true) →
            (let waiter := ∃ w ∈ s.pool.records, w.standing = .waiting ∧
              ∃ r : Fin 16, w.set.getLsbD r.val = true ∧ v.set.getLsbD r.val = true;
            (v.params.mode = .fixed → exec (.leaseExpiry c) s = .next yielded) ∧
            (v.params.mode = .renewable → ¬ waiter → exec (.leaseExpiry c) s = .next (renewed 0)) ∧
            (v.params.mode = .renewable → waiter → v.renewals < v.params.limit →
              exec (.leaseExpiry c) s = .next (renewed (v.renewals + 1))) ∧
            (v.params.mode = .renewable → waiter → v.params.limit ≤ v.renewals →
              exec (.leaseExpiry c) s = .next yielded)))))) ∧
  (∀ s : State,
      ∃ u : State, exec .noticeEffectsMade s = .next u ∧ (s.bus.delivered = none → u = s) ∧
      (∀ c : Client,
        ((s.slot c).state ≠ .yielding → exec (.yieldExpiry c) s = .next s) ∧
        ((s.slot c).state = .yielding → exec (.yieldExpiry c) s = .next (
          if (u.slot c).state = .yielding then (u.setSlot c { u.slot c with yieldMs := 0 }).released c .forced 1 else u))) ∧
      ∀ n : LineNo,
        (let c := clientOf n;
        let freed := u.setSlot c (Slot.freeWith (u.slot c).lastEnd);
        ((s.slot c).state ≠ .retry → exec (.retryExpiry n) s = .next s) ∧
        ((s.slot c).state = .retry →
          ((u.slot c).state ≠ .retry → exec (.retryExpiry n) s = .next u) ∧
          ((u.slot c).state = .retry → (u.line n).req = true → u.session.station = .active →
            exec (.retryExpiry n) s = .next (freed.claimed c (u.port.lineSet n) (u.port.lineClass n))) ∧
          ((u.slot c).state = .retry → (u.line n).req = false → exec (.retryExpiry n) s = .next freed))))

/-! ### Notices applied to the replica (R11 to R18, R53, R123, R125, R133 to R150, R165, R166) -/

/-- A taken CLAIM of the session: refused where the sender is not PRESENT or the set not valid, where the pair has a record and
where the pool is full, and otherwise appended, with a grant pass; the count goes up by one in each case. A taken WITHDRAW or
RELEASE of the session removes the record of its pair, whatever its standing, and runs a grant pass; without such a record the pool
stays; the count goes up by one. While the pool is frozen, the upset that froze it reported, no taken CLAIM, WITHDRAW, RELEASE,
LEAVE or EVICT that leaves the station its place is applied to it, no pass runs and no slot is told; table and count follow the
notice. That a closing slot whose own offered entry is taken so keeps its outbox entry and its removal pending flag is the model's
choice (log 39). -/
def Obligations.ClaimNoticesAreTaken : Prop :=
  (∀ (s : State) (h : Heard) (c : Client) (k : Sys2Proof.Class) (m : Mask),
      s.session.station = .announcing ∨ s.session.station = .active ∨ s.session.station = .leaving →
      s.bus.delivered = some h → h.notice.tag = s.session.tag → h.notice.body = .claim c k m →
      s.pool.frozen = false → AllSound s →
      ∃ t : State, exec .noticeEffectsMade s = .next t ∧ t.session.count = s.session.count + 1#16 ∧
        t.session.members = s.session.members ∧ t.pool.frozen = false ∧
        t.pool.records =
          if (s.session.members.get h.notice.sender).state = .present ∧
              1 ≤ (resources m).length ∧ (resources m).length ≤ 4 ∧ (∀ r ∈ resources m, r.val < s.port.n) ∧
              (∀ r ∈ s.pool.records, ¬ (r.station = h.notice.sender ∧ r.client = c)) ∧ s.pool.records.length < 64 then
            (grantPass s.port.threshold
              (s.pool.records ++ [⟨h.notice.sender, c, m, k, k, 0, .waiting, true⟩])).records
          else s.pool.records) ∧
  (∀ (s : State) (h : Heard) (c : Client),
      s.session.station = .announcing ∨ s.session.station = .active ∨ s.session.station = .leaving →
      s.bus.delivered = some h → h.notice.tag = s.session.tag →
      (h.notice.body = .withdraw c ∨ ∃ r, h.notice.body = .release c r) → s.pool.frozen = false → AllSound s →
      ∃ t : State, exec .noticeEffectsMade s = .next t ∧ t.session.count = s.session.count + 1#16 ∧
        t.session.members = s.session.members ∧ t.pool.frozen = false ∧
        t.pool.records =
          if ∃ r ∈ s.pool.records, r.station = h.notice.sender ∧ r.client = c then
            (grantPass s.port.threshold
              (s.pool.records.filter fun r => !(decide (r.station = h.notice.sender) && decide (r.client = c)))).records
          else s.pool.records) ∧
  ∀ (s : State) (h : Heard),
    s.session.station = .announcing ∨ s.session.station = .active ∨ s.session.station = .leaving →
    s.bus.delivered = some h → h.notice.tag = s.session.tag → (claimClient h.notice.body ≠ none ∨ namedTarget h.notice ≠ none) →
    ending s.own s.session.station h (memberEffect s.session.members h.notice) = none →
    s.pool.frozen = true → s.checker.resyncPending = true → NothingOwed s → NothingToAnswer s →
    ∃ t : State, exec .noticeEffectsMade s = .next t ∧ t.pool = s.pool ∧ t.slots = s.slots ∧ t.lines = s.lines ∧
      t.session.count = s.session.count + 1#16 ∧ t.session.members = (memberEffect s.session.members h.notice).table

/-- The membership effects by kind: JOIN, ADMIT, REFUSE, LEAVE, EVICT and BEACON; every other kind leaves the table as it
stands. -/
def Obligations.MembershipEffects : Prop :=
  ∀ (t : Table) (n : Notice) (a : Addr),
    (let was := (t.get a).state;
    let new := (memberEffect t n).table.get a;
    let same := new = t.get a;
    let gone := new = ⟨.absent, none, true⟩;
    let sponsored := fun p : Addr => (was = .joining ∨ was = .syncing) ∧ (t.get a).sponsor = some p;
    (∀ k, n.body = .join k →
      (a ≠ n.sender → same) ∧
      (a = n.sender →
        (∀ p, t.currentSponsor a = some p → was = .absent ∨ was = .joining → new = ⟨.joining, some p, true⟩) ∧
        (t.currentSponsor a = none ∨ was = .syncing ∨ was = .present → same))) ∧
    (∀ j k, n.body = .admitJoiner j k →
      if a = j ∧ was = .joining ∧ (t.get a).sponsor = some n.sender ∧ (∀ b : Addr, (t.get b).state ≠ .syncing) then
        new = ⟨.syncing, some n.sender, true⟩ else same) ∧
    (∀ j r, n.body = .refuse j r →
      if a = j ∧ was = .joining ∧ (t.get a).sponsor = some n.sender ∧ (r = 1 ∨ r = 2) then gone else same) ∧
    (∀ r, n.body = .leave r →
      if (t.get n.sender).state ≠ .absent ∧ (a = n.sender ∨ sponsored n.sender) then gone else same) ∧
    (∀ e, n.body = .evict e →
      if ((t.get e).state = .syncing ∨ (t.get e).state = .present) ∧ (a = e ∨ sponsored e) then gone else same) ∧
    (∀ k c f, n.body = .beacon k c f →
      if a = n.sender ∧ was = .syncing ∧ f = true then new = ⟨.present, none, true⟩ else same) ∧
    (n.body.tier = 1 ∨ n.body.isSnap = true ∨ n.body.isFound = true ∨ claimClient n.body ≠ none → same)) ∧
    ∀ p, t.currentSponsor a = some p ↔
      p ≠ a ∧ (t.get p).state = .present ∧ ∀ q : Addr, q ≠ a → (t.get q).state = .present → p ≤ q

/-- An ACTIVE station that owes no answer takes a JOIN of its session whose sender it answers for, as the lowest-addressed PRESENT
station other than the sender, or as the only one at the sender's own address: it makes one answer, REFUSE(ADDRESS) for a SYNCING
or PRESENT sender, REFUSE(PROFILE) at another profile check, REFUSE(BUSY) while a record is SYNCING or its ADMIT is placed, and
else ADMIT, which is placed or, for want of room, owed. Its own effective ADMIT makes it serve a copy of its table and pool as they
then stand, SNAP-MEMBERS first, then each record in pool order, then SNAP-END; a further one is made at each own SNAP taken while
fewer than two are placed and none is owed, two where none is placed (R148, R152); its own SNAP-END ends the serving. So does a
taken notice that makes the joiner's record ABSENT: its unsent SNAPs leave the Outbox, an owed one is dropped and the copy goes
(R153). Its own ADMIT that was not effective makes the answer anew where the joiner is still JOINING under it, REFUSE(BUSY) since a
record is SYNCING (R150). -/
def Obligations.SponsorAnswersAndServes : Prop :=
  (∀ (s : State) (j : Addr) (k : Word), s.session.station = .active → AllSound s → NothingToAnswer s →
    s.sponsor.owedAnswer = none → s.outbox.hasLeave = false →
    s.bus.delivered = some ⟨⟨s.session.tag, j, .join k⟩, false⟩ →
    (s.session.members.get s.own).state = .present →
    (∀ q : Addr, q ≠ j → (s.session.members.get q).state = .present → s.own ≠ j ∧ s.own ≤ q) →
    (let was := (s.session.members.get j).state;
    let answer : Body :=
      if was = .syncing ∨ was = .present then .refuse j 3
      else if k ≠ s.checker.profileCheck then .refuse j 2
      else if (∃ a : Addr, (s.session.members.get a).state = .syncing) ∨ (∃ e ∈ s.outbox.entries, e.body.isAdmit = true) then
        .refuse j 1
      else .admitJoiner j 0#16;
    ∃ t : State, exec .noticeEffectsMade s = .next t ∧ NothingToAnswer t ∧ t.session.station = .active ∧
      t.session.count = s.session.count + 1#16 ∧
      t.outbox = (if s.outbox.room 2 = true then s.outbox.place answer s.session.tag .session else s.outbox) ∧
      t.sponsor.owedAnswer = if s.outbox.room 2 = true then none else some answer)) ∧
  (∀ (s : State) (j : Addr) (n : Word), s.session.station = .active → AllSound s → NothingToAnswer s →
    s.sponsor.owedAnswer = none → s.outbox.hasLeave = false → (∀ e ∈ s.outbox.entries, e.body.isSnap = false) →
    s.bus.delivered = some ⟨⟨s.session.tag, s.own, .admitJoiner j n⟩, true⟩ →
    (s.session.members.get j).state = .joining → (s.session.members.get j).sponsor = some s.own →
    (∀ a : Addr, (s.session.members.get a).state ≠ .syncing) →
    ∃ t : State, exec .noticeEffectsMade s = .next t ∧ t.session.station = .active ∧
      (∀ a : Addr, t.session.members.get a =
        if a = j then ⟨.syncing, some s.own, true⟩ else s.session.members.get a) ∧ t.pool = s.pool ∧
      t.sponsor.serving = some
        ⟨j, t.session.members, s.pool.records, tableCheckOf t.session.members s.pool.records,
          if s.outbox.room 2 = true then
            (match s.pool.records with | [] => .done | [_] => .last | _ :: _ :: _ => .claim 1)
          else (match s.pool.records with | [] => .last | _ :: _ => .claim 0)⟩ ∧
      (let first : Body := .snapMembers (Vector.ofFn fun a : Addr =>
        nibbles (t.session.members.get a).state.code ((t.session.members.get a).sponsor.getD 0));
      if s.outbox.room 2 = true then ∃ e ∈ t.outbox.entries, e.body = first else t.sponsor.owedAnswer = some first)) ∧
  (∀ v : Serving,
    (v.next = .members → v.make = some (.snapMembers (Vector.ofFn fun a : Addr =>
        nibbles (v.members.get a).state.code ((v.members.get a).sponsor.getD 0)),
      if v.records.length = 0 then .last else .claim 0)) ∧
    (∀ i r, v.next = .claim i → v.records[i]? = some r → v.make = some (.snapClaim (BitVec.ofNat 8 i) r.station r.client r.set
        r.requested r.effective r.passed (if r.standing = .waiting then 0#8 else 1#8),
      if i + 1 < v.records.length then .claim (i + 1) else .last)) ∧
    (v.next = .last → v.make = some (.snapEnd v.check (BitVec.ofNat 8 v.records.length), .done)) ∧
    (v.next = .done → v.make = none)) ∧
  (∀ (s : State) (b : Body) (v : Serving), s.session.station = .active → AllSound s → (∀ a : Addr, s.sponsor.answers.get a = none) →
    s.sponsor.owedAnswer = none → s.outbox.hasLeave = false → s.sponsor.serving = some v →
    (s.session.members.get v.joiner).state ≠ .absent → b.isSnap = true → (∀ k n, b ≠ .snapEnd k n) →
    s.bus.delivered = some ⟨⟨s.session.tag, s.own, b⟩, true⟩ →
    (let snaps := (s.outbox.entries.filter fun e => e.body.isSnap).length;
    ∃ t : State, exec .noticeEffectsMade s = .next t ∧
      (2 ≤ snaps ∨ v.make = none → t.outbox = s.outbox ∧ t.sponsor = s.sponsor) ∧
      (∀ x next, v.make = some (x, next) →
        (let w : Serving := { v with next := next };
        let one := s.snapMade x w;
        (snaps = 1 ∨ (snaps = 0 ∧ (s.outbox.room 2 = false ∨ w.make = none)) →
          t.outbox = one.outbox ∧ t.sponsor = one.sponsor) ∧
        (snaps = 0 → s.outbox.room 2 = true → ∀ y rest, w.make = some (y, rest) →
          t.outbox = (one.snapMade y { w with next := rest }).outbox ∧
          t.sponsor = (one.snapMade y { w with next := rest }).sponsor))))) ∧
  (∀ (s : State) (j : Addr) (n : Word), s.session.station = .active → AllSound s → NothingToAnswer s →
    s.sponsor.owedAnswer = none → s.outbox.hasLeave = false →
    s.bus.delivered = some ⟨⟨s.session.tag, s.own, .admitJoiner j n⟩, true⟩ →
    (let under := (s.session.members.get j).state = .joining ∧ (s.session.members.get j).sponsor = some s.own;
    ¬ (under ∧ ∀ a : Addr, (s.session.members.get a).state ≠ .syncing) →
    ∃ t : State, exec .noticeEffectsMade s = .next t ∧ NothingToAnswer t ∧ t.session.station = .active ∧
      t.session.members = s.session.members ∧ t.session.count = s.session.count + 1#16 ∧
      t.outbox = (if under ∧ s.outbox.room 2 = true then s.outbox.place (.refuse j 1) s.session.tag .session else s.outbox) ∧
      t.sponsor.owedAnswer = (if under ∧ s.outbox.room 2 = false then some (.refuse j 1) else none))) ∧
  (∀ (s : State) (h : Heard) (v : Serving), s.session.station = .active → AllSound s → s.sponsor.serving = some v →
    s.bus.delivered = some h → h.notice.tag = s.session.tag → h.notice.body.isFound = false →
    (h.own = true → h.notice.sender = s.own) →
    ending s.own s.session.station h (memberEffect s.session.members h.notice) = none →
    (s.session.members.get v.joiner).state ≠ .absent →
    ((memberEffect s.session.members h.notice).table.get v.joiner).state = .absent →
    ∃ t : State, exec .noticeEffectsMade s = .next t ∧ t.sponsor.serving = none ∧
      (∀ x ∈ t.outbox.entries, x.body.isSnap = true → x.offered = true ∧ x.removal = true) ∧
      ∀ b, t.sponsor.owedAnswer = some b → b.isSnap = false) ∧
  ∀ (s : State) (k : Word) (n : Byte), s.session.station = .active →
    s.bus.delivered = some ⟨⟨s.session.tag, s.own, .snapEnd k n⟩, true⟩ →
    ∃ t : State, exec .noticeEffectsMade s = .next t ∧ t.sponsor.serving = none

/-- A notice of the session that does not end the station's membership: the count goes up by one unless the kind is FOUND,
BEACON or one of the three snapshot kinds, and the table takes the kind's membership effect. -/
def Obligations.AppliedNoticeCounts : Prop :=
  ∀ (s : State) (h : Heard),
    s.session.station = .announcing ∨ s.session.station = .active ∨ s.session.station = .leaving →
    s.bus.delivered = some h → h.notice.tag = s.session.tag → h.notice.body.isFound = false →
    (h.own = true → h.notice.sender = s.own) → ¬ (∃ r, h.notice.body = .leave r ∧ h.notice.sender = s.own) → h.notice.body ≠ .evict s.own →
    ¬ (s.session.station = .announcing ∧
      (s.session.members.get s.own).state ≠ .absent ∧
      ((memberEffect s.session.members h.notice).table.get s.own).state = .absent) →
    ∃ t : State, exec .noticeEffectsMade s = .next t ∧
      t.session.count = (if h.notice.body.isBeacon = true ∨ h.notice.body.isSnap = true then s.session.count
        else s.session.count + 1#16) ∧
      t.session.members = (memberEffect s.session.members h.notice).table ∧
      t.session.tag = s.session.tag ∧ t.session.founded = s.session.founded

/-- A LEAVING station that takes its own LEAVE holds no replica and no claim and goes to its leave destination: OFFLINE, or SEEKING
with its tag and a JOIN where another record is PRESENT, or LISTENING where none is; its Outbox holds nothing of before but an
offered entry (none, after a LEAVE it carried in this round; what came to it after an earlier round is cleared too, the model's
choice, log 35). A station evicted in ANNOUNCING, ACTIVE or LEAVING holds no replica and no claim, its Outbox is cleared but for an
offered entry, and it is SEEKING with its tag and a JOIN (ANNOUNCING, auto-rejoin, or a leave destination SEEKING) or OFFLINE; so is
one that takes a LEAVE of its own address which it did not carry (R141). -/
def Obligations.OwnLeaveAndEvictionEndMembership : Prop :=
  (∀ (s : State) (r : Byte), s.session.station = .leaving →
      s.bus.delivered = some ⟨⟨s.session.tag, s.own, .leave r⟩, true⟩ → GntFollows s →
      (let toOffline := s.session.leaveDest = some .offline;
      let others := ∃ a : Addr, a ≠ s.own ∧ (s.session.members.get a).state = .present;
      ∃ t : State, exec .noticeEffectsMade s = .next t ∧
        t.session.station = (if toOffline then .offline else if others then .seeking else .listening) ∧
        t.session.tag = (if ¬ toOffline ∧ others then s.session.tag else 0#16) ∧
        t.session.founded = false ∧ t.session.members = .empty ∧ t.session.count = 0#16 ∧ t.session.leaveDest = none ∧
        t.session.leaveReason = none ∧ t.pool = ⟨[], false⟩ ∧ (∀ c : Client, (t.slot c).state = .free) ∧
        (∀ n : LineNo, (t.line n).gnt = false) ∧
        t.timers.beacon = none ∧ t.timers.snapshot = none ∧ (∀ a : Addr, t.timers.absence.get a = none) ∧
        (¬ toOffline → ¬ others → t.timers.listen = some 0) ∧
        t.checker.tableCheck = cyclicCheck (List.replicate 16 0#8) ∧ t.checker.suspect = none ∧
        t.checker.resyncPending = false ∧ NothingOwed t ∧
        (let left : Outbox := ⟨s.outbox.waitsForRound, 1⟩;
        t.outbox = if ¬ toOffline ∧ others then left.offeredTo (.join s.checker.profileCheck) s.session.tag else left))) ∧
  (∀ (s : State) (h : Heard),
      s.session.station = .announcing ∨ s.session.station = .active ∨ s.session.station = .leaving →
      s.bus.delivered = some h → h.notice.tag = s.session.tag →
      (h.notice.body = .evict s.own ∨ ((∃ r, h.notice.body = .leave r) ∧ h.notice.sender = s.own ∧ h.own = false)) →
      AllSound s → OwedApart s →
      (let rejoins := s.session.station = .announcing ∨ (s.session.station = .active ∧ s.port.autoRejoin = true) ∨
        (s.session.station = .leaving ∧ s.session.leaveDest = some .seeking);
      let tag := if rejoins then s.session.tag else 0#16;
      ∃ t : State, exec .noticeEffectsMade s = .next t ∧
        t.session = ⟨if rejoins then .seeking else .offline, .empty, false, tag, 0#16, s.session.counter, none, false, none⟩ ∧
        t.pool = ⟨[], false⟩ ∧ t.joiner = Joiner.none ∧ t.sponsor = Sponsor.none ∧ (∀ c : Client, (t.slot c).state = .free) ∧
        (∀ n : LineNo, (t.line n).gnt = false) ∧
        (let left : Outbox := ⟨s.outbox.waitsForRound, 1⟩;
        t.outbox = if rejoins then left.offeredTo (.join s.checker.profileCheck) s.session.tag else left)))

/-- A station of a session that takes a notice of a greater tag, other than FOUND and JOIN, yields in one event: its slots end
with SESSION_LOST, each with the count still held (log 18), the replica and every owed notice go, and it is SEEKING with a JOIN
for the greater tag. -/
def Obligations.SessionYieldsToGreaterTag : Prop :=
  ∀ (s : State) (h : Heard),
    s.session.station = .loading ∨ s.session.station = .announcing ∨ s.session.station = .active ∨
      s.session.station = .leaving → s.session.founded = true →
    s.bus.delivered = some h → s.session.tag < h.notice.tag → h.notice.body.isFound = false → h.notice.body.isJoin = false →
    (let left : Outbox := ⟨s.outbox.waitsForRound, 1⟩;
    exec .noticeEffectsMade s = .next { s.taking with
      outbox := left.offeredTo (.join s.checker.profileCheck) h.notice.tag
      session := ⟨.seeking, .empty, false, h.notice.tag, 0#16, s.session.counter, none, false, none⟩
      timers := { s.timers with heard := false, snapshot := none, beacon := none, absence := Vector.replicate 16 none }
      joiner := .none
      sponsor := .none
      pool := ⟨[], false⟩
      slots := Vector.ofFn fun c : Client => (s.slot c).afterTeardown .sessionLost
      lines := Vector.ofFn fun n : LineNo => { s.line n with gnt := false }
      port := { s.port with
        locked := true, attn := true,
        events := (s.teardownEvents .sessionLost s.session.count ++
          ([⟨.stationState .seeking .sessionLost, s.own, 0#16⟩] : List Event)).foldl
          (enqueue s.own) s.port.events }
      checker := ⟨cyclicCheck (List.replicate 16 0#8), s.checker.profileCheck, none, false⟩ })

/-- An ACTIVE station that takes a synchronized BEACON of another PRESENT station compares it with its own table check and count,
by the table of R166: it records a suspect, leaves it, clears it, or resynchronises and sets the resync-pending flag (that it is
set here too is the model's reading, log 13). One of a SYNCING station makes its record PRESENT with MEMBER_STATE first, and is
compared in the same event, against the table check and the count from before it; the table check follows the new table at the
event's end. -/
def Obligations.BeaconIsCompared : Prop :=
  ∀ (s : State) (sender : Addr) (check count : Word), s.session.station = .active → sender ≠ s.own →
    s.bus.delivered = some ⟨⟨s.session.tag, sender, .beacon check count true⟩, false⟩ → NothingToAnswer s →
    (∀ a, s.checker.suspect = some a → (s.session.members.get a).state = .present) →
    (let compared := fun t : State =>
      (let equal := check = s.checker.tableCheck ∧ count = s.session.count;
      match s.checker.suspect with
      | none => if equal then t
        else ({ t with checker := { s.checker with suspect := some sender } } : State).post (.divergence .recorded) sender
      | some a => if equal then ({ t with checker := { s.checker with suspect := none } } : State).post (.divergence .cleared) a
        else if a = sender then t
        else (({ t with checker := { s.checker with suspect := none, resyncPending := true } } : State).post
          (.divergence .resync) sender).queueLeave .resync);
    let heard : State := { s.taking with timers := s.restarted sender };
    ((s.session.members.get sender).state = .present → (s.session.members.get sender).sound = true →
      exec .noticeEffectsMade s = .next (compared heard)) ∧
    ((s.session.members.get sender).state = .syncing → AllSound s →
      (let table : Table := Vector.ofFn fun a : Addr => if a = sender then ⟨.present, none, true⟩ else s.session.members.get a;
      let u := compared (({ heard with session := { s.session with members := table } } : State).post (.memberState .present) sender);
      exec .noticeEffectsMade s = .next
        { u with checker := { u.checker with tableCheck := tableCheckOf table s.pool.records } })))

/-- A slot acts on an indication by the table of R53, and every indication that the table does not pair with its state is a
mismatch; the standing reported with a WITHDRAWN or RELEASED makes no difference. A REMOVED ends the slot as the teardown in hand
states: with its reason, without an event where it gives none, and one in RETRY without an event. -/
def Obligations.SlotsFollowIndications : Prop :=
  ∀ (s : State) (c : Client),
    (let v := s.slot c;
    (v.state = .queued → s.indicate c .accepted = s.setSlot c { v with state := .waiting, outboxEntry := .none }) ∧
    (v.state = .withdrawing → v.closing = false → v.removalPending = true → s.indicate c .accepted = s.withdrawn c) ∧
    (v.state = .withdrawing → v.closing = true → v.outboxEntry = .claim →
      s.indicate c .accepted = s.setSlot c { v with outboxEntry := .none, removalPending := false }) ∧
    (v.state = .waiting → s.indicate c .granted = (s.setSlot c
      { v with state := .granted, leaseMs := v.params.length * s.port.leaseUnit, renewals := 0 }).post .claimGranted c) ∧
    (v.state = .withdrawing → s.indicate c .granted = s) ∧
    (v.state = .withdrawing → ∀ x, s.indicate c (.withdrawn x) = (s.ended c .withdrawn).retested c) ∧
    (v.state = .releasing → ∀ x, s.indicate c (.released false x) = (s.ended c .released).retested c) ∧
    (v.state = .releasing → 8 ≤ c.val → ∀ x, s.indicate c (.released true x) = s.ended c .forced) ∧
    (∀ n x, c = clientOf n → v.state = .releasing → s.indicate c (.released true x) =
      (let t := s.ended c .forced;
      if (s.line n).req = true then t.setLine n { t.line n with rearm := true } else t.risen n)) ∧
    (∀ n, c = clientOf n → v.state = .queued → s.indicate c (.refused .poolFull) =
      (s.setSlot c { v with
          state := .retry, outboxEntry := .none, lastEnd := .refusedPoolFull, retryMs := s.port.beaconInterval }).post
            (.claimEnded .refusedPoolFull) c) ∧
    (8 ≤ c.val → v.state = .queued → ∀ r, s.indicate c (.refused r) = s.ended c r.ends) ∧
    (∀ n r, c = clientOf n → r ≠ .poolFull → v.state = .queued → s.indicate c (.refused r) =
      (let t := s.ended c r.ends;
      if (s.line n).req = true then t.setLine n { t.line n with rearm := true } else t.risen n)) ∧
    (v.state = .withdrawing → v.outboxEntry = .claim → ∀ r, s.indicate c (.refused r) = (s.ended c r.ends).retested c) ∧
    (∀ k x r, s.indicate c (.removed k x) (some r) =
      if v.state = .free then s
      else if v.state = .retry then s.setSlot c (Slot.freeWith v.lastEnd) else s.ended c r) ∧
    (∀ k x, s.indicate c (.removed k x) none = if v.state = .free then s else s.setSlot c (Slot.freeWith v.lastEnd)) ∧
    (v.state ≠ .queued → ¬ (v.state = .withdrawing ∧ v.closing = false ∧ v.removalPending = true) →
      ¬ (v.state = .withdrawing ∧ v.closing = true ∧ v.outboxEntry = .claim) → s.indicate c .accepted = s.mismatch) ∧
    (v.state ≠ .queued → ¬ (v.state = .withdrawing ∧ v.outboxEntry = .claim) → ∀ r, s.indicate c (.refused r) = s.mismatch) ∧
    (v.state ≠ .waiting → v.state ≠ .withdrawing → s.indicate c .granted = s.mismatch) ∧
    (v.state ≠ .withdrawing → ∀ x, s.indicate c (.withdrawn x) = s.mismatch) ∧
    (v.state ≠ .releasing → ∀ f x, s.indicate c (.released f x) = s.mismatch) ∧
    ClaimRefusal.ends .notMember = .refusedNotMember ∧ ClaimRefusal.ends .duplicate = .refusedDuplicate ∧
    ClaimRefusal.ends .poolFull = .refusedPoolFull)

/-- The indications of a notice taken with the own tag. A CLAIM is tested in the order of R11 and refused with the reason of the
first test that decides it, which changes the count alone; an accepted one, and a WITHDRAW or RELEASE, give their own indication
(with the standing of the record removed) before the GRANTEDs of their pass, which come in the order of the grants; only the
sender's slots hear of the notice, only this station's of its grants. At the own LEAVE, at an EVICT of this station and at a LEAVE
of its address that it did not carry (R141) the slots with a record end in pool order, then the others in ascending client order,
with the reason of the LEAVE it queued, whatever code the LEAVE carries (LEFT for STOP, RESYNC for RESYNC, no event else; R194), or
EVICTED (an ANNOUNCING station, whose own record is SYNCING, too), after the MEMBER_STATEs and before STATION_STATE; a frozen pool
gives no REMOVED. The MEMBER_STATEs at the own LEAVE, the own record's included, are the model's reading (log 11); that an
ADDRESS_CLASH comes first is its choice (log 30). -/
def Obligations.IndicationsOfATakenNotice : Prop :=
  (∀ (s : State) (h : Heard), s.session.station = .announcing ∨ s.session.station = .active ∨ s.session.station = .leaving →
    s.bus.delivered = some h → h.notice.tag = s.session.tag → (h.notice.sender = s.own → h.own = true) →
    s.pool.frozen = false → AllSound s → PairsDistinct s.pool.records → NothingToAnswer s → s.checker.suspect = none →
    (let sender := h.notice.sender;
    let tell := fun (t : State) (c : Client) (i : Indication) => if sender = s.own then t.indicate c i else t;
    let counted : State := { s.taking with
      session := { s.session with count := s.session.count + 1#16 }, timers := s.restarted sender };
    let passed := fun (p : Pass) (told : State → State) =>
      (p.granted.filter fun r => decide (r.station = s.own)).foldl (fun t r => t.indicate r.client .granted)
        (told { counted with
          pool := ⟨p.records, false⟩
          checker := { s.checker with tableCheck := tableCheckOf s.session.members p.records } });
    (∀ c k m, h.notice.body = .claim c k m →
      (let dup := ∃ r ∈ s.pool.records, r.station = sender ∧ r.client = c;
      ((s.session.members.get sender).state ≠ .present ∨ setValid s.port.n m = false →
        exec .noticeEffectsMade s = .next (tell counted c (.refused .notMember))) ∧
      ((s.session.members.get sender).state = .present → setValid s.port.n m = true →
        (dup → exec .noticeEffectsMade s = .next (tell counted c (.refused .duplicate))) ∧
        (¬ dup → 64 ≤ s.pool.records.length → exec .noticeEffectsMade s = .next (tell counted c (.refused .poolFull))) ∧
        (¬ dup → s.pool.records.length < 64 → exec .noticeEffectsMade s = .next
          (passed (grantPass s.port.threshold (s.pool.records ++ [⟨sender, c, m, k, k, 0, .waiting, true⟩]))
            fun t => tell t c .accepted))))) ∧
    ∀ (c : Client) (i : Option Standing → Indication),
      (h.notice.body = .withdraw c ∧ i = .withdrawn) ∨
        (∃ code, h.notice.body = .release c code ∧ i = .released (decide (code = 1))) →
      ((∀ r ∈ s.pool.records, ¬ (r.station = sender ∧ r.client = c)) → exec .noticeEffectsMade s = .next (tell counted c (i none))) ∧
      ∀ r ∈ s.pool.records, r.station = sender → r.client = c → exec .noticeEffectsMade s = .next
        (passed (grantPass s.port.threshold
          (s.pool.records.filter fun x => !(decide (x.station = sender) && decide (x.client = c))))
          fun t => tell t c (i (some r.standing))))) ∧
  ∀ (s : State) (h : Heard) (reason : Option EndReason) (cause : Cause),
    s.bus.delivered = some h → h.notice.tag = s.session.tag →
    (s.session.station = .leaving ∧ h.own = true ∧ h.notice.sender = s.own ∧ cause = .left ∧ (∃ code, h.notice.body = .leave code) ∧
        reason = (match s.session.leaveReason with
          | some .stop => some .left
          | some .resync => some .resync
          | some .abandon | none => none)) ∨
      ((s.session.station = .announcing ∨ s.session.station = .active ∨ s.session.station = .leaving) ∧
        (h.notice.body = .evict s.own ∨ ((∃ code, h.notice.body = .leave code) ∧ h.notice.sender = s.own ∧ h.own = false)) ∧
        ((s.session.members.get s.own).state = .present ∨ (s.session.members.get s.own).state = .syncing) ∧
        reason = some .evicted ∧ cause = .evicted) →
    AllSound s → OwedApart s → (∀ c : Client, (s.slot c).form c) → s.session.founded = true →
    (let live := fun c : Client => decide ((s.slot c).state ≠ .free) && decide ((s.slot c).state ≠ .retry);
    let removed := if s.pool.frozen then []
      else (s.pool.records.filter fun r => decide (r.station = s.own)).map PoolRecord.client;
    let ended := removed.eraseDups.filter live ++ sixteen.filter fun c => live c && !removed.contains c;
    let n := s.session.count + 1#16;
    ∃ t : State, exec .noticeEffectsMade s = .next t ∧
      t.port.events =
        ((if h.notice.sender = s.own ∧ h.own = false then [(⟨.addressClash, s.own, n⟩ : Event)] else []) ++
          ((memberEffect s.session.members h.notice).changes.map fun x => (⟨.memberState x.2, x.1, n⟩ : Event)) ++
          (match reason with | some r => ended.map fun c => (⟨.claimEnded r, c, n⟩ : Event) | none => []) ++
          [(⟨.stationState t.session.station cause, s.own, 0#16⟩ : Event)]).foldl (enqueue s.own) s.port.events ∧
      ∀ c : Client, t.slot c = Slot.freeWith (if live c then reason.getD (s.slot c).lastEnd else (s.slot c).lastEnd))

/-- What an applied notice that leaves the station its place does besides. The absence timers by the table of R135, in this order:
a record that became ABSENT has none, another's that became SYNCING starts from zero, and the sender's running one restarts. Events
in their order, of a notice of no other effect here: ADDRESS_CLASH for the own address not carried by this station (before the
rest, the model's choice, log 30), MEMBER_STATE for every record whose state changed (the leaver's or the evicted one's first, then
those it sponsored in ascending order), and DIVERGENCE(suspect, CLEARED) where the suspect left PRESENT. A LEAVE or EVICT takes
back the station's own EVICT of its target: dropped where owed, removed where unsent, asked back where offered. -/
def Obligations.MembershipChangesAreReported : Prop :=
  (∀ (s : State) (h : Heard),
    s.session.station = .announcing ∨ s.session.station = .active ∨ s.session.station = .leaving →
    s.bus.delivered = some h → h.notice.tag = s.session.tag → h.notice.body.isFound = false →
    (h.own = true → h.notice.sender = s.own) → OwedApart s →
    ending s.own s.session.station h (memberEffect s.session.members h.notice) = none →
    (let old := s.session.members;
    let new := (memberEffect old h.notice).table;
    let runs := s.session.station ≠ .leaving ∨ s.session.leftSynced = true;
    (∃ t : State, exec .noticeEffectsMade s = .next t ∧
      (∀ a : Addr, t.timers.absence.get a =
        if (new.get a).state ≠ (old.get a).state ∧ (new.get a).state = .absent then none
        else if (new.get a).state ≠ (old.get a).state ∧ (new.get a).state = .syncing ∧ a ≠ s.own ∧ runs then some 0
        else if a = h.notice.sender ∧ a ≠ s.own ∧ ((old.get a).state = .syncing ∨ (old.get a).state = .present) then
          (s.timers.absence.get a).map fun _ => 0
        else s.timers.absence.get a) ∧
      ∀ m, namedTarget h.notice = some m → t.sponsor.owedEvicts.get m = false ∧
        ∀ e ∈ t.outbox.entries, e.body.isEvictOf m = true → e.offered = true ∧ e.removal = true) ∧
    (AllSound s → NothingOwed s → NothingToAnswer s → claimClient h.notice.body = none → h.notice.body.isBeacon = false →
      s.pool = ⟨[], false⟩ → s.session.founded = true →
      (let n := if h.notice.body.isSnap = true then s.session.count else s.session.count + 1#16;
      ∃ t : State, exec .noticeEffectsMade s = .next t ∧
        t.port.events =
          ((if h.notice.sender = s.own ∧ h.own = false then [(⟨.addressClash, s.own, n⟩ : Event)] else []) ++
            ((memberEffect old h.notice).changes.map fun x => (⟨.memberState x.2, x.1, n⟩ : Event)) ++
            (match s.checker.suspect with
              | some a => if (new.get a).state = .present then [] else [(⟨.divergence .cleared, a, n⟩ : Event)]
              | none => [])).foldl (enqueue s.own) s.port.events)))) ∧
  ∀ (t : Table) (n : Notice),
    (let e := memberEffect t n;
    (∀ a st, (a, st) ∈ e.changes ↔ (e.table.get a).state = st ∧ st ≠ (t.get a).state) ∧
    (∀ m, namedTarget n = some m → e.changes ≠ [] →
      ∃ others : List Addr, e.changes = (m, .absent) :: others.map (fun a => (a, .absent)) ∧ others.Pairwise (· < ·)) ∧
    (namedTarget n = none → e.changes.length ≤ 1))

/-! ### Loading (R20, R155 to R160) -/

/-- A notice of the session that a LOADING station keeps: it goes to the tail of the catch-up buffer, with the mark whether the
station carried it, and changes nothing else; with 32 there it is not kept and the station abandons. A FOUND, a snapshot notice or
LEAVE of the recorded sponsor, and an EVICT of that sponsor or of this station are not kept. -/
def Obligations.CatchUpBufferKeepsNotices : Prop :=
  ∀ (s : State) (h : Heard), s.session.station = .loading → s.bus.delivered = some h → h.notice.tag = s.session.tag →
    (let acted := h.notice.body.isFound = true ∨ h.notice.body = .evict s.own ∨
      (some h.notice.sender = s.joiner.sponsor ∧ (h.notice.body.isSnap = true ∨ h.notice.body.isLeave = true)) ∨
      ∃ a, h.notice.body = .evict a ∧ some a = s.joiner.sponsor;
    (acted → ∃ t : State, exec .noticeEffectsMade s = .next t ∧ (t.joiner.catchUp = s.joiner.catchUp ∨ t.joiner.catchUp = [])) ∧
    (¬ acted → exec .noticeEffectsMade s = .next (
      if s.joiner.catchUp.length < 32 then { s.taking with joiner := { s.joiner with catchUp := s.joiner.catchUp ++ [h] } }
      else s.taking.queueLeave .abandon)))

/-- The snapshot of the recorded sponsor builds the replica: SNAP-MEMBERS sets the table where it is awaited and abandons where the
own record is not SYNCING under that sponsor; its state nibble above 3 reads ABSENT (R194). SNAP-CLAIM is appended at its position,
unless its standing is above 1, its effective class below its requested one or its mask invalid (R194, log 17). Neither reads the
partial replica nor gives a new table check (R21, R173). A SNAP-END that
does not match abandons; one that matches replays the catch-up buffer from head to tail with steps 1, 3 and 4 of R125, giving no
indication and posting no MEMBER_STATE, runs one more grant pass, starts the absence timers, queues a BEACON and makes the station
ANNOUNCING. -/
def Obligations.SnapshotBuildsTheReplica : Prop :=
  ∀ (s : State) (h : Heard), s.session.station = .loading → s.bus.delivered = some h → h.notice.tag = s.session.tag →
    some h.notice.sender = s.joiner.sponsor →
    (∀ v, h.notice.body = .snapMembers v → s.joiner.building = .members →
      (let mine := (hiNibble (v.get s.own)).val = 2 ∧ some (loNibble (v.get s.own)) = s.joiner.sponsor;
      ∃ t : State, exec .noticeEffectsMade s = .next t ∧
        (∀ a : Addr, (t.session.members.get a).state =
            (match (hiNibble (v.get a)).val with
              | 1 => .joining | 2 => .syncing | 3 => .present | _ => .absent) ∧
          (t.session.members.get a).sponsor =
            if (hiNibble (v.get a)).val = 1 ∨ (hiNibble (v.get a)).val = 2 then some (loNibble (v.get a)) else none) ∧
        t.session.count = s.session.count ∧ t.pool = s.pool ∧
        (mine → t.session.station = .loading ∧ t.joiner = { s.joiner with building := .claims } ∧ t.checker = s.checker) ∧
        (¬ mine → t.session.station = .leaving ∧ t.session.leaveDest = some .seeking ∧ t.joiner = Joiner.none))) ∧
    (∀ v, h.notice.body = .snapMembers v → s.joiner.building ≠ .members → exec .noticeEffectsMade s = .next s.taking) ∧
    (∀ p st c m rq ef ps sd, h.notice.body = .snapClaim p st c m rq ef ps sd →
      ∃ t : State, exec .noticeEffectsMade s = .next t ∧ t.session = s.session ∧ t.joiner = s.joiner ∧ t.checker = s.checker ∧
        t.pool.frozen = s.pool.frozen ∧ t.pool.records =
          if s.joiner.building = .claims ∧ p.toNat = s.pool.records.length ∧ s.pool.records.length < 64 ∧ sd.toNat ≤ 1 ∧
              rq ≤ ef ∧ 1 ≤ (resources m).length ∧ (resources m).length ≤ 4 ∧ ∀ r ∈ resources m, r.val < s.port.n then
            s.pool.records ++ [⟨st, c, m, rq, ef, ps, if sd = 0#8 then .waiting else .holding, true⟩]
          else s.pool.records) ∧
    ∀ k n, h.notice.body = .snapEnd k n → AllSound s → s.pool.frozen = false →
      (let fits := k = tableCheckOf s.session.members s.pool.records ∧ n.toNat = s.pool.records.length;
      (¬ fits → exec .noticeEffectsMade s = .next (s.taking.queueLeave .abandon)) ∧
      (fits → ∃ t : State, exec .noticeEffectsMade s = .next t ∧
        (let r := s.joiner.catchUp.foldl (fun r h => r.take s.port.n s.port.threshold h.notice)
          (⟨s.session.members, s.session.count, s.pool.records⟩ : Replica);
        t.session = { s.session with station := .announcing, members := r.members, count := r.count } ∧
        t.pool = ⟨(grantPass s.port.threshold r.records).records, false⟩ ∧ t.joiner = Joiner.none ∧ t.slots = s.slots ∧
        t.checker.tableCheck = tableCheckOf t.session.members t.pool.records ∧
        t.timers = { s.timers with
          snapshot := none,
          absence := (Vector.ofFn fun a : Addr =>
            if a ≠ s.own ∧ ((r.members.get a).state = .syncing ∨ (r.members.get a).state = .present) then some 0 else none) } ∧
        (s.session.founded = true → (∀ x ∈ s.joiner.catchUp, x.notice.sender = s.own → x.own = true) →
          t.port.events = enqueue s.own s.port.events ⟨.stationState .announcing .snapshotDone, s.own, r.count⟩) ∧
        (s.outbox.hasLeave = false → s.sponsor.owedBeacon = false →
          (∃ e ∈ t.outbox.entries, e.body.isBeacon = true) ∨ t.sponsor.owedBeacon = true))))

/-- A joiner gives up without a LEAVE (R160): a LOADING station that takes an EVICT naming it, or a LEAVE or EVICT of its recorded
sponsor, and an ANNOUNCING one whose sponsor's LEAVE or EVICT reverts its record: replica, buffer and timers go, the Outbox is
cleared but for an offered entry, and it is SEEKING with its tag and a JOIN, the cause SPONSOR_LOST or EVICTED (an ANNOUNCING
station that is evicted: stated above). -/
def Obligations.JoinerGivesUp : Prop :=
  (∀ (s : State) (h : Heard) (cause : Cause), s.session.station = .loading → s.bus.delivered = some h →
    h.notice.tag = s.session.tag → s.session.founded = true → GntFollows s →
    (((∃ r, h.notice.body = .leave r) ∧ some h.notice.sender = s.joiner.sponsor ∧ cause = .sponsorLost) ∨
      (∃ m, h.notice.body = .evict m ∧
        ((m = s.own ∧ cause = .evicted) ∨ (m ≠ s.own ∧ some m = s.joiner.sponsor ∧ cause = .sponsorLost)))) →
    (let left : Outbox := ⟨s.outbox.waitsForRound, 1⟩;
    exec .noticeEffectsMade s = .next { s.taking with
      outbox := left.offeredTo (.join s.checker.profileCheck) s.session.tag
      session := ⟨.seeking, .empty, false, s.session.tag, 0#16, s.session.counter, none, false, none⟩
      timers := { s.timers with snapshot := none, beacon := none, absence := Vector.replicate 16 none }
      joiner := .none
      sponsor := .none
      pool := ⟨[], false⟩
      slots := s.slots.map fun v => { v with owed := .none }
      port := { s.port with
        locked := true, attn := true, events := enqueue s.own s.port.events ⟨.stationState .seeking cause, s.own, 0#16⟩ }
      checker := ⟨cyclicCheck (List.replicate 16 0#8), s.checker.profileCheck, none, false⟩ })) ∧
  ∀ (s : State) (h : Heard) (p : Addr), s.session.station = .announcing → s.bus.delivered = some h →
    h.notice.tag = s.session.tag → (s.session.members.get s.own).sponsor = some p → namedTarget h.notice = some p → p ≠ s.own →
    (s.session.members.get s.own).state = .syncing → (memberEffect s.session.members h.notice).changes ≠ [] →
    AllSound s → OwedApart s → s.session.founded = true →
    (let left : Outbox := ⟨s.outbox.waitsForRound, 1⟩;
    ∃ t : State, exec .noticeEffectsMade s = .next t ∧
      t.session = ⟨.seeking, .empty, false, s.session.tag, 0#16, s.session.counter, none, false, none⟩ ∧
      t.outbox = left.offeredTo (.join s.checker.profileCheck) s.session.tag ∧ t.pool = ⟨[], false⟩ ∧ t.joiner = Joiner.none ∧
      t.sponsor = Sponsor.none ∧ t.timers.beacon = none ∧ (∀ a : Addr, t.timers.absence.get a = none) ∧
      ((∀ r ∈ s.pool.records, r.station ≠ s.own) → (h.notice.sender = s.own → h.own = true) → t.port.events =
        (((memberEffect s.session.members h.notice).changes.map fun x =>
            (⟨.memberState x.2, x.1, s.session.count + 1#16⟩ : Event)) ++
          [(⟨.stationState .seeking .sponsorLost, s.own, 0#16⟩ : Event)]).foldl (enqueue s.own) s.port.events))

/-! ### Grant order (R23 to R30) -/

/-- The grant pass over a sound pool: the grantable record with the best key is granted first and the pass goes on from the pool
that grant leaves, until none can be granted; it moves and removes no record, and a holder never shares a resource with another. A
pool with a failing record gives no grant: the pass stops at its first step, since no record is known to be grantable while one is
not read (the model's choice of what counts as read, log 8). -/
def Obligations.GrantPassGrantsAllItCan : Prop :=
  ∀ (th : Nat) (recs : List PoolRecord),
    ((∀ r ∈ recs, r.sound = true) →
      (∀ r i, (grantPass th recs).records[i]? = some r → grantable (grantPass th recs).records r i = false) ∧
      grantPass th recs =
        match bestGrantable recs with
        | none => ⟨recs, [], false⟩
        | some (g, i) =>
          ⟨(grantPass th (grantAt th recs g i)).records, g :: (grantPass th (grantAt th recs g i)).granted, false⟩) ∧
    ((∃ r ∈ recs, r.sound = false) → grantPass th recs = ⟨recs, [], true⟩) ∧
    ((grantPass th recs).records.map fun r => (r.station, r.client, r.set, r.requested, r.sound)) =
      recs.map (fun r => (r.station, r.client, r.set, r.requested, r.sound)) ∧
    (HoldersDisjoint recs → HoldersDisjoint (grantPass th recs).records) ∧
    (∀ g i, bestGrantable recs = some (g, i) →
      recs[i]? = some g ∧ grantable recs g i = true ∧
      ∀ r j, recs[j]? = some r → j ≠ i → grantable recs r j = true → betterKey g i r j = true) ∧
    (bestGrantable recs = none → ∀ r j, recs[j]? = some r → grantable recs r j = false) ∧
    ∀ r i, recs[i]? = some r → (grantable recs r i = true ↔
      r.standing = .waiting ∧
      ∀ w j, recs[j]? = some w → (∃ x : Fin 16, w.set.getLsbD x.val = true ∧ r.set.getLsbD x.val = true) →
        w.standing = .waiting ∧
        ¬ (r.effective < w.effective ∨ (r.effective = w.effective ∧ j < i)))

/-- One grant: the record granted is HOLDING; a WAITING record before it in the pool that shares a resource counts one passing,
to a ceiling of 15 with promotion off, and with promotion on a count that reaches T gives it one effective class more, to a
ceiling of 3, and a count of 0; every other record stays, and each keeps its place. A record so counted at the grant of the best
grantable record has a lower effective class than that. -/
def Obligations.OvertakenRecordsArePromoted : Prop :=
  (∀ (th : Nat) (recs : List PoolRecord) (g : PoolRecord) (i : Nat), (grantAt th recs g i).length = recs.length) ∧
  (∀ (recs : List PoolRecord) (g w : PoolRecord) (i j : Nat), bestGrantable recs = some (g, i) → recs[j]? = some w →
    w.standing = .waiting → j < i → (∃ x : Fin 16, w.set.getLsbD x.val = true ∧ g.set.getLsbD x.val = true) →
    w.effective < g.effective) ∧
  ∀ (th : Nat) (recs : List PoolRecord) (g w : PoolRecord) (i j : Nat), recs[i]? = some g → recs[j]? = some w → th ≤ 15 →
    w.passed.val < th ∨ th = 0 →
    (grantAt th recs g i)[j]? = some (
      if j = i then { w with standing := .holding }
      else if w.standing = .waiting ∧ j < i ∧ (∃ x : Fin 16, w.set.getLsbD x.val = true ∧ g.set.getLsbD x.val = true) then
        if th ≠ 0 ∧ w.passed.val + 1 = th then
          { w with passed := 0, effective := (if w.effective = 0 then 1 else if w.effective = 1 then 2 else 3) }
        else { w with passed := (if h : w.passed.val + 1 < 16 then ⟨w.passed.val + 1, h⟩ else 15) }
      else w)

/-! ### Owed notices (R109 to R112) -/

/-- Room appears: a station that owes nothing stays as it is; one whose only owed notice is a slot's places it where the Outbox has
room for it, a slot whose CLAIM is placed going from PENDING to QUEUED; the placed notice stands in the order of the Outbox. With
several owed each is tested once and placed if it fits, in the order of R112: EVICTs in ascending target order, the slots'
WITHDRAWs and RELEASEs in ascending client order, the answer or snapshot notice, the BEACON, the slots' CLAIMs in ascending client
order; what is placed is owed no more. No delivered notice is left to handle; where one is, its effects come first (stated above,
log 5). The taking of a LEAVE or EVICT whose target has an unsent EVICT of this station recalls that and offers its room to the
owed notices in the same event, ahead of the notice's other effects (the model's reading, log 34), and what that posts carries the
session count with the notice applied (R183). -/
def Obligations.OwedNoticeIsPlaced : Prop :=
  (∀ s : State, s.bus.delivered = none → NothingOwed s → exec .owedNoticePlaced s = .next s) ∧
  (∀ (s : State) (h : Heard) (m : Addr) (t : State), s.bus.delivered = some h →
    s.session.station = .announcing ∨ s.session.station = .active ∨ s.session.station = .leaving →
    h.notice.tag = s.session.tag → namedTarget h.notice = some m → s.sponsor.serving = none →
    s.sponsor.owedAnswer = none ∨ (NothingToAnswer s ∧ ∀ b, s.sponsor.owedAnswer = some b → b.tier = 2) →
    (∃ e ∈ s.outbox.entries, e.body.isEvictOf m = true ∧ e.offered = false) →
    exec .owedNoticePlaced (State.setCount { s.taking with
      outbox := s.outbox.removeUnsent fun e => e.body.isEvictOf m
      sponsor := { s.sponsor with owedEvicts := s.sponsor.owedEvicts.set m.val false m.isLt } } (s.session.count + 1#16)) =
        .next t →
    exec .noticeEffectsMade s = exec .noticeEffectsMade { t.setCount s.session.count with bus := s.bus }) ∧
  (∀ (s : State) (c : Client) (b : Body), s.bus.delivered = none → (∀ d : Client, d ≠ c → (s.slot d).owed = .none) → s.sponsor.owedAnswer = none →
    s.sponsor.owedBeacon = false → (∀ a : Addr, s.sponsor.owedEvicts.get a = false) → s.outbox.hasLeave = false →
    s.session.station ≠ .leaving →
    s.outbox.hasClaimNotice c = false →
    ((s.slot c).owed = .claim ∧ (s.slot c).state = .pending ∧ b = .claim c (s.slot c).cls (s.slot c).set) ∨
      ((s.slot c).owed = .withdraw ∧ b = .withdraw c) ∨
      ((s.slot c).owed = .release ∧ b = .release c (if (s.slot c).reason = .forced then 1 else 0)) →
    exec .owedNoticePlaced s = .next (
      if s.outbox.entries.length < 8 ∧ (b.tier = 3 ∨ (s.outbox.entries.filter fun e => decide (e.body.tier < 3)).length < 6) then
        (s.setOutbox (s.outbox.place b s.session.tag (.claimUnit c))).setSlot c
          { s.slot c with
            owed := .none, outboxEntry := (s.slot c).owed,
            state := (if (s.slot c).owed = .claim then .queued else (s.slot c).state) }
      else s)) ∧
  (∀ s : State, s.bus.delivered = none → s.session.station ≠ .leaving → s.outbox.hasLeave = false → OwedApart s →
    (s.sponsor.owedBeacon = true → ∀ e ∈ s.outbox.entries, e.body.isBeacon = false) →
    (∀ a, s.sponsor.owedEvicts.get a = true → ∀ e ∈ s.outbox.entries, e.body.isEvictOf a = false) →
    (∀ c, (s.slot c).owed = .claim → (s.slot c).state = .pending) →
    (∀ b, s.sponsor.owedAnswer = some b → b.tier = 2 ∧ b.isBeacon = false) → NothingToAnswer s →
    ∃ t : State, exec .owedNoticePlaced s = .next t ∧
      t.outbox = s.owedNotices.foldl (Outbox.served s.session.tag) s.outbox ∧
      (∀ c : Client, t.slot c =
        if (s.slot c).owed ≠ .none ∧ ∃ e ∈ t.outbox.entries, claimClient e.body = some c then
          { s.slot c with
            owed := .none, outboxEntry := (s.slot c).owed,
            state := (if (s.slot c).owed = .claim then .queued else (s.slot c).state) }
        else s.slot c) ∧
      (∀ a, t.sponsor.owedEvicts.get a = true ↔
        s.sponsor.owedEvicts.get a = true ∧ ∀ e ∈ t.outbox.entries, e.body.isEvictOf a = false) ∧
      (t.sponsor.owedBeacon = true ↔ s.sponsor.owedBeacon = true ∧ ∀ e ∈ t.outbox.entries, e.body.isBeacon = false) ∧
      (t.sponsor.owedAnswer = if (s.outbox.entries.length + (s.owedNotices.filter fun x => decide (x.1.tier = 3)).length < 8 ∧
          s.outbox.room 2 = true) then none else s.sponsor.owedAnswer) ∧
      t.session = s.session ∧ t.pool = s.pool ∧ t.port = s.port) ∧
  ∀ (o : Outbox) (b : Body) (tag : Word) (w : Owner),
    ∃ e front back, (o.place b tag w).entries = front ++ e :: back ∧ o.entries = front ++ back ∧ e.body = b ∧ e.tag = tag ∧
      e.owner = w ∧ e.voids = 0 ∧ e.offered = false ∧ e.removal = false ∧
      e.number = (if o.entries = [] then 1 else o.nextNumber) ∧ (o.place b tag w).nextNumber = e.number + 1

/-! ### Encodings (11.1 to 11.3, R174, R175, R193) -/

/-- Every notice is received as it was carried, when contention was won with its tier and class. Each byte is ten bit times, a
released frame bit, a dominant one and the data bits from the most significant, a 0 dominant; the listener receives the notice
whatever the frame bits' levels, at its last check bit, unless CBD was recessive for the idle gap of 11 bit times before, which no
carriage is: no notice is received past such a stop. The carrier finds a read-back mismatch exactly where a bit it released, frame
bit or not, is sampled dominant, and drives nothing after one or after CBV was dominant. A voter pulls CBV from its fault on until
CBD has been recessive for two bit times: a carrier in any state, a listener in the states of a session. A CBV sampled dominant
voids the round; of the others a listener takes the notice it received, and misses one with a fault. -/
def Obligations.NoticeIsReceivedAsCarried : Prop :=
  (∀ (n : Notice) (rank : Fin 16),
    (let w := contentionNumber n.body.tier n.body.cls rank;
    receive w n.carriage = .notice n ∧
    n.levels.length = 10 * n.carriage.length ∧
    (∀ i b, n.carriage[i]? = some b → n.levels[10 * i]? = some false ∧ n.levels[10 * i + 1]? = some true ∧
      ∀ k : Nat, k < 8 → n.levels[10 * i + 2 + k]? = some (!b.getLsbD (7 - k))) ∧
    carriageStop w (n.levels ++ [false, false]) = none ∧
    (∀ ls : List Bool, ls.length = n.levels.length → (∀ i, 2 ≤ i % 10 → ls[i]? = n.levels[i]?) → carriageStop w ls = none →
      receiveLevels w ls = .notice n ∧ receptionEnd w ls = some ls.length) ∧
    ∀ (t : Timing) (cbv : List Bool), voided cbv = false →
      listenedRound w (n.levels ++ [false, false]) cbv t = some (.roundTaken (.other w n.carriage) t) ∧
      carriedRound cbv t = .roundTaken .own t)) ∧
  (∀ (w : Byte) (ls : List Bool) (k : Nat),
    (let quiet := fun j : Nat => 3 ≤ j ∧ ((numberLevels w ++ ls).drop (j - 3)).take 11 = List.replicate 11 false;
    (carriageStop w ls = some k ↔ quiet k ∧ ∀ j, j < k → ¬ quiet j)) ∧
    (carriageStop w ls = some k → ∀ n : Notice, receiveLevels w ls = .notice n → 10 * n.carriage.length ≤ k)) ∧
  (∀ driven sampled : List Bool, readBackMismatch driven sampled = true ↔
    ∃ i : Nat, driven[i]? = some false ∧ sampled[i]? = some true) ∧
  (∀ (driven cbd cbv : List Bool) (i : Nat), driven.length ≤ cbd.length → driven.length ≤ cbv.length → i < driven.length →
    (carrierDrives driven cbd cbv)[i]? = some (driven.getD i false &&
      !(List.range i).any fun j => (!driven.getD j false && cbd.getD j false) || cbv.getD j false)) ∧
  (∀ (s : State) (w : Byte) (cbd : List Bool) (k i : Nat), i < cbd.length →
    (let pulls := fun levels : List Bool => levels.length = cbd.length ∧ (levels[i]? = some true ↔
      k ≤ i ∧ ¬ ∃ j, k ≤ j ∧ j + 1 < i ∧ cbd[j]? = some false ∧ cbd[j + 1]? = some false);
    (∀ driven, mismatchFound driven cbd = some k → pulls (s.votes w (some driven) cbd)) ∧
    (∀ driven, mismatchFound driven cbd = none → (s.votes w (some driven) cbd)[i]? = some false) ∧
    (∀ f, receiveLevels w cbd = .fault f → receptionEnd w cbd = some k →
      if s.session.station = .loading ∨ s.session.station = .announcing ∨ s.session.station = .active ∨
        s.session.station = .leaving then pulls (s.votes w none cbd) else (s.votes w none cbd)[i]? = some false))) ∧
  ∀ (w : Byte) (cbd cbv : List Bool) (t : Timing),
    (voided cbv = true ↔ ∃ i : Nat, cbv[i]? = some true) ∧
    (voided cbv = true → carriedRound cbv t = .roundVoided true none ∧
      ∃ f, listenedRound w cbd cbv t = some (.roundVoided false f) ∧
        ∀ x, f = some x ↔ receiveLevels w cbd = .fault x ∧ receptionEnd w cbd ≠ none) ∧
    (voided cbv = false → ∀ x, receiveLevels w cbd = .fault x → receptionEnd w cbd ≠ none →
      listenedRound w cbd cbv t = some (.roundMissed x)) ∧
    ∀ k, voidEnd cbv = some k ↔ ∃ i j : Nat, i ≤ j ∧ k = j + 1 ∧ cbv[i]? = some true ∧ (∀ m, m < i → cbv[m]? = some false) ∧
      cbv[j]? = some false ∧ ∀ m, i ≤ m → m < j → cbv[m]? = some true

/-- Every well-formed command that is a frame is the command its frame is read as; the bytes after the decision point are ignored,
and a frame that ends before it is aborted. SDO is not driven while SSN is high or RESETN is asserted; in a frame it carries, most
significant bit first, the filler FFh up to the decision point, then the status, the response data and the filler again. The frame
in progress is an input of the model (log 33). -/
def Obligations.FrameIsReadAsSent : Prop :=
  (∀ (c : Instr) (i : Byte) (ps : List Byte), c.wellFormed = true → encodeFrame c = some (i, ps) → decodeFrame i ps = c) ∧
  (∀ (i l : Byte) (ps rest : List Byte), ps.length = l.toNat → frameCommand (i :: l :: (ps ++ rest)) = decodeFrame i ps) ∧
  (∀ bs : List Byte, (bs.length < 2 ∨ ∃ i l ps, bs = i :: l :: ps ∧ ps.length < l.toNat) → frameCommand bs = .frameAborted bs) ∧
  ∀ s : State,
    s.sdo none = none ∧
    (s.resetHeld = true → ∀ bits, s.sdo (some bits) = none) ∧
    (s.resetHeld = false → ∀ (bs : List Byte) (part : List Bool), part.length < 8 →
      (let out := fun b : Byte => s.sdo (some (bs.flatMap bitsOf ++ part)) = some (b.getLsbD (7 - part.length));
      ((bs.length < 2 ∨ ∃ i l ps, bs = i :: l :: ps ∧ ps.length < l.toNat) → out 0xFF#8) ∧
      ∀ i l ps, bs = i :: l :: ps → l.toNat ≤ ps.length →
        (s.port.response = none → out 0xFF#8) ∧
        ∀ r : Response, s.port.response = some r →
          (ps.length = l.toNat → out r.status.code) ∧
          (∀ b, l.toNat < ps.length → r.data[ps.length - l.toNat - 1]? = some b → out b) ∧
          (l.toNat + r.data.length < ps.length → out 0xFF#8)))

/-! ### Invariants -/

/-- The reset state, as the model has it (log 4), meets every invariant below. -/
def Obligations.InvariantsHoldAtReset : Prop :=
  GntFollows State.reset ∧ AttnFollows State.reset ∧ EventForm State.reset.port.events ∧ LockFollows State.reset ∧
    OutboxForm State.reset.outbox ∧ OfferForm State.reset ∧ WithinCapacity State.reset ∧ CheckCurrent State.reset ∧
    ReplicaForm State.reset ∧ ActiveOnly State.reset ∧ ResetForm State.reset ∧ PoolForm State.reset ∧ SlotsForm State.reset ∧
    TableForm State.reset ∧ CarriedOwn State.reset

/-- GNT of every line stays high exactly while its slot is GRANTED, and the lock of the image follows the station state; ATTN stays
asserted exactly while the Event Queue holds an entry, and the queue keeps its form; while RESETN is asserted every block stays at
its reset values: no command but RESET_RELEASE acts (the model's reading, log 4). -/
def Obligations.StepKeepsGntAndLock : Prop :=
  ∀ s t : State, step s = .next t →
    (GntFollows s → GntFollows t) ∧ (LockFollows s → LockFollows t) ∧
    (AttnFollows s → EventForm s.port.events → AttnFollows t ∧ EventForm t.port.events) ∧ (ResetForm s → ResetForm t)

/-- The Outbox keeps its bounds and its order, and at most one entry is offered, none outside a round. -/
def Obligations.StepKeepsOutboxForm : Prop :=
  ∀ s t : State, OutboxForm s.outbox → OfferForm s → step s = .next t → OutboxForm t.outbox ∧ OfferForm t

/-- The current table check stays the check of the table and the pool held; in LOADING it stays the empty replica's (R21, R173),
which an abandoning station keeps until a notice changes its partial replica (the model's choice, log 29). -/
def Obligations.StepKeepsCheckCurrent : Prop :=
  ∀ s t : State, CheckCurrent s → step s = .next t → CheckCurrent t

/-- A replica is held exactly in the four states of a session, and without one the table, the count and the pool are empty;
suspect, answers and serving exist in ACTIVE only; the pool keeps to 64 records and the catch-up buffer to 32 notices; a member
record has a sponsor exactly in JOINING and SYNCING; a delivered notice that this station carried has its address as sender. -/
def Obligations.StepKeepsReplicaForm : Prop :=
  ∀ s t : State, step s = .next t →
    (ReplicaForm s → ReplicaForm t) ∧ (ActiveOnly s → ActiveOnly t) ∧ (WithinCapacity s → WithinCapacity t) ∧
      (TableForm s → TableForm t) ∧ (ResetForm s → CarriedOwn s → CarriedOwn t)

/-- The pool never has two records of one station and client nor two holders of one resource, and the stations of its records stay
PRESENT while it is not frozen. A LOADING station's pool is its sponsor's snapshot, whatever that carries: there the step that
completes it keeps the form. -/
def Obligations.StepKeepsPoolForm : Prop :=
  ∀ s t : State, step s = .next t → PoolForm s →
    s.session.station ≠ .loading ∨ (s.bus.delivered = none ∧ t.session.station = .announcing) → PoolForm t

/-- Every slot keeps the form of its state: what it owes and has in the Outbox, a FREE one cleared but for its last end reason,
RETRY for line slots alone; slots are closing in LEAVING alone, where every slot is FREE or closing and where alone the station's
LEAVE waits; a slot that owes a notice has none in the Outbox. -/
def Obligations.StepKeepsSlotsForm : Prop :=
  ∀ s t : State, SlotsForm s → step s = .next t → SlotsForm t
end

