-- ==== Sys2Proof/Laws/BusLevels.lean ====
section
/-! SUPPORT. What the functions of the bus levels can do: the start bit, lengths, the first bit time, and the cases of the end of a round. -/

namespace Sys2Proof

@[simp] theorem carriageStop_nil (w : Byte) : carriageStop w [] = none := rfl

theorem beforeStop_of_none {w : Byte} {ls : List Bool} (h : carriageStop w ls = none) : beforeStop w ls = ls := by
  simp [beforeStop, h]

theorem beforeStop_of_some {w : Byte} {ls : List Bool} {k : Nat} (h : carriageStop w ls = some k) :
    beforeStop w ls = ls.take k := by simp [beforeStop, h]

/-- The stop of a carriage lies among the levels sampled. -/
theorem stoppedAt_le : ∀ (ls : List Bool) (run k : Nat), stoppedAt run ls = some k → 1 ≤ k ∧ k ≤ ls.length
  | [], _, _, h => by simp [stoppedAt] at h
  | true :: ls, _, k, h => by
    simp only [stoppedAt, Option.map_eq_some_iff] at h
    obtain ⟨j, hj, rfl⟩ := h
    have := stoppedAt_le ls 0 j hj
    simp only [List.length_cons]; omega
  | false :: ls, run, k, h => by
    simp only [stoppedAt] at h
    split at h
    · cases h; simp
    · simp only [Option.map_eq_some_iff] at h
      obtain ⟨j, hj, rfl⟩ := h
      have := stoppedAt_le ls (run + 1) j hj
      simp only [List.length_cons]; omega

namespace Machine

/-- The last samples of a line have been recessive for the idle gap (R84). -/
theorem recessiveGap_iff (ls : List Bool) : recessiveGap ls = true ↔
    11 ≤ ls.length ∧ ∀ i : Nat, ls.length ≤ i + 11 → i < ls.length → ls.getD i true = false := by
  simp only [recessiveGap, Config.idleGap, decide_eq_true_eq, List.eq_replicate_iff, List.length_take, List.length_reverse]
  constructor
  · rintro ⟨h, hb⟩
    refine ⟨by omega, fun i h1 h2 => ?_⟩
    refine hb _ (List.mem_iff_getElem.mpr ⟨ls.length - 1 - i, by simp; omega, ?_⟩)
    simp only [List.getElem_take, List.getElem_reverse, List.getD_eq_getElem?_getD, List.getElem?_eq_getElem h2, Option.getD_some]
    congr 1; omega
  · rintro ⟨h, hb⟩
    refine ⟨by omega, fun b hm => ?_⟩
    obtain ⟨k, hk, rfl⟩ := List.mem_iff_getElem.mp hm
    simp only [List.length_take, List.length_reverse] at hk
    have := hb (ls.length - 1 - k) (by omega) (by omega)
    simpa only [List.getElem_take, List.getElem_reverse, List.getD_eq_getElem?_getD,
      List.getElem?_eq_getElem (show ls.length - 1 - k < ls.length by omega), Option.getD_some] using this

/-- The bus is idle where both lines have been recessive for the idle gap. -/
theorem busIdle_iff (cbd cbv : List Bool) : busIdle cbd cbv = true ↔ recessiveGap cbd = true ∧ recessiveGap cbv = true := by
  simp [busIdle]

/-- Where a station drives a start bit. -/
theorem State.drivesStart_iff (s : State) (cbd cbv : List Bool) : s.drivesStart cbd cbv = true ↔
    busIdle cbd cbv = true ∧ s.outbox.entries ≠ [] ∧ s.session.station ≠ .faulted ∧ s.bus.stuck = false ∧ s.resetHeld = false := by
  simp [State.drivesStart, and_assoc]

@[simp] theorem numberLevels_length (k : Byte) : (numberLevels k).length = 8 := rfl

/-- A contention number is read back from its own levels. -/
@[simp] theorem numberRead_numberLevels (k : Byte) : numberRead (numberLevels k) = k := by revert k; decide +kernel

@[simp] theorem contentionLine_length : ∀ (n : Nat) (ds : List (List Bool)), (contentionLine n ds).length = n
  | 0, _ => rfl
  | n + 1, ds => by simp only [contentionLine, List.length_cons, contentionLine_length n]

@[simp] theorem drivenUntilMismatch_length : ∀ ls xs : List Bool, (drivenUntilMismatch ls xs).length = ls.length
  | [], _ => by simp [drivenUntilMismatch]
  | _ :: _, [] => by simp [drivenUntilMismatch]
  | l :: ls, x :: xs => by
    simp only [drivenUntilMismatch, List.length_cons]
    split
    · simp
    · rw [drivenUntilMismatch_length ls xs]

@[simp] theorem carrierDrives_length : ∀ ls cs vs : List Bool, (carrierDrives ls cs vs).length = ls.length
  | [], _, _ => by simp [carrierDrives]
  | _ :: _, [], _ => by simp [carrierDrives]
  | _ :: _, _ :: _, [] => by simp [carrierDrives]
  | l :: ls, c :: cs, v :: vs => by
    simp only [carrierDrives, List.length_cons]
    split
    · simp
    · rw [carrierDrives_length ls cs vs]

@[simp] theorem held_length : ∀ (run : Nat) (cbd : List Bool), (held run cbd).length = cbd.length
  | _, [] => rfl
  | run, c :: cs => by
    simp only [held]
    split
    · simp
    · simp only [List.length_cons, held_length]

@[simp] theorem votePull_length (k : Nat) (cbd : List Bool) : (votePull k cbd).length = cbd.length := by
  simp only [votePull, List.length_append, List.length_map, held_length, List.length_take, List.length_drop]
  omega

/-- A station drives CBV over the bit times of the round, whether it votes or not. -/
@[simp] theorem State.votes_length (s : State) (w : Byte) (carried : Option (List Bool)) (cbd : List Bool) :
    (s.votes w carried cbd).length = cbd.length := by
  simp only [State.votes]
  split <;> simp

/-- A round is voided exactly where a bit time has CBV dominant. -/
theorem voided_iff (cbv : List Bool) : voided cbv = true ↔ true ∈ cbv := by
  simp only [voided, List.any_eq_true, id_eq]
  exact ⟨fun ⟨_, h, e⟩ => e ▸ h, fun h => ⟨true, h, rfl⟩⟩

theorem carriedRound_voided {cbv : List Bool} (h : voided cbv = true) (t : Timing) : carriedRound cbv t = .roundVoided true none := by
  simp [carriedRound, h]

theorem carriedRound_taken {cbv : List Bool} (h : voided cbv = false) (t : Timing) : carriedRound cbv t = .roundTaken .own t := by
  simp [carriedRound, h]

theorem listenedRound_voided {cbv : List Bool} (h : voided cbv = true) (w : Byte) (cbd : List Bool) (t : Timing) :
    listenedRound w cbd cbv t = some (.roundVoided false ((faultFound w cbd).map Prod.snd)) := by simp [listenedRound, h]

end Machine

end Sys2Proof
end

