-- ==== Sys2Proof/Laws/State.lean ====
section
/-! SUPPORT. One lemma per field of State and per update of one block, and what writing a line or a slot does: no later proof
unfolds a record update. -/

namespace Sys2Proof.Machine

variable (s : State)

/-! ### setOutbox -/

@[simp] theorem State.setOutbox_resetHeld (x : Outbox) : (s.setOutbox x).resetHeld = s.resetHeld := rfl
@[simp] theorem State.setOutbox_straps (x : Outbox) : (s.setOutbox x).straps = s.straps := rfl
@[simp] theorem State.setOutbox_outbox (x : Outbox) : (s.setOutbox x).outbox = x := rfl
@[simp] theorem State.setOutbox_bus (x : Outbox) : (s.setOutbox x).bus = s.bus := rfl
@[simp] theorem State.setOutbox_session (x : Outbox) : (s.setOutbox x).session = s.session := rfl
@[simp] theorem State.setOutbox_timers (x : Outbox) : (s.setOutbox x).timers = s.timers := rfl
@[simp] theorem State.setOutbox_joiner (x : Outbox) : (s.setOutbox x).joiner = s.joiner := rfl
@[simp] theorem State.setOutbox_sponsor (x : Outbox) : (s.setOutbox x).sponsor = s.sponsor := rfl
@[simp] theorem State.setOutbox_pool (x : Outbox) : (s.setOutbox x).pool = s.pool := rfl
@[simp] theorem State.setOutbox_slots (x : Outbox) : (s.setOutbox x).slots = s.slots := rfl
@[simp] theorem State.setOutbox_lines (x : Outbox) : (s.setOutbox x).lines = s.lines := rfl
@[simp] theorem State.setOutbox_port (x : Outbox) : (s.setOutbox x).port = s.port := rfl
@[simp] theorem State.setOutbox_checker (x : Outbox) : (s.setOutbox x).checker = s.checker := rfl
@[simp] theorem State.setOutbox_pending (x : Outbox) : (s.setOutbox x).pending = s.pending := rfl
@[simp] theorem State.setOutbox_slot (x : Outbox) (c : Client) : (s.setOutbox x).slot c = s.slot c := rfl
@[simp] theorem State.setOutbox_line (x : Outbox) (n : LineNo) : (s.setOutbox x).line n = s.line n := rfl
@[simp] theorem State.setOutbox_own (x : Outbox) : (s.setOutbox x).own = s.own := rfl

/-! ### setBus -/

@[simp] theorem State.setBus_resetHeld (x : Bus) : (s.setBus x).resetHeld = s.resetHeld := rfl
@[simp] theorem State.setBus_straps (x : Bus) : (s.setBus x).straps = s.straps := rfl
@[simp] theorem State.setBus_outbox (x : Bus) : (s.setBus x).outbox = s.outbox := rfl
@[simp] theorem State.setBus_bus (x : Bus) : (s.setBus x).bus = x := rfl
@[simp] theorem State.setBus_session (x : Bus) : (s.setBus x).session = s.session := rfl
@[simp] theorem State.setBus_timers (x : Bus) : (s.setBus x).timers = s.timers := rfl
@[simp] theorem State.setBus_joiner (x : Bus) : (s.setBus x).joiner = s.joiner := rfl
@[simp] theorem State.setBus_sponsor (x : Bus) : (s.setBus x).sponsor = s.sponsor := rfl
@[simp] theorem State.setBus_pool (x : Bus) : (s.setBus x).pool = s.pool := rfl
@[simp] theorem State.setBus_slots (x : Bus) : (s.setBus x).slots = s.slots := rfl
@[simp] theorem State.setBus_lines (x : Bus) : (s.setBus x).lines = s.lines := rfl
@[simp] theorem State.setBus_port (x : Bus) : (s.setBus x).port = s.port := rfl
@[simp] theorem State.setBus_checker (x : Bus) : (s.setBus x).checker = s.checker := rfl
@[simp] theorem State.setBus_pending (x : Bus) : (s.setBus x).pending = s.pending := rfl
@[simp] theorem State.setBus_slot (x : Bus) (c : Client) : (s.setBus x).slot c = s.slot c := rfl
@[simp] theorem State.setBus_line (x : Bus) (n : LineNo) : (s.setBus x).line n = s.line n := rfl
@[simp] theorem State.setBus_own (x : Bus) : (s.setBus x).own = s.own := rfl

/-! ### setSession -/

@[simp] theorem State.setSession_resetHeld (x : Session) : (s.setSession x).resetHeld = s.resetHeld := rfl
@[simp] theorem State.setSession_straps (x : Session) : (s.setSession x).straps = s.straps := rfl
@[simp] theorem State.setSession_outbox (x : Session) : (s.setSession x).outbox = s.outbox := rfl
@[simp] theorem State.setSession_bus (x : Session) : (s.setSession x).bus = s.bus := rfl
@[simp] theorem State.setSession_session (x : Session) : (s.setSession x).session = x := rfl
@[simp] theorem State.setSession_timers (x : Session) : (s.setSession x).timers = s.timers := rfl
@[simp] theorem State.setSession_joiner (x : Session) : (s.setSession x).joiner = s.joiner := rfl
@[simp] theorem State.setSession_sponsor (x : Session) : (s.setSession x).sponsor = s.sponsor := rfl
@[simp] theorem State.setSession_pool (x : Session) : (s.setSession x).pool = s.pool := rfl
@[simp] theorem State.setSession_slots (x : Session) : (s.setSession x).slots = s.slots := rfl
@[simp] theorem State.setSession_lines (x : Session) : (s.setSession x).lines = s.lines := rfl
@[simp] theorem State.setSession_port (x : Session) : (s.setSession x).port = s.port := rfl
@[simp] theorem State.setSession_checker (x : Session) : (s.setSession x).checker = s.checker := rfl
@[simp] theorem State.setSession_pending (x : Session) : (s.setSession x).pending = s.pending := rfl
@[simp] theorem State.setSession_slot (x : Session) (c : Client) : (s.setSession x).slot c = s.slot c := rfl
@[simp] theorem State.setSession_line (x : Session) (n : LineNo) : (s.setSession x).line n = s.line n := rfl
@[simp] theorem State.setSession_own (x : Session) : (s.setSession x).own = s.own := rfl

/-! ### setTimers -/

@[simp] theorem State.setTimers_resetHeld (x : Timers) : (s.setTimers x).resetHeld = s.resetHeld := rfl
@[simp] theorem State.setTimers_straps (x : Timers) : (s.setTimers x).straps = s.straps := rfl
@[simp] theorem State.setTimers_outbox (x : Timers) : (s.setTimers x).outbox = s.outbox := rfl
@[simp] theorem State.setTimers_bus (x : Timers) : (s.setTimers x).bus = s.bus := rfl
@[simp] theorem State.setTimers_session (x : Timers) : (s.setTimers x).session = s.session := rfl
@[simp] theorem State.setTimers_timers (x : Timers) : (s.setTimers x).timers = x := rfl
@[simp] theorem State.setTimers_joiner (x : Timers) : (s.setTimers x).joiner = s.joiner := rfl
@[simp] theorem State.setTimers_sponsor (x : Timers) : (s.setTimers x).sponsor = s.sponsor := rfl
@[simp] theorem State.setTimers_pool (x : Timers) : (s.setTimers x).pool = s.pool := rfl
@[simp] theorem State.setTimers_slots (x : Timers) : (s.setTimers x).slots = s.slots := rfl
@[simp] theorem State.setTimers_lines (x : Timers) : (s.setTimers x).lines = s.lines := rfl
@[simp] theorem State.setTimers_port (x : Timers) : (s.setTimers x).port = s.port := rfl
@[simp] theorem State.setTimers_checker (x : Timers) : (s.setTimers x).checker = s.checker := rfl
@[simp] theorem State.setTimers_pending (x : Timers) : (s.setTimers x).pending = s.pending := rfl
@[simp] theorem State.setTimers_slot (x : Timers) (c : Client) : (s.setTimers x).slot c = s.slot c := rfl
@[simp] theorem State.setTimers_line (x : Timers) (n : LineNo) : (s.setTimers x).line n = s.line n := rfl
@[simp] theorem State.setTimers_own (x : Timers) : (s.setTimers x).own = s.own := rfl

/-! ### setJoiner -/

@[simp] theorem State.setJoiner_resetHeld (x : Joiner) : (s.setJoiner x).resetHeld = s.resetHeld := rfl
@[simp] theorem State.setJoiner_straps (x : Joiner) : (s.setJoiner x).straps = s.straps := rfl
@[simp] theorem State.setJoiner_outbox (x : Joiner) : (s.setJoiner x).outbox = s.outbox := rfl
@[simp] theorem State.setJoiner_bus (x : Joiner) : (s.setJoiner x).bus = s.bus := rfl
@[simp] theorem State.setJoiner_session (x : Joiner) : (s.setJoiner x).session = s.session := rfl
@[simp] theorem State.setJoiner_timers (x : Joiner) : (s.setJoiner x).timers = s.timers := rfl
@[simp] theorem State.setJoiner_joiner (x : Joiner) : (s.setJoiner x).joiner = x := rfl
@[simp] theorem State.setJoiner_sponsor (x : Joiner) : (s.setJoiner x).sponsor = s.sponsor := rfl
@[simp] theorem State.setJoiner_pool (x : Joiner) : (s.setJoiner x).pool = s.pool := rfl
@[simp] theorem State.setJoiner_slots (x : Joiner) : (s.setJoiner x).slots = s.slots := rfl
@[simp] theorem State.setJoiner_lines (x : Joiner) : (s.setJoiner x).lines = s.lines := rfl
@[simp] theorem State.setJoiner_port (x : Joiner) : (s.setJoiner x).port = s.port := rfl
@[simp] theorem State.setJoiner_checker (x : Joiner) : (s.setJoiner x).checker = s.checker := rfl
@[simp] theorem State.setJoiner_pending (x : Joiner) : (s.setJoiner x).pending = s.pending := rfl
@[simp] theorem State.setJoiner_slot (x : Joiner) (c : Client) : (s.setJoiner x).slot c = s.slot c := rfl
@[simp] theorem State.setJoiner_line (x : Joiner) (n : LineNo) : (s.setJoiner x).line n = s.line n := rfl
@[simp] theorem State.setJoiner_own (x : Joiner) : (s.setJoiner x).own = s.own := rfl

/-! ### setSponsor -/

@[simp] theorem State.setSponsor_resetHeld (x : Sponsor) : (s.setSponsor x).resetHeld = s.resetHeld := rfl
@[simp] theorem State.setSponsor_straps (x : Sponsor) : (s.setSponsor x).straps = s.straps := rfl
@[simp] theorem State.setSponsor_outbox (x : Sponsor) : (s.setSponsor x).outbox = s.outbox := rfl
@[simp] theorem State.setSponsor_bus (x : Sponsor) : (s.setSponsor x).bus = s.bus := rfl
@[simp] theorem State.setSponsor_session (x : Sponsor) : (s.setSponsor x).session = s.session := rfl
@[simp] theorem State.setSponsor_timers (x : Sponsor) : (s.setSponsor x).timers = s.timers := rfl
@[simp] theorem State.setSponsor_joiner (x : Sponsor) : (s.setSponsor x).joiner = s.joiner := rfl
@[simp] theorem State.setSponsor_sponsor (x : Sponsor) : (s.setSponsor x).sponsor = x := rfl
@[simp] theorem State.setSponsor_pool (x : Sponsor) : (s.setSponsor x).pool = s.pool := rfl
@[simp] theorem State.setSponsor_slots (x : Sponsor) : (s.setSponsor x).slots = s.slots := rfl
@[simp] theorem State.setSponsor_lines (x : Sponsor) : (s.setSponsor x).lines = s.lines := rfl
@[simp] theorem State.setSponsor_port (x : Sponsor) : (s.setSponsor x).port = s.port := rfl
@[simp] theorem State.setSponsor_checker (x : Sponsor) : (s.setSponsor x).checker = s.checker := rfl
@[simp] theorem State.setSponsor_pending (x : Sponsor) : (s.setSponsor x).pending = s.pending := rfl
@[simp] theorem State.setSponsor_slot (x : Sponsor) (c : Client) : (s.setSponsor x).slot c = s.slot c := rfl
@[simp] theorem State.setSponsor_line (x : Sponsor) (n : LineNo) : (s.setSponsor x).line n = s.line n := rfl
@[simp] theorem State.setSponsor_own (x : Sponsor) : (s.setSponsor x).own = s.own := rfl

/-! ### setPool -/

@[simp] theorem State.setPool_resetHeld (x : Pool) : (s.setPool x).resetHeld = s.resetHeld := rfl
@[simp] theorem State.setPool_straps (x : Pool) : (s.setPool x).straps = s.straps := rfl
@[simp] theorem State.setPool_outbox (x : Pool) : (s.setPool x).outbox = s.outbox := rfl
@[simp] theorem State.setPool_bus (x : Pool) : (s.setPool x).bus = s.bus := rfl
@[simp] theorem State.setPool_session (x : Pool) : (s.setPool x).session = s.session := rfl
@[simp] theorem State.setPool_timers (x : Pool) : (s.setPool x).timers = s.timers := rfl
@[simp] theorem State.setPool_joiner (x : Pool) : (s.setPool x).joiner = s.joiner := rfl
@[simp] theorem State.setPool_sponsor (x : Pool) : (s.setPool x).sponsor = s.sponsor := rfl
@[simp] theorem State.setPool_pool (x : Pool) : (s.setPool x).pool = x := rfl
@[simp] theorem State.setPool_slots (x : Pool) : (s.setPool x).slots = s.slots := rfl
@[simp] theorem State.setPool_lines (x : Pool) : (s.setPool x).lines = s.lines := rfl
@[simp] theorem State.setPool_port (x : Pool) : (s.setPool x).port = s.port := rfl
@[simp] theorem State.setPool_checker (x : Pool) : (s.setPool x).checker = s.checker := rfl
@[simp] theorem State.setPool_pending (x : Pool) : (s.setPool x).pending = s.pending := rfl
@[simp] theorem State.setPool_slot (x : Pool) (c : Client) : (s.setPool x).slot c = s.slot c := rfl
@[simp] theorem State.setPool_line (x : Pool) (n : LineNo) : (s.setPool x).line n = s.line n := rfl
@[simp] theorem State.setPool_own (x : Pool) : (s.setPool x).own = s.own := rfl

/-! ### setPort -/

@[simp] theorem State.setPort_resetHeld (x : Port) : (s.setPort x).resetHeld = s.resetHeld := rfl
@[simp] theorem State.setPort_straps (x : Port) : (s.setPort x).straps = s.straps := rfl
@[simp] theorem State.setPort_outbox (x : Port) : (s.setPort x).outbox = s.outbox := rfl
@[simp] theorem State.setPort_bus (x : Port) : (s.setPort x).bus = s.bus := rfl
@[simp] theorem State.setPort_session (x : Port) : (s.setPort x).session = s.session := rfl
@[simp] theorem State.setPort_timers (x : Port) : (s.setPort x).timers = s.timers := rfl
@[simp] theorem State.setPort_joiner (x : Port) : (s.setPort x).joiner = s.joiner := rfl
@[simp] theorem State.setPort_sponsor (x : Port) : (s.setPort x).sponsor = s.sponsor := rfl
@[simp] theorem State.setPort_pool (x : Port) : (s.setPort x).pool = s.pool := rfl
@[simp] theorem State.setPort_slots (x : Port) : (s.setPort x).slots = s.slots := rfl
@[simp] theorem State.setPort_lines (x : Port) : (s.setPort x).lines = s.lines := rfl
@[simp] theorem State.setPort_port (x : Port) : (s.setPort x).port = x := rfl
@[simp] theorem State.setPort_checker (x : Port) : (s.setPort x).checker = s.checker := rfl
@[simp] theorem State.setPort_pending (x : Port) : (s.setPort x).pending = s.pending := rfl
@[simp] theorem State.setPort_slot (x : Port) (c : Client) : (s.setPort x).slot c = s.slot c := rfl
@[simp] theorem State.setPort_line (x : Port) (n : LineNo) : (s.setPort x).line n = s.line n := rfl
@[simp] theorem State.setPort_own (x : Port) : (s.setPort x).own = s.own := rfl

/-! ### setChecker -/

@[simp] theorem State.setChecker_resetHeld (x : Checker) : (s.setChecker x).resetHeld = s.resetHeld := rfl
@[simp] theorem State.setChecker_straps (x : Checker) : (s.setChecker x).straps = s.straps := rfl
@[simp] theorem State.setChecker_outbox (x : Checker) : (s.setChecker x).outbox = s.outbox := rfl
@[simp] theorem State.setChecker_bus (x : Checker) : (s.setChecker x).bus = s.bus := rfl
@[simp] theorem State.setChecker_session (x : Checker) : (s.setChecker x).session = s.session := rfl
@[simp] theorem State.setChecker_timers (x : Checker) : (s.setChecker x).timers = s.timers := rfl
@[simp] theorem State.setChecker_joiner (x : Checker) : (s.setChecker x).joiner = s.joiner := rfl
@[simp] theorem State.setChecker_sponsor (x : Checker) : (s.setChecker x).sponsor = s.sponsor := rfl
@[simp] theorem State.setChecker_pool (x : Checker) : (s.setChecker x).pool = s.pool := rfl
@[simp] theorem State.setChecker_slots (x : Checker) : (s.setChecker x).slots = s.slots := rfl
@[simp] theorem State.setChecker_lines (x : Checker) : (s.setChecker x).lines = s.lines := rfl
@[simp] theorem State.setChecker_port (x : Checker) : (s.setChecker x).port = s.port := rfl
@[simp] theorem State.setChecker_checker (x : Checker) : (s.setChecker x).checker = x := rfl
@[simp] theorem State.setChecker_pending (x : Checker) : (s.setChecker x).pending = s.pending := rfl
@[simp] theorem State.setChecker_slot (x : Checker) (c : Client) : (s.setChecker x).slot c = s.slot c := rfl
@[simp] theorem State.setChecker_line (x : Checker) (n : LineNo) : (s.setChecker x).line n = s.line n := rfl
@[simp] theorem State.setChecker_own (x : Checker) : (s.setChecker x).own = s.own := rfl

/-! ### setLine -/

@[simp] theorem State.setLine_resetHeld (n : LineNo) (l : Line) : (s.setLine n l).resetHeld = s.resetHeld := rfl
@[simp] theorem State.setLine_straps (n : LineNo) (l : Line) : (s.setLine n l).straps = s.straps := rfl
@[simp] theorem State.setLine_outbox (n : LineNo) (l : Line) : (s.setLine n l).outbox = s.outbox := rfl
@[simp] theorem State.setLine_bus (n : LineNo) (l : Line) : (s.setLine n l).bus = s.bus := rfl
@[simp] theorem State.setLine_session (n : LineNo) (l : Line) : (s.setLine n l).session = s.session := rfl
@[simp] theorem State.setLine_timers (n : LineNo) (l : Line) : (s.setLine n l).timers = s.timers := rfl
@[simp] theorem State.setLine_joiner (n : LineNo) (l : Line) : (s.setLine n l).joiner = s.joiner := rfl
@[simp] theorem State.setLine_sponsor (n : LineNo) (l : Line) : (s.setLine n l).sponsor = s.sponsor := rfl
@[simp] theorem State.setLine_pool (n : LineNo) (l : Line) : (s.setLine n l).pool = s.pool := rfl
@[simp] theorem State.setLine_slots (n : LineNo) (l : Line) : (s.setLine n l).slots = s.slots := rfl
@[simp] theorem State.setLine_port (n : LineNo) (l : Line) : (s.setLine n l).port = s.port := rfl
@[simp] theorem State.setLine_checker (n : LineNo) (l : Line) : (s.setLine n l).checker = s.checker := rfl
@[simp] theorem State.setLine_pending (n : LineNo) (l : Line) : (s.setLine n l).pending = s.pending := rfl
@[simp] theorem State.setLine_slot (n : LineNo) (l : Line) (c : Client) : (s.setLine n l).slot c = s.slot c := rfl
@[simp] theorem State.setLine_own (n : LineNo) (l : Line) : (s.setLine n l).own = s.own := rfl

/-- Writing a line changes that line alone. -/
@[simp] theorem State.setLine_line (n m : LineNo) (l : Line) :
    (s.setLine n l).line m = if m = n then l else s.line m := by
  simp only [State.line, State.setLine, Vector.get_eq_getElem, Vector.getElem_set]
  by_cases h : m = n
  · simp [h]
  · have : n.val ≠ m.val := fun e => h (Fin.ext e.symm)
    simp [h, this]

/-! ### driveGnt and setSlot -/

@[simp] theorem State.driveGnt_resetHeld (c : Client) (b : Bool) : (s.driveGnt c b).resetHeld = s.resetHeld := by
  unfold State.driveGnt; split <;> rfl
@[simp] theorem State.driveGnt_straps (c : Client) (b : Bool) : (s.driveGnt c b).straps = s.straps := by
  unfold State.driveGnt; split <;> rfl
@[simp] theorem State.driveGnt_outbox (c : Client) (b : Bool) : (s.driveGnt c b).outbox = s.outbox := by
  unfold State.driveGnt; split <;> rfl
@[simp] theorem State.driveGnt_bus (c : Client) (b : Bool) : (s.driveGnt c b).bus = s.bus := by
  unfold State.driveGnt; split <;> rfl
@[simp] theorem State.driveGnt_session (c : Client) (b : Bool) : (s.driveGnt c b).session = s.session := by
  unfold State.driveGnt; split <;> rfl
@[simp] theorem State.driveGnt_timers (c : Client) (b : Bool) : (s.driveGnt c b).timers = s.timers := by
  unfold State.driveGnt; split <;> rfl
@[simp] theorem State.driveGnt_joiner (c : Client) (b : Bool) : (s.driveGnt c b).joiner = s.joiner := by
  unfold State.driveGnt; split <;> rfl
@[simp] theorem State.driveGnt_sponsor (c : Client) (b : Bool) : (s.driveGnt c b).sponsor = s.sponsor := by
  unfold State.driveGnt; split <;> rfl
@[simp] theorem State.driveGnt_pool (c : Client) (b : Bool) : (s.driveGnt c b).pool = s.pool := by
  unfold State.driveGnt; split <;> rfl
@[simp] theorem State.driveGnt_slots (c : Client) (b : Bool) : (s.driveGnt c b).slots = s.slots := by
  unfold State.driveGnt; split <;> rfl
@[simp] theorem State.driveGnt_port (c : Client) (b : Bool) : (s.driveGnt c b).port = s.port := by
  unfold State.driveGnt; split <;> rfl
@[simp] theorem State.driveGnt_checker (c : Client) (b : Bool) : (s.driveGnt c b).checker = s.checker := by
  unfold State.driveGnt; split <;> rfl
@[simp] theorem State.driveGnt_pending (c : Client) (b : Bool) : (s.driveGnt c b).pending = s.pending := by
  unfold State.driveGnt; split <;> rfl
@[simp] theorem State.setSlot_resetHeld (c : Client) (v : Slot) : (s.setSlot c v).resetHeld = s.resetHeld := by
  simp [State.setSlot]
@[simp] theorem State.setSlot_straps (c : Client) (v : Slot) : (s.setSlot c v).straps = s.straps := by
  simp [State.setSlot]
@[simp] theorem State.setSlot_outbox (c : Client) (v : Slot) : (s.setSlot c v).outbox = s.outbox := by
  simp [State.setSlot]
@[simp] theorem State.setSlot_bus (c : Client) (v : Slot) : (s.setSlot c v).bus = s.bus := by
  simp [State.setSlot]
@[simp] theorem State.setSlot_session (c : Client) (v : Slot) : (s.setSlot c v).session = s.session := by
  simp [State.setSlot]
@[simp] theorem State.setSlot_timers (c : Client) (v : Slot) : (s.setSlot c v).timers = s.timers := by
  simp [State.setSlot]
@[simp] theorem State.setSlot_joiner (c : Client) (v : Slot) : (s.setSlot c v).joiner = s.joiner := by
  simp [State.setSlot]
@[simp] theorem State.setSlot_sponsor (c : Client) (v : Slot) : (s.setSlot c v).sponsor = s.sponsor := by
  simp [State.setSlot]
@[simp] theorem State.setSlot_pool (c : Client) (v : Slot) : (s.setSlot c v).pool = s.pool := by
  simp [State.setSlot]
@[simp] theorem State.setSlot_port (c : Client) (v : Slot) : (s.setSlot c v).port = s.port := by
  simp [State.setSlot]
@[simp] theorem State.setSlot_checker (c : Client) (v : Slot) : (s.setSlot c v).checker = s.checker := by
  simp [State.setSlot]
@[simp] theorem State.setSlot_pending (c : Client) (v : Slot) : (s.setSlot c v).pending = s.pending := by
  simp [State.setSlot]
@[simp] theorem State.setSlot_own (c : Client) (v : Slot) : (s.setSlot c v).own = s.own := by simp [State.own]

/-- Writing a slot changes that slot alone. -/
@[simp] theorem State.setSlot_slot (c d : Client) (v : Slot) :
    (s.setSlot c v).slot d = if d = c then v else s.slot d := by
  simp only [State.slot, State.setSlot, State.driveGnt_slots, Vector.get_eq_getElem, Vector.getElem_set]
  by_cases h : d = c
  · simp [h]
  · have : c.val ≠ d.val := fun e => h (Fin.ext e.symm)
    simp [h, this]

/-- The line of a line client is that line. -/
@[simp] theorem lineOf_clientOf (n : LineNo) : lineOf (clientOf n) = some n := by
  simp [lineOf, clientOf, n.isLt]

/-- A client with a line is that line's client. -/
theorem clientOf_of_lineOf {c : Client} {n : LineNo} (h : lineOf c = some n) : clientOf n = c := by
  unfold lineOf at h
  split at h
  · cases h; rfl
  · cases h

/-- A line client's line determines the client. -/
@[simp] theorem clientOf_inj {n m : LineNo} : clientOf n = clientOf m ↔ n = m := by
  simp [clientOf, Fin.ext_iff]

/-- Writing a slot drives GNT of that slot's line to the level of R76, and changes nothing else of any line. -/
@[simp] theorem State.setSlot_line (c : Client) (v : Slot) (n : LineNo) :
    (s.setSlot c v).line n =
      if clientOf n = c then { s.line n with gnt := decide (v.state = SlotState.granted) } else s.line n := by
  unfold State.setSlot State.driveGnt
  split
  · rename_i m h
    have hc := clientOf_of_lineOf h
    subst hc
    rw [State.setLine_line]
    by_cases e : n = m
    · subst e; simp [State.line]
    · simp [e, State.line]
  · rename_i h
    have : clientOf n ≠ c := by rintro rfl; simp at h
    simp [this, State.line]

end Sys2Proof.Machine
end

