-- ==== Sys2Proof/Laws/Slots.lean ====
section
/-! SUPPORT. Said once: what the shared operations of the Local Claim Unit, of the Outbox and of the frame do, in the words of
Safety.lean. The statements are written in these words, so a proof about a command cites these lemmas in place of unfolding. -/

namespace Sys2Proof.Machine

variable (s : State)

/-! ### States, field by field -/

/-- Two states with the same fields are the same. -/
theorem State.same {s t : State} (h0 : s.resetHeld = t.resetHeld) (h1 : s.straps = t.straps) (h2 : s.outbox = t.outbox)
    (h3 : s.bus = t.bus) (h4 : s.session = t.session) (h5 : s.timers = t.timers) (h6 : s.joiner = t.joiner)
    (h7 : s.sponsor = t.sponsor) (h8 : s.pool = t.pool) (h9 : ∀ c, s.slot c = t.slot c) (h10 : ∀ n, s.line n = t.line n)
    (h11 : s.port = t.port) (h12 : s.checker = t.checker) (h13 : s.pending = t.pending) : s = t := by
  have hs : s.slots = t.slots := Vector.ext fun i hi => h9 ⟨i, hi⟩
  have hl : s.lines = t.lines := Vector.ext fun i hi => h10 ⟨i, hi⟩
  cases s; cases t
  simp_all

/-- A slot written twice holds the later value, and nothing else shows the first. -/
@[simp] theorem State.setSlot_setSlot (c : Client) (v w : Slot) : (s.setSlot c v).setSlot c w = s.setSlot c w := by
  refine State.same ?_ ?_ ?_ ?_ ?_ ?_ ?_ ?_ ?_ (fun d => ?_) (fun n => ?_) ?_ ?_ ?_ <;> simp
  · by_cases h : d = c <;> simp [h]
  · by_cases h : clientOf n = c <;> simp [h]

/-- A line written twice holds the later value. -/
@[simp] theorem State.setLine_setLine (n : LineNo) (l m : Line) : (s.setLine n l).setLine n m = s.setLine n m := by
  refine State.same ?_ ?_ ?_ ?_ ?_ ?_ ?_ ?_ ?_ (fun d => ?_) (fun k => ?_) ?_ ?_ ?_ <;> simp
  by_cases h : k = n <;> simp [h]

/-- A line written as it stands changes nothing. -/
@[simp] theorem State.setLine_self (n : LineNo) : s.setLine n (s.line n) = s := by
  refine State.same ?_ ?_ ?_ ?_ ?_ ?_ ?_ ?_ ?_ (fun d => ?_) (fun k => ?_) ?_ ?_ ?_ <;> simp
  intro h; rw [h]

/-- An Outbox written as it stands changes nothing. -/
@[simp] theorem State.setOutbox_self : s.setOutbox s.outbox = s := rfl

/-! ### Submissions (R49, R109, R110, R116) -/

/-- Where the Outbox tells no claim notice of a client, the limit of R110 does not forbid one. -/
theorem Outbox.limit_claim (o : Outbox) {b : Body} {c : Client} (h : claimClient b = some c) :
    o.limit b = if o.hasClaimNotice c then some .slotBusy else none := by
  cases b <;> simp [claimClient] at h <;> subst h <;> simp [Outbox.limit, Outbox.hasClaimNotice]

/-- The submission of a slot's notice that is not refused with leaving. -/
theorem Outbox.submit_claim (o : Outbox) {b : Body} {c : Client} (h : claimClient b = some c) (tag : Word) (w : Owner) :
    o.submit b tag w =
      if o.hasClaimNotice c then (o, .slotBusy)
      else if o.room b.tier then (o.place b tag w, .placed) else (o, .noRoom) := by
  unfold Outbox.submit
  rw [o.limit_claim h]
  by_cases h2 : o.hasClaimNotice c <;> simp [h2]

/-- A station refuses with leaving in LEAVING and while a LEAVE waits. -/
theorem State.refuses_iff : s.refuses = true ↔ s.session.station = .leaving ∨ s.outbox.hasLeave = true := by
  simp [State.refuses]

/-- The submission of a slot's notice. -/
theorem State.offer_claim {b : Body} {c : Client} (h : claimClient b = some c) (w : Owner) : s.offer b w =
    if s.session.station = .leaving ∨ s.outbox.hasLeave = true then (s.outbox, .leaving)
    else if s.outbox.hasClaimNotice c then (s.outbox, .slotBusy)
    else if s.outbox.room b.tier then (s.outbox.place b s.session.tag w, .placed) else (s.outbox, .noRoom) := by
  unfold State.offer
  rw [Outbox.submit_claim _ h]
  by_cases h1 : s.refuses = true
  · rw [if_pos h1, if_pos (s.refuses_iff.1 h1)]
  · rw [if_neg h1, if_neg (fun x => h1 (s.refuses_iff.2 x))]

/-- What becomes of a slot is told by what its submission answers. -/
theorem State.handedIn_eq (c : Client) {b : Body} (h : claimClient b = some c) (purged placed owed : Slot) :
    s.handedIn c b purged placed owed =
      match (s.offer b (.claimUnit c)).2 with
      | .placed => (s.setOutbox (s.offer b (.claimUnit c)).1).setSlot c placed
      | .noRoom => s.setSlot c owed
      | .leaving => s.setSlot c purged
      | .standing | .slotBusy => s.mismatch := by
  unfold State.handedIn
  rw [s.offer_claim h]
  by_cases h1 : s.session.station = .leaving ∨ s.outbox.hasLeave = true
  · simp only [h1, if_true]
  · by_cases h2 : s.outbox.hasClaimNotice c
    · simp only [h1, h2, if_true, if_false]
    · by_cases h3 : s.outbox.room b.tier <;> simp only [h1, h2, h3, if_true, if_false] <;> rfl

/-- The start of a claim is what R47 to R49 say. -/
theorem State.startClaim_eq (c : Client) (m : Mask) (k : Class) : s.startClaim c m k = s.claimed c m k :=
  (s.handedIn_eq c rfl _ _ _).symm

/-- A slot's RELEASE is what R59 and R60 say. -/
theorem State.submitRelease_eq (c : Client) (r : ReleaseReason) :
    s.submitRelease c r = s.released c r (if r = .forced then 1 else 0) :=
  (s.handedIn_eq c rfl _ _ _).symm

/-- A slot's WITHDRAW is what R50 says. -/
theorem State.submitWithdraw_eq (c : Client) : s.submitWithdraw c = s.withdrawn c := (s.handedIn_eq c rfl _ _ _).symm

/-- The test of a line is R72. -/
theorem State.testLine_eq (n : LineNo) : s.testLine n = s.risen n := by
  have h : s.lineReady n = true ↔ s.port.lineEnabled n = true ∧ (s.line n).req = true ∧ (s.line n).rearm = false ∧
      (s.slot (clientOf n)).state = .free ∧ s.session.station = .active := by
    simp [State.lineReady, and_assoc]
  unfold State.testLine State.risen State.lineClaim
  rw [s.startClaim_eq]
  by_cases e : s.lineReady n = true
  · rw [if_pos e, if_pos (h.1 e)]
  · rw [if_neg e, if_neg (fun x => e (h.2 x))]

theorem State.testClient_eq (c : Client) : s.testClient c = s.retested c := by
  unfold State.testClient State.retested
  split <;> simp [State.testLine_eq, *]

/-- A slot that ends is FREE with its reason, and CLAIM_ENDED is posted (R43). -/
theorem State.endSlot_eq (c : Client) (r : EndReason) : s.endSlot c r = s.ended c r := rfl

/-- A software client has no line to test. -/
theorem State.retested_software {c : Client} (h : 8 ≤ c.val) : s.retested c = s := by
  have : lineOf c = none := by simp [lineOf]; omega
  simp [State.retested, this]

theorem State.retested_line (n : LineNo) : s.retested (clientOf n) = s.risen n := by simp [State.retested]

/-- The Session Controller's JOIN and FOUND have no limit of R110; they are made outside LEAVING. -/
theorem State.offer_offeredTo {b : Body} (h : s.outbox.limit b = none) (hs : s.session.station ≠ .leaving) :
    (s.offer b .session).1 = s.outbox.offeredTo b s.session.tag := by
  unfold State.offer State.refuses Outbox.submit Outbox.offeredTo
  rw [h]
  by_cases h1 : s.outbox.hasLeave <;> by_cases h2 : s.outbox.room b.tier <;> simp [h1, h2, hs]

/-! ### Owed notices (R112) -/

/-- A fold of an operation that changes nothing changes nothing. -/
theorem foldl_same {α : Type} {f : State → α → State} {s : State} (h : ∀ a, f s a = s) (l : List α) : l.foldl f s = s := by
  induction l with
  | nil => rfl
  | cons a l ih => rw [List.foldl_cons, h, ih]

theorem State.serveSlot_none {c : Client} (b : Bool) (h : (s.slot c).owed = .none) : State.serveSlot b s c = s := by
  cases b <;> simp [State.serveSlot, h, slotBody]

/-- A station that owes nothing serves nothing. -/
theorem State.serveOwed_none {s : State} (h : NothingOwed s) : s.serveOwed = s := by
  obtain ⟨h1, h2, h3, h4⟩ := h
  have e1 : sixteen.foldl State.serveEvict s = s := foldl_same (fun a => by simp [State.serveEvict, h4]) _
  have e2 : ∀ b, sixteen.foldl (State.serveSlot b) s = s := fun b => foldl_same (fun c => s.serveSlot_none b (h1 c)) _
  simp [State.serveOwed, e1, e2, State.serveAnswer, h2, State.serveBeacon, h3]

/-- Room for a station that owes nothing is no event. -/
theorem State.roomEvent_none {s : State} (h : NothingOwed s) : s.roomEvent = s := by
  unfold State.roomEvent State.answersAfter
  rw [State.serveOwed_none h, h.2.1]
  simp

/-- What is owed does not depend on the Outbox. -/
theorem NothingOwed.setOutbox {s : State} (h : NothingOwed s) (o : Outbox) : NothingOwed (s.setOutbox o) := h

/-- A station that owes nothing asks unsent entries back. -/
theorem State.requestRemoval_none {s : State} (h : NothingOwed s) (test : Entry → Bool) :
    s.requestRemoval test = s.setOutbox (s.outbox.removeUnsent test) := by
  unfold State.requestRemoval
  simp only []
  split
  · exact State.roomEvent_none (h.setOutbox _)
  · rfl

/-- Entries leave at a removal exactly where one of those asked for is not offered. -/
theorem Outbox.removeUnsent_shorter (o : Outbox) (test : Entry → Bool) :
    (o.removeUnsent test).entries.length < o.entries.length ↔ (o.entries.any fun e => test e && !e.offered) = true := by
  simp only [Outbox.removeUnsent, Outbox.without, Outbox.map]
  have le : ∀ l : List Entry, ((l.map fun e => if test e && e.offered then { e with removal := true } else e).filter
      fun e => !(test e && !e.offered)).length ≤ l.length := fun l => by
    refine (List.length_filter_le _ _).trans ?_
    simp
  generalize o.entries = l
  induction l with
  | nil => simp
  | cons e l ih =>
    by_cases ht : test e = true <;> by_cases ho : e.offered = true
    · simpa [ht, ho] using ih
    · simp only [List.map_cons, ht, ho, List.any_cons]
      simpa [ht, ho] using Nat.lt_succ_of_le (le l)
    · simpa [ht, ho] using ih
    · simpa [ht, ho] using ih

/-- A withdrawal of a slot by its state (R50). -/
theorem State.withdrawSlot_eq (c : Client) : s.withdrawSlot c =
    match (s.slot c).state with
    | .pending => (s.ended c .withdrawn).retested c
    | .queued => s.askedBack c
    | .waiting => s.withdrawn c
    | .free | .granted | .yielding | .releasing | .withdrawing | .retry => s := by
  unfold State.withdrawSlot
  cases (s.slot c).state <;> simp only [s.submitWithdraw_eq, State.testClient_eq, State.endSlot_eq]
  unfold State.askedBack
  have key := s.outbox.removeUnsent_shorter fun e => decide (e.owner = .claimUnit c)
  by_cases h : (s.outbox.entries.any fun e => decide (e.owner = .claimUnit c) && !e.offered) = true
  · simp only [State.requestRemoval, h, key.2 h, if_true]
  · have := mt key.1 h
    simp only [State.requestRemoval, h, this, if_false]
    simp

/-- A fall of REQ acts on the slot by the table of R75. -/
theorem State.fallSlot_eq (n : LineNo) : s.fallSlot (clientOf n) = s.letGo n := by
  unfold State.fallSlot State.letGo
  cases h : (s.slot (clientOf n)).state <;>
    simp only [s.withdrawSlot_eq, h, s.submitRelease_eq, State.testClient_eq, State.retested_line, State.freeSlot] <;> simp

/-- Edges are handed on in their order (R71). -/
theorem State.handEdges_eq (n : LineNo) (es : List Edge) : s.handEdges n es = s.handedOn n es := by
  induction es generalizing s with
  | nil => rfl
  | cons e es ih =>
    show (s.handEdge n e).handEdges n es = _
    rw [ih]
    cases e <;> simp only [State.handEdge, State.testLine_eq, State.fallSlot_eq, State.handedOn, List.foldl_cons]

/-! ### A removed offer (R51, R63, R114) -/

/-- An offered entry whose removal was asked is settled: it leaves, and its owner is told. -/
theorem State.settle_removed {e : Entry} (h : s.outbox.offered = some e) (hr : e.removal = true) :
    s.settle false = ⟨s.offerTold e.owner, true, e.body.isSnap, s.endedBy e.owner⟩ := by
  simp only [State.settle, h, hr, if_true, Bool.false_eq_true, if_false]
  congr 1
  cases e.owner with
  | session => rfl
  | claimUnit c =>
    simp only [State.tellOwner, State.toldRemoved, State.offerTold, Slot.endsRemoved, State.endSlot_eq]
    have hs : (s.setOutbox (s.outbox.without Entry.offered)).slot c = s.slot c := rfl
    simp only [hs]
    by_cases hc : (s.slot c).closing = true
    · simp [hc]; rfl
    · simp [hc]; rfl

/-- R72 is tested for the line of the slot that the removal of its offered entry ended. -/
theorem State.testEnded_eq (t : State) (w : Owner) : t.testEnded (s.endedBy w) = s.offerTested w t := by
  cases w with
  | session => rfl
  | claimUnit c =>
    have hc : (s.slot c).endsRemoved = true ↔
        (s.slot c).closing = false ∧ (s.slot c).state = .withdrawing ∧ (s.slot c).removalPending = true := by
      simp [Slot.endsRemoved, and_assoc]
    by_cases h : (s.slot c).endsRemoved = true
    · simp only [State.endedBy, State.offerTested, if_pos h, if_pos (hc.1 h)]
      exact t.testClient_eq c
    · simp only [State.endedBy, State.offerTested, if_neg h, if_neg (mt hc.2 h)]
      rfl

/-! ### Frames (R174, R176) -/

/-- A frame that decides something is answered; the port is silent while RESETN is asserted. -/
theorem State.frame_eq (d : Decided) (h : s.resetHeld = false) : s.frame d = d.state.answered d.status d.data := by
  simp [State.frame, h, State.answered, State.setPort]

end Sys2Proof.Machine
end

