-- ==== Sys2Proof/Laws/Closing.lean ====
section
/-! SUPPORT. Said once: what the operations over all slots do (owed notices dropped, slots closed, teardown), the queuing of the
station's LEAVE and the entry to FAULTED, as whole states. -/

namespace Sys2Proof.Machine

/-- The sixteen clients are all of them, each once. -/
theorem mem_sixteen (c : Fin 16) : c ∈ sixteen := by revert c; decide

theorem nodup_sixteen : sixteen.Nodup := by decide

/-- The lines with GNT driven as the slots say (R76). -/
def driven (lines : Vector Line 8) (slots : Client → Slot) : Vector Line 8 :=
  Vector.ofFn fun n : LineNo => { lines.get n with gnt := decide ((slots (clientOf n)).state = .granted) }

/-- One write to each slot, each from the slot's own value and the Outbox, in the order of a list without repeats. -/
theorem eachSlot (g : Outbox → Client → Slot → Slot) (l : List Client) (hl : l.Nodup) (s : State) :
    (∀ c, (l.foldl (fun s c => s.setSlot c (g s.outbox c (s.slot c))) s).slot c =
        if c ∈ l then g s.outbox c (s.slot c) else s.slot c) ∧
      (∀ n, (l.foldl (fun s c => s.setSlot c (g s.outbox c (s.slot c))) s).line n =
        if clientOf n ∈ l then
          { s.line n with gnt := decide ((g s.outbox (clientOf n) (s.slot (clientOf n))).state = .granted) }
        else s.line n) ∧
      (let t := l.foldl (fun s c => s.setSlot c (g s.outbox c (s.slot c))) s
      t = { s with slots := t.slots, lines := t.lines }) := by
  induction l generalizing s with
  | nil => exact ⟨fun c => by simp, fun n => by simp, rfl⟩
  | cons a l ih =>
    obtain ⟨ha, hl⟩ := List.nodup_cons.1 hl
    obtain ⟨h1, h2, h3⟩ := ih hl (s.setSlot a (g s.outbox a (s.slot a)))
    simp only [List.foldl_cons]
    refine ⟨fun c => ?_, fun n => ?_, ?_⟩
    · rw [h1 c]
      by_cases e : c = a
      · subst e; simp [ha]
      · simp [e]
    · rw [h2 n]
      by_cases e : clientOf n = a
      · subst e; simp [ha]
      · simp [e]
    · dsimp only at h3 ⊢
      rw [h3]
      refine State.same ?_ ?_ ?_ ?_ ?_ ?_ ?_ ?_ ?_ (fun _ => rfl) (fun _ => rfl) ?_ ?_ ?_ <;> simp

/-- The same over all sixteen slots, as a whole state. -/
theorem eachSlot_all (g : Outbox → Client → Slot → Slot) (s : State) :
    sixteen.foldl (fun s c => s.setSlot c (g s.outbox c (s.slot c))) s =
      { s with
        slots := Vector.ofFn fun c => g s.outbox c (s.slot c)
        lines := driven s.lines fun c => g s.outbox c (s.slot c) } := by
  obtain ⟨h1, h2, h3⟩ := eachSlot g sixteen nodup_sixteen s
  dsimp only at h3
  generalize sixteen.foldl (fun s c => s.setSlot c (g s.outbox c (s.slot c))) s = t at h1 h2 h3 ⊢
  refine State.same ?_ ?_ ?_ ?_ ?_ ?_ ?_ ?_ ?_ (fun c => ?_) (fun n => ?_) ?_ ?_ ?_
  case refine_10 =>
    rw [h1 c, if_pos (mem_sixteen c)]
    simp [State.slot, Vector.get_eq_getElem]
  case refine_11 =>
    rw [h2 n, if_pos (mem_sixteen _)]
    simp [State.line, driven, Vector.get_eq_getElem]
  all_goals rw [h3]

variable (s : State)

/-- Every owed notice is dropped (R116, R117), and GNT stands as the slots say. -/
theorem State.dropOwed_eq : s.dropOwed =
    { s with
      sponsor := { s.sponsor with owedAnswer := none, owedBeacon := false, owedEvicts := Vector.replicate 16 false }
      slots := Vector.ofFn fun c => { s.slot c with owed := .none }
      lines := driven s.lines s.slot } := by
  unfold State.dropOwed
  exact eachSlot_all (fun _ _ v => { v with owed := .none }) _

/-- Every slot is closed by the table of R63. -/
theorem State.closeSlots_eq : s.closeSlots =
    { s with
      slots := Vector.ofFn fun c =>
        (s.slot c).closed (if s.outbox.holdsFor c then (s.slot c).outboxEntry else .none)
      lines := driven s.lines fun c =>
        (s.slot c).closed (if s.outbox.holdsFor c then (s.slot c).outboxEntry else .none) } := by
  unfold State.closeSlots
  exact eachSlot_all (fun o c v => v.closed (if o.holdsFor c then v.outboxEntry else .none)) s

/-- A closed slot is not GRANTED. -/
theorem Slot.closed_not_granted (v : Slot) (k : SlotNotice) : (v.closed k).state ≠ .granted := by
  unfold Slot.closed
  cases h : v.state <;> simp [h, Slot.freeWith]

/-! ### Teardown (R64 to R67) -/

/-- A slot after a teardown with a reason; a FREE slot is left. -/
def Slot.tornDown (v : Slot) (r : EndReason) : Slot :=
  match v.state with
  | .free => v
  | .retry => .freeWith v.lastEnd
  | .pending | .queued | .waiting | .granted | .yielding | .releasing | .withdrawing => .freeWith r

/-- The line of a slot after a teardown: a slot that is not FREE has its GNT lowered. -/
def Line.tornDown (l : Line) (v : Slot) : Line := if v.state = .free then l else { l with gnt := false }

/-- The events of a teardown over some slots. -/
def State.endings (s : State) (r : EndReason) (l : List Client) : List Event :=
  l.filterMap fun c =>
    if (s.slot c).state = .free ∨ (s.slot c).state = .retry then none else some ⟨.claimEnded r, c, s.postCount⟩

/-- One slot torn down. -/
theorem State.teardownSlot_eq (r : EndReason) (c : Client) : State.teardownSlot (some r) s c =
    { s with
      slots := (State.teardownSlot (some r) s c).slots
      lines := (State.teardownSlot (some r) s c).lines
      port := { s.port with
        events := (s.endings r [c]).foldl (enqueue s.own) s.port.events
        attn := s.port.attn || !(s.endings r [c]).isEmpty } } ∧
    (∀ d, (State.teardownSlot (some r) s c).slot d = if d = c then (s.slot c).tornDown r else s.slot d) ∧
    (∀ n, (State.teardownSlot (some r) s c).line n =
      if clientOf n = c then (s.line n).tornDown (s.slot c) else s.line n) := by
  unfold State.teardownSlot State.endings Slot.tornDown Line.tornDown
  cases h : (s.slot c).state
  case free =>
    simp only [List.filterMap_cons, h]
    refine ⟨?_, fun d => ?_, fun n => ?_⟩
    · simp
    · by_cases e : d = c <;> simp [e]
    · by_cases e : clientOf n = c <;> simp [e]
  case retry =>
    simp only [List.filterMap_cons, h, State.freeSlot]
    refine ⟨?_, fun d => ?_, fun n => ?_⟩
    · refine State.same ?_ ?_ ?_ ?_ ?_ ?_ ?_ ?_ ?_ (fun _ => rfl) (fun _ => rfl) ?_ ?_ ?_ <;> simp
    · by_cases e : d = c <;> simp [e]
    · by_cases e : clientOf n = c <;> simp [e, Slot.freeWith]
  all_goals
    simp only [List.filterMap_cons, h, State.endSlot, State.post]
    refine ⟨?_, fun d => ?_, fun n => ?_⟩
    · refine State.same ?_ ?_ ?_ ?_ ?_ ?_ ?_ ?_ ?_ (fun _ => rfl) (fun _ => rfl) ?_ ?_ ?_ <;> simp [State.postCount]
    · by_cases e : d = c <;> simp [e]
    · by_cases e : clientOf n = c <;> simp [e, Slot.freeWith]

/-- Several slots torn down, in the order of a list without repeats. -/
theorem State.teardown_some (r : EndReason) (l : List Client) (hl : l.Nodup) :
    (let t := l.foldl (State.teardownSlot (some r)) s
    t = { s with
      slots := t.slots
      lines := t.lines
      port := { s.port with
        events := (s.endings r l).foldl (enqueue s.own) s.port.events
        attn := s.port.attn || !(s.endings r l).isEmpty } }) ∧
    (∀ c, (l.foldl (State.teardownSlot (some r)) s).slot c = if c ∈ l then (s.slot c).tornDown r else s.slot c) ∧
    (∀ n, (l.foldl (State.teardownSlot (some r)) s).line n =
      if clientOf n ∈ l then (s.line n).tornDown (s.slot (clientOf n)) else s.line n) := by
  induction l generalizing s with
  | nil => simp [State.endings]
  | cons a l ih =>
    obtain ⟨ha, hl⟩ := List.nodup_cons.1 hl
    obtain ⟨k1, k2, k3⟩ := s.teardownSlot_eq r a
    obtain ⟨h1, h2, h3⟩ := ih (State.teardownSlot (some r) s a) hl
    simp only [List.foldl_cons]
    have he : (State.teardownSlot (some r) s a).endings r l = s.endings r l := by
      unfold State.endings
      refine List.filterMap_congr fun c hc => ?_
      have : c ≠ a := fun e => ha (e ▸ hc)
      have hp : (State.teardownSlot (some r) s a).postCount = s.postCount := by rw [k1]; rfl
      rw [k2 c, if_neg this, hp]
    have hsplit : s.endings r (a :: l) = s.endings r [a] ++ s.endings r l := by
      simp only [State.endings]
      rw [← List.filterMap_append]
      rfl
    refine ⟨?_, fun c => ?_, fun n => ?_⟩
    · dsimp only at h1 ⊢
      have own : (State.teardownSlot (some r) s a).own = s.own := by rw [k1]; rfl
      have port : (State.teardownSlot (some r) s a).port = { s.port with
          events := (s.endings r [a]).foldl (enqueue s.own) s.port.events
          attn := s.port.attn || !(s.endings r [a]).isEmpty } := by rw [k1]
      generalize l.foldl (State.teardownSlot (some r)) (State.teardownSlot (some r) s a) = t at h1
      generalize State.teardownSlot (some r) s a = u at *
      rw [he, own, port] at h1
      refine State.same ?_ ?_ ?_ ?_ ?_ ?_ ?_ ?_ ?_ (fun _ => rfl) (fun _ => rfl) ?_ ?_ ?_
      case refine_10 =>
        rw [h1, hsplit, List.foldl_append]
        cases s.port.attn <;> cases s.endings r [a] <;> cases s.endings r l <;> rfl
      all_goals (rw [h1]; dsimp only; rw [k1])
    · rw [h2 c]
      by_cases e : c = a
      · subst e; simp [ha, k2]
      · simp [e, k2]
    · rw [h3 n]
      by_cases e : clientOf n = a
      · subst e; simp [ha, k3]
      · simp [e, k2, k3]

/-- A teardown of all slots with a reason, as a whole state. -/
theorem State.teardown_eq (r : EndReason) : s.teardown (some r) =
    { s with
      slots := Vector.ofFn fun c => (s.slot c).tornDown r
      lines := Vector.ofFn fun n : LineNo => (s.line n).tornDown (s.slot (clientOf n))
      port := { s.port with
        events := (s.endings r sixteen).foldl (enqueue s.own) s.port.events
        attn := s.port.attn || !(s.endings r sixteen).isEmpty } } := by
  obtain ⟨h1, h2, h3⟩ := s.teardown_some r sixteen nodup_sixteen
  dsimp only at h1
  unfold State.teardown
  generalize sixteen.foldl (State.teardownSlot (some r)) s = t at h1 h2 h3 ⊢
  refine State.same ?_ ?_ ?_ ?_ ?_ ?_ ?_ ?_ ?_ (fun c => ?_) (fun n => ?_) ?_ ?_ ?_
  case refine_10 =>
    rw [h2 c, if_pos (mem_sixteen c)]
    simp [State.slot, Vector.get_eq_getElem]
  case refine_11 =>
    rw [h3 n, if_pos (mem_sixteen _)]
    simp [State.line, Vector.get_eq_getElem]
  all_goals rw [h1]

/-! ### FAULTED, the yield, the queuing of a LEAVE -/

/-- The endings are the events of a teardown with the count posted. -/
theorem State.endings_eq (r : EndReason) : s.endings r sixteen = s.teardownEvents r s.postCount := rfl

/-- The check of an empty replica is the one the reset values give (R162, R173). -/
theorem tableCheckOf_empty : tableCheckOf .empty [] = emptyCheck := by decide +kernel

/-- An `ofFn` of the entries is the vector. -/
theorem ofFn_get {α : Type} {k : Nat} (v : Vector α k) : (Vector.ofFn fun i => v.get i) = v := by
  ext i hi; simp [Vector.get_eq_getElem]

/-- A slot whose owed notice is dropped, then torn down. -/
theorem Slot.tornDown_dropped (v : Slot) (r : EndReason) : ({ v with owed := .none } : Slot).tornDown r = v.afterTeardown r := by
  unfold Slot.tornDown Slot.afterTeardown
  cases v.state <;> rfl

/-- A slot torn down, then with its owed notice dropped. -/
theorem Slot.dropped_tornDown (v : Slot) (r : EndReason) : ({ v.tornDown r with owed := .none } : Slot) = v.afterTeardown r := by
  rcases v with ⟨st⟩
  cases st <;> rfl

/-- A change of station state as a whole state (R120, R177). -/
theorem State.enter_eq (st : StationState) (cause : Cause) : s.enter st cause =
    { s with
      session := { s.session with station := st }
      sponsor := if st = .active then s.sponsor
        else { s.sponsor with answers := Vector.replicate 16 none, serving := none }
      checker := if st = .active then s.checker else { s.checker with suspect := none }
      port := { s.port with
        locked := st.locked
        events := enqueue s.own s.port.events ⟨.stationState st cause, s.own, s.postCount⟩
        attn := true } } := by
  cases st <;> rfl

/-- The discarding of the replica as a whole state (R7, R134, R173). -/
theorem State.discard_eq : s.discard =
    { s with
      session := { s.session with
        members := .empty, founded := false, count := 0#16, leaveDest := none, leftSynced := false, leaveReason := none }
      timers := { s.timers with beacon := none, snapshot := none, absence := Vector.replicate 16 none }
      joiner := .none
      sponsor := { s.sponsor with answers := Vector.replicate 16 none, serving := none }
      pool := ⟨[], false⟩
      checker := { s.checker with tableCheck := emptyCheck, suspect := none, resyncPending := false } } := rfl

/-- Entry to FAULTED as a whole state (R101). -/
theorem State.enterFaulted_eq (c : Cause) : s.enterFaulted c = s.fallen c := by
  unfold State.enterFaulted State.fallen
  simp only [State.dropOwed_eq, State.discard_eq, State.enter_eq, State.teardown_eq, State.setOutbox, State.setTag,
    State.setTimers, State.setBus, State.setSession, reduceCtorEq, if_false, State.postCount, Bool.false_eq_true]
  refine State.same rfl rfl rfl rfl rfl rfl rfl rfl rfl (fun d => ?_) (fun n => ?_) ?_ rfl rfl
  · simp only [State.slot, Vector.get_eq_getElem, Vector.getElem_ofFn]
    exact Slot.tornDown_dropped _ _
  · simp only [State.line, State.slot, driven, Vector.get_eq_getElem, Vector.getElem_ofFn, Line.tornDown]
    have low : ∀ st, st = SlotState.free → decide (st = SlotState.granted) = false := by rintro _ rfl; rfl
    split
    · rename_i h
      exact congrArg (fun b => ({ s.lines[n.val] with gnt := b } : Line)) (low _ h)
    · rfl
  · simp only [State.endings, State.teardownEvents, State.slot, Vector.get_eq_getElem, Vector.getElem_ofFn, Bool.true_or,
      List.foldl_cons]
    rfl

/-- The yield of the session as a whole state (R171). -/
theorem State.yieldTo_eq (tag : Word) : s.yieldTo tag =
    { s with
      outbox := (⟨s.outbox.waitsForRound, 1⟩ : Outbox).offeredTo (.join s.checker.profileCheck) tag
      session := ⟨.seeking, .empty, false, tag, 0#16, s.session.counter, none, false, none⟩
      timers := { s.timers with heard := false, snapshot := none, beacon := none, absence := Vector.replicate 16 none }
      joiner := .none
      sponsor := .none
      pool := ⟨[], false⟩
      slots := Vector.ofFn fun c : Client => (s.slot c).afterTeardown .sessionLost
      lines := Vector.ofFn fun n : LineNo => { s.line n with gnt := false }
      port := { s.port with
        locked := true, attn := true,
        events := enqueue s.own ((s.teardownEvents .sessionLost s.postCount).foldl (enqueue s.own) s.port.events)
          ⟨.stationState .seeking .sessionLost, s.own, 0#16⟩ }
      checker := ⟨emptyCheck, s.checker.profileCheck, none, false⟩ } := by
  have hk : s.outbox.cleared = ⟨s.outbox.waitsForRound, 1⟩ := by
    simp [Outbox.cleared, Outbox.keepOffered, Outbox.without, Outbox.map, Outbox.waitsForRound]
  unfold State.yieldTo State.clearOutbox State.seek State.placeJoin State.submit
  simp only [State.teardown_eq, State.discard_eq, State.dropOwed_eq, State.setOutbox, State.setTag, State.setTimers,
    State.setSession, State.enter_eq, reduceCtorEq, if_false, State.postCount, Bool.false_eq_true, hk]
  rw [State.offer_offeredTo]
  case h => rfl
  case hs => exact fun e => nomatch e
  refine State.same rfl rfl rfl rfl rfl rfl rfl rfl rfl (fun d => ?_) (fun n => ?_) ?_ rfl rfl
  · simp only [State.slot, Vector.get_eq_getElem, Vector.getElem_ofFn]
    exact Slot.dropped_tornDown _ _
  · simp only [State.line, State.slot, driven, Vector.get_eq_getElem, Vector.getElem_ofFn]
    unfold Line.tornDown Slot.tornDown
    cases h : (s.slots[(clientOf n).val]).state <;> simp [Slot.freeWith, h]
  · rfl

end Sys2Proof.Machine
end

