-- ==== Sys2Proof/Laws/Moves.lean ====
section
/-! SUPPORT. Said once: what an operation can do to State. `Quiet` lists the elementary updates that leave the replica (member
table, founded flag, session count, pool records) and the table check alone and keep the station inside or outside a session;
`Move` adds the others. Every operation of the Local Claim Unit, of the Outbox and of the Card Port is a chain of quiet updates,
and every command a chain of moves: an invariant that each elementary update keeps is kept by every command. -/

namespace Sys2Proof.Machine

/-- Outside ACTIVE the answers and the serving state only stay or are removed. -/
def SponsorKept (s : State) (x : Sponsor) : Prop :=
  s.session.station = .active ∨
    ((∀ a : Addr, x.answers.get a = s.sponsor.answers.get a ∨ x.answers.get a = none) ∧
      (x.serving = s.sponsor.serving ∨ x.serving = none))

/-- The emptied answer list. -/
theorem noAnswers (a : Addr) : Sponsor.none.answers.get a = none := by
  simp [Sponsor.none, Vector.get_eq_getElem]

/-- Outside ACTIVE the suspect only stays or is cleared. -/
def SuspectKept (s : State) (x : Checker) : Prop :=
  s.session.station = .active ∨ x.suspect = s.checker.suspect ∨ x.suspect = none

/-- Nothing that exists in ACTIVE only is left. -/
def OutOfActive (s : State) : Prop :=
  (∀ a : Addr, s.sponsor.answers.get a = none) ∧ s.sponsor.serving = none ∧ s.checker.suspect = none

/-- One elementary update that leaves the replica alone. -/
inductive Quiet (s : State) : State → Prop
  /-- A notice is submitted to the Outbox. -/
  | submit (b : Body) (tag : Word) (o : Owner) : Quiet s (s.setOutbox (s.outbox.submit b tag o).1)
  /-- Entries leave the Outbox. -/
  | drop (test : Entry → Bool) : Quiet s (s.setOutbox (s.outbox.without test))
  /-- Marks and void counts of entries change. -/
  | mark (f : Entry → Entry)
      (h : ∀ e, (f e).body = e.body ∧ (f e).number = e.number ∧ ((f e).offered = true → e.offered = true)) :
      Quiet s (s.setOutbox (s.outbox.map f))
  /-- Placement numbers start again. -/
  | restart : Quiet s (s.setOutbox { s.outbox with nextNumber := 1 })
  | timers (x : Timers) : Quiet s (s.setTimers x)
  | sponsor (x : Sponsor) (h : SponsorKept s x) : Quiet s (s.setSponsor x)
  /-- Tag or leave destination change. -/
  | session (x : Session)
      (h : x.station = s.session.station ∧ x.members = s.session.members ∧ x.founded = s.session.founded ∧
        x.count = s.session.count ∧ x.counter = s.session.counter) : Quiet s (s.setSession x)
  | joiner (x : Joiner)
      (h : x.catchUp.length ≤ s.joiner.catchUp.length ∨ x.catchUp.length ≤ Config.catchUpCapacity) : Quiet s (s.setJoiner x)
  /-- A pool with a failing record is frozen. -/
  | frozen (h : s.poolFails = true) : Quiet s (s.setPool { s.pool with frozen := true })
  | checker (x : Checker) (h : x.tableCheck = s.checker.tableCheck) (hs : SuspectKept s x) : Quiet s (s.setChecker x)
  | slot (c : Client) (v : Slot) : Quiet s (s.setSlot c v)
  | line (n : LineNo) (l : Line) (h : l.gnt = (s.line n).gnt) : Quiet s (s.setLine n l)
  | post (k : EventKind) (who : Fin 16) : Quiet s (s.post k who)
  /-- The station state changes, in or out of a session as before. -/
  | station (st : StationState) (h : st.inSession = s.session.station.inSession) (ha : st = .active ∨ OutOfActive s) :
      Quiet s (s.atStation st)
  /-- A frame is answered. -/
  | answer (r : Option Response) (b : Bool) : Quiet s (s.setPort { s.port with response := r, reading := b })
  /-- The configuration image is written. -/
  | image (sys : Vector Byte 53) (loc : Vector Byte 25) : Quiet s (s.setPort { s.port with system := sys, loc := loc })
  /-- The head of the Event Queue is removed. -/
  | removal (e : Event) (es : List Event) (h : s.port.events = e :: es) :
      Quiet s (s.setPort { s.port with events := es, attn := !es.isEmpty, reading := false })

/-- A chain of quiet updates. -/
abbrev Quiets : State → State → Prop := Relation.ReflTransGen Quiet

/-- One elementary update. -/
inductive Move (s : State) : State → Prop
  | quiet {t : State} (h : Quiet s t) : Move s t
  /-- The first entry is offered, and a round begins. -/
  | offer (x : Round) (h : s.bus.round = none) :
      Move s ((s.setOutbox s.outbox.offerFirst).setBus { s.bus with round := some x })
  /-- The bus changes, the rotation pointer apart; the round in progress ends only with no entry offered. -/
  | bus (x : Bus) (h : x.round = none → s.bus.round = none ∨ s.outbox.offered = none) (hp : x.pointer = s.bus.pointer) :
      Move s (s.setBus x)
  /-- Any session scalar or the member table changes, the station state and the founding counter apart. -/
  | session (x : Session) (h : x.station = s.session.station ∧ x.counter = s.session.counter) : Move s (s.setSession x)
  | pool (x : Pool)
      (h : x.records.length ≤ s.pool.records.length ∨ x.records.length ≤ Config.poolCapacity) : Move s (s.setPool x)
  | checker (x : Checker) (h : SuspectKept s x) : Move s (s.setChecker x)
  | station (st : StationState) (h : st = .active ∨ OutOfActive s) : Move s (s.atStation st)

/-- A chain of updates. -/
abbrev Moves : State → State → Prop := Relation.ReflTransGen Move

/-- A chain of updates that may also move the rotation pointer (the end of a taken round, the entry to FOUNDING) and form a tag from
the founding counter. -/
inductive Turn (s : State) : State → Prop
  | moves {t : State} (h : Moves s t) : Turn s t
  | round (x : Bus) (h : s.outbox.offered = none) : Turn s (s.setBus x)
  | pointer (a : Addr) : Turn s (s.setBus { s.bus with pointer := a })
  | newTag : Turn s s.nextTag

/-- A chain of such updates. -/
abbrev Turns : State → State → Prop := Relation.ReflTransGen Turn

theorem Moves.turns {s t : State} (h : Moves s t) : Turns s t := .single (.moves h)

theorem Turns.comp {s t u : State} (h : Turns s t) (k : Turns t u) : Turns s u := Relation.ReflTransGen.trans h k

theorem Quiet.moves {s t : State} (h : Quiet s t) : Moves s t := .single (.quiet h)

/-- Quiet chains are chains. -/
theorem Quiets.moves {s t : State} (h : Quiets s t) : Moves s t := by
  induction h with
  | refl => exact .refl
  | tail _ h ih => exact ih.tail (.quiet h)

theorem Quiet.all {s t : State} (h : Quiet s t) : Quiets s t := .single h

theorem Move.all {s t : State} (h : Move s t) : Moves s t := .single h

/-- Two chains one after the other. -/
theorem Quiets.comp {s t u : State} (h : Quiets s t) (k : Quiets t u) : Quiets s u := Relation.ReflTransGen.trans h k

theorem Moves.comp {s t u : State} (h : Moves s t) (k : Moves t u) : Moves s u := Relation.ReflTransGen.trans h k

/-- A chain and one update more. -/
theorem Quiets.step {s t u : State} (h : Quiets s t) (k : Quiet t u) : Quiets s u := Relation.ReflTransGen.tail h k

theorem Moves.step {s t u : State} (h : Moves s t) (k : Move t u) : Moves s u := Relation.ReflTransGen.tail h k

/-- A fold of quiet operations is quiet. -/
theorem Quiets.foldl {α : Type} {f : State → α → State} (h : ∀ s a, Quiets s (f s a)) (l : List α) (s : State) :
    Quiets s (l.foldl f s) := by
  induction l generalizing s with
  | nil => exact .refl
  | cons a l ih => exact (h s a).trans (ih _)

/-- A fold of operations that are chains of moves is one. -/
theorem Moves.foldl {α : Type} {f : State → α → State} (h : ∀ s a, Moves s (f s a)) (l : List α) (s : State) :
    Moves s (l.foldl f s) := by
  induction l generalizing s with
  | nil => exact .refl
  | cons a l ih => exact (h s a).trans (ih _)

/-! ### What quiet chains keep -/

/-- A quiet update keeps the station in or out of a session. -/
theorem Quiet.inSession {s t : State} (h : Quiet s t) : t.session.station.inSession = s.session.station.inSession := by
  cases h with
  | session x h => simp [h.1]
  | station st h => simpa [State.atStation] using h
  | post => rfl
  | _ => simp

theorem Quiets.inSession {s t : State} (h : Quiets s t) :
    t.session.station.inSession = s.session.station.inSession := by
  induction h with
  | refl => rfl
  | tail _ h ih => rw [h.inSession, ih]

/-- A quiet update leaves the replica and the table check alone. -/
theorem Quiet.replica {s t : State} (h : Quiet s t) :
    t.session.members = s.session.members ∧ t.session.founded = s.session.founded ∧ t.session.count = s.session.count ∧
      t.pool.records = s.pool.records ∧ t.checker.tableCheck = s.checker.tableCheck := by
  cases h with
  | session x h => simp [h.2.1, h.2.2.1, h.2.2.2]
  | checker x h => simp [h]
  | station => simp [State.atStation]
  | post => exact ⟨rfl, rfl, rfl, rfl, rfl⟩
  | _ => simp

theorem Quiets.replica {s t : State} (h : Quiets s t) :
    t.session.members = s.session.members ∧ t.session.founded = s.session.founded ∧ t.session.count = s.session.count ∧
      t.pool.records = s.pool.records ∧ t.checker.tableCheck = s.checker.tableCheck := by
  induction h with
  | refl => exact ⟨rfl, rfl, rfl, rfl, rfl⟩
  | tail _ h ih =>
    have := h.replica
    exact ⟨this.1.trans ih.1, this.2.1.trans ih.2.1, this.2.2.1.trans ih.2.2.1, this.2.2.2.1.trans ih.2.2.2.1,
      this.2.2.2.2.trans ih.2.2.2.2⟩

/-- A quiet update leaves the bus alone. -/
theorem Quiet.bus {s t : State} (h : Quiet s t) : t.bus = s.bus := by
  cases h with
  | slot => simp
  | _ => rfl

theorem Quiets.bus {s t : State} (h : Quiets s t) : t.bus = s.bus := by
  induction h with
  | refl => rfl
  | tail _ h ih => rw [h.bus, ih]

/-- A submission offers nothing. -/
theorem Outbox.offered_submit {o : Outbox} (h : o.offered = none) (b : Body) (tag : Word) (w : Owner) :
    (o.submit b tag w).1.offered = none := by
  have ins : ∀ (e : Entry) (es : List Entry), e.offered = false → es.find? Entry.offered = none →
      (insertEntry e es).find? Entry.offered = none := by
    intro e es he
    induction es with
    | nil => intro _; simp [insertEntry, he]
    | cons x xs ih =>
      intro hx
      rw [List.find?_eq_none] at hx
      unfold insertEntry
      split
      · rw [List.find?_eq_none]
        intro y hy
        rcases List.mem_cons.1 hy with rfl | hy
        · simp [he]
        · exact hx y hy
      · have hxx : x.offered = false := by simpa using hx x (by simp)
        rw [List.find?_cons, hxx]
        exact ih (by rw [List.find?_eq_none]; intro y hy; exact hx y (List.mem_cons_of_mem _ hy))
  unfold Outbox.submit
  split
  · exact h
  · split
    · exact ins _ _ rfl h
    · exact h

/-- A quiet update offers nothing. -/
theorem Quiet.offered {s t : State} (h : Quiet s t) (ho : s.outbox.offered = none) : t.outbox.offered = none := by
  cases h with
  | submit b tag o => exact Outbox.offered_submit ho b tag o
  | drop test =>
    simp only [State.setOutbox_outbox, Outbox.offered, Outbox.without, List.find?_eq_none, List.mem_filter] at ho ⊢
    exact fun e he => ho e he.1
  | mark f h =>
    simp only [State.setOutbox_outbox, Outbox.offered, Outbox.map, List.find?_eq_none, List.mem_map] at ho ⊢
    rintro _ ⟨e, he, rfl⟩ hf
    exact ho e he ((h e).2.2 hf)
  | restart => exact ho
  | slot => simpa using ho
  | post => exact ho
  | station => exact ho
  | _ => exact ho

theorem Quiets.offered {s t : State} (h : Quiets s t) (ho : s.outbox.offered = none) : t.outbox.offered = none := by
  induction h with
  | refl => exact ho
  | tail _ h ih => exact h.offered ih

/-! ### What moves keep -/

/-- An update leaves the queue of waiting commands, RESETN, the straps, the rotation pointer and the founding counter alone. -/
theorem Move.kept {s t : State} (h : Move s t) :
    t.pending = s.pending ∧ t.resetHeld = s.resetHeld ∧ t.straps = s.straps ∧ t.bus.pointer = s.bus.pointer ∧
      t.session.counter = s.session.counter := by
  cases h with
  | quiet h =>
    cases h with
    | slot => simp
    | session x h => exact ⟨rfl, rfl, rfl, rfl, h.2.2.2.2⟩
    | _ => exact ⟨rfl, rfl, rfl, rfl, rfl⟩
  | bus x h hp => exact ⟨rfl, rfl, rfl, hp, rfl⟩
  | session x h => exact ⟨rfl, rfl, rfl, rfl, h.2⟩
  | _ => exact ⟨rfl, rfl, rfl, rfl, rfl⟩

theorem Moves.kept {s t : State} (h : Moves s t) :
    t.pending = s.pending ∧ t.resetHeld = s.resetHeld ∧ t.straps = s.straps ∧ t.bus.pointer = s.bus.pointer ∧
      t.session.counter = s.session.counter := by
  induction h with
  | refl => exact ⟨rfl, rfl, rfl, rfl, rfl⟩
  | tail _ h ih =>
    have k := h.kept
    exact ⟨k.1.trans ih.1, k.2.1.trans ih.2.1, k.2.2.1.trans ih.2.2.1, k.2.2.2.1.trans ih.2.2.2.1,
      k.2.2.2.2.trans ih.2.2.2.2⟩

/-- A longer chain leaves the queue of waiting commands, RESETN and the straps alone. -/
theorem Turns.kept {s t : State} (h : Turns s t) :
    t.pending = s.pending ∧ t.resetHeld = s.resetHeld ∧ t.straps = s.straps := by
  induction h with
  | refl => exact ⟨rfl, rfl, rfl⟩
  | tail _ h ih =>
    cases h with
    | moves h => exact ⟨h.kept.1.trans ih.1, h.kept.2.1.trans ih.2.1, h.kept.2.2.1.trans ih.2.2⟩
    | _ => exact ih

end Sys2Proof.Machine
end

