-- ==== Sys2Proof/Laws/Ops.lean ====
section
/-! SUPPORT. One lemma for each shared operation of Machine/Ops.lean and Machine/Claims.lean: it is a chain of quiet updates, so it
leaves the replica alone. -/

namespace Sys2Proof.Machine

variable (s : State)

/-! ### Small updates -/

theorem State.sponsor_quiet (x : Sponsor)
    (h : SponsorKept s x := by
      first
      | exact .inr ⟨fun _ => .inl rfl, .inl rfl⟩
      | exact .inr ⟨fun a => .inr (noAnswers a), .inr rfl⟩
      | exact .inr ⟨fun _ => .inl rfl, .inr rfl⟩) :
    Quiets s (s.setSponsor x) := (Quiet.sponsor x h).all
theorem State.slot_quiet (c : Client) (v : Slot) : Quiets s (s.setSlot c v) := (Quiet.slot c v).all
theorem State.post_quiet (k : EventKind) (w : Fin 16) : Quiets s (s.post k w) := (Quiet.post k w).all
theorem State.timers_quiet (x : Timers) : Quiets s (s.setTimers x) := (Quiet.timers x).all
/-- A block's submission, refused or not. -/
theorem State.offer_quiet (b : Body) (o : Owner) : Quiets s (s.setOutbox (s.offer b o).1) := by
  unfold State.offer
  split
  · exact .refl
  · exact (Quiet.submit b _ o).all

/-- A submission of the Session Controller. -/
theorem State.submit_quiet (b : Body) : Quiets s (s.submit b).1 := s.offer_quiet b .session

/-- The purge keeps at most the offered entry. -/
theorem State.keepOffered_quiet : Quiets s (s.setOutbox s.outbox.keepOffered) :=
  (Quiet.drop (s := s) fun e => !e.offered).all.tail (.mark _ fun _ => ⟨rfl, rfl, id⟩)

theorem State.cleared_quiet : Quiets s (s.setOutbox s.outbox.cleared) := s.keepOffered_quiet.tail .restart

theorem State.empty_quiet : Quiets s (s.setOutbox .empty) := by
  have h := (Quiet.drop (s := s) fun _ => true).all.tail .restart
  have e : ({ (s.outbox.without fun _ => true) with nextNumber := 1 } : Outbox) = .empty := by
    simp [Outbox.without, Outbox.empty]
  exact e ▸ h

/-! ### Station state, Outbox, owed notices -/

/-- A change of station state that keeps the station in or out of a session. -/
theorem State.enter_quiet {st : StationState} (h : st.inSession = s.session.station.inSession) (cause : Cause) :
    Quiets s (s.enter st cause) := by
  unfold State.enter State.change
  refine .tail (b := _) ?_ (.post _ _)
  dsimp only
  split
  · exact (Quiet.station st h (.inl ‹_›)).all
  · refine .tail (b := _) ?_ (.station st h (.inr ⟨noAnswers, rfl, rfl⟩))
    refine .tail (b := _) ?_ (.checker _ rfl (.inr (.inr rfl)))
    exact s.sponsor_quiet _

theorem State.dropOwed_quiet : Quiets s s.dropOwed :=
  (s.sponsor_quiet _).trans (Quiets.foldl (fun s _ => s.slot_quiet _ _) _ _)

theorem State.clearOutbox_quiet : Quiets s s.clearOutbox := s.cleared_quiet.trans (State.dropOwed_quiet _)

theorem State.purge_quiet : Quiets s s.purge := s.keepOffered_quiet.trans (State.dropOwed_quiet _)

theorem State.closeSlots_quiet : Quiets s s.closeSlots := Quiets.foldl (fun s c => s.slot_quiet c _) _ _

theorem State.placeLeave_quiet (r : LeaveReason) : Quiets s (s.placeLeave r) := (Quiet.submit _ _ .session).all

theorem State.stopLoading_quiet : Quiets s s.stopLoading :=
  (Quiet.joiner (s := s) Joiner.none (.inr (by simp [Joiner.none, Config.catchUpCapacity]))).all.tail (.timers _)

theorem State.recordLeave_quiet (r : LeaveReason) : Quiets s (s.recordLeave r) :=
  (Quiet.session (s := s) { s.session with leaveDest := some r.dest, leftSynced := s.syncFlag, leaveReason := some r } ⟨rfl, rfl, rfl, rfl, rfl⟩).all

/-- The queuing of a LEAVE by a station in a session. -/
theorem State.queueLeave_quiet (h : s.session.station.inSession = true) (r : LeaveReason) : Quiets s (s.queueLeave r) := by
  have h1 := (((s.purge_quiet.trans (State.closeSlots_quiet _)).trans (State.placeLeave_quiet _ r)).trans
    (State.stopLoading_quiet _)).trans (State.recordLeave_quiet _ r)
  exact h1.trans (State.enter_quiet _ (by rw [Quiets.inSession h1, h]; rfl) _)

theorem State.markUpset_quiet : Quiets s s.markUpset :=
  (Quiet.checker (s := s) { s.checker with resyncPending := true } rfl (.inr (.inl rfl))).all.tail (.post _ _)

theorem State.upset_quiet : Quiets s s.upset := by
  have h1 := s.markUpset_quiet
  unfold State.upset
  split
  · exact .refl
  · split
    case h_4 => exact h1
    case h_1 h => exact h1.trans (State.queueLeave_quiet _ (by rw [Quiets.inSession h1, h]; rfl) _)
    case h_2 h => exact h1.trans (State.queueLeave_quiet _ (by rw [Quiets.inSession h1, h]; rfl) _)
    case h_3 h => exact h1.trans (State.queueLeave_quiet _ (by rw [Quiets.inSession h1, h]; rfl) _)
    all_goals exact .refl

theorem State.freeze_quiet (h : s.poolFails = true) : Quiets s s.freeze := (Quiet.frozen h).all.trans (State.upset_quiet _)

theorem State.readMembers_quiet (as : List Addr) : Quiets s (s.readMembers as) := by
  unfold State.readMembers; split
  · exact s.upset_quiet
  · exact .refl

theorem State.mismatch_quiet : Quiets s s.mismatch := by
  unfold State.mismatch
  split <;> first | exact s.upset_quiet | exact .refl

theorem State.waiterQuery_quiet (m : Mask) : Quiets s (s.waiterQuery m).1 := by
  unfold State.waiterQuery
  split
  · exact .refl
  · split
    · exact s.freeze_quiet ‹_›
    · exact .refl

theorem State.placeJoin_quiet : Quiets s s.placeJoin := s.submit_quiet _

theorem State.submitBeacon_quiet : Quiets s s.submitBeacon := by
  unfold State.submitBeacon
  split
  · exact .refl
  · dsimp only
    split
    · exact (s.submit_quiet _).trans (State.sponsor_quiet _ _)
    all_goals exact s.submit_quiet _

theorem State.submitEvict_quiet (m : Addr) : Quiets s (s.submitEvict m) := by
  unfold State.submitEvict
  split
  · exact .refl
  · dsimp only
    split
    · exact (s.submit_quiet _).trans (State.sponsor_quiet _ _)
    all_goals exact s.submit_quiet _

theorem State.submitAnswer_quiet (b : Body) : Quiets s (s.submitAnswer b) := by
  unfold State.submitAnswer
  dsimp only
  split
  · exact (s.submit_quiet _).trans (State.sponsor_quiet _ _)
  all_goals exact s.submit_quiet _

theorem State.mayAnswer_active {s : State} (h : s.mayAnswer = true) : s.session.station = .active := by
  unfold State.mayAnswer at h; simp at h; exact h.1

theorem State.makeSnap_quiet : Quiets s s.makeSnap := by
  unfold State.makeSnap
  split
  · exact .refl
  · split
    · rename_i h
      simp only [Bool.and_eq_true] at h
      split
      · exact .refl
      · exact (s.sponsor_quiet _ (.inl (State.mayAnswer_active h.1))).trans (State.submitAnswer_quiet _ _)
    · exact .refl

theorem State.makeAnswer_quiet (a : Addr) : Quiets s (s.makeAnswer a) := by
  unfold State.makeAnswer
  split
  · split
    · exact .refl
    · dsimp only
      split
      · exact ((s.readMembers_quiet _).trans (State.sponsor_quiet _ _ (.inl (State.mayAnswer_active ‹_›)))).trans
          (State.submitAnswer_quiet _ _)
      · exact s.readMembers_quiet _
  · exact .refl

theorem State.makeAnswers_quiet : Quiets s s.makeAnswers :=
  (s.makeSnap_quiet.trans (State.makeSnap_quiet _)).trans (Quiets.foldl (fun s a => s.makeAnswer_quiet a) _ _)

theorem State.serveEvict_quiet (t : Addr) : Quiets s (s.serveEvict t) := by
  unfold State.serveEvict
  split
  · dsimp only
    split
    · exact (s.submit_quiet _).trans (State.sponsor_quiet _ _)
    · exact (s.submit_quiet _).trans (State.sponsor_quiet _ _)
    all_goals exact .refl
  · exact .refl

theorem State.serveSlot_quiet (claims : Bool) (c : Client) : Quiets s (State.serveSlot claims s c) := by
  unfold State.serveSlot
  dsimp only
  split
  · split
    · exact .refl
    · split
      · exact (s.offer_quiet _ _).trans (State.slot_quiet _ _ _)
      · exact s.mismatch_quiet
      all_goals exact .refl
  · exact .refl

theorem State.serveAnswer_quiet : Quiets s s.serveAnswer := by
  unfold State.serveAnswer
  split
  · exact .refl
  · dsimp only
    split
    · exact (s.submit_quiet _).trans (State.sponsor_quiet _ _)
    all_goals exact .refl

theorem State.serveBeacon_quiet : Quiets s s.serveBeacon := by
  unfold State.serveBeacon
  split
  · dsimp only
    split
    · exact (s.submit_quiet _).trans (State.sponsor_quiet _ _)
    · exact (s.submit_quiet _).trans (State.sponsor_quiet _ _)
    all_goals exact .refl
  · exact .refl

theorem State.serveOwed_quiet : Quiets s s.serveOwed :=
  ((((Quiets.foldl (fun s t => s.serveEvict_quiet t) sixteen s).trans
    (Quiets.foldl (fun s c => s.serveSlot_quiet false c) sixteen _)).trans (State.serveAnswer_quiet _)).trans
      (State.serveBeacon_quiet _)).trans (Quiets.foldl (fun s c => s.serveSlot_quiet true c) sixteen _)

/-- The answers after an event. -/
theorem State.answersAfter_quiet (before : State) (b : Bool) : Quiets s (State.answersAfter before s b) := by
  unfold State.answersAfter
  split
  · exact s.makeAnswers_quiet
  · exact .refl

theorem State.roomEvent_quiet : Quiets s s.roomEvent := s.serveOwed_quiet.trans (State.answersAfter_quiet _ _ _)

/-- The removal of unsent entries, without the room it leads to. -/
theorem State.askBack_quiet (test : Entry → Bool) : Quiets s (s.askBack test) :=
  (Quiet.mark (s := s) (fun e => if test e && e.offered then { e with removal := true } else e)
    (fun e => by split <;> exact ⟨rfl, rfl, id⟩)).all.tail (.drop _)

theorem State.requestRemoval_quiet (test : Entry → Bool) : Quiets s (s.requestRemoval test) := by
  have h := s.askBack_quiet test
  unfold State.requestRemoval
  dsimp only
  split
  · exact h.trans (State.roomEvent_quiet _)
  · exact h

/-! ### Slots and lines -/

theorem State.startClaim_quiet (c : Client) (m : Mask) (k : Class) : Quiets s (s.startClaim c m k) := by
  unfold State.startClaim
  dsimp only
  split
  · exact (s.offer_quiet _ _).trans (State.slot_quiet _ _ _)
  · exact s.slot_quiet _ _
  · exact s.slot_quiet _ _
  all_goals exact s.mismatch_quiet

theorem State.testLine_quiet (n : LineNo) : Quiets s (s.testLine n) := by
  unfold State.testLine; split
  · exact s.startClaim_quiet _ _ _
  · exact .refl

theorem State.testLines_quiet : Quiets s s.testLines := Quiets.foldl (fun s n => s.testLine_quiet n) _ _

theorem State.testClient_quiet (c : Client) : Quiets s (s.testClient c) := by
  unfold State.testClient; split
  · exact s.testLine_quiet _
  · exact .refl

theorem State.rearmIfHigh_quiet (c : Client) : Quiets s (s.rearmIfHigh c) := by
  unfold State.rearmIfHigh; split
  · split
    · exact (Quiet.line (s := s) _ { s.line _ with rearm := true } rfl).all
    · exact .refl
  · exact .refl

theorem State.endSlot_quiet (c : Client) (r : EndReason) : Quiets s (s.endSlot c r) :=
  (s.slot_quiet _ _).tail (.post _ _)

theorem State.freeSlot_quiet (c : Client) : Quiets s (s.freeSlot c) := s.slot_quiet _ _

theorem State.teardownSlot_quiet (r : Option EndReason) (c : Client) : Quiets s (State.teardownSlot r s c) := by
  unfold State.teardownSlot
  split
  · exact .refl
  · exact s.freeSlot_quiet c
  · exact s.endSlot_quiet c _
  · exact s.freeSlot_quiet c

theorem State.teardown_quiet (r : Option EndReason) : Quiets s (s.teardown r) :=
  Quiets.foldl (fun s c => s.teardownSlot_quiet r c) _ _

theorem State.submitWithdraw_quiet (c : Client) : Quiets s (s.submitWithdraw c) := by
  unfold State.submitWithdraw
  dsimp only
  split
  · exact (s.offer_quiet _ _).trans (State.slot_quiet _ _ _)
  · exact s.slot_quiet _ _
  · exact s.slot_quiet _ _
  all_goals exact s.mismatch_quiet

theorem State.submitRelease_quiet (c : Client) (r : ReleaseReason) : Quiets s (s.submitRelease c r) := by
  unfold State.submitRelease
  dsimp only
  split
  · exact (s.offer_quiet _ _).trans (State.slot_quiet _ _ _)
  · exact s.slot_quiet _ _
  · exact s.slot_quiet _ _
  all_goals exact s.mismatch_quiet

theorem State.withdrawSlot_quiet (c : Client) : Quiets s (s.withdrawSlot c) := by
  unfold State.withdrawSlot
  dsimp only
  split
  · exact (s.endSlot_quiet c _).trans (State.testClient_quiet _ _)
  · split
    · exact ((s.requestRemoval_quiet _).trans (State.endSlot_quiet _ _ _)).trans (State.testClient_quiet _ _)
    · exact (s.requestRemoval_quiet _).trans (State.slot_quiet _ _ _)
  · exact s.submitWithdraw_quiet c
  all_goals exact .refl

theorem State.toYielding_quiet (c : Client) : Quiets s (s.toYielding c) := (s.slot_quiet _ _).tail (.post _ _)

theorem State.renewal_quiet (c : Client) : Quiets s (s.renewal c).1 := by
  unfold State.renewal
  dsimp only
  have h := s.waiterQuery_quiet (s.slot c).set
  split
  · exact h
  · exact h
  · exact h.trans (State.slot_quiet _ _ _)
  · split
    · exact h.trans (State.slot_quiet _ _ _)
    · exact h

theorem State.leaseExpired_quiet (c : Client) : Quiets s (s.leaseExpired c) := by
  unfold State.leaseExpired
  dsimp only
  split
  · split
    · split
      · exact s.renewal_quiet c
      · split
        · exact (s.renewal_quiet c).trans (State.toYielding_quiet _ _)
        · exact s.renewal_quiet c
    · exact s.toYielding_quiet c
  · exact s.toYielding_quiet c

theorem State.fallSlot_quiet (c : Client) : Quiets s (s.fallSlot c) := by
  unfold State.fallSlot
  split
  iterate 3 exact s.withdrawSlot_quiet c
  iterate 2 exact s.submitRelease_quiet c _
  · exact (s.freeSlot_quiet c).trans (State.testClient_quiet _ _)
  all_goals exact .refl

theorem State.handEdge_quiet (n : LineNo) (e : Edge) : Quiets s (s.handEdge n e) := by
  cases e
  · exact s.testLine_quiet n
  · exact s.fallSlot_quiet _

theorem State.handEdges_quiet (n : LineNo) (es : List Edge) : Quiets s (s.handEdges n es) := by
  induction es generalizing s with
  | nil => exact .refl
  | cons e es ih => exact (s.handEdge_quiet n e).trans (ih _)

theorem State.edge_quiet (n : LineNo) (e : Edge) (h : Timing) : Quiets s (s.edge n e h) := by
  cases h
  · exact (Quiet.line (s := s) n { s.line n with edges := [] } rfl).all.trans (State.handEdges_quiet _ _ _)
  · exact (Quiet.line (s := s) n { s.line n with edges := (s.line n).edges ++ [e] } rfl).all

theorem State.toldRemoved_quiet (c : Client) : Quiets s (s.toldRemoved c) := by
  unfold State.toldRemoved
  dsimp only
  split
  · exact s.slot_quiet _ _
  · split
    · exact s.endSlot_quiet c _
    · exact .refl

theorem State.tellOwner_quiet (w : Owner) : Quiets s (s.tellOwner w) := by
  cases w
  · exact s.toldRemoved_quiet _
  · exact .refl

/-- The settling of a round. -/
theorem State.settle_quiet (taken : Bool) : Quiets s (s.settle taken).state := by
  have h : Quiets s (s.setOutbox (s.outbox.without Entry.offered)) := (Quiet.drop (s := s) _).all
  unfold State.settle
  split
  · exact .refl
  · dsimp only
    split
    · exact h
    · split
      · exact h.trans (State.tellOwner_quiet _ _)
      · exact (Quiet.mark (s := s) (fun e => { e with offered := false }) fun _ => ⟨rfl, rfl, fun h => nomatch h⟩).all

/-- After the settling of a round no entry is offered. -/
theorem State.settle_offered (taken : Bool) : (s.settle taken).state.outbox.offered = none := by
  have hd : (s.setOutbox (s.outbox.without Entry.offered)).outbox.offered = none := by
    simp [Outbox.offered, Outbox.without]
  unfold State.settle
  split
  · assumption
  · dsimp only
    split
    · exact hd
    · split
      · exact (State.tellOwner_quiet _ _).offered hd
      · simp [Outbox.offered, Outbox.map]

theorem State.testEnded_quiet (c : Option Client) : Quiets s (s.testEnded c) := by
  cases c
  · exact .refl
  · exact s.testClient_quiet _

/-- The room event of the end of a round. -/
theorem State.offerRoom_quiet (room : Bool) (c : Option Client) : Quiets s (s.offerRoom room c) := by
  unfold State.offerRoom
  split
  · exact s.serveOwed_quiet.trans (State.testEnded_quiet _ _)
  · exact s.testEnded_quiet _

/-- What follows the settling of a round that did not take the offered entry. -/
theorem Settled.close_quiet (x : Settled) (before : State) : Quiets x.state (x.close before) :=
  (State.offerRoom_quiet _ _ _).trans (State.answersAfter_quiet _ _ _)

theorem State.settleKept_quiet : Quiets s s.settleKept := (s.settle_quiet false).trans (Settled.close_quiet _ s)

/-- After the settling of a round that did not take the offered entry no entry is offered. -/
theorem State.settleKept_offered : s.settleKept.outbox.offered = none :=
  Quiets.offered (Settled.close_quiet _ s) (s.settle_offered false)

theorem State.countVoid_quiet : Quiets s s.countVoid :=
  (Quiet.mark (s := s) (fun e => if e.offered then { e with voids := e.voids + 1 } else e)
    fun e => by split <;> exact ⟨rfl, rfl, id⟩).all

theorem State.refuseQueued_quiet (c : Client) (r : ClaimRefusal) : Quiets s (s.refuseQueued c r) := by
  unfold State.refuseQueued
  dsimp only
  split
  · exact (s.slot_quiet _ _).tail (.post _ _)
  · split
    · exact (s.endSlot_quiet c _).trans (State.testClient_quiet _ _)
    · exact ((s.endSlot_quiet c _).trans (State.rearmIfHigh_quiet _ _)).trans (State.testClient_quiet _ _)

theorem State.indicate_quiet (c : Client) (i : Indication) (r : Option EndReason) : Quiets s (s.indicate c i r) := by
  unfold State.indicate
  dsimp only
  split
  · exact s.slot_quiet _ _
  · split
    · split
      · exact s.slot_quiet _ _
      · exact s.mismatch_quiet
    · split
      · exact s.submitWithdraw_quiet c
      · exact s.mismatch_quiet
  · exact s.refuseQueued_quiet c _
  · split
    · exact (s.endSlot_quiet c _).trans (State.testClient_quiet _ _)
    · exact s.mismatch_quiet
  · exact (s.slot_quiet _ _).tail (.post _ _)
  · exact .refl
  · exact (s.endSlot_quiet c _).trans (State.testClient_quiet _ _)
  · exact (s.endSlot_quiet c _).trans (State.testClient_quiet _ _)
  · exact ((s.endSlot_quiet c _).trans (State.rearmIfHigh_quiet _ _)).trans (State.testClient_quiet _ _)
  · exact s.teardownSlot_quiet _ c
  · exact s.mismatch_quiet

end Sys2Proof.Machine
end

