-- ==== Sys2Proof/Laws/Commands.lean ====
section
/-! SUPPORT. The Table Engine, the Session Controller and every command as chains of moves (Laws/Moves.lean): `exec_moves` says once
what a command can do to State, `exec_next` that it always answers a next state. -/

namespace Sys2Proof.Machine

variable (s : State)

/-! ### Moves of one block -/

theorem State.session_moves (x : Session) (h : x.station = s.session.station) (hc : x.counter = s.session.counter := by rfl) :
    Moves s (s.setSession x) :=
  .single (.session x ⟨h, hc⟩)

theorem State.checker_moves (x : Checker)
    (h : SuspectKept s x := by first | exact .inr (.inl rfl) | exact .inr (.inr rfl)) : Moves s (s.setChecker x) :=
  .single (.checker x h)

/-- The bus changes and the round in progress stays. -/
theorem State.bus_moves (x : Bus) (h : x.round = s.bus.round) (hp : x.pointer = s.bus.pointer := by rfl) :
    Moves s (s.setBus x) := .single (.bus x (fun e => .inl (h ▸ e)) hp)

/-- A change of station state, without its event and with it. -/
theorem State.change_moves (st : StationState) : Moves s (s.change st) := by
  unfold State.change
  dsimp only
  split
  · exact (Move.station st (.inl ‹_›)).all
  · refine .tail (b := _) ?_ (.station st (.inr ⟨noAnswers, rfl, rfl⟩))
    refine .tail (b := _) ?_ (.quiet (.checker _ rfl (.inr (.inr rfl))))
    exact (s.sponsor_quiet _).moves

theorem State.enter_moves (st : StationState) (cause : Cause) : Moves s (s.enter st cause) :=
  (s.change_moves st).step (.quiet (.post _ _))

theorem State.discard_moves : Moves s s.discard := by
  unfold State.discard
  refine .tail (b := _) ?_ (.checker _ (.inr (.inr rfl)))
  refine .tail (b := _) ?_ (.pool _ (.inl (Nat.zero_le _)))
  refine .tail (b := _) ?_ (.quiet (.sponsor _ (.inr ⟨fun a => .inr (noAnswers a), .inr rfl⟩)))
  refine .tail (b := _) ?_ (.quiet (.joiner _ (.inl (Nat.zero_le _))))
  refine .tail (b := _) ?_ (.quiet (.timers _))
  exact s.session_moves _ rfl

/-- A grant leaves the pool's length. -/
theorem grantAt_length (t : Nat) (recs : List PoolRecord) (g : PoolRecord) (i : Nat) :
    (grantAt t recs g i).length = recs.length := by simp [grantAt]

theorem grantSteps_length (t k : Nat) (recs : List PoolRecord) : (grantSteps t k recs).records.length = recs.length := by
  induction k generalizing recs with
  | zero => rfl
  | succ k ih =>
    unfold grantSteps
    split
    · rfl
    · split
      · rfl
      · simp [ih, grantAt_length]

/-- A grant pass leaves the pool's length. -/
theorem grantPass_length (t : Nat) (recs : List PoolRecord) : (grantPass t recs).records.length = recs.length :=
  grantSteps_length t _ recs

/-- A pass stops only at a record that fails, which it leaves in the pool. -/
theorem grantSteps_failed (t k : Nat) (recs : List PoolRecord) (h : (grantSteps t k recs).failed = true) :
    ((grantSteps t k recs).records.any fun r => !r.sound) = true := by
  induction k generalizing recs with
  | zero => exact nomatch h
  | succ k ih =>
    unfold grantSteps at h ⊢
    split
    · assumption
    · rename_i hn
      rw [if_neg hn] at h
      split
      · rename_i e; rw [e] at h; exact nomatch h
      · rename_i e; rw [e] at h; exact ih _ h

/-! ### The Table Engine -/

theorem State.tellOwn_quiet (tell : Bool) (a : Addr) (c : Client) (i : Indication) (r : Option EndReason) :
    Quiets s (s.tellOwn tell a c i r) := by
  unfold State.tellOwn; split
  · exact s.indicate_quiet c i r
  · exact .refl

/-- A grant pass changes the pool and lets the slots act on the grants; it may freeze the pool. -/
theorem State.runPass_moves (tell : Bool) : Moves s (s.runPass tell) := by
  have hq : Quiets (s.setPool { s.pool with records := (grantPass s.port.threshold s.pool.records).records })
      ((grantPass s.port.threshold s.pool.records).granted.foldl (State.tellGrants tell)
        (s.setPool { s.pool with records := (grantPass s.port.threshold s.pool.records).records })) :=
    Quiets.foldl (fun s (r : PoolRecord) => s.tellOwn_quiet tell r.station r.client .granted none) _ _
  have h : Moves s _ := (Move.pool (s := s) { s.pool with records := (grantPass s.port.threshold s.pool.records).records }
    (.inl (grantPass_length _ _).le)).all.comp hq.moves
  unfold State.runPass
  dsimp only
  split
  · refine h.comp (State.freeze_quiet _ ?_).moves
    rw [State.poolFails, hq.replica.2.2.2.1]
    exact grantSteps_failed _ _ _ ‹_›
  · exact h

theorem State.withPool_moves {work : State → State} (h : ∀ s, Moves s (work s)) : Moves s (s.withPool work) := by
  unfold State.withPool
  split
  · exact .refl
  · exact h s

/-- A search stops only at a record that fails. -/
theorem searchPool_failing {recs : List PoolRecord} {a : Addr} {c : Client} (h : searchPool a c recs = .failing) :
    (recs.any fun r => !r.sound) = true := by
  induction recs with
  | nil => exact nomatch h
  | cons r rs ih =>
    unfold searchPool at h
    split at h
    · simp_all
    · split at h
      · exact nomatch h
      · simp [ih h]

theorem State.admitClaim_moves (tell : Bool) (a : Addr) (c : Client) (k : Class) (m : Mask) :
    Moves s (State.admitClaim tell a c k m s) := by
  unfold State.admitClaim
  split
  · exact (s.freeze_quiet (searchPool_failing ‹_›)).moves
  · exact (s.tellOwn_quiet tell a c _ _).moves
  · split
    · exact (s.tellOwn_quiet tell a c _ _).moves
    · rename_i h
      exact ((Move.pool _ (.inr (by simpa using h))).all.comp (State.tellOwn_quiet _ tell a c _ _).moves).comp
        (State.runPass_moves _ tell)

theorem State.takeClaim_moves (tell : Bool) (a : Addr) (c : Client) (k : Class) (m : Mask) :
    Moves s (s.takeClaim tell a c k m) := by
  refine s.withPool_moves fun s => ?_
  split
  · exact (s.tellOwn_quiet tell a c _ _).moves
  · exact s.admitClaim_moves tell a c k m

theorem State.dropRecord_moves (tell : Bool) (a : Addr) (c : Client) (i : Option Standing → Indication) :
    Moves s (State.dropRecord tell a c i s) := by
  unfold State.dropRecord
  dsimp only
  split
  · exact (s.freeze_quiet (searchPool_failing ‹_›)).moves
  · exact (s.tellOwn_quiet _ _ _ _ _).moves
  · exact ((Move.pool (s := s) { s.pool with records := withoutPair a c s.pool.records }
      (.inl (List.length_filter_le _ _))).all.comp (State.tellOwn_quiet (s.setPool _) tell a c _ _).moves).comp
        (State.runPass_moves _ tell)

theorem State.removeRecords_moves (tell : Bool) (k : RemovalCause) (r : Option EndReason) (as : List Addr) :
    Moves s (s.removeRecords tell k r as) := by
  unfold State.removeRecords
  split
  · exact .refl
  · refine s.withPool_moves fun s => ?_
    unfold State.dropStations
    dsimp only
    split
    · exact (s.freeze_quiet ‹_›).moves
    · split
      · exact .refl
      · exact ((Move.pool (s := s) { s.pool with records := s.pool.records.filter fun r => decide (r.station ∉ as) }
          (.inl (List.length_filter_le _ _))).all.comp
          (Quiets.foldl (fun s (x : PoolRecord) =>
            State.tellOwn_quiet s tell x.station x.client (.removed k x.standing) r) _ _).moves).comp
              (State.runPass_moves _ tell)

theorem State.poolEffect_moves (tell : Bool) (n : Notice) (r : Option EndReason) (as : List Addr) :
    Moves s (s.poolEffect tell n r as) := by
  unfold State.poolEffect
  split
  · exact s.takeClaim_moves _ _ _ _ _
  · exact s.withPool_moves fun s => s.dropRecord_moves _ _ _ _
  · exact s.withPool_moves fun s => s.dropRecord_moves _ _ _ _
  · exact s.removeRecords_moves _ _ _ _
  · exact s.removeRecords_moves _ _ _ _
  all_goals exact .refl

/-! ### The Session Controller -/

theorem State.setTag_moves (t : Word) : Moves s (s.setTag t) := s.session_moves _ rfl
theorem State.setMembers_moves (t : Table) : Moves s (s.setMembers t) := s.session_moves _ rfl
theorem State.seek_moves (c : Cause) : Moves s (s.seek c) :=
  (s.enter_moves _ _).comp (State.placeJoin_quiet _).moves
theorem State.goOffline_moves (c : Cause) : Moves s (s.goOffline c) := (s.setTag_moves _).comp (State.enter_moves _ _ _)

theorem State.goListening_moves (c : Cause) : Moves s (s.goListening c) :=
  ((s.setTag_moves _).comp (State.timers_quiet _ _).moves).comp (State.enter_moves _ _ _)

theorem State.removeFound_moves : Moves s s.removeFound := (s.requestRemoval_quiet _).moves
theorem State.removeJoin_moves : Moves s s.removeJoin := (s.requestRemoval_quiet _).moves
theorem State.stopListen_moves : Moves s s.stopListen := (s.timers_quiet _).moves
theorem State.stopAnswer_moves : Moves s s.stopAnswer := (s.timers_quiet _).moves

theorem State.giveUp_moves (c : Cause) : Moves s (s.giveUp c) :=
  (s.discard_moves.comp (State.clearOutbox_quiet _).moves).comp (State.seek_moves _ _)

/-- The queuing of a LEAVE, in any state. -/
theorem State.queueLeave_moves (r : LeaveReason) : Moves s (s.queueLeave r) :=
  ((((s.purge_quiet.comp (State.closeSlots_quiet _)).comp (State.placeLeave_quiet _ r)).comp
    (State.stopLoading_quiet _)).comp (State.recordLeave_quiet _ r)).moves.comp (State.enter_moves _ _ _)

theorem State.yieldTo_moves (t : Word) : Moves s (s.yieldTo t) :=
  (((((s.teardown_quiet _).moves.comp (State.discard_moves _)).comp (State.clearOutbox_quiet _).moves).comp
    (State.setTag_moves _ _)).comp (State.timers_quiet _ _).moves).comp (State.seek_moves _ _)

theorem State.ownLeave_moves : Moves s s.ownLeave := by
  have h := ((s.teardown_quiet (s.session.leaveReason.bind LeaveReason.ends)).moves.comp (State.discard_moves _)).comp (State.clearOutbox_quiet _).moves
  unfold State.ownLeave
  dsimp only
  split
  · exact h.comp (State.goOffline_moves _ _)
  · split
    · exact h.comp (State.seek_moves _ _)
    · exact h.comp (State.goListening_moves _ _)

theorem State.evicted_moves (st : StationState) : Moves s (s.evicted st) := by
  have h := ((s.teardown_quiet (some .evicted)).moves.comp (State.discard_moves _)).comp (State.clearOutbox_quiet _).moves
  unfold State.evicted
  dsimp only
  split
  · split
    · exact h.comp (State.seek_moves _ _)
    · exact h.comp (State.goOffline_moves _ _)
  · split
    · exact h.comp (State.seek_moves _ _)
    · exact h.comp (State.goOffline_moves _ _)
  all_goals exact h.comp (State.seek_moves _ _)

theorem State.enterFaulted_moves (c : Cause) : Moves s (s.enterFaulted c) :=
  ((((((s.empty_quiet.comp (State.dropOwed_quiet _)).moves.comp (State.discard_moves _)).comp (State.setTag_moves _ _)).comp
    (State.timers_quiet _ _).moves).comp (State.bus_moves _ _ (by rfl))).comp (State.enter_moves _ _ _)).comp
      (State.teardown_quiet _ _).moves

theorem State.found_moves (t : Word) : Moves s (s.found t) := by
  unfold State.found
  dsimp only
  refine Relation.ReflTransGen.trans ?_ (State.testLines_quiet _).moves
  refine Relation.ReflTransGen.trans ?_ (State.change_moves _ _)
  refine .tail (b := _) ?_ (.checker _ (.inr (.inr rfl)))
  refine .tail (b := _) ?_ (.quiet (.timers _))
  refine .tail (b := _) ?_ (.pool _ (.inl (Nat.zero_le _)))
  exact s.session_moves _ rfl

theorem State.hearSession_moves (t : Word) : Moves s (s.hearSession t) :=
  (s.stopListen_moves.comp (State.setTag_moves _ _)).comp (State.seek_moves _ _)

theorem State.refuseFounder_moves : Moves s s.refuseFounder := s.stopListen_moves.comp (State.goOffline_moves _ _)

theorem State.hear_moves (h : Heard) : Moves s (s.hear h) := by
  unfold State.hear
  split
  · split
    · exact s.refuseFounder_moves
    · exact s.hearSession_moves _
  all_goals exact s.hearSession_moves _

theorem State.takeFounding_moves (h : Heard) : Moves s (s.takeFounding h) := by
  unfold State.takeFounding
  split
  · split
    · exact s.found_moves _
    · exact .refl
  · exact s.hear_moves h

theorem State.noteHeard_moves (own : Bool) : Moves s (s.noteHeard own) := by
  unfold State.noteHeard; split
  · exact .refl
  · exact (s.timers_quiet _).moves

theorem State.enterLoading_moves (a : Addr) (n : Word) : Moves s (s.enterLoading a n) := by
  unfold State.enterLoading
  dsimp only
  refine Relation.ReflTransGen.trans ?_ (State.enter_moves _ _ _)
  refine .tail (b := _) ?_ (.checker _ (.inr (.inr rfl)))
  refine .tail (b := _) ?_ (.bus _ (fun e => .inl e) rfl)
  refine .tail (b := _) ?_ (.quiet (.timers _))
  refine .tail (b := _) ?_ (.quiet (.joiner _ (.inl (Nat.zero_le _))))
  refine .tail (b := _) ?_ (.pool _ (.inl (Nat.zero_le _)))
  exact s.session_moves _ rfl

theorem State.refused_moves (r : Fin 16) (own : Bool) : Moves s (s.refused r own) := by
  unfold State.refused
  split
  · exact (s.timers_quiet _).moves.comp (State.enter_moves _ _ _)
  · split
    · exact s.stopAnswer_moves.comp (State.goOffline_moves _ _)
    · split
      · exact s.stopAnswer_moves.comp (State.goOffline_moves _ _)
      · exact s.noteHeard_moves own

theorem State.takeSeeking_moves (h : Heard) : Moves s (s.takeSeeking h) := by
  unfold State.takeSeeking
  split
  · exact .refl
  · split
    · exact .refl
    · split
      · exact (s.timers_quiet _).moves
      · exact s.noteHeard_moves _
    · split
      · exact s.enterLoading_moves _ _
      · exact s.noteHeard_moves _
    · split
      · exact s.refused_moves _ _
      · exact s.noteHeard_moves _
    all_goals exact s.noteHeard_moves _

/-! ### Application to the replica -/

theorem State.countNotice_moves (b : Body) : Moves s (s.countNotice b) := by
  unfold State.countNotice; split
  · exact s.session_moves _ rfl
  · exact .refl

theorem State.noteClash_moves (h : Heard) : Moves s (s.noteClash h) := by
  unfold State.noteClash; split
  · exact (s.post_quiet _ _).moves
  · exact .refl

theorem State.restartAbsence_moves (a : Addr) : Moves s (s.restartAbsence a) := by
  unfold State.restartAbsence; dsimp only; split
  · exact (s.timers_quiet _).moves
  · exact .refl

theorem State.liveMembers_moves (e : TableChange) : Moves s (s.liveMembers e) :=
  (s.setMembers_moves _).comp
    (Quiets.foldl (fun s _ => (s.timers_quiet _).comp (State.post_quiet _ _ _)) _ _).moves

theorem State.clearSuspect_quiet : Quiets s s.clearSuspect := by
  unfold State.clearSuspect; split
  · split
    · exact .refl
    · exact (Quiet.checker (s := s) { s.checker with suspect := none } rfl (.inr (.inr rfl))).all.step (.post _ _)
  · exact .refl

theorem State.dropOwedSnap_quiet : Quiets s s.dropOwedSnap := by
  unfold State.dropOwedSnap; split
  · split
    · exact s.sponsor_quiet _
    · exact .refl
  · exact .refl

theorem State.checkServing_quiet (h : Heard) : Quiets s (s.checkServing h) := by
  unfold State.checkServing; split
  · exact s.sponsor_quiet _
  · exact .refl

theorem State.listJoin_quiet (ha : s.session.station = .active) (a : Addr) (k : Word) : Quiets s (s.listJoin a k) := by
  unfold State.listJoin; split
  · split
    · exact s.sponsor_quiet _ (.inl ha)
    · exact .refl
  · split
    · exact s.sponsor_quiet _ (.inl ha)
    · exact .refl
  · split
    · exact s.sponsor_quiet _ (.inl ha)
    · exact .refl
  · exact .refl

theorem State.ownAdmit_quiet (ha : s.session.station = .active) (a : Addr) (b : Bool) : Quiets s (s.ownAdmit a b) := by
  unfold State.ownAdmit; split
  · unfold State.startServing
    split
    · exact s.freeze_quiet ‹_›
    · split
      · exact s.upset_quiet
      · exact s.sponsor_quiet _ (.inl ha)
  · split
    · exact s.sponsor_quiet _ (.inl ha)
    · exact .refl

theorem State.compared_moves (ha : s.session.station = .active) (a : Addr) (b : Bool) : Moves s (s.compared a b) := by
  unfold State.compared; split
  · exact (s.checker_moves _ (.inl ha)).comp (State.post_quiet _ _ _).moves
  · split
    · exact .refl
    · exact ((s.checker_moves _ (.inl ha)).comp (State.post_quiet _ _ _).moves).comp (State.queueLeave_moves _ _)
  · exact .refl
  · exact (s.checker_moves _ (.inl ha)).comp (State.post_quiet _ _ _).moves

theorem State.kindEffects_moves (h : Heard) (e : TableChange) : Moves s (s.kindEffects h e) := by
  unfold State.kindEffects
  split
  · split
    · exact (s.listJoin_quiet ‹_› _ _).moves
    · exact .refl
  · split
    · exact (s.ownAdmit_quiet (And.left ‹_›) _ _).moves
    · exact .refl
  · unfold State.takeBeacon
    split
    · split
      · exact (s.change_moves _).comp (State.testLines_quiet _).moves
      · exact .refl
    · split
      · exact s.compared_moves ‹_› _ _
      · exact .refl
    all_goals exact .refl
  all_goals exact .refl

theorem State.pruneAnswers_quiet : Quiets s s.pruneAnswers := by
  refine s.sponsor_quiet _ (.inr ⟨fun a => ?_, .inl rfl⟩)
  simp only [Vector.get_eq_getElem, Vector.getElem_ofFn]
  split
  · split <;> simp_all
  · exact .inl rfl

theorem State.localEffects_moves (h : Heard) (e : TableChange) : Moves s (s.localEffects h e) :=
  ((s.pruneAnswers_quiet.comp (State.clearSuspect_quiet _)).comp (State.checkServing_quiet _ h)).moves.comp
    (State.kindEffects_moves _ h e)

theorem State.stepOne_moves (h : Heard) : Moves s (s.stepOne h) :=
  ((s.countNotice_moves _).comp (State.noteClash_moves _ h)).comp (State.readMembers_quiet _ _).moves

theorem State.fourSteps_moves (h : Heard) (e : TableChange) (r : Option EndReason) : Moves s (s.fourSteps h e r) :=
  (((s.stepOne_moves h).comp (State.restartAbsence_moves _ _)).comp (State.liveMembers_moves _ _)).comp
    (State.poolEffect_moves _ _ _ _ _)

theorem State.endMembership_moves (st : StationState) (x : Ending) : Moves s (s.endMembership st x) := by
  cases x
  · exact s.ownLeave_moves
  · exact s.evicted_moves _
  · exact s.giveUp_moves _

theorem State.applyNotice_moves (h : Heard) : Moves s (s.applyNotice h) := by
  unfold State.applyNotice
  dsimp only
  split
  · exact ((s.change_moves _).comp (State.fourSteps_moves _ _ _ _)).comp (State.endMembership_moves _ _ _)
  · exact (s.fourSteps_moves _ _ _).comp (State.localEffects_moves _ _ _)

theorem State.otherTag_moves (n : Notice) : Moves s (s.otherTag n) := by
  unfold State.otherTag; split
  · exact .refl
  · split
    · exact .refl
    · exact s.yieldTo_moves _

theorem State.takeMember_moves (h : Heard) : Moves s (s.takeMember h) := by
  unfold State.takeMember; split
  · exact .refl
  · split
    · exact s.applyNotice_moves h
    · exact s.otherTag_moves _

/-! ### Loading -/

theorem State.replay_moves (h : Heard) : Moves s (s.replay h) := by
  unfold State.replay; split
  · exact ((s.stepOne_moves h).comp (State.setMembers_moves _ _)).comp (State.poolEffect_moves _ _ _ _ _)
  · exact .refl

theorem State.announce_moves : Moves s s.announce :=
  ((((s.timers_quiet _).step (.joiner _ (.inl (Nat.zero_le _)))).moves).comp (State.enter_moves _ _ _)).comp
    (State.submitBeacon_quiet _).moves

theorem State.complete_moves : Moves s s.complete := by
  have h := Moves.foldl (fun s h => s.replay_moves h) s.joiner.catchUp s
  unfold State.complete
  dsimp only
  split
  · split
    · exact (h.comp (State.withPool_moves _ fun s => s.runPass_moves false)).comp (State.announce_moves _)
    · exact h.comp (State.withPool_moves _ fun s => s.runPass_moves false)
  · exact h

theorem State.endSnapshot_moves (k : Word) (n : Byte) : Moves s (s.endSnapshot k n) := by
  have h : Moves s (if s.poolFails then s.freeze else s.readMembers sixteen) := by
    split
    · exact (s.freeze_quiet ‹_›).moves
    · exact (s.readMembers_quiet _).moves
  unfold State.endSnapshot
  dsimp only
  generalize (if s.poolFails then s.freeze else s.readMembers sixteen) = t at h
  split
  · split
    · exact h.trans t.complete_moves
    · exact h.comp (t.queueLeave_moves _)
  · exact h

theorem State.buildMembers_moves (v : Vector Byte 16) : Moves s (s.buildMembers v) := by
  unfold State.buildMembers
  dsimp only
  split
  · split
    · exact (s.setMembers_moves _).comp
        (Quiet.joiner { (State.joiner _) with building := .claims } (.inl (Nat.le_refl _))).moves
    · exact (s.setMembers_moves _).comp (State.queueLeave_moves _ _)
  · exact .refl

theorem State.buildClaim_moves (p : Byte) (r : Option PoolRecord) : Moves s (s.buildClaim p r) := by
  unfold State.buildClaim
  split
  · split
    · rename_i h
      exact .single (.pool _ (.inr (by simpa using h.2.2)))
    · exact .refl
  · exact .refl

theorem State.buffer_moves (h : Heard) : Moves s (s.buffer h) := by
  unfold State.buffer; split
  · rename_i hl
    exact (Quiet.joiner (s := s) { s.joiner with catchUp := s.joiner.catchUp ++ [h] } (.inr (by simpa using hl))).moves
  · exact s.queueLeave_moves _

theorem State.load_moves (h : Heard) : Moves s (s.load h) := by
  unfold State.load
  dsimp only
  split
  · exact .refl
  · split
    · exact s.buildMembers_moves _
    · exact s.buffer_moves h
  · split
    · exact s.buildClaim_moves _ _
    · exact s.buffer_moves h
  · split
    · exact s.endSnapshot_moves _ _
    · exact s.buffer_moves h
  · split
    · exact s.giveUp_moves _
    · exact s.buffer_moves h
  · split
    · exact s.giveUp_moves _
    · split
      · exact s.giveUp_moves _
      · exact s.buffer_moves h
  all_goals exact s.buffer_moves h

theorem State.takeLoading_moves (h : Heard) : Moves s (s.takeLoading h) := by
  unfold State.takeLoading; split
  · exact .refl
  · split
    · exact s.load_moves h
    · exact s.otherTag_moves _

theorem State.handle_moves (h : Heard) : Moves s (s.handle h) := by
  unfold State.handle
  split
  · exact .refl
  · exact .refl
  · exact .refl
  · exact s.hear_moves h
  · exact s.takeFounding_moves h
  · exact s.takeSeeking_moves h
  · exact s.takeLoading_moves h
  all_goals exact s.takeMember_moves h

theorem State.recheck_moves (before : State) : Moves s (State.recheck before s) := by
  unfold State.recheck
  dsimp only
  split
  · exact .refl
  · split
    · exact (s.checker_moves _).comp (State.freeze_quiet _ ‹_›).moves
    · exact (s.checker_moves _).comp (State.readMembers_quiet _ _).moves

/-- What a taken notice recalls leaves the Outbox. -/
theorem State.recall_quiet (h : Heard) : Quiets s (s.recall h) := by
  have he : ∀ s : State, Quiets s (s.recallEvict h.notice) := fun s => by
    unfold State.recallEvict; split
    · exact (s.sponsor_quiet _).comp (State.askBack_quiet _ _)
    · exact .refl
  have hs : ∀ s : State, Quiets s (s.recallSnaps h.notice) := fun s => by
    unfold State.recallSnaps; split
    · exact .refl
    · split
      · exact ((s.sponsor_quiet _).comp (State.dropOwedSnap_quiet _)).comp (State.askBack_quiet _ _)
      · exact .refl
  unfold State.recall
  split
  · exact s.askBack_quiet _
  · split
    · exact .refl
    · exact s.askBack_quiet _
  · split
    · exact s.askBack_quiet _
    · exact .refl
  iterate 3
    · split
      · exact (he s).comp (hs _)
      · exact .refl
  all_goals exact .refl

theorem State.setCount_moves (n : Word) : Moves s (s.setCount n) := s.session_moves _ rfl

/-- Work dated with a notice does what the work does. -/
theorem State.dated_moves (n : Notice) {work : State → State} (h : ∀ s : State, Moves s (work s)) : Moves s (s.dated n work) :=
  ((s.setCount_moves _).comp (h _)).comp (State.setCount_moves _ _)

/-- Work that is quiet, dated with a notice, leaves replica, table check and bus alone, and the station inside or outside a session. -/
theorem State.dated_kept (n : Notice) {work : State → State} (h : ∀ s : State, Quiets s (work s)) :
    (s.dated n work).session.members = s.session.members ∧ (s.dated n work).session.founded = s.session.founded ∧
      (s.dated n work).session.count = s.session.count ∧ (s.dated n work).pool.records = s.pool.records ∧
      (s.dated n work).checker.tableCheck = s.checker.tableCheck ∧ (s.dated n work).bus = s.bus ∧
      (s.dated n work).session.station.inSession = s.session.station.inSession := by
  have hq := h (s.setCount (s.countAfter n))
  have r := hq.replica
  have i := Quiets.inSession hq
  exact ⟨r.1, r.2.1, rfl, r.2.2.2.1, r.2.2.2.2, hq.bus, i⟩

/-- The room of a taken notice. -/
theorem State.makeRoom_moves (h : Heard) (room : Bool) (c : Option Client) : Moves s (s.makeRoom h room c) :=
  (s.recall_quiet h).moves.comp (State.dated_moves _ h.notice fun u => (u.offerRoom_quiet _ _).moves)

theorem State.postActive_quiet (st : StationState) : Quiets s (State.postActive st s) := by
  unfold State.postActive
  split
  · exact s.post_quiet _ _
  · exact s.post_quiet _ _
  · exact .refl

theorem State.takeNotice_moves (h : Heard) (room : Bool) (c : Option Client) : Moves s (s.takeNotice h room c) :=
  ((((s.makeRoom_moves h room c).comp (State.handle_moves _ h)).comp (State.recheck_moves _ s)).comp
    (State.makeAnswers_quiet _).moves).comp (State.postActive_quiet _ _).moves

/-! ### Rounds -/

/-- A round ends after the settling of its offered entry. -/
theorem State.endRound_moves (h : s.outbox.offered = none) : Moves s s.endRound := .single (.bus _ (fun _ => .inr h) rfl)

theorem State.flush_moves : Moves s s.flush := by
  unfold State.flush; split
  · exact .refl
  · exact (s.bus_moves _ (by rfl)).comp (State.takeNotice_moves _ _ _ _)

theorem State.takeRound_turns (h : Heard) : Turns s (s.takeRound h).state := by
  unfold State.takeRound
  exact (((s.setCount_moves _).comp (State.settle_quiet _ h.own).moves).comp (State.setCount_moves _ _)).turns.comp
    (.single (.round _ (State.settle_offered _ h.own)))

theorem Settled.deliver_moves (x : Settled) (h : Heard) (e : Timing) : Moves x.state (x.deliver h e) := by
  unfold Settled.deliver
  split
  · split
    · exact State.takeNotice_moves _ _ _ _
    · exact (State.dated_moves _ h.notice fun u => (u.offerRoom_quiet _ _).moves).comp (State.bus_moves _ _ (by rfl))
  · exact (State.offerRoom_quiet _ _ _).moves

theorem State.endTaken_turns (h : Heard) (e : Timing) : Turns s (s.endTaken h e) :=
  (s.takeRound_turns h).comp (Settled.deliver_moves _ h e).turns

theorem State.endUntaken_moves : Moves s s.endUntaken := s.settleKept_quiet.moves.comp (State.endRound_moves _ s.settleKept_offered)

theorem State.roundTaken_turns (h : Hearing) (e : Timing) : Turns s (s.roundTaken h e) := by
  unfold State.roundTaken
  split
  · exact .refl
  · split
    · split
      · refine s.flush_moves.turns.trans ?_
        unfold State.takeOwn
        split
        · exact .refl
        · exact State.endTaken_turns _ _ _
      · exact .refl
    · split
      · exact .refl
      · refine s.flush_moves.turns.trans ?_
        unfold State.takeOther
        split
        · exact State.endTaken_turns _ _ _
        · split
          · exact .refl
          · exact (State.endUntaken_moves _).turns

theorem State.endVoided_moves (c : Bool) (f : Option ReceptionFault) : Moves s (s.endVoided c f) := by
  have h1 : Moves s (s.voidRound c f).state := by
    unfold State.voidRound
    dsimp only
    refine .tail (b := _) ?_ (.bus _ (fun _ => .inr (State.settle_offered _ false)) rfl)
    split
    · exact (s.countVoid_quiet.comp (State.settle_quiet _ false)).moves
    · exact (s.settle_quiet false).moves
  unfold State.endVoided
  dsimp only
  split
  · exact h1.comp (State.enterFaulted_moves _ _)
  · split
    · exact h1.comp (State.enterFaulted_moves _ _)
    · exact h1.comp (Settled.close_quiet _ s).moves

theorem State.roundVoided_moves (w : Bool) (f : Option ReceptionFault) : Moves s (s.roundVoided w f) := by
  unfold State.roundVoided
  split
  · exact .refl
  · split
    · exact .refl
    · exact s.flush_moves.comp (State.endVoided_moves _ _ _)

theorem State.roundMissed_moves : Moves s s.roundMissed := by
  unfold State.roundMissed
  split
  · exact .refl
  · split
    · exact .refl
    · exact s.flush_moves.comp (State.endUntaken_moves _)

theorem State.roundStart_moves : Moves s s.roundStart := by
  unfold State.roundStart
  split
  · exact .refl
  · split
    · exact .single (.bus _ (fun e => nomatch e) rfl)
    · split
      · exact .single (.bus _ (fun e => nomatch e) rfl)
      · exact (Move.offer _ (by simp_all)).all

theorem State.busStuck_moves : Moves s s.busStuck := by
  unfold State.busStuck
  split
  · exact .refl
  · exact ((s.flush_moves.comp (State.bus_moves _ _ (by rfl))).comp (State.post_quiet _ _ _).moves).comp (State.endUntaken_moves _)

theorem State.busRecovered_moves : Moves s s.busRecovered := by
  unfold State.busRecovered
  split
  · exact .refl
  · exact ((s.bus_moves _ (by rfl)).comp (State.timers_quiet _ _).moves).comp (State.post_quiet _ _ _).moves

/-! ### Lines and expiries -/

theorem State.meet_moves : ∀ h : Timing, Moves s (s.meet h)
  | .atOnce => s.flush_moves
  | .later => .refl

theorem State.reqRise_moves (n : LineNo) (h : Timing) : Moves s (s.reqRise n h) := by
  unfold State.reqRise
  split
  · exact .refl
  · split
    · exact (s.meet_moves h).comp ((Quiet.line n { (s.meet h).line n with req := true } rfl).all.comp (State.edge_quiet _ n _ h)).moves
    · exact (Quiet.line (s := s) n { s.line n with req := true } rfl).moves

theorem State.reqFall_moves (n : LineNo) (h : Timing) : Moves s (s.reqFall n h) := by
  unfold State.reqFall
  split
  · exact .refl
  · split
    · exact (s.meet_moves h).comp ((Quiet.line n { (s.meet h).line n with req := false, rearm := false } rfl).all.comp
        (State.edge_quiet _ n _ h)).moves
    · exact (Quiet.line (s := s) n { s.line n with req := false } rfl).moves

theorem State.edgeHandedOn_moves (n : LineNo) : Moves s (s.edgeHandedOn n) := by
  unfold State.edgeHandedOn
  split
  · exact .refl
  · rename_i es _
    exact s.flush_moves.comp ((Quiet.line n { s.flush.line n with edges := es } rfl).all.comp (State.handEdge_quiet _ n _)).moves

/-- An expiry that meets the station with the effects of a delivered notice made. -/
theorem State.expire_turns {act : State → State} (runs : State → Bool) (h : ∀ s, Turns s (act s)) : Turns s (s.expire runs act) := by
  unfold State.expire
  split
  · split
    · exact s.flush_moves.turns.comp (h _)
    · exact s.flush_moves.turns
  · exact .refl

theorem State.expire_moves {act : State → State} (runs : State → Bool) (h : ∀ s, Moves s (act s)) : Moves s (s.expire runs act) := by
  unfold State.expire
  split
  · split
    · exact s.flush_moves.comp (h _)
    · exact s.flush_moves
  · exact .refl

theorem State.endListening_turns : Turns s s.endListening := by
  refine Turns.comp ?_ (State.enter_moves _ _ _).turns
  refine Turns.comp ?_ (State.submit_quiet _ _).moves.turns
  exact (s.stopListen_moves.turns.tail .newTag).tail (.pointer 0)

theorem State.listenWindowExpiry_turns : Turns s s.listenWindowExpiry := s.expire_turns _ State.endListening_turns

theorem State.endSeeking_moves : Moves s s.endSeeking := by
  unfold State.endSeeking
  split
  · exact s.stopAnswer_moves.comp (State.placeJoin_quiet _).moves
  · exact s.stopAnswer_moves.comp (State.goListening_moves _ _)

theorem State.answerLimitExpiry_moves : Moves s s.answerLimitExpiry := s.expire_moves _ State.endSeeking_moves

theorem State.endBackoff_moves : Moves s s.endBackoff := (s.timers_quiet _).moves.comp (State.seek_moves _ _)

theorem State.backoffEnd_moves : Moves s s.backoffEnd := s.expire_moves _ State.endBackoff_moves

theorem State.snapshotLimitExpiry_moves : Moves s s.snapshotLimitExpiry :=
  s.expire_moves _ fun s => s.queueLeave_moves _

theorem State.beaconTimerExpiry_moves : Moves s s.beaconTimerExpiry := by
  unfold State.beaconTimerExpiry; split
  · exact ((s.timers_quiet _).comp (State.submitBeacon_quiet _)).moves
  · exact .refl

theorem State.absenceTimerExpiry_moves (m : Addr) : Moves s (s.absenceTimerExpiry m) := by
  unfold State.absenceTimerExpiry; split
  · exact ((s.timers_quiet _).comp (State.submitEvict_quiet _ _)).moves
  · exact .refl

theorem State.leaseExpiry_moves (c : Client) : Moves s (s.leaseExpiry c) :=
  s.expire_moves _ fun t => ((t.slot_quiet _ _).comp (State.leaseExpired_quiet _ c)).moves

theorem State.yieldExpiry_moves (c : Client) : Moves s (s.yieldExpiry c) :=
  s.expire_moves _ fun t => ((t.slot_quiet _ _).comp (State.submitRelease_quiet _ c _)).moves

theorem State.endRetry_moves (n : LineNo) : Moves s (s.endRetry n) := by
  unfold State.endRetry; split
  · exact ((s.freeSlot_quiet _).comp (State.startClaim_quiet _ _ _ _)).moves
  · exact ((s.freeSlot_quiet _).comp (State.testClient_quiet _ _)).moves

theorem State.retryExpiry_moves (n : LineNo) : Moves s (s.retryExpiry n) := s.expire_moves _ fun t => t.endRetry_moves n

/-! ### The Card Port -/

/-- A frame whose decision is a chain of moves. -/
theorem State.frame_moves {d : Decided} (h : Moves s d.state) : Moves s (s.frame d) := by
  unfold State.frame; split
  · exact .refl
  · exact h.step (.quiet (.answer _ _))

theorem State.deny_moves (st : Status) : Moves s (s.deny st).state := .refl

theorem State.loadTests_moves {t : State} (h : Moves s t) (o : Byte) (d : List Byte) (k : Nat) :
    Moves s (s.loadTests o d k t).state := by
  unfold State.loadTests
  split
  · exact .refl
  · split
    · exact .refl
    · split
      · exact .refl
      · exact h

theorem State.decideReadConfig_moves (p o n : Byte) : Moves s (s.decideReadConfig p o n).state := by
  unfold State.decideReadConfig
  split
  · exact .refl
  · split <;> exact .refl

theorem State.decideStart_moves : Moves s s.decideStart.state := by
  unfold State.decideStart
  split
  · split
    · exact ((s.checker_moves _).comp (State.timers_quiet _ _).moves).comp (State.enter_moves _ _ _)
    · exact .refl
  · exact .refl

theorem State.decideStop_moves : Moves s s.decideStop.state := by
  unfold State.decideStop
  dsimp only
  split
  · exact s.stopListen_moves.comp (State.goOffline_moves _ _)
  · exact s.removeFound_moves.comp (State.goOffline_moves _ _)
  · exact (s.removeJoin_moves.comp (State.stopAnswer_moves _)).comp (State.goOffline_moves _ _)
  · exact (s.removeJoin_moves.comp (State.timers_quiet _ _).moves).comp (State.goOffline_moves _ _)
  iterate 3 exact s.queueLeave_moves _
  · exact s.session_moves _ rfl
  all_goals exact .refl

theorem State.decideResync_moves : Moves s s.decideResync.state := by
  unfold State.decideResync; split
  · exact s.queueLeave_moves _
  · exact .refl

theorem State.decideClearFault_moves : Moves s s.decideClearFault.state := by
  unfold State.decideClearFault; split
  · exact s.enter_moves _ _
  · exact .refl

theorem State.decideClaim_moves (c : Byte) (m : Mask) (k : Byte) : Moves s (s.decideClaim c m k).state := by
  unfold State.decideClaim
  split
  · exact .refl
  · split
    · exact .refl
    · split
      · exact .refl
      · split
        · exact .refl
        · exact (s.startClaim_quiet _ _ _).moves

theorem State.decideCancel_moves (c : Byte) : Moves s (s.decideCancel c).state := by
  unfold State.decideCancel
  split
  · exact .refl
  · unfold State.cancelSlot
    split
    iterate 3 exact (s.withdrawSlot_quiet _).moves
    all_goals exact .refl

theorem State.decideRelease_moves (c : Byte) : Moves s (s.decideRelease c).state := by
  unfold State.decideRelease
  split
  · exact .refl
  · unfold State.releaseSlot
    split
    iterate 2 exact (s.submitRelease_quiet _ _).moves
    all_goals exact .refl

theorem State.decideRenew_moves (c : Byte) : Moves s (s.decideRenew c).state := by
  unfold State.decideRenew
  split
  · exact .refl
  · unfold State.renewSlot
    split
    · exact (s.renewal_quiet _).moves
    · exact .refl

theorem State.decideReadEvent_moves : Moves s s.decideReadEvent.state := by
  unfold State.decideReadEvent; split <;> exact .refl

theorem State.reading_moves : Moves s s.reading := by
  unfold State.reading; split
  · exact .refl
  · exact (Quiet.answer s.port.response _).moves

theorem State.eventRemoval_moves : Moves s s.eventRemoval := by
  unfold State.eventRemoval
  split
  · rename_i h
    exact (Quiet.removal _ _ h).moves
  · exact .refl

theorem State.decideReadSlot_moves (c : Byte) : Moves s (s.decideReadSlot c).state := by
  unfold State.decideReadSlot; split <;> exact .refl

theorem State.decideReadResource_moves (r : Byte) : Moves s (s.decideReadResource r).state := by
  unfold State.decideReadResource
  split
  · dsimp only
    split
    · exact (s.freeze_quiet ‹_›).moves
    · exact .refl
  · exact .refl

theorem State.decideReadMember_moves (a : Byte) : Moves s (s.decideReadMember a).state := by
  unfold State.decideReadMember; split
  · exact .refl
  · exact (s.readMembers_quiet _).moves

theorem State.badFrame_moves (i : Byte) (ps : List Byte) : Moves s (s.badFrame i ps) := by
  unfold State.badFrame; split
  · exact .refl
  · exact s.frame_moves (s.deny_moves _)

theorem State.frameAborted_moves (bs : List Byte) : Moves s (s.frameAborted bs) := by
  unfold State.frameAborted; split
  · exact .refl
  · exact (Quiet.answer _ _).moves

/-! ### Every command -/

/-- What a command can do, the two of reset, the end of a taken round and the end of the listen window apart: it answers a next
state, by a chain of moves. -/
theorem exec_moves (i : Instr) (h1 : i ≠ .hardwareReset) (h2 : ∀ a f, i ≠ .resetRelease a f) (h3 : ∀ h e, i ≠ .roundTaken h e)
    (h4 : i ≠ .listenWindowExpiry) : ∃ t, exec i s = .next t ∧ Moves s t := by
  cases i with
  | loadProfile o d =>
    exact ⟨_, rfl, s.frame_moves (s.flush_moves.comp (s.flush.loadTests_moves (Quiet.image _ s.flush.port.loc).moves o d _))⟩
  | loadLocal o d => 
    exact ⟨_, rfl, s.frame_moves (s.flush_moves.comp (s.flush.loadTests_moves (Quiet.image s.flush.port.system _).moves o d _))⟩
  | readConfig p o n => exact ⟨_, rfl, s.frame_moves (s.decideReadConfig_moves p o n)⟩
  | start => exact ⟨_, rfl, s.frame_moves (s.flush_moves.comp (State.decideStart_moves _))⟩
  | stop => exact ⟨_, rfl, s.frame_moves (s.flush_moves.comp (State.decideStop_moves _))⟩
  | resync => exact ⟨_, rfl, s.frame_moves (s.flush_moves.comp (State.decideResync_moves _))⟩
  | clearFault => exact ⟨_, rfl, s.frame_moves (s.flush_moves.comp (State.decideClearFault_moves _))⟩
  | claim c m k => exact ⟨_, rfl, s.frame_moves (s.flush_moves.comp (State.decideClaim_moves _ c m k))⟩
  | cancel c => exact ⟨_, rfl, s.frame_moves (s.flush_moves.comp (State.decideCancel_moves _ c))⟩
  | release c => exact ⟨_, rfl, s.frame_moves (s.flush_moves.comp (State.decideRelease_moves _ c))⟩
  | renew c => exact ⟨_, rfl, s.frame_moves (s.flush_moves.comp (State.decideRenew_moves _ c))⟩
  | readEvent => exact ⟨_, rfl, (s.frame_moves (s.flush_moves.comp (State.decideReadEvent_moves _))).comp (State.reading_moves _)⟩
  | readStatus => exact ⟨_, rfl, s.frame_moves s.flush_moves⟩
  | readSlot c => exact ⟨_, rfl, s.frame_moves (s.flush_moves.comp (State.decideReadSlot_moves _ c))⟩
  | readResource r => exact ⟨_, rfl, s.frame_moves (s.flush_moves.comp (State.decideReadResource_moves _ r))⟩
  | readMember a => exact ⟨_, rfl, s.frame_moves (s.flush_moves.comp (State.decideReadMember_moves _ a))⟩
  | badFrame i ps => exact ⟨_, rfl, s.badFrame_moves i ps⟩
  | frameAborted bs => exact ⟨_, rfl, s.frameAborted_moves bs⟩
  | eventRemoval => exact ⟨_, rfl, s.eventRemoval_moves⟩
  | hardwareReset => exact absurd rfl h1
  | resetRelease a f => exact absurd rfl (h2 a f)
  | reqRise n h => exact ⟨_, rfl, s.reqRise_moves n h⟩
  | reqFall n h => exact ⟨_, rfl, s.reqFall_moves n h⟩
  | roundStart => exact ⟨_, rfl, s.roundStart_moves⟩
  | roundTaken h e => exact absurd rfl (h3 h e)
  | roundVoided w f => exact ⟨_, rfl, s.roundVoided_moves w f⟩
  | roundMissed f => exact ⟨_, rfl, s.roundMissed_moves⟩
  | busStuck => exact ⟨_, rfl, s.busStuck_moves⟩
  | busRecovered => exact ⟨_, rfl, s.busRecovered_moves⟩
  | listenWindowExpiry => exact absurd rfl h4
  | answerLimitExpiry => exact ⟨_, rfl, s.answerLimitExpiry_moves⟩
  | backoffEnd => exact ⟨_, rfl, s.backoffEnd_moves⟩
  | snapshotLimitExpiry => exact ⟨_, rfl, s.snapshotLimitExpiry_moves⟩
  | beaconTimerExpiry => exact ⟨_, rfl, s.beaconTimerExpiry_moves⟩
  | absenceTimerExpiry m => exact ⟨_, rfl, s.absenceTimerExpiry_moves m⟩
  | leaseExpiry c => exact ⟨_, rfl, s.leaseExpiry_moves c⟩
  | yieldExpiry c => exact ⟨_, rfl, s.yieldExpiry_moves c⟩
  | retryExpiry n => exact ⟨_, rfl, s.retryExpiry_moves n⟩
  | owedNoticePlaced => exact ⟨_, rfl, s.flush_moves.comp (State.roomEvent_quiet _).moves⟩
  | edgeHandedOn n => exact ⟨_, rfl, s.edgeHandedOn_moves n⟩
  | noticeEffectsMade => exact ⟨_, rfl, s.flush_moves⟩

/-- What a command can do, the two of reset apart. -/
theorem exec_turns (i : Instr) (h1 : i ≠ .hardwareReset) (h2 : ∀ a f, i ≠ .resetRelease a f) :
    ∃ t, exec i s = .next t ∧ Turns s t := by
  by_cases h4 : i = .listenWindowExpiry
  · exact ⟨_, by rw [h4]; rfl, s.listenWindowExpiry_turns⟩
  · by_cases h3 : ∃ h e, i = .roundTaken h e
    · obtain ⟨h, e, rfl⟩ := h3
      exact ⟨_, rfl, s.roundTaken_turns h e⟩
    · obtain ⟨t, ht, hm⟩ := exec_moves s i h1 h2 (fun h e k => h3 ⟨h, e, k⟩) h4
      exact ⟨t, ht, hm.turns⟩

/-- Every command answers a next state. -/
theorem exec_next (i : Instr) : ∃ t, exec i s = .next t := by
  cases i <;> exact ⟨_, rfl⟩

end Sys2Proof.Machine
end

