-- ==== Sys2Proof/Laws/Forms.lean ====
section
/-! SUPPORT. Operations in the words of the statements: image checks and writes, the queuing of a LEAVE, the settling of a round. -/

namespace Sys2Proof.Machine

/-- The decision of R180 is the first check of the list that fails. -/
theorem Port.firstFailure_eq (p : Port) : p.firstFailure = p.failing := by
  unfold Port.firstFailure Port.failing Port.checks
  simp only [List.find?_append, List.find?_map, List.find?_cons, List.find?_nil]
  have e1 : ((fun c : Bool × Byte × Byte => !c.1) ∘ fun r : Fin 16 => (decide (p.n ≤ r.val ∨ 1 ≤ p.leaseLength r), 0#8, BitVec.ofNat 8 (2 + 3 * r.val)))
     = fun r : Fin 16 => decide (r.val < p.n ∧ p.leaseLength r < 1) := by
    funext r; simp; by_cases h : r.val < p.n <;> by_cases h2 : p.leaseLength r < 1 <;> simp_all; omega
  have e2 : ((fun c : Bool × Byte × Byte => !c.1) ∘ fun n : Fin 8 => (!p.lineEnabled n || setValid p.n (p.lineSet n), 1#8, BitVec.ofNat 8 (3 * n.val + 1)))
     = fun n : Fin 8 => p.lineEnabled n && !setValid p.n (p.lineSet n) := by
    funext r; simp
  rw [e1, e2]
  by_cases h1 : 1 ≤ p.n ∧ p.n ≤ 16
  · simp only [h1]
    cases h2 : sixteen.find? fun r : Fin 16 => decide (r.val < p.n ∧ p.leaseLength r < 1) with
    | some r => simp
    | none =>
      by_cases h3 : p.threshold ≤ 15
      · by_cases h4 : 1 ≤ p.leaseUnit ∧ p.leaseUnit ≤ 64
        · by_cases h5 : 1 ≤ (p.system[51]).toNat
          · by_cases h6 : 3 ≤ p.absenceLimit ∧ p.absenceLimit ≤ 15
            · cases h7 : eight.find? fun n : Fin 8 => p.lineEnabled n && !setValid p.n (p.lineSet n) <;> simp [h3, h4, h5, h6, Nat.not_lt.2 h3] <;> simp_all <;> omega
            · simp [h3, h4, h5, h6, Nat.not_lt.2 h3]; simp_all; omega
          · have : (p.system[51]).toNat = 0 := by omega
            simp [h3, h4, this, Nat.not_lt.2 h3]
        · simp [h3, h4, Nat.not_lt.2 h3]
      · simp [h3, Nat.lt_of_not_le h3]
  · simp [h1]

/-- What a write leaves at each offset (R178). -/
theorem writeBytes_get {k : Nat} (v : Vector Byte k) (o : Nat) (d : List Byte) (i : Nat) (hi : i < k) :
    (writeBytes v o d)[i] = if o ≤ i ∧ i < o + d.length then d.getD (i - o) 0#8 else v[i] := by
  induction d generalizing v o with
  | nil => simp [writeBytes]
  | cons b bs ih =>
    simp only [writeBytes, ih, List.length_cons]
    by_cases h1 : o + 1 ≤ i ∧ i < o + 1 + bs.length
    · rw [if_pos h1, if_pos (by omega)]
      have : i - o = (i - (o+1)) + 1 := by omega
      rw [this]; rfl
    · rw [if_neg h1, Vector.getElem_setIfInBounds]
      by_cases h2 : o = i
      · subst h2; simp
      · rw [if_neg h2, if_neg (by omega)]

/-- An emptied Outbox keeps the entries of the round in progress, to be removed unless taken (R116, R117). -/
theorem Outbox.keepOffered_eq (o : Outbox) : o.keepOffered = ⟨o.waitsForRound, o.nextNumber⟩ := by
  simp [Outbox.keepOffered, Outbox.without, Outbox.map, Outbox.waitsForRound]

/-- The queuing of a LEAVE: the whole next state (R63, R116, R132). -/
theorem State.queueLeave_eq (s : State) (r : LeaveReason) (h1 : (s.outbox.entries.filter Entry.offered).length ≤ 1) :
   s.queueLeave r = (({ s with
      outbox := (⟨s.outbox.waitsForRound, s.outbox.nextNumber⟩ : Outbox).place (.leave r.code) s.session.tag .session
      session := { s.session with leaveDest := some r.dest, leftSynced := s.syncFlag, leaveReason := some r }
      timers := { s.timers with snapshot := none }
      joiner := .none
      sponsor := { s.sponsor with owedAnswer := none, owedBeacon := false, owedEvicts := Vector.replicate 16 false }
      slots := Vector.ofFn fun c : Client => (s.slot c).afterLeave
        (s.outbox.entries.any fun e => e.offered && decide (e.owner = .claimUnit c))
      lines := Vector.ofFn fun n : LineNo => { s.line n with gnt := false } }) : State).enter .leaving r.cause := by
  have hsub : ∀ tag, ((⟨s.outbox.waitsForRound, s.outbox.nextNumber⟩ : Outbox).submit (.leave r.code) tag .session).1 =
     (⟨s.outbox.waitsForRound, s.outbox.nextNumber⟩ : Outbox).place (.leave r.code) tag .session := by
    intro tag
    have hr : (⟨s.outbox.waitsForRound, s.outbox.nextNumber⟩ : Outbox).room (Body.leave r.code).tier = true := by
      simp [Outbox.room, Outbox.waitsForRound, Config.outboxCapacity, Body.tier]; omega
    simp [Outbox.submit, hr, Outbox.limit]
  have hc : ∀ c, (⟨s.outbox.waitsForRound, s.outbox.nextNumber⟩ : Outbox).holdsFor c = (s.outbox.entries.any fun e => e.offered && decide (e.owner = .claimUnit c)) := by
    intro c
    simp [Outbox.holdsFor, Outbox.waitsForRound, List.any_map, List.any_filter, Function.comp_def]
  unfold State.queueLeave State.purge
  simp only [State.dropOwed_eq, State.closeSlots_eq, State.placeLeave, State.stopLoading, State.recordLeave, State.setOutbox, State.setJoiner, State.setTimers, State.setSession, Outbox.keepOffered_eq, hsub, hc]
  refine congrArg (fun u : State => u.enter .leaving r.cause) ?_
  refine State.same rfl rfl rfl rfl rfl rfl rfl rfl rfl (fun d => ?_) (fun n => ?_) rfl rfl rfl
  · simp only [State.slot, Vector.get_eq_getElem, Vector.getElem_ofFn]
    generalize (s.outbox.entries.any fun e => e.offered && decide (e.owner = .claimUnit _)) = b
    rcases s.slots[d.val] with ⟨st⟩
    unfold Slot.closed Slot.afterLeave
    cases st <;> cases b <;> rfl
  · simp only [State.line, State.slot, driven, Vector.get_eq_getElem, Vector.getElem_ofFn]
    refine congrArg (fun b => ({ s.lines[n.val] with gnt := b } : Line)) ?_
    exact decide_eq_false (Slot.closed_not_granted _ _)

/-! The count with which the events of a round's end are dated is replaced and put back: only the session count differs between. -/

@[simp] theorem State.setCount_outbox (s : State) (n : Word) : (s.setCount n).outbox = s.outbox := rfl
@[simp] theorem State.setCount_bus (s : State) (n : Word) : (s.setCount n).bus = s.bus := rfl
@[simp] theorem State.setCount_session (s : State) (n : Word) : (s.setCount n).session = { s.session with count := n } := rfl
@[simp] theorem State.setCount_slots (s : State) (n : Word) : (s.setCount n).slots = s.slots := rfl
@[simp] theorem State.setCount_lines (s : State) (n : Word) : (s.setCount n).lines = s.lines := rfl
@[simp] theorem State.setCount_sponsor (s : State) (n : Word) : (s.setCount n).sponsor = s.sponsor := rfl
@[simp] theorem State.setCount_port (s : State) (n : Word) : (s.setCount n).port = s.port := rfl
@[simp] theorem State.setCount_setCount (s : State) (m n : Word) : (s.setCount m).setCount n = s.setCount n := rfl
@[simp] theorem State.setCount_same (s : State) : s.setCount s.session.count = s := rfl

/-- The count with which the events of a taken round are dated (R123, R183). -/
theorem State.countAfter_eq (s : State) (n : Notice) : s.countAfter n = s.countWith n := by
  unfold State.countAfter State.countWith
  by_cases ht : n.tag = s.session.tag
  · cases hs : s.session.station <;> cases hb : n.body <;> simp [ht, StationState.applies, counted, Body.isFound, Body.isBeacon, Body.isSnap]
  · simp [ht]

/-- The bus after a taken round (R90, R96, R100). -/
theorem State.takeRound_bus (s : State) (h : Heard) :
    (s.takeRound h).state.bus = { s.bus with voidRun := 0, pointer := h.notice.sender + 1, round := none } := by
  have hb := (State.settle_quiet (s.setCount (s.countAfter h.notice)) h.own).bus
  simp only [State.setCount_bus] at hb
  simp [State.takeRound, pointerAfter, hb]

/-- An offer of which no removal was asked stays in the Outbox at the end of a round that did not take it (R114). -/
theorem State.settle_kept (s : State) (h : NoRemoval s) :
    s.settle false = ⟨s.setOutbox s.outbox.kept, false, false, none⟩ := by
  unfold State.settle
  split
  · rename_i hn
    have : s.outbox.kept = s.outbox := by
      simp only [Outbox.offered, List.find?_eq_none] at hn
      unfold Outbox.kept
      have : s.outbox.entries.map (fun e => { e with offered := false }) = s.outbox.entries := by
        conv_rhs => rw [← List.map_id s.outbox.entries]
        refine List.map_congr_left fun e he => ?_
        have := hn e he; rcases e with ⟨⟩; simp_all
      rw [this]
    rw [this]; rfl
  · rename_i e he
    have := h e (List.mem_of_find?_eq_some he) (by have := List.find?_some he; simpa using this)
    simp only [this, Bool.false_eq_true, if_false]
    rfl

/-- A round that is taken empties the place of the offered entry (R96, R114). -/
theorem State.settle_taken (s : State) {e : Entry} (h : s.outbox.offered = some e) :
    s.settle true = ⟨s.setOutbox (s.outbox.without Entry.offered), true, e.body.isSnap, none⟩ := by
  simp [State.settle, h]

/-- The end of a taken round that this station carried: the offered entry is gone, and no event is dated. -/
theorem State.takeRound_own (s : State) (h : Heard) {e : Entry} (ho : h.own = true) (he : s.outbox.offered = some e) :
    s.takeRound h = ⟨(s.setOutbox (s.outbox.without Entry.offered)).setBus
      { s.bus with voidRun := 0, pointer := h.notice.sender + 1, round := none }, true, e.body.isSnap, none⟩ := by
  have := (s.setCount (s.countAfter h.notice)).settle_taken (e := e) he
  simp only [State.takeRound, ho, this]
  rfl

/-- The end of a taken round of another station, with no entry to remove: the offer stays, and no event is dated. -/
theorem State.takeRound_kept (s : State) (h : Heard) (ho : h.own = false) (hr : NoRemoval s) :
    s.takeRound h = ⟨(s.setOutbox s.outbox.kept).setBus
      { s.bus with voidRun := 0, pointer := h.notice.sender + 1, round := none }, false, false, none⟩ := by
  have := (s.setCount (s.countAfter h.notice)).settle_kept hr
  simp only [State.takeRound, ho, this]
  rfl

/-- Nothing to make room for, nothing to answer: the end of a round that settles an offer of which no removal was asked. -/
theorem State.settleKept_eq (s : State) (h : NoRemoval s) : s.settleKept = { s with outbox := s.outbox.kept } := by
  unfold State.settleKept Settled.close
  rw [s.settle_kept h]
  have : (s.sponsor.owedAnswer.isSome && s.sponsor.owedAnswer.isNone) = false := by cases s.sponsor.owedAnswer <;> rfl
  simp only [State.offerRoom, State.testEnded, State.answersAfter, State.setOutbox_sponsor, this, Bool.or_self,
    Bool.false_eq_true, if_false]
  rfl

/-- A notice is delivered in every state but OFFLINE and FAULTED (R96). -/
theorem StationState.delivers_iff (st : StationState) : st.delivers = decide (st ≠ .offline ∧ st ≠ .faulted) := by cases st <;> rfl
/-- Every carried notice names this station as its sender. -/
theorem State.filled_sender (s : State) (e : Entry) : (s.filled e).sender = s.own := by
  unfold State.filled; cases e.body <;> rfl

/-- A station whose number is below the winning one does not win. -/
theorem Round.wouldWin_false (r : Round) (w : Byte) (h : ∀ k, r.number = some k → k < w) : r.wouldWin w = false := by
  unfold Round.wouldWin
  split
  · rename_i n hn
    have := h n hn
    simpa using this
  · rfl

/-- The rotation rank as a number (R86). -/
theorem rotationRank_val (a p : Addr) : (rotationRank a p).val = 15 - (a.val + 16 - p.val) % 16 := by
  revert a p; decide +kernel

/-- The client byte of a software client names it (R47, R182). -/
theorem softwareClient_of {c : Client} (hc : 8 ≤ c.val) : softwareClient (BitVec.ofNat 8 c.val) = some c := by
  have := c.isLt; simp [softwareClient, Nat.mod_eq_of_lt (by omega : c.val < 256), hc]

/-- The answers of two frames are the same where status and data are. -/
theorem State.frame_response {s u : State} {d e : Decided} (h : u.resetHeld = s.resetHeld)
    (hp : u.port.response = s.port.response) (h1 : e.status = d.status) (h2 : e.data = d.data) :
    (u.frame e).port.response = (s.frame d).port.response := by
  unfold State.frame; rw [h]; split
  · exact hp
  · simp [State.setPort, h1, h2]

end Sys2Proof.Machine
end

