-- ==== Sys2Proof/Laws/Notices.lean ====
section
/-! SUPPORT. Said once: the steps around the handling of a delivered notice that do nothing where there is nothing to do (answers,
the table check afresh, records that pass their check), and the waiter query. -/

namespace Sys2Proof.Machine

/-- With no delivered notice left, no effects are made. -/
theorem State.flush_none {s : State} (h : s.bus.delivered = none) : s.flush = s := by simp [State.flush, h]

/-- NOTICE_EFFECTS_MADE makes the effects of the delivered notice. -/
theorem exec_noticeEffectsMade {s : State} {h : Heard} (hd : s.bus.delivered = some h) :
    exec .noticeEffectsMade s = .next (s.taking.takeNotice h false none) := by
  simp only [exec, execNoticeEffectsMade, State.flush, hd]
  rfl

/-- A station with nothing to answer, or not ACTIVE, makes no answer. -/
theorem State.makeAnswers_none {s : State} (h : NothingToAnswer s ∨ s.session.station ≠ .active) : s.makeAnswers = s := by
  have h1 : s.makeSnap = s := by
    unfold State.makeSnap
    rcases h with h | h
    · rw [h.2]
    · split
      · rfl
      · simp [State.mayAnswer, h]
  unfold State.makeAnswers
  rw [h1, h1]
  refine foldl_same (fun a => ?_) _
  unfold State.makeAnswer
  rcases h with h | h
  · rw [h.1 a]; simp
  · simp [State.mayAnswer, h]

/-- Room outside the taking of a notice, where no answer is owed or none is to be made: the owed notices are served (R112). -/
theorem State.roomEvent_eq {s : State} (h : s.sponsor.owedAnswer = none ∨ NothingToAnswer s.serveOwed) : s.roomEvent = s.serveOwed := by
  unfold State.roomEvent State.answersAfter
  rcases h with h | h
  · simp [h]
  · rw [State.makeAnswers_none (.inl h), ite_self]

/-- A snapshot notice that finds no limit and no LEAVE is placed or owed (R148). -/
theorem State.submitAnswer_snap {s : State} {x : Body} (w : Serving) (hx : x.isSnap = true) (hl : s.outbox.hasLeave = false)
    (hs : s.session.station ≠ .leaving) (ho : s.sponsor.owedAnswer = none) :
    (s.setSponsor { s.sponsor with serving := some w }).submitAnswer x = s.snapMade x w := by
  have hr : (s.setSponsor { s.sponsor with serving := some w }).refuses = false := by simp [State.refuses, hl, hs]
  have hlim : s.outbox.limit x = none := by cases x <;> first | rfl | cases hx
  have ht : x.tier = 2 := by cases x <;> first | rfl | cases hx
  unfold State.submitAnswer State.submit State.offer State.snapMade
  simp only [hr, Bool.false_eq_true, if_false, State.setSponsor_outbox, Outbox.submit, hlim, ht]
  by_cases h2 : s.outbox.room 2 = true
  · simp [h2, ho, State.setSponsor, State.setOutbox]
  · simp [h2, State.setSponsor, State.setOutbox]

/-- A change that posts nothing: only an event that ends in ACTIVE from FOUNDING or ANNOUNCING posts it at its end. -/
theorem State.postActive_none {s : State} {st : StationState} (h : s.session.station ≠ .active ∨ (st ≠ .founding ∧ st ≠ .announcing)) :
    State.postActive st s = s := by
  unfold State.postActive
  split <;> simp_all

/-- Work that leaves the dated station as it is leaves the station as it is. -/
theorem State.dated_same {s : State} {n : Notice} {work : State → State} (h : work (s.setCount (s.countAfter n)) = s.setCount (s.countAfter n)) :
    s.dated n work = s := by
  unfold State.dated
  rw [h]
  rfl

/-- A notice for which nothing is recalled leaves the Outbox alone: no entry left, no slot ended. -/
theorem State.makeRoom_same {s : State} {h : Heard} (hr : s.recall h = s) : s.makeRoom h false none = s := by
  unfold State.makeRoom
  rw [hr]
  exact State.dated_same (by simp [State.offerRoom, State.testEnded])

/-- A notice that leads to no request of R113 recalls nothing. -/
theorem State.recall_same {s : State} {h : Heard} (hr : s.recallsNothing h.notice) : s.recall h = s := by
  unfold State.recall
  rcases hr with hr | hr | hr | hr | ⟨hr, hn, hv⟩
  iterate 4 (rw [hr])
  have he : s.recallEvict h.notice = s := by simp [State.recallEvict, hn]
  have hs : s.recallSnaps h.notice = s := by
    unfold State.recallSnaps
    split
    · rfl
    · rename_i v hx
      exact if_neg (hv v hx)
  rcases hr with hr | hr | hr <;> rw [hr] <;> simp only [he, hs, ite_self]

/-- A recall does not change what is owed into something owed. -/
theorem State.recall_nothingOwed {s : State} (h : Heard) (hn : NothingOwed s) : NothingOwed (s.recall h) := by
  have ask : ∀ (u : State) (t : Entry → Bool), NothingOwed u → NothingOwed (u.askBack t) := fun u t hu => hu
  have he : ∀ u : State, NothingOwed u → NothingOwed (u.recallEvict h.notice) := fun u hu => by
    unfold State.recallEvict; split
    · refine ask _ _ ⟨hu.1, hu.2.1, hu.2.2.1, fun a => ?_⟩
      have := hu.2.2.2 a
      simp only [State.setSponsor, Vector.get_eq_getElem, Vector.getElem_set] at this ⊢
      split <;> simp_all
    · exact hu
  have hs : ∀ u : State, NothingOwed u → NothingOwed (u.recallSnaps h.notice) := fun u hu => by
    unfold State.recallSnaps; split
    · exact hu
    · split
      · refine ask _ _ ?_
        unfold State.dropOwedSnap
        split
        · rename_i b hb; exact absurd (hu.2.1.symm.trans hb) (by simp)
        · exact ⟨hu.1, hu.2.1, hu.2.2.1, hu.2.2.2⟩
      · exact hu
  unfold State.recall
  split
  · exact ask _ _ hn
  · split
    · exact hn
    · exact ask _ _ hn
  · split
    · exact ask _ _ hn
    · exact hn
  iterate 3
    · split
      · exact hs _ (he _ hn)
      · exact hn
  all_goals exact hn

/-- The room of a taken notice at a station that owes nothing is its recall alone. -/
theorem State.makeRoom_none {s : State} (h : Heard) (room : Bool) (hn : NothingOwed s) :
    s.makeRoom h room none = s.recall h := by
  unfold State.makeRoom
  refine State.dated_same ?_
  have e := State.serveOwed_none (s := (s.recall h).setCount ((s.recall h).countAfter h.notice)) (State.recall_nothingOwed h hn)
  simp only [State.offerRoom, State.testEnded, e, ite_self]

/-- An event taken in LOADING keeps the check unless it completes the snapshot. -/
theorem State.keepsCheck_loading {b s : State} (h : b.session.station = .loading) :
    s.keepsCheck b = decide (s.session.station ≠ .announcing) := by
  simp [State.keepsCheck, h]

/-- An event taken in another state keeps the check exactly where it leaves table, pool and check alone. -/
theorem State.keepsCheck_other {b s : State} (h : b.session.station ≠ .loading) :
    s.keepsCheck b = decide (s.session.members = b.session.members ∧ s.pool.records = b.pool.records ∧
      s.checker.tableCheck = b.checker.tableCheck) := by
  unfold State.keepsCheck
  split <;> first | rfl | exact absurd ‹_› h

/-- An event that leaves table, pool and table check alone has no check to work out. -/
theorem State.recheck_same {b s : State} (h0 : b.session.station ≠ .loading) (h1 : s.session.members = b.session.members)
    (h2 : s.pool.records = b.pool.records) (h3 : s.checker.tableCheck = b.checker.tableCheck) : State.recheck b s = s := by
  simp [State.recheck, State.keepsCheck_other h0, h1, h2, h3]

/-- An event that calls for it has the check worked out afresh over what is held then. -/
theorem State.recheck_new {b s : State} (h : s.keepsCheck b = false)
    (h1 : s.poolFails = false) (h2 : s.membersFail sixteen = false) :
    State.recheck b s = s.setChecker { s.checker with tableCheck := tableCheckOf s.session.members s.pool.records } := by
  simp only [State.recheck, h, Bool.false_eq_true, if_false]
  have e1 : (s.setChecker { s.checker with
    tableCheck := tableCheckOf s.session.members s.pool.records }).poolFails = false := h1
  have e2 : (s.setChecker { s.checker with
    tableCheck := tableCheckOf s.session.members s.pool.records }).membersFail sixteen = false := h2
  rw [e1]
  simp only [Bool.false_eq_true, if_false, State.readMembers]
  rw [e2]
  simp

/-- Sound pool records do not fail. -/
theorem State.poolFails_sound {s : State} (h : ∀ r ∈ s.pool.records, r.sound = true) : s.poolFails = false := by
  simp only [State.poolFails, List.any_eq_false]
  intro r hr
  simp [h r hr]

/-- Sound member records do not fail. -/
theorem State.readMembers_sound {s : State} {as : List Addr} (h : ∀ a ∈ as, (s.session.members.get a).sound = true) :
    s.readMembers as = s := by
  have : s.membersFail as = false := by
    simp only [State.membersFail, List.any_eq_false]
    intro a ha
    simp [h a ha]
  simp [State.readMembers, this]

/-- Two sets share a resource. -/
theorem shares_iff (a b : Mask) : shares a b = true ↔ ∃ r : Fin 16, a.getLsbD r.val = true ∧ b.getLsbD r.val = true := by
  unfold shares
  rw [bne_iff_ne]
  constructor
  · intro h
    by_contra hn
    refine h (BitVec.eq_of_getLsbD_eq fun i hi => ?_)
    simp only [BitVec.getLsbD_and, BitVec.getLsbD_zero]
    by_contra hb
    exact hn ⟨⟨i, hi⟩, by simpa using hb⟩
  · rintro ⟨r, h1, h2⟩ h
    have := congrArg (fun m => m.getLsbD r.val) h
    rw [BitVec.getLsbD_and, h1, h2] at this
    simp at this

/-- The waiter query of an unfrozen pool of sound records. -/
theorem State.waiterQuery_sound {s : State} (h1 : s.pool.frozen = false) (h2 : ∀ r ∈ s.pool.records, r.sound = true)
    (m : Mask) : s.waiterQuery m = (s, if anyWaiter s.pool.records m then .waiter else .noWaiter) := by
  simp [State.waiterQuery, h1, State.poolFails_sound h2]

/-- A waiter is a WAITING record that contains a resource of the set (R39). -/
theorem anyWaiter_iff (recs : List PoolRecord) (m : Mask) : anyWaiter recs m = true ↔
    ∃ w ∈ recs, w.standing = .waiting ∧ ∃ r : Fin 16, w.set.getLsbD r.val = true ∧ m.getLsbD r.val = true := by
  simp only [anyWaiter, PoolRecord.isWaiting, List.any_eq_true, Bool.and_eq_true, decide_eq_true_eq, shares_iff]

end Sys2Proof.Machine
end

