-- ==== Sys2Proof/Laws/PerInstr.lean ====
section
/-! SUPPORT. One lemma per command about its frame: a well-formed command that is a frame with a decision point, BAD_FRAME apart,
has an identifier and a parameter length that R175 and 11.3 allow. -/

namespace Sys2Proof.Laws.FrameForm

/-- The frame of a command is one the Card Port accepts (R175). -/
def Statement (i : Instr) : Prop :=
  i.wellFormed = true → (∀ a b, i ≠ .badFrame a b) →
    ∀ ident ps, encodeFrame i = some (ident, ps) → lengthAllowed ident ps.length = true

theorem loadProfile (o : Byte) (d : List Byte) : Statement (.loadProfile o d) := by
  intro h _ ident ps he
  simp only [encodeFrame, Option.some.injEq, Prod.mk.injEq] at he
  obtain ⟨rfl, rfl⟩ := he
  simp only [Instr.wellFormed, loadWellFormed, Config.loadMax, Bool.and_eq_true, decide_eq_true_eq] at h
  rcases h with ⟨h1, h2⟩
  exact decide_eq_true (show 2 ≤ d.length + 1 ∧ d.length + 1 ≤ 40 from ⟨by omega, by have := of_decide_eq_true h2; omega⟩)

theorem loadLocal (o : Byte) (d : List Byte) : Statement (.loadLocal o d) := by
  intro h _ ident ps he
  simp only [encodeFrame, Option.some.injEq, Prod.mk.injEq] at he
  obtain ⟨rfl, rfl⟩ := he
  simp only [Instr.wellFormed, loadWellFormed, Config.loadMax, Bool.and_eq_true, decide_eq_true_eq] at h
  rcases h with ⟨h1, h2⟩
  exact decide_eq_true (show 2 ≤ d.length + 1 ∧ d.length + 1 ≤ 40 from ⟨by omega, by have := of_decide_eq_true h2; omega⟩)

theorem readConfig (a b c : Byte) : Statement (.readConfig a b c) := by
  intro _ _ ident ps he; cases he; rfl

theorem start : Statement .start := by
  intro _ _ ident ps he; cases he; rfl

theorem stop : Statement .stop := by
  intro _ _ ident ps he; cases he; rfl

theorem resync : Statement .resync := by
  intro _ _ ident ps he; cases he; rfl

theorem clearFault : Statement .clearFault := by
  intro _ _ ident ps he; cases he; rfl

theorem claim (c : Byte) (m : Mask) (k : Byte) : Statement (.claim c m k) := by
  intro _ _ ident ps he; cases he; rfl

theorem cancel (c : Byte) : Statement (.cancel c) := by
  intro _ _ ident ps he; cases he; rfl

theorem release (c : Byte) : Statement (.release c) := by
  intro _ _ ident ps he; cases he; rfl

theorem renew (c : Byte) : Statement (.renew c) := by
  intro _ _ ident ps he; cases he; rfl

theorem readEvent : Statement .readEvent := by
  intro _ _ ident ps he; cases he; rfl

theorem readStatus : Statement .readStatus := by
  intro _ _ ident ps he; cases he; rfl

theorem readSlot (c : Byte) : Statement (.readSlot c) := by
  intro _ _ ident ps he; cases he; rfl

theorem readResource (r : Byte) : Statement (.readResource r) := by
  intro _ _ ident ps he; cases he; rfl

theorem readMember (a : Byte) : Statement (.readMember a) := by
  intro _ _ ident ps he; cases he; rfl

theorem badFrame (i : Byte) (ps : List Byte) : Statement (.badFrame i ps) := fun _ h => absurd rfl (h i ps)

theorem frameAborted (bs : List Byte) : Statement (.frameAborted bs) := by
  intro _ _ _ _ he; cases he

theorem eventRemoval : Statement .eventRemoval := by
  intro _ _ _ _ he; cases he

theorem hardwareReset : Statement .hardwareReset := by
  intro _ _ _ _ he; cases he

theorem resetRelease (a : Addr) (f : Bool) : Statement (.resetRelease a f) := by
  intro _ _ _ _ he; cases he

theorem reqRise (n : LineNo) (h : Timing) : Statement (.reqRise n h) := by
  intro _ _ _ _ he; cases he

theorem reqFall (n : LineNo) (h : Timing) : Statement (.reqFall n h) := by
  intro _ _ _ _ he; cases he

theorem roundStart : Statement .roundStart := by
  intro _ _ _ _ he; cases he

theorem roundTaken (h : Hearing) (e : Timing) : Statement (.roundTaken h e) := by
  intro _ _ _ _ he; cases he

theorem roundVoided (w : Bool) (f : Option ReceptionFault) : Statement (.roundVoided w f) := by
  intro _ _ _ _ he; cases he

theorem roundMissed (f : ReceptionFault) : Statement (.roundMissed f) := by
  intro _ _ _ _ he; cases he

theorem busStuck : Statement .busStuck := by
  intro _ _ _ _ he; cases he

theorem busRecovered : Statement .busRecovered := by
  intro _ _ _ _ he; cases he

theorem listenWindowExpiry : Statement .listenWindowExpiry := by
  intro _ _ _ _ he; cases he

theorem answerLimitExpiry : Statement .answerLimitExpiry := by
  intro _ _ _ _ he; cases he

theorem backoffEnd : Statement .backoffEnd := by
  intro _ _ _ _ he; cases he

theorem snapshotLimitExpiry : Statement .snapshotLimitExpiry := by
  intro _ _ _ _ he; cases he

theorem beaconTimerExpiry : Statement .beaconTimerExpiry := by
  intro _ _ _ _ he; cases he

theorem absenceTimerExpiry (m : Addr) : Statement (.absenceTimerExpiry m) := by
  intro _ _ _ _ he; cases he

theorem leaseExpiry (c : Client) : Statement (.leaseExpiry c) := by
  intro _ _ _ _ he; cases he

theorem yieldExpiry (c : Client) : Statement (.yieldExpiry c) := by
  intro _ _ _ _ he; cases he

theorem retryExpiry (n : LineNo) : Statement (.retryExpiry n) := by
  intro _ _ _ _ he; cases he

theorem owedNoticePlaced : Statement .owedNoticePlaced := by
  intro _ _ _ _ he; cases he

theorem edgeHandedOn (n : LineNo) : Statement (.edgeHandedOn n) := by
  intro _ _ _ _ he; cases he

theorem noticeEffectsMade : Statement .noticeEffectsMade := by
  intro _ _ _ _ he; cases he

end Sys2Proof.Laws.FrameForm
end

