-- ==== Sys2Proof/Tests/Slice0.lean ====
section
/-! SUPPORT. The model's own tests: ill-formed commands the check refuses, the spec's worked examples, one small step of each command,
and for every statement that has hypotheses concrete states that meet them, clause by clause. -/

namespace Sys2Proof.Tests

open Sys2Proof Sys2Proof.Machine

set_option Elab.async false

/-! ### Helper states: own address 2, four resources, line 0 bound to resources 0 and 1 in class 2 -/

/-- The state after a command. -/
def after (c : Instr) (s : State) : State :=
  match exec c s with
  | .next t => t
  | .fault _ => s
  | .refused _ => s

/-- The answer of a frame. -/
def answer (c : Instr) (s : State) : Option Response := (after c s).port.response

/-- N = 4; every resource RENEWABLE, length 10, limit 2, window 1; T = 3; unit 10 ms; beacon interval 40 ms; absence limit 4. -/
def sysImage : Vector Byte 53 :=
  Vector.ofFn fun i => if i.val = 0 then 4#8 else if i.val = 49 then 3#8 else if i.val = 50 then 10#8
    else if i.val = 51 then 5#8 else if i.val = 52 then 4#8
    else if i.val % 3 = 1 then 1#8 else if i.val % 3 = 2 then 10#8 else 0x21#8

/-- Line 0 enabled, class 2, resources 0 and 1; auto-rejoin on. -/
def locImage : Vector Byte 25 :=
  Vector.ofFn fun i => if i.val = 0 then 0x82#8 else if i.val = 2 then 3#8 else if i.val = 24 then 1#8 else 0#8

/-- A station with a valid image, RESETN released. -/
def offline : State :=
  { State.reset with
    resetHeld := false, straps := ⟨2, false⟩, port := { State.reset.port with system := sysImage, loc := locImage } }

/-- The same in another station state. -/
def inState (st : StationState) : State :=
  { offline with
    session := { offline.session with station := st }
    port := { offline.port with locked := decide (st ≠ .offline ∧ st ≠ .faulted) } }

/-- This station and station 5 PRESENT. -/
def table : Table :=
  Vector.ofFn fun a => if a = 2 ∨ a = 5 then ⟨.present, none, true⟩ else .absent

/-- A station in the session of tag 12h, count 7, with a pool. -/
def member (st : StationState) (recs : List PoolRecord) : State :=
  { inState st with
    session := ⟨st, table, true, 0x12#16, 7#16, 1#12, none, false, none⟩
    timers := { Timers.stopped with beacon := some 39, absence := Timers.stopped.absence.set 5 (some 159) }
    pool := ⟨recs, false⟩
    checker := ⟨tableCheckOf table recs, 0#16, none, false⟩ }

/-- A record of the pool. -/
def record (station : Addr) (client : Client) (set : Mask) (cls : Class) (standing : Standing) : PoolRecord :=
  ⟨station, client, set, cls, cls, 0, standing, true⟩

/-- A slot in a state, with resources 0 and 1. -/
def slotIn (st : SlotState) : Slot :=
  { Slot.freeWith .none with
    state := st, set := 3#16, cls := 2, params := ⟨.renewable, 10, 2, 1⟩,
    outboxEntry := (if st = .queued then .claim else .none), owed := (if st = .pending then .claim else .none) }

/-- The station with one slot replaced. -/
def withSlot (c : Client) (v : Slot) (s : State) : State := { s with slots := s.slots.set c.val v c.isLt }

/-- The station with one line replaced. -/
def withLine (n : LineNo) (l : Line) (s : State) : State := { s with lines := s.lines.set n.val l n.isLt }

/-- The station with a notice delivered. -/
def handed (n : Notice) (own : Bool) (s : State) : State := { s with bus := { s.bus with delivered := some ⟨n, own⟩ } }

/-- An Outbox entry. -/
def entry (b : Body) (w : Owner) (offered : Bool) : Entry := ⟨b, 0x12#16, w, 1, 0, offered, false⟩

/-- The station with these Outbox entries, in a round where one of them is offered. -/
def withEntries (es : List Entry) (s : State) : State :=
  { s with
    outbox := ⟨es, 2⟩
    bus := { s.bus with round := if es.any Entry.offered then some ⟨some 0x50#8⟩ else none } }

/-- An ACTIVE station alone with station 5. -/
def active : State := member .active []

/-! ### Ill-formed commands -/

theorem test_load_without_data_is_ill_formed :
    Instr.wellFormed (.loadProfile 0#8 []) = false ∧ Instr.wellFormed (.loadLocal 0#8 []) = false ∧
      Instr.wellFormed (.loadProfile 0#8 [1#8]) = true := by decide

theorem test_load_of_40_bytes_is_ill_formed :
    Instr.wellFormed (.loadProfile 0#8 (List.replicate 40 0#8)) = false ∧
      Instr.wellFormed (.loadLocal 0#8 (List.replicate 40 0#8)) = false ∧
      Instr.wellFormed (.loadLocal 0#8 (List.replicate 39 0#8)) = true := by decide

theorem test_bad_frame_of_a_good_frame_is_ill_formed :
    Instr.wellFormed (.badFrame 0x10#8 []) = false ∧ Instr.wellFormed (.badFrame 0x10#8 [1#8]) = true ∧
      Instr.wellFormed (.badFrame 0x7F#8 []) = true := by decide

theorem test_bad_frame_longer_than_its_length_byte_is_ill_formed :
    Instr.wellFormed (.badFrame 0x10#8 (List.replicate 256 0#8)) = false ∧
      Instr.wellFormed (.badFrame 0x10#8 (List.replicate 255 0#8)) = true := by decide +kernel

theorem test_aborted_frame_past_its_decision_point_is_ill_formed :
    Instr.wellFormed (.frameAborted [0x33#8, 1#8, 0#8]) = false ∧ Instr.wellFormed (.frameAborted [0x33#8, 1#8]) = true := by
  decide

/-- A WITHDRAW of client 1 sent by station 5. -/
def aNotice : Notice := ⟨0x12#16, 5, .withdraw 1⟩

theorem test_round_taken_with_a_fault_is_ill_formed :
    Instr.wellFormed (.roundTaken (.other 0xC0#8 (aNotice.carriage.dropLast)) .atOnce) = false ∧
      Instr.wellFormed (.roundTaken (.other 0xC0#8 (aNotice.carriage ++ [0#8])) .atOnce) = false ∧
      Instr.wellFormed (.roundTaken (.other 0xC0#8 aNotice.carriage) .atOnce) = true := by decide +kernel

theorem test_void_won_and_heard_is_ill_formed :
    Instr.wellFormed (.roundVoided true (some .stopped)) = false ∧ Instr.wellFormed (.roundVoided true none) = true := by
  decide

/-! ### The spec's worked examples -/

/-- 5.8: the contention numbers of stations 3, 6 and 11 with pointer 5, and of 3 and 6 with pointer 12. -/
theorem test_three_stations_contend :
    contentionNumber 3 0 (rotationRank 3 5) = 193#8 ∧ contentionNumber 1 2 (rotationRank 6 5) = 110#8 ∧
      contentionNumber 3 0 (rotationRank 11 5) = 201#8 ∧ contentionNumber 3 0 (rotationRank 3 12) = 200#8 ∧
      contentionNumber 1 2 (rotationRank 6 12) = 101#8 := by decide

/-- 2.11: the pool after station 1's RELEASE, with T = 3 and with T = 4. -/
theorem test_promotion_reserves_a_free_resource :
    let pool : List PoolRecord := [record 4 9 4#16 1 .waiting,
      { record 6 3 6#16 0 .waiting with effective := 1, passed := 2 }, record 4 10 2#16 2 .waiting]
    (grantPass 3 pool).records = [record 4 9 4#16 1 .waiting,
      { record 6 3 6#16 0 .waiting with effective := 2 }, record 4 10 2#16 2 .holding] ∧
    (grantPass 4 pool).records = [record 4 9 4#16 1 .holding,
      { record 6 3 6#16 0 .waiting with effective := 1, passed := 3 }, record 4 10 2#16 2 .holding] := by decide +kernel

/-- 12.2, steps C and F: the bundle of 3/10 is promoted by the second overtaking and served when resource 0 is free. -/
theorem test_bundle_held_back_and_served :
    (grantPass 2 [record 1 8 1#16 1 .holding, { record 3 10 5#16 1 .waiting with passed := 1 },
      record 5 11 4#16 2 .waiting]).records =
      [record 1 8 1#16 1 .holding, { record 3 10 5#16 1 .waiting with effective := 2 }, record 5 11 4#16 2 .holding] ∧
    (grantPass 2 [{ record 3 10 5#16 1 .waiting with effective := 2 }, record 1 12 4#16 2 .waiting]).records =
      [{ record 3 10 5#16 1 .holding with effective := 2 }, record 1 12 4#16 2 .waiting] := by decide +kernel

/-- A queue of n entries without EVENTS_LOST. -/
def queueOf (n : Nat) : List Event := List.replicate n ⟨.claimGranted, 8, 800#16⟩

/-- 10.8, steps 1 to 3 and 6. -/
theorem test_overflowing_queue :
    let g : Event := ⟨.claimGranted, 9, 811#16⟩
    let l := fun n => (⟨.eventsLost n, 2, 812#16⟩ : Event)
    enqueue 2 (queueOf 30) g = queueOf 30 ++ [g] ∧
    enqueue 2 (queueOf 30 ++ [g]) ⟨.memberState .syncing, 6, 812#16⟩ = queueOf 30 ++ [g] ++ [l 1] ∧
    enqueue 2 (queueOf 30 ++ [g] ++ [l 1]) ⟨.claimYield, 10, 813#16⟩ = queueOf 30 ++ [g] ++ [l 2] ∧
    enqueue 2 (queueOf 29 ++ [g] ++ [l 2]) ⟨.memberState .present, 6, 813#16⟩ = queueOf 29 ++ [g] ++ [l 3] := by
  decide +kernel

/-- 7.10: station 3 forms tag 19 and founds; station 9 hears FOUND(19), seeks it and queues its JOIN. -/
theorem test_two_stations_found_at_once :
    let at3 : State := { inState .listening with straps := ⟨3, false⟩, timers := { Timers.stopped with listen := some 0 } }
    let at9 : State := { inState .founding with straps := ⟨9, false⟩ }
    let found := after .listenWindowExpiry at3
    let sent := after .roundStart found
    let heard := after (.roundTaken (.other 12#8 (Notice.carriage ⟨19#16, 3, .found 0#16⟩)) .atOnce) (after .roundStart at9)
    (found.session.tag, found.session.station) = (19#16, .founding) ∧
    sent.bus.round = some ⟨some 12#8⟩ ∧
    (after (.roundTaken .own .atOnce) sent).session.station = .active ∧
    (after (.roundTaken .own .atOnce) sent).bus.pointer = 4 ∧
    (heard.session.station, heard.session.tag, heard.bus.pointer) = (.seeking, 19#16, 4) ∧
    heard.outbox.entries.map Entry.body = [.join 0#16] := by decide +kernel

/-- 11.2: carriage and round lengths. -/
theorem test_round_lengths :
    (Notice.carriage ⟨1#16, 2, .found 3#16⟩).length = 7 ∧ roundBits ⟨1#16, 2, .found 3#16⟩ = 81 ∧
    roundBits ⟨1#16, 2, .withdraw 3⟩ = 71 ∧ roundBits ⟨1#16, 2, .claim 3 1 1#16⟩ = 91 ∧
    roundBits ⟨1#16, 2, .beacon 3#16 1#16 true⟩ = 111 ∧
    roundBits ⟨1#16, 2, .snapClaim 0#8 1 1 1#16 0 0 0 0#8⟩ = 121 ∧
    roundBits ⟨1#16, 2, .snapMembers (Vector.replicate 16 0#8)⟩ = 221 := by decide +kernel

/-- R162: the check of no byte is all ones, and of the digits 1 to 9 the value known for this generator and initial value. -/
theorem test_cyclic_check :
    cyclicCheck [] = 0xFFFF#16 ∧
      cyclicCheck [0x31#8, 0x32#8, 0x33#8, 0x34#8, 0x35#8, 0x36#8, 0x37#8, 0x38#8, 0x39#8] = 0x29B1#16 := by decide +kernel

/-- 11.2, R193: a CLAIM of class 2 by client 9 for resources 0 and 2, byte by byte, with no unused bit set. -/
theorem test_claim_notice_bytes :
    Notice.content ⟨0x0013#16, 3, .claim 9 2 5#16⟩ = [0x00#8, 0x13#8, 0x37#8, 0x92#8, 0x00#8, 0x05#8] ∧
    byteLevels 0x92#8 = [false, true, false, true, true, false, true, true, false, true] := by decide +kernel

/-- R92: the five reception faults, and R194: unused bits are ignored. -/
theorem test_reception_faults :
    receive 0xC0#8 [0#8, 0x12#8, 0x5D#8, 0#8] = .fault .unknownKind ∧
    receive 0x80#8 aNotice.carriage = .fault .tierMismatch ∧
    receive 0xD0#8 aNotice.carriage = .fault .classMismatch ∧
    receive 0xC0#8 aNotice.carriage.dropLast = .fault .stopped ∧
    receive 0xC0#8 (aNotice.content ++ [0#8, 0#8]) = .fault .checkMismatch ∧
    receive 0xC0#8 [0#8, 0x12#8, 0x58#8, 0x17#8, hiByte (cyclicCheck [0#8, 0x12#8, 0x58#8, 0x17#8]),
      loByte (cyclicCheck [0#8, 0x12#8, 0x58#8, 0x17#8])] = .notice aNotice := by decide +kernel

/-- 11.5: one event entry byte by byte. -/
theorem test_event_bytes :
    Event.bytes ⟨.stationState .active .founded, 2, 0x0102#16⟩ = [4#8, 2#8, 7#8, 4#8, 1#8, 2#8] ∧
    Event.bytes ⟨.claimEnded .refusedPoolFull, 9, 3#16⟩ = [3#8, 9#8, 4#8, 0#8, 0#8, 3#8] := by decide

/-! ### Steps, reset, straps -/

/-- StepRunsFrontCommand. -/
theorem test_front_command_met :
    let s : State := { offline with pending := [.readStatus, .start] }
    s.pending = .readStatus :: [.start] ∧ step s = exec .readStatus { s with pending := [.start] } := ⟨rfl, rfl⟩

/-- The state after a step. -/
def stepped (s : State) : State :=
  match step s with
  | .next t => t
  | .fault _ => s
  | .refused _ => s

/-- EmptyQueueTicksTheTimers, each clause: RESETN asserted, a running bus, a stuck bus. -/
theorem test_tick_met :
    State.reset.pending = [] ∧ State.reset.resetHeld = true ∧ active.pending = [] ∧ active.resetHeld = false ∧
      active.bus.stuck = false ∧ ({ active with bus := { active.bus with stuck := true } } : State).bus.stuck = true := by decide

/-- At the tick before the limits the expiries are queued; on a stuck bus only those of the slots. -/
theorem test_tick_queues_expiries :
    let s : State := withSlot 8 { slotIn .granted with leaseMs := 1 } active
    (stepped s).pending = [.beaconTimerExpiry, .absenceTimerExpiry 5, .leaseExpiry 8] ∧
    ((stepped s).slot 8).leaseMs = 0 ∧ (stepped s).timers.beacon = some 40 ∧
    (stepped { s with bus := { s.bus with stuck := true } }).pending = [.leaseExpiry 8] ∧
    (stepped { s with bus := { s.bus with stuck := true } }).timers.beacon = some 39 := by decide +kernel

/-- StrapsHeldUntilReset. -/
theorem test_straps_met :
    Instr.start ≠ .hardwareReset ∧ offline.resetHeld = false ∧ exec .start offline = .next (after .start offline) :=
  ⟨by decide, rfl, rfl⟩

theorem test_reset_release :
    (after (.resetRelease 9 true) State.reset).straps = ⟨9, true⟩ ∧
      (after (.resetRelease 3 true) offline).straps = ⟨2, false⟩ := by decide +kernel

theorem test_hardware_reset : after .hardwareReset active = State.reset := rfl

/-! ### Configuration image -/

/-- LoadWritesTheImage. -/
theorem test_load_met : LockFollows offline ∧ offline.resetHeld = false ∧ LockFollows active ∧ active.resetHeld = false := by
  unfold LockFollows; decide

/-- The tests of R178 where they meet: a write to the last byte, one past it, an image that is locked, no data. -/
theorem test_load_at_the_ends :
    answer (.loadProfile 14#8 (List.replicate 39 7#8)) offline = some ⟨.ok, []⟩ ∧
    (after (.loadProfile 14#8 (List.replicate 39 7#8)) offline).port.system.toList =
      sysImage.toList.take 14 ++ List.replicate 39 7#8 ∧
    answer (.loadProfile 15#8 (List.replicate 39 7#8)) offline = some ⟨.badParameter, []⟩ ∧
    answer (.loadLocal 24#8 [1#8]) offline = some ⟨.ok, []⟩ ∧
    answer (.loadLocal 24#8 [1#8, 1#8]) offline = some ⟨.badParameter, []⟩ ∧
    answer (.loadLocal 255#8 [1#8]) active = some ⟨.locked, []⟩ ∧
    answer (.loadLocal 255#8 []) active = some ⟨.badFrame, []⟩ ∧
    answer (.loadLocal 0#8 (List.replicate 40 0#8)) active = some ⟨.badFrame, []⟩ := by decide +kernel

/-- ReadConfigReturnsStoredBytes, each clause at its boundary. -/
theorem test_read_config_at_the_ends :
    LockFollows active ∧ active.resetHeld = false ∧
    answer (.readConfig 0#8 13#8 40#8) active = some ⟨.ok, sysImage.toList.drop 13⟩ ∧
    answer (.readConfig 0#8 14#8 40#8) active = some ⟨.badParameter, []⟩ ∧
    answer (.readConfig 0#8 0#8 41#8) active = some ⟨.badParameter, []⟩ ∧
    answer (.readConfig 0#8 0#8 0#8) active = some ⟨.badParameter, []⟩ ∧
    answer (.readConfig 1#8 24#8 1#8) active = some ⟨.ok, [1#8]⟩ ∧
    answer (.readConfig 1#8 25#8 1#8) active = some ⟨.badParameter, []⟩ ∧
    answer (.readConfig 2#8 0#8 1#8) active = some ⟨.badParameter, []⟩ := by unfold LockFollows; decide +kernel

/-- The image with one system byte replaced. -/
def withByte (i : Fin 53) (b : Byte) : State :=
  { offline with port := { offline.port with system := offline.port.system.set i.val b i.isLt } }

/-- StartDecidesByTheImage, each clause, and the checks of R180 at their bounds. -/
theorem test_start_met :
    active.session.station ≠ .offline ∧ offline.session.station = .offline ∧ offline.bus.delivered = none ∧
    offline.port.failing = none ∧
    (withByte 0 0#8).port.failing = some (0#8, 0#8) ∧ (withByte 0 17#8).port.failing = some (0#8, 0#8) ∧
    (withByte 11 0#8).port.failing = some (0#8, 11#8) ∧ (withByte 14 0#8).port.failing = none ∧
    (withByte 49 16#8).port.failing = some (0#8, 49#8) ∧ (withByte 50 65#8).port.failing = some (0#8, 50#8) ∧
    (withByte 51 0#8).port.failing = some (0#8, 51#8) ∧ (withByte 52 2#8).port.failing = some (0#8, 52#8) ∧
    (withByte 52 15#8).port.failing = none ∧ (withByte 0 1#8).port.failing = some (1#8, 1#8) := by decide +kernel

theorem test_start :
    answer .start active = some ⟨.wrongState, []⟩ ∧ answer .start (withByte 0 1#8) = some ⟨.badConfig, [1#8, 1#8]⟩ ∧
    (after .start offline).session.station = .listening ∧ (after .start offline).timers.listen = some 0 := by decide +kernel

/-! ### Station commands -/

/-- StationCommandsByState: in each state named nothing is owed. -/
theorem test_station_commands_met :
    NothingOwed (inState .listening) ∧ NothingOwed (inState .founding) ∧ NothingOwed (inState .seeking) ∧
    NothingOwed (inState .backoff) ∧ (inState .listening).resetHeld = false ∧ (inState .listening).bus.delivered = none ∧
    (member .leaving []).session.station = .leaving ∧ (inState .faulted).session.station = .faulted ∧
    offline.session.station = .offline ∧ offline.session.station ≠ .active ∧ offline.session.station ≠ .faulted := by
  unfold NothingOwed; decide

theorem test_station_commands :
    answer .stop offline = some ⟨.wrongState, []⟩ ∧ (after .stop (inState .seeking)).session.station = .offline ∧
    (after .stop (member .leaving [])).session.leaveDest = some .offline ∧ answer .resync offline = some ⟨.wrongState, []⟩ ∧
    answer .clearFault offline = some ⟨.wrongState, []⟩ ∧ (after .clearFault (inState .faulted)).session.station = .offline := by
  decide +kernel

/-- A round in which this station offers its BEACON, with a CLAIM behind it and a slot of each kind. -/
def busy : State :=
  withSlot 8 (slotIn .queued) <| withSlot 9 (slotIn .granted) <| withSlot 0 (slotIn .retry) <|
    withEntries [entry (.beacon 0#16 0#16 false) .session true, entry (.claim 8 2 3#16) (.claimUnit 8) false] active

/-- LeaveIsQueued: each state named; one offered entry. -/
theorem test_leave_met :
    busy.resetHeld = false ∧ busy.bus.delivered = none ∧ (busy.outbox.entries.filter Entry.offered).length ≤ 1 ∧ active.session.station = .active ∧
    (member .loading []).session.station = .loading ∧ (member .announcing []).session.station = .announcing := by decide

theorem test_leave_is_queued :
    (after .stop busy).outbox.entries.map (fun e => (e.body, e.offered, e.removal)) =
      [(.leave 0#8, false, false), (.beacon 0#16 0#16 false, true, true)] ∧
    ((after .stop busy).slot 8).state = .withdrawing ∧ ((after .stop busy).slot 9).state = .releasing ∧
    ((after .stop busy).slot 0).state = .free ∧ (after .stop busy).session.leaveDest = some .offline ∧
    (after .resync busy).session.leaveDest = some .seeking := by decide +kernel

/-- StorageUpsetByStationState: each station state, and a CLAIM that meets a failing record. -/
theorem test_storage_upset :
    let bad := { record 5 9 2#16 1 .waiting with sound := false }
    let s := handed ⟨0x12#16, 5, .claim 8 1 1#16⟩ false (member .active [bad])
    active.checker.resyncPending = false ∧
    (∀ st ∈ [StationState.active, .announcing, .loading], ((member st []).upset.session.station, (member st []).upset.session.leaveDest,
      (member st []).upset.checker.resyncPending, (member st []).upset.port.events.map Event.kind) =
        (.leaving, some .seeking, true, [.divergence .resync, .stationState .leaving .resync])) ∧
    (member .leaving []).upset.port.events.map Event.kind = [.divergence .resync] ∧ offline.upset = offline ∧
    (member .leaving []).upset.upset = (member .leaving []).upset ∧ active.freeze.pool.frozen = true ∧
    (member .leaving []).mismatch = member .leaving [] ∧ active.mismatch.session.station = .leaving ∧
    (s.session.members.get 5).state = .present ∧ (s.session.members.get 5).sound = true ∧ setValid s.port.n 1#16 = true ∧
    s.pool = ⟨bad :: [], false⟩ ∧ (after .noticeEffectsMade s).pool = ⟨[bad], true⟩ ∧
    (after .noticeEffectsMade s).session.station = .leaving := by decide +kernel

theorem test_snapshot_limit_expiry :
    let s : State := { member .loading [] with timers := { Timers.stopped with snapshot := some 160 } }
    (after .snapshotLimitExpiry s).session.station = .leaving ∧
    (after .snapshotLimitExpiry s).outbox.entries.map Entry.body = [.leave 2#8] ∧
    after .snapshotLimitExpiry active = active := by decide +kernel

/-! ### Claim commands -/

/-- ClaimCommandDecided: the operands of each clause, N being 4. -/
theorem test_claim_met :
    offline.session.station ≠ .active ∧ active.session.station = .active ∧ active.resetHeld = false ∧
    ¬ (8 ≤ (7#8).toNat ∧ (7#8).toNat ≤ 15) ∧ ¬ (8 ≤ (16#8).toNat ∧ (16#8).toNat ≤ 15) ∧
    15#8 = BitVec.ofNat 8 (15 : Client).val ∧ 8#8 = BitVec.ofNat 8 (8 : Client).val ∧
    (resources 0#16).length = 0 ∧ (resources 0x1F#16).length = 5 ∧ (resources 15#16).length = 4 ∧
    (∀ r ∈ resources 15#16, r.val < active.port.n) ∧ ¬ (∀ r ∈ resources 16#16, r.val < active.port.n) ∧
    3#8 = BitVec.ofNat 8 (3 : Class).val ∧ (active.slot 8).state = .free := by decide

theorem test_claim :
    answer (.claim 8#8 1#16 0#8) offline = some ⟨.wrongState, []⟩ ∧
    answer (.claim 7#8 1#16 0#8) active = some ⟨.badParameter, []⟩ ∧
    answer (.claim 16#8 1#16 0#8) active = some ⟨.badParameter, []⟩ ∧
    answer (.claim 8#8 16#16 0#8) active = some ⟨.badParameter, []⟩ ∧
    answer (.claim 8#8 1#16 4#8) active = some ⟨.badParameter, []⟩ ∧
    answer (.claim 9#8 1#16 4#8) busy = some ⟨.badParameter, []⟩ ∧
    answer (.claim 9#8 1#16 3#8) busy = some ⟨.slotBusy, []⟩ ∧
    ((after (.claim 15#8 15#16 3#8) active).slot 15).state = .queued ∧
    (after (.claim 15#8 15#16 3#8) active).outbox.entries.map Entry.body = [.claim 15 3 15#16] := by decide +kernel

/-- CancelAndReleaseDecided: a CLAIM that is offered, and one that is not. -/
theorem test_cancel_met :
    let offered := withSlot 8 (slotIn .queued) (withEntries [entry (.claim 8 2 3#16) (.claimUnit 8) true] active)
    (busy.slot 8).state = .queued ∧
    (∃ e ∈ busy.outbox.entries, decide (e.owner = .claimUnit 8) = true ∧ e.offered = false) ∧
    (offered.slot 8).state = .queued ∧
    (∀ e ∈ offered.outbox.entries, decide (e.owner = .claimUnit 8) = true → e.offered = true) ∧
    ((after (.cancel 8#8) busy).slot 8).state = .free ∧ (after (.cancel 8#8) busy).outbox.entries.length = 1 ∧
    ((after (.cancel 8#8) offered).slot 8).state = .withdrawing ∧
    ((after (.cancel 8#8) offered).slot 8).removalPending = true ∧
    (after (.cancel 8#8) offered).outbox.entries.map Entry.removal = [true] := by decide +kernel

/-- The other states of CANCEL and RELEASE. -/
theorem test_cancel_and_release_by_state :
    (∀ x ∈ [(SlotState.pending, Status.ok), (.waiting, .ok), (.granted, .notWaiting), (.yielding, .notWaiting),
      (.free, .wrongState), (.releasing, .wrongState), (.withdrawing, .wrongState), (.retry, .wrongState)],
      answer (.cancel 8#8) (withSlot 8 (slotIn x.1) active) = some ⟨x.2, []⟩) ∧
    (∀ x ∈ [(SlotState.granted, Status.ok), (.yielding, .ok), (.releasing, .alreadyReleasing), (.waiting, .notGranted)],
      answer (.release 8#8) (withSlot 8 (slotIn x.1) active) = some ⟨x.2, []⟩) ∧
    answer (.release 8#8) (withSlot 8 { slotIn .releasing with reason := .forced } active) = some ⟨.tooLate, []⟩ ∧
    answer (.cancel 7#8) active = some ⟨.badParameter, []⟩ ∧ answer (.release 16#8) active = some ⟨.badParameter, []⟩ := by
  decide +kernel

/-- An ACTIVE station with client 8 GRANTED at this renewal count and a pool. -/
def holder (mode : LeaseMode) (renewals : Nat) (recs : List PoolRecord) : State :=
  withSlot 8 { slotIn .granted with params := ⟨mode, 10, 2, 1⟩, leaseMs := 5, renewals := renewals } (member .active recs)

/-- A pool in which a claim waits for resource 1. -/
def waited : List PoolRecord := [record 2 8 3#16 2 .holding, record 5 9 2#16 1 .waiting]

/-- RenewDecided (and the renewals of SlotTimersExpire), each clause. -/
theorem test_renew_met :
    (active.slot 8).state ≠ .granted ∧ ((holder .fixed 0 waited).slot 8).state = .granted ∧
    (holder .fixed 0 waited).pool.frozen = false ∧ (∀ r ∈ (holder .fixed 0 waited).pool.records, r.sound = true) ∧
    (∃ w ∈ waited, w.standing = .waiting ∧
      ∃ r : Fin 16, w.set.getLsbD r.val = true ∧ ((holder .fixed 0 waited).slot 8).set.getLsbD r.val = true) ∧
    ((holder .renewable 1 waited).slot 8).renewals < ((holder .renewable 1 waited).slot 8).params.limit ∧
    ((holder .renewable 2 waited).slot 8).params.limit ≤ ((holder .renewable 2 waited).slot 8).renewals ∧
    (holder .fixed 0 waited).bus.delivered = none := by decide

theorem test_renew :
    answer (.renew 8#8) active = some ⟨.notGranted, []⟩ ∧ answer (.renew 0#8) active = some ⟨.badParameter, []⟩ ∧
    answer (.renew 8#8) (holder .fixed 0 []) = some ⟨.denied, []⟩ ∧
    answer (.renew 8#8) (holder .renewable 2 waited) = some ⟨.denied, []⟩ ∧
    answer (.renew 8#8) { holder .renewable 0 [] with pool := ⟨[], true⟩ } = some ⟨.denied, []⟩ ∧
    answer (.renew 8#8) (holder .renewable 0 [{ record 5 9 4#16 1 .waiting with sound := false }]) = some ⟨.denied, []⟩ ∧
    (let t := after (.renew 8#8) (holder .renewable 1 waited);
      (t.port.response, (t.slot 8).renewals, (t.slot 8).leaseMs) = (some ⟨.ok, []⟩, 2, 100)) ∧
    ((after (.renew 8#8) (holder .renewable 2 [])).slot 8).renewals = 0 := by decide +kernel

/-- LeaseParametersOfASet: a set that is not empty, and a bundle of a FIXED and a RENEWABLE resource. -/
theorem test_lease_parameters :
    resources 3#16 ≠ [] ∧ ((withByte 4 0#8).port.leaseParams 3#16).mode = .fixed ∧
    (offline.port.leaseParams 3#16) = ⟨.renewable, 10, 2, 1⟩ ∧ ((withByte 6 0x10#8).port.leaseParams 3#16) = ⟨.renewable, 10, 1, 1⟩ := by
  decide +kernel

/-! ### Events, inspection, bad frames -/

/-- An OFFLINE station with one event, ATTN asserted. -/
def oneEvent : State := { offline with port := { offline.port with events := [⟨.busStuck, 2, 0#16⟩], attn := true } }

/-- ReadEventKeepsHeadUntilRemoval, each clause. -/
theorem test_read_event :
    offline.port.events = [] ∧ answer .readEvent offline = some ⟨.noEvent, []⟩ ∧
    oneEvent.port.events = ⟨.busStuck, 2, 0#16⟩ :: [] ∧ (after .readEvent oneEvent).port.reading = true ∧
    answer .readEvent oneEvent = some ⟨.ok, [7#8, 2#8, 0#8, 0#8, 0#8, 0#8]⟩ ∧
    (after .readEvent oneEvent).port.events = oneEvent.port.events ∧
    (after .eventRemoval (after .readEvent oneEvent)).port.events = [] ∧
    (after .eventRemoval (after .readEvent oneEvent)).port.attn = false ∧
    oneEvent.port.reading = false ∧ after .eventRemoval oneEvent = oneEvent := by decide +kernel

/-- PostingReachesTheQueue: the layout of 11.5, an entry of each number of reason bytes. -/
theorem test_event_layout :
    Event.bytes ⟨.claimEnded .resync, 9, 0x0102#16⟩ = [3#8, 9#8, 11#8, 0#8, 1#8, 2#8] ∧
    Event.bytes ⟨.eventsLost 255, 2, 0x0102#16⟩ = [10#8, 2#8, 255#8, 0#8, 1#8, 2#8] ∧
    Event.bytes ⟨.stationState .faulted .clearFault, 2, 0#16⟩ = [4#8, 2#8, 9#8, 22#8, 0#8, 0#8] ∧
    Event.bytes ⟨.addressClash, 2, 0#16⟩ = [9#8, 2#8, 0#8, 0#8, 0#8, 0#8] := by decide

/-- PostingReachesTheQueue: a queue of each form of the table, 30, 31 and 32 entries, and a count of 254 and 255. -/
theorem test_posting_met :
    EventForm (queueOf 30) ∧ EventForm (queueOf 31) ∧ EventForm (queueOf 31 ++ [⟨.eventsLost 255, 2, 5#16⟩]) ∧
    EventForm [⟨.eventsLost 254, 2, 5#16⟩] ∧ (∀ x ∈ queueOf 31, x.isLost = false) ∧
    enqueue 2 [⟨.eventsLost 254, 2, 5#16⟩] ⟨.claimYield, 8, 9#16⟩ = [⟨.eventsLost 255, 2, 5#16⟩] ∧
    enqueue 2 [⟨.eventsLost 255, 2, 5#16⟩] ⟨.claimYield, 8, 9#16⟩ = [⟨.eventsLost 255, 2, 5#16⟩] := by
  unfold EventForm
  refine ⟨⟨by decide, by decide, by decide⟩, ⟨by decide, by decide, by decide⟩, ⟨by decide, by decide, fun _ => ⟨_, rfl, rfl⟩⟩,
    ⟨by decide, by decide, by decide⟩, by decide, by decide, by decide⟩

/-- ReadStatusAndSlotReport. -/
theorem test_read_status_and_slot :
    answer .readStatus (member .active waited) =
      some ⟨.ok, [7#8, 2#8, 0#8, 0x12#8, 0#8, 7#8, 2#8, 0#8, 0x10#8, 0#8, 0#8]⟩ ∧
    answer (.readSlot 16#8) active = some ⟨.badParameter, []⟩ ∧
    answer (.readSlot 8#8) (holder .renewable 1 waited) = some ⟨.ok,
      [4#8, 130#8, 0#8, 3#8, 1#8, 10#8, 0x21#8, 0#8, 0#8, 1#8, 0#8, 0#8, 0#8, 0#8, 0#8, 0#8, 0#8, 0#8, 0#8]⟩ ∧
    answer (.readSlot 0#8) (withLine 0 ⟨true, false, false, []⟩ offline) = some ⟨.ok,
      [0#8, 0#8, 0#8, 0#8, 0#8, 0#8, 0#8, 0#8, 0#8, 0#8, 0#8, 0#8, 0#8, 0#8, 0#8, 130#8, 0#8, 3#8, 9#8]⟩ := by decide +kernel

/-- ReadResourceAndMemberReport, each clause at its boundary; the unsound record. -/
theorem test_read_resource_and_member :
    answer (.readResource 4#8) (member .active waited) = some ⟨.badParameter, []⟩ ∧
    answer (.readResource 3#8) (member .active waited) = some ⟨.ok, [0#8, 0#8, 0#8, 0#8]⟩ ∧
    answer (.readResource 1#8) (member .active waited) = some ⟨.ok, [1#8, 0x28#8, 1#8, 0x59#8]⟩ ∧
    answer (.readResource 1#8) (member .active [record 5 9 2#16 1 .waiting]) = some ⟨.ok, [2#8, 0#8, 1#8, 0x59#8]⟩ ∧
    (let t := after (.readResource 1#8) (member .active [{ record 5 9 2#16 1 .waiting with sound := false }]);
      (t.port.response, t.pool.frozen, t.session.station) = (some ⟨.ok, [128#8, 0#8, 0#8, 0#8]⟩, true, .leaving)) ∧
    answer (.readMember 16#8) active = some ⟨.badParameter, []⟩ ∧
    answer (.readMember 5#8) active = some ⟨.ok, [3#8, 0x10#8, 1#8, 0#8, 19#8]⟩ ∧
    answer (.readMember 15#8) active = some ⟨.ok, [0#8, 0x10#8, 0#8, 0#8, 0#8]⟩ := by decide +kernel

/-- BadAndAbortedFrames, each clause. -/
theorem test_bad_and_aborted_frames :
    lengthAllowed 0x10#8 1 = false ∧ lengthAllowed 0x35#8 0 = false ∧ lengthAllowed 0x01#8 40 = true ∧
    lengthAllowed 0x01#8 41 = false ∧ lengthAllowed 0x02#8 2 = true ∧ lengthAllowed 0x02#8 1 = false ∧
    lengthAllowed 0x03#8 3 = true ∧ lengthAllowed 0x20#8 4 = true ∧ lengthAllowed 0x34#8 1 = true ∧ lengthAllowed 0x31#8 0 = true ∧
    answer (.badFrame 0x35#8 []) active = some ⟨.badFrame, []⟩ ∧
    [0x20#8].length < 2 ∧ answer (.frameAborted [0x20#8, 4#8, 8#8]) active = none ∧
    after (.frameAborted [0x10#8, 0#8]) active = active := by decide +kernel

/-! ### Client lines -/

/-- An ACTIVE station whose line 0 has REQ high and the slot in this state. -/
def lineHigh (v : Slot) : State := withLine 0 ⟨true, v.state = .granted, false, []⟩ (withSlot 0 v active)

/-- ReqRiseStartsLineClaim, ReqFallLetsTheClaimGo: the line of each clause. -/
theorem test_lines_met :
    (lineHigh (slotIn .waiting)).resetHeld = false ∧ ((lineHigh (slotIn .waiting)).line 0).req = true ∧
    (active.line 0).req = false ∧ (active.line 0).edges = [] ∧ active.port.lineEnabled 0 = true ∧
    active.port.lineEnabled 1 = false ∧ ((after (.reqRise 0 .later) active).line 0).edges = .rise :: [] ∧
    ((after (.reqFall 0 .later) (lineHigh (slotIn .waiting))).line 0).edges = .fall :: [] ∧
    exec (.reqRise 0 .later) active = .next (after (.reqRise 0 .later) active) := by
  refine ⟨?_, ?_, ?_, ?_, ?_, ?_, ?_, ?_, rfl⟩ <;> decide +kernel

theorem test_req_rise :
    ((after (.reqRise 0 .atOnce) active).slot 0).state = .queued ∧ ((after (.reqRise 0 .atOnce) active).slot 0).cls = 2 ∧
    (after (.reqRise 1 .atOnce) active).slot 1 = active.slot 1 ∧ ((after (.reqRise 1 .atOnce) active).line 1).req = true ∧
    ((after (.reqRise 0 .atOnce) offline).slot 0).state = .free ∧
    after (.reqRise 0 .atOnce) (lineHigh (slotIn .waiting)) = lineHigh (slotIn .waiting) := by decide +kernel

theorem test_req_fall :
    (∀ x ∈ [(SlotState.pending, SlotState.free), (.waiting, .withdrawing), (.granted, .releasing), (.yielding, .releasing),
      (.retry, .free), (.releasing, .releasing), (.withdrawing, .withdrawing)],
      ((after (.reqFall 0 .atOnce) (lineHigh (slotIn x.1))).slot 0).state = x.2) ∧
    ((after (.reqFall 0 .atOnce) (lineHigh (slotIn .granted))).line 0).gnt = false ∧
    after (.reqFall 0 .atOnce) active = active := by decide +kernel

/-- ReqRiseStartsLineClaim, ReqFallLetsTheClaimGo: edges still wait when the next is handed on at once. -/
theorem test_edges_in_order :
    let waiting := after (.reqFall 0 .later) (lineHigh (slotIn .granted))
    (waiting.line 0).edges = [.fall] ∧ (waiting.line 0).req = false ∧ waiting.bus.delivered = none ∧
    ((after (.reqRise 0 .atOnce) waiting).slot 0).state = .releasing ∧ ((after (.reqRise 0 .atOnce) waiting).line 0).edges = [] ∧
    ((after (.reqFall 0 .atOnce) (after (.reqRise 0 .later) active)).slot 0).state = .free ∧
    (after (.reqFall 0 .atOnce) (after (.reqRise 0 .later) active)).port.events.map Event.kind = [] := by decide +kernel

theorem test_edge_handed_on :
    ((after (.edgeHandedOn 0) (after (.reqRise 0 .later) active)).slot 0).state = .queued ∧
    ((after (.reqRise 0 .later) active).slot 0).state = .free ∧ after (.edgeHandedOn 0) active = active := by decide +kernel

/-! ### Rounds -/

/-- RoundStartAndContention: a start bit is driven after eleven recessive bit times of both lines and no sooner, with an entry, in no round's
dominant bit, and not on a stuck bus (R84). -/
theorem test_start_bit :
    let s := withEntries [entry (.claim 8 2 3#16) (.claimUnit 8) false] active
    let gap := List.replicate 11 false
    s.bus.round = none ∧ s.outbox.offered = none ∧ s.drivesStart gap gap = true ∧ s.drivesStart (true :: gap) gap = true ∧
    s.drivesStart (gap.drop 1) gap = false ∧ s.drivesStart (gap ++ [true]) gap = false ∧ s.drivesStart gap (gap ++ [true]) = false ∧
    active.drivesStart gap gap = false ∧ State.drivesStart { s with bus := { s.bus with stuck := true } } gap gap = false ∧
    startBit gap gap true = true ∧ startBit gap gap false = false := by decide +kernel

/-- RoundStartAndContention, each clause: an idle bus with entries and without, FAULTED, a round, a stuck bus. -/
theorem test_round_start :
    active.resetHeld = false ∧ active.bus.stuck = false ∧ active.bus.round = none ∧ active.outbox.entries = [] ∧
    (after .roundStart active).bus.round = some ⟨none⟩ ∧ busy.bus.round ≠ none ∧ after .roundStart busy = busy ∧
    (inState .faulted).session.station = .faulted ∧
    (let s := withEntries [entry (.claim 8 2 3#16) (.claimUnit 8) false] active;
      (after .roundStart s).bus.round = some ⟨some 0x6D#8⟩ ∧
      (after .roundStart s).outbox.entries.map Entry.offered = [true]) := by decide +kernel

/-- RoundStartAndContention: three stations contend; 43h loses at its first bit and 91h at its third. -/
theorem test_contention_line :
    contentionLine 8 ([0x43#8, 0xB0#8, 0x91#8].map numberLevels) = numberLevels 0xB0#8 ∧
    numberRead (numberLevels 0xB0#8) = 0xB0#8 ∧ lostContention 0x91#8 (numberLevels 0xB0#8) = true ∧
    lostContention 0xB0#8 (numberLevels 0xB0#8) = false ∧
    drivenUntilMismatch (numberLevels 0x91#8) (numberLevels 0xB0#8) = numberLevels 0x80#8 := by decide +kernel

/-- The own number equal to the winning one: the other station cannot have won. -/
theorem test_contention_met :
    busy.bus.round = some ⟨some 0x50#8⟩ ∧ 0x50#8 ≤ (0x50#8 : Byte) ∧
    after (.roundTaken (.other 0x50#8 []) .atOnce) busy = busy := by decide +kernel

/-- TakenRoundSettlesAndDelivers: the kinds of the carried fields. -/
theorem test_carried_fields_met :
    active.session.founded = true ∧ offline.session.founded = false ∧
    (active.filled (entry (.refuse 9 1) .session true)).body = .refuse 9 1 ∧
    (offline.filled (entry (.admitJoiner 9 0#16) .session true)).body = .admitJoiner 9 0#16 ∧
    (active.filled (entry (.admitJoiner 9 0#16) .session true)).body = .admitJoiner 9 8#16 ∧
    (active.filled (entry (.beacon 0#16 0#16 false) .session true)).body =
      .beacon active.checker.tableCheck 7#16 true := by decide +kernel

/-- A winning number above 50h whose carriage is a RELEASE of client 8 by station 5. -/
def releaseOf5 : Notice := ⟨0x12#16, 5, .release 8 0⟩

/-- TakenRoundSettlesAndDelivers, VoidedMissedAndStuckRounds, EffectsLaterEqualEffectsAtOnce. -/
theorem test_rounds_met :
    busy.bus.round ≠ none ∧ busy.bus.delivered = none ∧
    busy.outbox.offered = some (entry (.beacon 0#16 0#16 false) .session true) ∧ NothingOwed busy ∧ NoRemoval busy ∧
    busy.bus.round = some ⟨some 0x50#8⟩ ∧ (∀ k, (⟨some 0x50#8⟩ : Round).number = some k → k < 0xC0#8) ∧
    receive 0xC0#8 releaseOf5.carriage = .notice releaseOf5 ∧
    exec (.roundTaken .own .later) busy = .next (after (.roundTaken .own .later) busy) := by
  refine ⟨by decide, by decide, by decide, by unfold NothingOwed; decide, by unfold NoRemoval; decide, by decide, ?_,
    by decide +kernel, rfl⟩
  intro k hk; cases hk; decide

theorem test_round_taken :
    (after (.roundTaken .own .atOnce) busy).bus.pointer = 3 ∧
    (after (.roundTaken .own .atOnce) busy).outbox.entries.map Entry.body = [.claim 8 2 3#16] ∧
    (let t := after (.roundTaken (.other 0xC0#8 releaseOf5.carriage) .atOnce) { busy with pool := ⟨[record 5 8 3#16 0 .holding], false⟩ };
      t.bus.pointer = 6 ∧ t.pool.records = [] ∧ t.session.count = 8#16 ∧ t.outbox.entries.map Entry.offered = [false, false]) ∧
    (after (.roundTaken .own .later) busy).bus.delivered ≠ none ∧
    (after .noticeEffectsMade (after (.roundTaken .own .later) busy)).bus.delivered = none := by decide +kernel

/-- LostOfferIsRemoved: the CLAIM of a WITHDRAWING slot and of a closing one, and an entry of the session, at each end of a round. -/
theorem test_lost_offer_met :
    let v := { slotIn .withdrawing with outboxEntry := .claim, removalPending := true }
    let e := { entry (.claim 8 2 3#16) (.claimUnit 8) true with removal := true }
    let s := withSlot 8 v (withEntries [e] active)
    let closing := withSlot 8 { v with closing := true } s
    let join := withEntries [{ entry (.join 0#16) .session true with removal := true }] (inState .seeking)
    NothingOwed s ∧ NothingToAnswer s ∧ s.outbox.offered = some e ∧ e.removal = true ∧ e.owner = .claimUnit 8 ∧
    s.bus.delivered = none ∧ s.bus.round = some ⟨some 0x50#8⟩ ∧ s.resetHeld = false ∧ s.bus.stuck = false ∧
    NothingOwed join ∧ NothingToAnswer join ∧ join.bus.round ≠ none ∧
    (∀ c ∈ [Instr.roundTaken (.other 0xC0#8 releaseOf5.carriage) .later, .roundVoided false none, .roundVoided true none, .busStuck],
      ((after c s).slot 8).state = .free ∧ (after c s).outbox.entries = [] ∧ ((after c closing).slot 8).state = .withdrawing ∧
      ((after c closing).slot 8).outboxEntry = .none) ∧
    (after (.roundMissed .stopped) join).outbox.entries = [] := by
  unfold NothingOwed NothingToAnswer; decide +kernel

/-- LostOfferIsRemoved: the fall to FAULTED with REQ high again: the slot has ended as WITHDRAWN and starts no claim (log 37). -/
theorem test_lost_offer_fall :
    let v := { slotIn .withdrawing with outboxEntry := .claim, removalPending := true }
    let e := { entry (.claim 0 2 3#16) (.claimUnit 0) true with removal := true, voids := 15 }
    let t := after (.roundVoided true none) (withEntries [e] (lineHigh v))
    t.session.station = .faulted ∧ t.port.events.map Event.kind = [.claimEnded .withdrawn, .stationState .faulted .voidLimit] ∧
    (t.slot 0).state = .free := by decide +kernel

/-- EffectsLaterEqualEffectsAtOnce: a greater tag delivered to an ACTIVE station before its STOP, and before a timer's end. -/
theorem test_effects_come_first :
    let s := handed ⟨0x13#16, 9, .leave 0#8⟩ false active
    let w := handed ⟨0x25#16, 5, .leave 0#8⟩ false { inState .listening with timers := { Timers.stopped with listen := some 200 } }
    exec .noticeEffectsMade s = .next (after .noticeEffectsMade s) ∧ s.resetHeld = false ∧
    (after .noticeEffectsMade s).session.station = .seeking ∧ (after .stop s).session.station = .offline ∧
    w.session.station = .listening ∧ w.timers.listen ≠ none ∧ w.bus.stuck = false ∧
    (after .listenWindowExpiry w).session.station = .seeking := by
  refine ⟨rfl, ?_, ?_, ?_, ?_, ?_, ?_, ?_⟩ <;> decide +kernel

/-- EffectsLaterEqualEffectsAtOnce: an EVICT delivered to a holder whose pool has a failing record, before a renewal that would find
it; without auto-rejoin the station is OFFLINE, as the state at the delivery has it (R125, R138). -/
theorem test_renewal_comes_after :
    let x := lineHigh (slotIn .granted)
    let s := handed ⟨0x12#16, 5, .evict 2⟩ false { withSlot 8 (slotIn .granted) x with
      pool := ⟨[{ record 5 9 4#16 1 .waiting with sound := false }], false⟩
      port := { x.port with loc := Vector.replicate 25 0#8 } }
    (s.slot 0).state = .granted ∧ s.port.autoRejoin = false ∧ (after (.leaseExpiry 0) s).session.station = .offline ∧
    (after (.renew 8#8) s).session.station = .offline ∧
    (answer .readStatus s).map (fun r => r.data[0]?) = some (some 0#8) ∧
    (answer (.readSlot 8#8) s).map (fun r => r.data[0]?) = some (some 0#8) := by decide +kernel

/-- EffectsLaterEqualEffectsAtOnce: an EVICT delivered before commands that would be refused slot busy: the station without auto-rejoin
is OFFLINE, and it is no mismatch (R125, R138). -/
theorem test_commands_come_after :
    let busySlots := withEntries [entry (.withdraw 8) (.claimUnit 8) false, entry (.withdraw 0) (.claimUnit 0) false]
    let s := fun (x : State) => handed ⟨0x12#16, 5, .evict 2⟩ false { busySlots x with
      port := { x.port with loc := x.port.loc.set 24 0#8 } }
    let low := withSlot 8 (slotIn .free) active
    (∀ x ∈ [(Instr.claim 8#8 1#16 0#8, low), (.cancel 8#8, withSlot 8 (slotIn .waiting) active),
        (.release 8#8, withSlot 8 (slotIn .granted) active), (.readEvent, low), (.reqRise 0 .atOnce, low),
        (.reqFall 0 .atOnce, lineHigh (slotIn .granted)), (.yieldExpiry 8, withSlot 8 (slotIn .yielding) active),
        (.retryExpiry 0, lineHigh (slotIn .retry)), (.owedNoticePlaced, low), (.busStuck, low),
        (.edgeHandedOn 0, after (.reqFall 0 .later) (lineHigh (slotIn .granted)))],
      (s x.2).resetHeld = false ∧ (s x.2).port.lineEnabled 0 = true ∧ (after x.1 (s x.2)).session.station = .offline) ∧
    (after (.claim 8#8 1#16 0#8) (busySlots low)).session.station = .leaving ∧
    exec .noticeEffectsMade active = .next active ∧ exec .noticeEffectsMade (s low) = .next (after .noticeEffectsMade (s low)) := by
  refine ⟨?_, ?_, rfl, rfl⟩ <;> decide +kernel

/-- TakenRoundSettlesAndDelivers, LostOfferIsRemoved: an owed RELEASE is placed at the end of the round; the removed CLAIM's end carries
the count with the notice applied (R183). EffectsLaterEqualEffectsAtOnce: the notice recalls nothing. -/
theorem test_room_at_the_end_of_a_round :
    let v := { slotIn .withdrawing with outboxEntry := .claim, removalPending := true }
    let e := { entry (.claim 8 2 3#16) (.claimUnit 8) true with removal := true }
    let s := withSlot 9 { slotIn .releasing with owed := .release } (withSlot 8 v (withEntries [e] active))
    let full := withSlot 9 { slotIn .releasing with owed := .release } (withEntries
      (entry (.beacon 0#16 0#16 false) .session true :: List.replicate 7 (entry (.claim 3 2 3#16) .session false)) active)
    let c := Instr.roundTaken (.other 0xC0#8 releaseOf5.carriage) .later
    s.sponsor.owedAnswer = none ∧ NothingToAnswer s ∧ (s.slot 9).owed ≠ .none ∧ s.outbox.offered = some e ∧
    ((after c s).slot 9).outboxEntry = .release ∧ (after c s).port.events = [⟨.claimEnded .withdrawn, 8, 8#16⟩] ∧
    (after c s).session.count = 7#16 ∧ s.recallsNothing releaseOf5 ∧
    full.outbox.room 3 = false ∧ ((after (.roundTaken .own .later) full).slot 9).outboxEntry = .release := by
  unfold NothingToAnswer
  refine ⟨by decide, by decide, by decide, by decide, by decide +kernel, by decide +kernel, by decide +kernel,
    .inr (.inr (.inr (.inr ⟨.inr (.inl rfl), rfl, fun _ h => (nomatch h)⟩))), by decide, by decide +kernel⟩

/-- TakenRoundSettlesAndDelivers, OwedNoticeIsPlaced: a slot-busy refusal in the room of a taken notice is dated with the notice applied (R110,
R183), whenever its effects are made. -/
theorem test_refusal_in_the_room_is_dated :
    let s := fun (es : List Entry) => withSlot 9 { slotIn .releasing with owed := .release }
      (withEntries (es ++ [entry (.withdraw 9) (.claimUnit 9) false]) active)
    let own := s [entry (.release 8 0) (.claimUnit 8) true]
    let upset : List Event := [⟨.divergence .resync, 2, 8#16⟩, ⟨.stationState .leaving .resync, 2, 8#16⟩]
    (after (.roundTaken .own .later) own).port.events = upset ∧ (after (.roundTaken .own .later) own).session.count = 7#16 ∧
    (after (.roundTaken .own .atOnce) own).port.events = upset ∧ (after (.roundTaken .own .atOnce) own).session.count = 8#16 ∧
    ((after .noticeEffectsMade (handed ⟨0x12#16, 5, .leave 0#8⟩ false (s [entry (.evict 5) .session false]))).port.events.take 2) =
      upset := by decide +kernel

/-- The offered CLAIM of a WITHDRAWING slot is taken in the event whose failing member record closes the slot: its removal pending flag
stays (log 42). -/
theorem test_removal_pending_stays :
    let v := { slotIn .withdrawing with outboxEntry := .claim, removalPending := true }
    let e := { entry (.claim 8 2 3#16) (.claimUnit 8) true with removal := true }
    let x := withSlot 8 v (withEntries [e] active)
    let t := after (.roundTaken .own .atOnce)
      { x with session := { x.session with members := x.session.members.set 2 ⟨.present, none, false⟩ } }
    t.session.station = .leaving ∧ t.pool.frozen = false ∧ (t.slot 8).state = .withdrawing ∧ (t.slot 8).closing = true ∧
    (t.slot 8).outboxEntry = .none ∧ (t.slot 8).removalPending = true := by decide +kernel

/-- The limits of R99 and R100, met at the 16th void and the fourth in a run. -/
theorem test_round_voided :
    let e := { entry (.beacon 0#16 0#16 false) .session true with voids := 14 }
    let s := withEntries [e] active
    NoRemoval s ∧ s.bus.round ≠ none ∧ s.outbox.offered = some e ∧
    (after (.roundVoided true none) s).outbox.entries.map Entry.voids = [15] ∧
    (after (.roundVoided true none) s).session.station = .active ∧
    (after (.roundVoided true none) (withEntries [{ e with voids := 15 }] active)).session.station = .faulted ∧
    (after (.roundVoided false (some .checkMismatch)) { s with bus := { s.bus with voidRun := 2 } }).bus.voidRun = 3 ∧
    (after (.roundVoided false (some .checkMismatch)) { s with bus := { s.bus with voidRun := 3 } }).session.station =
      .faulted := by unfold NoRemoval; decide +kernel

theorem test_round_missed_and_stuck_bus :
    (after (.roundMissed .stopped) { inState .seeking with bus := { active.bus with round := some ⟨none⟩ } }).bus.round = none ∧
    (after .busStuck busy).bus.stuck = true ∧ (after .busStuck busy).bus.round = none ∧
    (after .busStuck busy).port.events.map Event.kind = [.busStuck] ∧
    (after .busStuck (after .busStuck busy)) = after .busStuck busy ∧
    (after .busRecovered (after .busStuck busy)).bus.stuck = false ∧
    (after .busRecovered (after .busStuck busy)).timers.absence.get 5 = some 0 := by decide +kernel

/-! ### Notices taken outside the session -/

/-- FounderFoundsTheSession: a latched line claims. -/
theorem test_founder_met :
    let s := withLine 0 ⟨true, false, false, []⟩ (handed ⟨0x12#16, 2, .found 0#16⟩ true (inState .founding))
    s.session.station = .founding ∧ s.bus.delivered = some ⟨⟨0x12#16, s.own, .found 0#16⟩, true⟩ ∧
    s.session.members = .empty ∧ s.pool = ⟨[], false⟩ ∧ NothingToAnswer s ∧ (∀ e ∈ s.outbox.entries, claimClient e.body = none) ∧
    (after .noticeEffectsMade s).session.station = .active ∧ ((after .noticeEffectsMade s).slot 0).state = .queued ∧
    (after .noticeEffectsMade s).port.events.map Event.kind = [.stationState .active .founded] := by
  unfold NothingToAnswer; decide +kernel

/-- An ANNOUNCING station, SYNCING under station 5, with station 9 PRESENT too. -/
def announcing : State :=
  { member .announcing [] with
    session := { (member .announcing []).session with
      members := (table.set 2 ⟨.syncing, some 5, true⟩).set 9 ⟨.present, none, true⟩ } }

/-- OwnBeaconMakesActive: a latched line claims. -/
theorem test_own_beacon_met :
    let s := withLine 0 ⟨true, false, false, []⟩ (handed ⟨0x12#16, 2, .beacon 0#16 7#16 true⟩ true announcing)
    s.session.station = .announcing ∧ s.bus.delivered = some ⟨⟨s.session.tag, s.own, .beacon 0#16 7#16 true⟩, true⟩ ∧
    (s.session.members.get s.own).state = .syncing ∧ AllSound s ∧ NothingToAnswer s ∧ s.checker.suspect = none ∧
    (∀ e ∈ s.outbox.entries, claimClient e.body = none) ∧ (after .noticeEffectsMade s).session.station = .active ∧
    ((after .noticeEffectsMade s).slot 0).state = .queued ∧
    (after .noticeEffectsMade s).port.events.map Event.kind = [.memberState .present, .stationState .active .synced] := by
  unfold AllSound NothingToAnswer; decide +kernel

/-- SessionIsHeard, each clause: another profile check, the same one, another kind, and the own FOUND and JOIN of before a STOP. -/
theorem test_session_is_heard_met :
    let s := fun b => handed ⟨0x25#16, 5, b⟩ false (inState .listening)
    (s (.leave 0#8)).session.station = .listening ∧ NothingOwed (s (.leave 0#8)) ∧
    (∀ k, (Body.leave 0#8) = .found k → k = (s (.leave 0#8)).checker.profileCheck) ∧
    1#16 ≠ (s (.found 1#16)).checker.profileCheck ∧
    (after .noticeEffectsMade (s (.found 1#16))).session.station = .offline ∧
    (after .noticeEffectsMade (s (.found 0#16))).session.station = .seeking ∧
    (after .noticeEffectsMade (s (.leave 0#8))).session.tag = 0x25#16 ∧
    (∀ b ∈ [Body.found 1#16, .join 0#16],
      (after .noticeEffectsMade (handed ⟨0x12#16, 2, b⟩ true (inState .listening))).session.station = .seeking) := by
  refine ⟨by decide, by unfold NothingOwed; decide, fun k hk => (by cases hk), by decide, ?_, ?_, ?_, ?_⟩ <;> decide +kernel

/-- NoticeWithoutEffect, each case. -/
theorem test_notice_without_effect_met :
    let n := fun (tag : Word) (b : Body) => (⟨tag, 5, b⟩ : Notice)
    (∀ st ∈ [StationState.offline, .backoff, .faulted],
      NothingToAnswer (handed (n 1#16 (.leave 0#8)) false (inState st)) ∧
      after .noticeEffectsMade (handed (n 1#16 (.leave 0#8)) false (inState st)) = inState st) ∧
    (∀ b ∈ [(0#16, Body.found 1#16), (1#16, .leave 0#8)],
      after .noticeEffectsMade (handed (n b.1 b.2) false (inState .seeking)) = inState .seeking) ∧
    (∀ b ∈ [(0x12#16, Body.found 1#16), (0x11#16, .leave 0#8), (0x13#16, .join 0#16), (0x13#16, .found 0#16)],
      after .noticeEffectsMade (handed (n b.1 b.2) false active) = active) := by
  unfold NothingToAnswer; decide +kernel

/-- SeekingStationTakesNotices, each clause. -/
theorem test_seeking_met :
    let s := fun (sender : Addr) (b : Body) (own : Bool) => handed ⟨0#16, sender, b⟩ own (inState .seeking)
    NothingOwed (s 5 (.admitJoiner 2 9#16) false) ∧ (s 5 (.admitJoiner 2 9#16) false).session.tag = 0#16 ∧
    (after .noticeEffectsMade (s 2 (.join 0#16) true)).timers.answer = some 0 ∧
    (after .noticeEffectsMade (s 5 (.admitJoiner 7 9#16) false)).timers.heard = true ∧
    (after .noticeEffectsMade (s 5 (.admitJoiner 2 9#16) false)).session.station = .loading ∧
    (∀ x ∈ [((1 : Fin 16), StationState.backoff), (2, .offline), (3, .offline), (4, .seeking)],
      (after .noticeEffectsMade (s 5 (.refuse 2 x.1) false)).session.station = x.2) := by
  unfold NothingOwed; decide +kernel

/-! ### Timers -/

/-- StationTimersExpire, each state; the founding counter at 0 and at 4095. -/
theorem test_station_timers :
    let running : Timers := { Timers.stopped with listen := some 200, answer := some 160, backoff := some 120 }
    let s := fun st => ({ inState st with timers := running } : State)
    ((after .listenWindowExpiry (s .listening)).session.station, (after .listenWindowExpiry (s .listening)).session.tag) =
      (.founding, 18#16) ∧
    (after .listenWindowExpiry { s .listening with session := { (s .listening).session with counter := 4095#12 } }).session.counter
      = 1#12 ∧
    (after .answerLimitExpiry (s .seeking)).session.station = .listening ∧
    (after .answerLimitExpiry { s .seeking with timers := { running with heard := true } }).session.station = .seeking ∧
    (after .backoffEnd (s .backoff)).session.station = .seeking ∧ after .listenWindowExpiry (s .seeking) = s .seeking ∧
    after .answerLimitExpiry active = active ∧ after .backoffEnd active = active := by decide +kernel

/-- FoundingCounterChangesOnlyAtFounding: a frame, an expiry that founds, one that does not. -/
theorem test_founding_counter_met :
    let s : State := { inState .listening with timers := { Timers.stopped with listen := some 200 } }
    (encodeFrame .readStatus).isSome = true ∧ exec .readStatus s = .next (after .readStatus s) ∧
    s.timers.listen ≠ none ∧ s.session.station = .listening ∧ s.bus.stuck = false ∧ s.bus.delivered = none ∧
    (after .listenWindowExpiry s).session.station = .founding ∧
    ¬ (Instr.start = .listenWindowExpiry ∧ s.timers.listen ≠ none) :=
  ⟨by decide, rfl, by decide, by decide, by decide, by decide, by decide +kernel, by decide⟩

/-- BeaconAndAbsenceTimersExpire: nothing is queued in LEAVING, though the LEAVE has left the Outbox. -/
theorem test_leaving_queues_nothing :
    let s : State := { member .leaving [] with timers := active.timers }
    s.outbox.entries = [] ∧ (after .beaconTimerExpiry s).outbox = s.outbox ∧ (after (.absenceTimerExpiry 5) s).outbox = s.outbox := by
  decide +kernel

theorem test_beacon_and_absence_expiry :
    (after .beaconTimerExpiry active).outbox.entries.map Entry.body = [.beacon 0#16 0#16 false] ∧
    (after .beaconTimerExpiry (after .beaconTimerExpiry active)).outbox.entries.length = 1 ∧
    (after (.absenceTimerExpiry 5) active).outbox.entries.map Entry.body = [.evict 5] ∧
    (after (.absenceTimerExpiry 5) active).timers.absence.get 5 = some 160 ∧
    after (.absenceTimerExpiry 6) active = active ∧ after .beaconTimerExpiry offline = offline := by decide +kernel

/-- SlotTimersExpire: the states of each clause that RenewDecided's witness does not show. -/
theorem test_slot_timers_met :
    (∀ n, (8 : Client) = clientOf n → ((holder .renewable 0 []).line n).req = false) ∧
    (0 : Client) = clientOf 0 ∧ ((lineHigh (slotIn .granted)).line 0).req = true ∧
    ((lineHigh (slotIn .granted)).slot 0).state = .granted ∧ ((lineHigh (slotIn .retry)).slot (clientOf 0)).state = .retry ∧
    ((busy.slot (clientOf 0)).state = .retry ∧ (busy.line 0).req = false) := by decide

theorem test_lease_expiry :
    (let t := after (.leaseExpiry 8) (holder .renewable 0 []);
      ((t.slot 8).state, (t.slot 8).yieldMs, t.port.events.map Event.kind) = (.yielding, 10, [.claimYield])) ∧
    (let t := after (.leaseExpiry 0) (lineHigh (slotIn .granted));
      ((t.slot 0).state, (t.slot 0).leaseMs, (t.line 0).gnt) = (.granted, 100, true)) ∧
    after (.leaseExpiry 9) (holder .renewable 0 []) = holder .renewable 0 [] := by decide +kernel

/-- SlotTimersExpire: a lease with REQ high whose query meets a failing record; one whose upset was reported before yields. -/
theorem test_lease_meets_a_failing_record :
    let s : State := { lineHigh (slotIn .granted) with pool := ⟨[{ record 5 9 4#16 1 .waiting with sound := false }], false⟩ }
    let t := after (.leaseExpiry 0) s
    (∃ r ∈ s.pool.records, r.sound = false) ∧ s.checker.resyncPending = false ∧
    (t.session.station, (t.slot 0).state, t.pool.frozen) = (.leaving, .releasing, true) ∧
    ((after (.leaseExpiry 0) { s with checker := { s.checker with resyncPending := true } }).slot 0).state = .yielding := by
  decide +kernel

theorem test_yield_and_retry_expiry :
    (let t := after (.yieldExpiry 8) (withSlot 8 (slotIn .yielding) active);
      ((t.slot 8).state, (t.slot 8).reason, t.outbox.entries.map Entry.body) = (.releasing, .forced, [.release 8 1])) ∧
    ((after (.retryExpiry 0) (lineHigh (slotIn .retry))).slot 0).state = .queued ∧
    ((after (.retryExpiry 0) busy).slot 0).state = .free ∧ after (.retryExpiry 1) busy = busy := by decide +kernel

/-! ### Notices applied to the replica -/

/-- A sound replica. -/
theorem test_all_sound : AllSound (member .active waited) := by unfold AllSound; decide

/-- A notice of station `sender` in the session of `member`, not carried by this station. -/
def told (sender : Addr) (b : Body) (recs : List PoolRecord) : State := handed ⟨0x12#16, sender, b⟩ false (member .active recs)

/-- ClaimNoticesAreTaken: a CLAIM that is accepted, and each ground of refusal. -/
theorem test_claim_notice_met :
    (told 5 (.claim 9 1 1#16) []).pool.frozen = false ∧
    (after .noticeEffectsMade (told 5 (.claim 9 1 1#16) [])).pool.records = [record 5 9 1#16 1 .holding] ∧
    (after .noticeEffectsMade (told 5 (.claim 9 1 1#16) [])).session.count = 8#16 ∧
    (after .noticeEffectsMade (told 6 (.claim 9 1 1#16) waited)).pool.records = waited ∧
    (after .noticeEffectsMade (told 5 (.claim 9 1 0#16) waited)).pool.records = waited ∧
    (after .noticeEffectsMade (told 5 (.claim 9 1 16#16) waited)).pool.records = waited ∧
    (after .noticeEffectsMade (told 5 (.claim 9 1 31#16) waited)).pool.records = waited ∧
    (after .noticeEffectsMade (told 5 (.claim 9 1 2#16) waited)).pool.records = waited := by decide +kernel

/-- ClaimNoticesAreTaken: a WITHDRAW and a RELEASE that find a record, and one that finds none. -/
theorem test_withdraw_and_release_notice_met :
    (after .noticeEffectsMade (told 5 (.withdraw 9) waited)).pool.records = [record 2 8 3#16 2 .holding] ∧
    (after .noticeEffectsMade (told 5 (.withdraw 9) waited)).session.count = 8#16 ∧
    (after .noticeEffectsMade (told 5 (.release 8 0) [record 5 8 3#16 2 .holding, record 5 9 2#16 1 .waiting])).pool.records =
      [record 5 9 2#16 1 .holding] ∧
    (after .noticeEffectsMade (told 5 (.release 3 0) waited)).pool.records = waited := by decide +kernel

/-- ClaimNoticesAreTaken: a frozen pool stays, whatever is taken. -/
theorem test_frozen_pool_met :
    let s := fun b => ({ told 5 b waited with
      pool := ⟨waited, true⟩, checker := { (told 5 b waited).checker with resyncPending := true } } : State)
    (∀ b ∈ [Body.claim 8 1 1#16, .withdraw 9, .release 9 0, .leave 0#8, .evict 9],
      NothingOwed (s b) ∧ NothingToAnswer (s b) ∧ ending 2 .active ⟨⟨0x12#16, 5, b⟩, false⟩ (memberEffect table ⟨0x12#16, 5, b⟩) = none ∧
      (after .noticeEffectsMade (s b)).pool = ⟨waited, true⟩ ∧ (after .noticeEffectsMade (s b)).session.count = 8#16) ∧
    claimClient (.withdraw 9) ≠ none ∧ namedTarget ⟨0x12#16, 5, .leave 0#8⟩ ≠ none := by
  unfold NothingOwed NothingToAnswer; decide +kernel

/-- AppliedNoticeCounts: a kind that counts and one that does not, in each state. -/
theorem test_applied_notice_met :
    ∀ st ∈ [StationState.announcing, .active, .leaving],
      (let s := fun b => handed ⟨0x12#16, 5, b⟩ false (member st []);
      ¬ (st = .announcing ∧ (((member st []).session.members.get 2).state ≠ .absent ∧
        ((memberEffect table ⟨0x12#16, 5, .leave 0#8⟩).table.get 2).state = .absent)) ∧
      (after .noticeEffectsMade (s (.leave 0#8))).session.count = 8#16 ∧
      ((after .noticeEffectsMade (s (.leave 0#8))).session.members.get 5).state = .absent ∧
      (after .noticeEffectsMade (s (.beacon 0#16 7#16 false))).session.count = 7#16) := by decide +kernel

/-- MembershipEffects, each clause: station 9 joins under sponsor 2, is admitted, refused, announced. -/
theorem test_membership_effects :
    let n := fun (sender : Addr) (b : Body) => (⟨0x12#16, sender, b⟩ : Notice)
    let joining := (memberEffect table (n 9 (.join 0#16))).table
    let syncing := (memberEffect joining (n 2 (.admitJoiner 9 8#16))).table
    table.currentSponsor 9 = some 2 ∧ table.currentSponsor 2 = some 5 ∧ Table.empty.currentSponsor 9 = none ∧
    joining.get 9 = ⟨.joining, some 2, true⟩ ∧ syncing.get 9 = ⟨.syncing, some 2, true⟩ ∧
    (memberEffect joining (n 5 (.admitJoiner 9 8#16))).table.get 9 = ⟨.joining, some 2, true⟩ ∧
    (memberEffect joining (n 2 (.refuse 9 1))).table.get 9 = Member.absent ∧
    (memberEffect joining (n 2 (.refuse 9 3))).table.get 9 = ⟨.joining, some 2, true⟩ ∧
    (memberEffect syncing (n 9 (.beacon 0#16 0#16 true))).table.get 9 = ⟨.present, none, true⟩ ∧
    (memberEffect syncing (n 9 (.beacon 0#16 0#16 false))).table.get 9 = ⟨.syncing, some 2, true⟩ ∧
    (memberEffect syncing (n 2 (.leave 0#8))).table.get 9 = Member.absent ∧
    (memberEffect syncing (n 5 (.evict 2))).table.get 9 = Member.absent ∧
    (memberEffect syncing (n 5 (.evict 2))).table.get 2 = Member.absent ∧
    (memberEffect syncing (n 5 (.claim 8 0 1#16))).table = syncing := by decide +kernel

/-- An ACTIVE station whose table has station 9 in this state. -/
def withNine (m : Member) : State :=
  { active with session := { active.session with members := table.set 9 m } }

/-- SponsorAnswersAndServes: the answer to a JOIN of each kind. -/
theorem test_sponsor_answers :
    let s := fun (m : Member) (k : Word) => handed ⟨0x12#16, 9, .join k⟩ false (withNine m)
    AllSound (s .absent 0#16) ∧ NothingToAnswer (s .absent 0#16) ∧ (s .absent 0#16).sponsor.owedAnswer = none ∧
    (s .absent 0#16).outbox.hasLeave = false ∧ ((s .absent 0#16).session.members.get 2).state = .present ∧
    (∀ q : Addr, q ≠ 9 → ((s .absent 0#16).session.members.get q).state = .present → (2 : Addr) ≠ 9 ∧ 2 ≤ q) ∧
    (s .absent 0#16).outbox.room 2 = true ∧
    (after .noticeEffectsMade (s .absent 0#16)).outbox.entries.map Entry.body = [.admitJoiner 9 0#16] ∧
    (after .noticeEffectsMade (s .absent 1#16)).outbox.entries.map Entry.body = [.refuse 9 2] ∧
    (after .noticeEffectsMade (s ⟨.syncing, some 2, true⟩ 0#16)).outbox.entries.map Entry.body = [.refuse 9 3] ∧
    (after .noticeEffectsMade (withEntries (List.replicate 6 (entry (.admitJoiner 9 0#16) .session false)) (s .absent 0#16))).sponsor.owedAnswer
      = some (.refuse 9 1) := by unfold AllSound NothingToAnswer; decide +kernel

/-- SponsorAnswersAndServes: the own ADMIT of a JOINING station, and the own SNAP-END. -/
theorem test_sponsor_serves :
    let s := handed ⟨0x12#16, 2, .admitJoiner 9 8#16⟩ true (withNine ⟨.joining, some 2, true⟩)
    (∀ e ∈ s.outbox.entries, e.body.isSnap = false) ∧ (s.session.members.get 9).sponsor = some s.own ∧
    (∀ a : Addr, (s.session.members.get a).state ≠ .syncing) ∧
    (after .noticeEffectsMade s).sponsor.serving.map (fun v => (v.joiner, v.next)) = some (9, .done) ∧
    (after .noticeEffectsMade s).outbox.entries.map (fun e => e.body.code) = [4, 6] ∧
    (after .noticeEffectsMade (handed ⟨0x12#16, 2, .snapEnd 0#16 0#8⟩ true (after .noticeEffectsMade s))).sponsor.serving = none := by
  decide +kernel

/-- SponsorAnswersAndServes: an own SNAP is taken with one of them placed, and with two. -/
theorem test_sponsor_serves_on :
    let v : Serving := ⟨5, table, [], 3#16, .last⟩
    let snap := entry (.snapClaim 0#8 5 9 1#16 0 0 0 0#8) .session false
    let s := fun k => handed ⟨0x12#16, 2, .snapMembers (Vector.replicate 16 0#8)⟩ true
      { withEntries (List.replicate k snap) active with sponsor := { Sponsor.none with serving := some v } }
    AllSound (s 1) ∧ (∀ a : Addr, (s 1).sponsor.answers.get a = none) ∧ (s 1).sponsor.owedAnswer = none ∧
    (s 1).outbox.hasLeave = false ∧ ((s 1).session.members.get v.joiner).state ≠ .absent ∧
    ((s 1).outbox.entries.filter fun e => e.body.isSnap).length = 1 ∧ v.make = some (.snapEnd 3#16 0#8, .done) ∧
    (after .noticeEffectsMade (s 1)).outbox.entries.length = 2 ∧ (after .noticeEffectsMade (s 2)).outbox = (s 2).outbox ∧
    (after .noticeEffectsMade { s 0 with sponsor := { Sponsor.none with serving := some { v with next := .members } } }).outbox.entries.map
      (fun e => e.body.code) = [4, 6] ∧
    (after .noticeEffectsMade (s 0)).outbox.entries.map (fun e => e.body.code) = [6] := by
  unfold AllSound; decide +kernel

/-- SponsorAnswersAndServes: an own ADMIT that was not effective, and the end of serving at the EVICT of the joiner. -/
theorem test_admit_without_effect_and_end_of_serving :
    let two := fun (m : Member) => { withNine m with
      session := { active.session with members := (table.set 9 m).set 4 ⟨.syncing, some 2, true⟩ } }
    let s := fun (m : Member) => handed ⟨0x12#16, 2, .admitJoiner 9 8#16⟩ true (two m)
    let x := handed ⟨0x12#16, 5, .evict 9⟩ false { withNine ⟨.syncing, some 2, true⟩ with
      outbox := ⟨[entry (.snapMembers (Vector.replicate 16 0#8)) .session false], 2⟩
      sponsor := { Sponsor.none with
        serving := some ⟨9, table, [], 3#16, .last⟩, owedAnswer := some (.snapEnd 3#16 0#8) } }
    AllSound (s ⟨.joining, some 2, true⟩) ∧ (∃ a : Addr, ((s ⟨.joining, some 2, true⟩).session.members.get a).state = .syncing) ∧
    (after .noticeEffectsMade (s ⟨.joining, some 2, true⟩)).outbox.entries.map Entry.body = [.refuse 9 1] ∧
    (after .noticeEffectsMade (s .absent)).outbox.entries = [] ∧
    AllSound x ∧ (x.session.members.get 9).state ≠ .absent ∧
    ((memberEffect x.session.members ⟨0x12#16, 5, .evict 9⟩).table.get 9).state = .absent ∧
    ending 2 .active ⟨⟨0x12#16, 5, .evict 9⟩, false⟩ (memberEffect x.session.members ⟨0x12#16, 5, .evict 9⟩) = none ∧
    (after .noticeEffectsMade x).sponsor.serving = none ∧ (after .noticeEffectsMade x).sponsor.owedAnswer = none ∧
    (after .noticeEffectsMade x).outbox.entries = [] := by
  unfold AllSound; decide +kernel

/-- OwnLeaveAndEvictionEndMembership, each clause: destination OFFLINE and SEEKING; evicted with and without rejoining. -/
theorem test_end_of_membership_met :
    let left := fun d => handed ⟨0x12#16, 2, .leave 0#8⟩ true
      { member .leaving [] with session := { (member .leaving []).session with leaveDest := d } }
    let evicted := fun st => handed ⟨0x12#16, 5, .evict 2⟩ false (member st waited)
    (left (some .offline)).session.station = .leaving ∧ GntFollows (left (some .offline)) ∧
    (∃ a : Addr, a ≠ 2 ∧ ((left none).session.members.get a).state = .present) ∧ AllSound (evicted .active) ∧
    (∀ c : Client, ((evicted .active).slot c).owed = .none) ∧
    (let other := handed ⟨0x12#16, 2, .leave 0#8⟩ false (member .announcing waited);
      AllSound other ∧ (∀ c : Client, (other.slot c).owed = .none) ∧ (after .noticeEffectsMade other).session.station = .seeking) ∧
    (after .noticeEffectsMade (withEntries [entry (.beacon 0#16 0#16 false) .session false] (left (some .offline)))).outbox.entries = [] ∧
    (after .noticeEffectsMade (left (some .offline))).session.station = .offline ∧
    (after .noticeEffectsMade (left (some .seeking))).session.station = .seeking ∧
    (after .noticeEffectsMade { left (some .seeking) with
      session := { (left (some .seeking)).session with members := Table.empty } }).session.station = .listening ∧
    (after .noticeEffectsMade (evicted .active)).session.station = .seeking ∧
    (after .noticeEffectsMade (evicted .leaving)).session.station = .offline := by
  unfold AllSound GntFollows; decide +kernel

/-- SessionYieldsToGreaterTag. -/
theorem test_yield_to_greater_tag_met :
    let s := handed ⟨0x13#16, 9, .leave 0#8⟩ false (holder .renewable 0 waited)
    s.session.founded = true ∧ s.session.tag < (0x13#16 : Word) ∧ (Body.leave 0#8).isFound = false ∧
    (Body.leave 0#8).isJoin = false ∧ (after .noticeEffectsMade s).session.station = .seeking ∧
    (after .noticeEffectsMade s).session.tag = 0x13#16 ∧ ((after .noticeEffectsMade s).slot 8).state = .free ∧
    (after .noticeEffectsMade s).port.events.map Event.kind =
      [.claimEnded .sessionLost, .stationState .seeking .sessionLost] := by decide +kernel

/-- BeaconIsCompared, each row of R166's table. -/
theorem test_beacon_is_compared_met :
    let s := fun (check : Word) (suspect : Option Addr) => handed ⟨0x12#16, 5, .beacon check 7#16 true⟩ false
      { active with checker := { active.checker with suspect := suspect } }
    let good := active.checker.tableCheck
    (5 : Addr) ≠ active.own ∧ (active.session.members.get 5).state = .present ∧ (active.session.members.get 5).sound = true ∧
    NothingToAnswer (s good none) ∧ (∀ a, (some 5 : Option Addr) = some a → (active.session.members.get a).state = .present) ∧
    (after .noticeEffectsMade (s good none)).checker.suspect = none ∧
    (after .noticeEffectsMade (s (good + 1#16) none)).checker.suspect = some 5 ∧
    (after .noticeEffectsMade (s good (some 5))).checker.suspect = none ∧
    (after .noticeEffectsMade (s (good + 1#16) (some 5))).checker.suspect = some 5 ∧
    (after .noticeEffectsMade (s (good + 1#16) (some 2))).session.station = .leaving := by
  unfold NothingToAnswer
  refine ⟨by decide, by decide, by decide, by decide, fun a ha => ?_, ?_, ?_, ?_, ?_, ?_⟩
  · cases ha; decide
  all_goals decide +kernel

/-- BeaconIsCompared: the first synchronized BEACON of a SYNCING station, with the check from before it and with another. -/
theorem test_first_beacon_is_compared :
    let x := withNine ⟨.syncing, some 5, true⟩
    let s := fun (check : Word) => handed ⟨0x12#16, 9, .beacon check 7#16 true⟩ false x
    let t := after .noticeEffectsMade (s x.checker.tableCheck)
    AllSound (s 0#16) ∧ NothingToAnswer (s 0#16) ∧ (x.session.members.get 9).state = .syncing ∧
    (t.session.members.get 9, t.port.events, t.checker.suspect) =
      (⟨.present, none, true⟩, [⟨.memberState .present, 9, 7#16⟩], none) ∧
    t.checker.tableCheck = tableCheckOf t.session.members [] ∧
    (after .noticeEffectsMade (s (x.checker.tableCheck + 1#16))).port.events =
      [⟨.memberState .present, 9, 7#16⟩, ⟨.divergence .recorded, 9, 7#16⟩] := by
  unfold AllSound NothingToAnswer; decide +kernel

/-- SlotsFollowIndications: each pair of state and indication the statement names. -/
theorem test_indications_met :
    let s := fun v => withSlot 8 v active
    ((s (slotIn .queued)).indicate 8 .accepted).slot 8 = { slotIn .waiting with outboxEntry := .none } ∧
    (((s { slotIn .withdrawing with removalPending := true }).indicate 8 .accepted).slot 8).outboxEntry = .withdraw ∧
    (((s { slotIn .withdrawing with closing := true, outboxEntry := .claim }).indicate 8 .accepted).slot 8).outboxEntry = .none ∧
    (((s (slotIn .waiting)).indicate 8 .granted).slot 8).state = .granted ∧
    (((s (slotIn .withdrawing)).indicate 8 (.withdrawn none)).slot 8).lastEnd = .withdrawn ∧
    (((s (slotIn .releasing)).indicate 8 (.released false (some .holding))).slot 8).lastEnd = .released ∧
    (((s (slotIn .releasing)).indicate 8 (.released true none)).slot 8).lastEnd = .forced ∧
    (((lineHigh (slotIn .releasing)).indicate 0 (.released true none)).line 0).rearm = true ∧
    (((lineHigh (slotIn .queued)).indicate 0 (.refused .poolFull)).slot 0).retryMs = 40 ∧
    (((lineHigh (slotIn .queued)).indicate 0 (.refused .duplicate)).line 0).rearm = true ∧
    (((s (slotIn .queued)).indicate 8 (.refused .poolFull)).slot 8).state = .free ∧
    (((lineHigh (slotIn .retry)).indicate 0 (.removed .evict .waiting) (some .evicted)).slot 0).state = .free ∧
    (((s (slotIn .granted)).indicate 8 (.removed .leave .holding) (some .left)).slot 8).lastEnd = .left := by decide +kernel

/-- SlotsFollowIndications: a mismatch for each indication. -/
theorem test_mismatches_met :
    (∀ x ∈ [(SlotState.queued, Indication.granted), (.queued, .withdrawn none), (.queued, .released false none), (.waiting, .accepted),
      (.waiting, .refused .duplicate), (.releasing, .accepted), (.releasing, .granted), (.withdrawing, .released true none),
      (.withdrawing, .accepted), (.withdrawing, .refused .notMember), (.granted, .granted), (.free, .withdrawn none)],
      ((withSlot 8 (slotIn x.1) active).indicate 8 x.2).session.station = .leaving) := by decide +kernel

/-- IndicationsOfATakenNotice: an own notice of each kind; client 8 waits for its CLAIM, client 10 for its grant. -/
theorem test_own_notices_met :
    let s := fun (b : Body) (recs : List PoolRecord) => handed ⟨0x12#16, 2, b⟩ true
      (withSlot 8 (slotIn .queued) (withSlot 10 (slotIn .waiting) (withSlot 9 (slotIn .releasing) (member .active recs))))
    let recs := [record 2 9 1#16 1 .holding, record 2 10 1#16 1 .waiting]
    AllSound (s (.release 9 0) recs) ∧ PairsDistinct recs ∧ NothingToAnswer (s (.release 9 0) recs) ∧
    (s (.release 9 0) recs).checker.suspect = none ∧ recs.length < 64 ∧
    ((after .noticeEffectsMade (s (.claim 8 1 2#16) recs)).slot 8).state = .granted ∧
    ((after .noticeEffectsMade (s (.claim 8 1 0#16) recs)).slot 8).lastEnd = .refusedNotMember ∧
    ((after .noticeEffectsMade (s (.claim 8 1 2#16) [record 2 8 4#16 1 .holding])).slot 8).lastEnd = .refusedDuplicate ∧
    (after .noticeEffectsMade (s (.release 9 0) recs)).port.events =
      [⟨.claimEnded .released, 9, 8#16⟩, ⟨.claimGranted, 10, 8#16⟩] ∧
    ((after .noticeEffectsMade (s (.release 9 0) [])).slot 9).lastEnd = .released := by
  unfold AllSound PairsDistinct NothingToAnswer; decide +kernel

/-- IndicationsOfATakenNotice: the order of the ends at the own LEAVE and at an EVICT. -/
theorem test_ends_met :
    let recs := [record 2 9 1#16 1 .holding, record 5 9 2#16 1 .holding]
    let slots := fun (s : State) => withSlot 8 { slotIn .withdrawing with outboxEntry := .withdraw }
      (withSlot 9 { slotIn .releasing with outboxEntry := .release } s)
    let evicted := handed ⟨0x12#16, 5, .evict 2⟩ false (slots (member .active recs))
    let clash := handed ⟨0x12#16, 2, .leave 0#8⟩ false (slots (member .active recs))
    let left := handed ⟨0x12#16, 2, .leave 7#8⟩ true (slots
      { member .leaving recs with session := { (member .leaving recs).session with
        leaveDest := some .seeking, leaveReason := some .resync } })
    AllSound evicted ∧ OwedApart evicted ∧ (∀ c : Client, (evicted.slot c).owed = .none) ∧ evicted.session.founded = true ∧
    (evicted.session.members.get evicted.own).state = .present ∧ OwedApart left ∧ left.own = 2 ∧
    (after .noticeEffectsMade evicted).port.events = [⟨.memberState .absent, 2, 8#16⟩, ⟨.claimEnded .evicted, 9, 8#16⟩,
      ⟨.claimEnded .evicted, 8, 8#16⟩, ⟨.stationState .seeking .evicted, 2, 0#16⟩] ∧
    (after .noticeEffectsMade clash).port.events = [⟨.addressClash, 2, 8#16⟩, ⟨.memberState .absent, 2, 8#16⟩,
      ⟨.claimEnded .evicted, 9, 8#16⟩, ⟨.claimEnded .evicted, 8, 8#16⟩, ⟨.stationState .seeking .evicted, 2, 0#16⟩] ∧
    (after .noticeEffectsMade left).port.events = [⟨.memberState .absent, 2, 8#16⟩, ⟨.claimEnded .resync, 9, 8#16⟩,
      ⟨.claimEnded .resync, 8, 8#16⟩, ⟨.stationState .seeking .left, 2, 0#16⟩] := by
  unfold AllSound OwedApart; decide +kernel

/-- IndicationsOfATakenNotice: an ANNOUNCING station, its own record SYNCING, is evicted. -/
theorem test_announcing_station_evicted :
    let s := handed ⟨0x12#16, 5, .evict 2⟩ false announcing
    (s.session.members.get s.own).state = .syncing ∧ AllSound s ∧ OwedApart s ∧ s.session.founded = true ∧
    (after .noticeEffectsMade s).port.events = [⟨.memberState .absent, 2, 8#16⟩, ⟨.stationState .seeking .evicted, 2, 0#16⟩] := by
  unfold AllSound OwedApart; decide +kernel

/-- MembershipChangesAreReported: the LEAVE of a suspect that sponsors a joiner, a clash, an ADMIT, and an EVICT that takes the own
one back. -/
theorem test_membership_changes_met :
    let leave := handed ⟨0x12#16, 5, .leave 0#8⟩ false { withNine ⟨.joining, some 5, true⟩ with
      checker := { active.checker with suspect := some 5 } }
    let clash := handed ⟨0x12#16, 2, .refuse 9 1⟩ false active
    let admitted := handed ⟨0x12#16, 5, .admitJoiner 9 8#16⟩ false (withNine ⟨.joining, some 5, true⟩)
    let both := handed ⟨0x12#16, 7, .evict 5⟩ false (withEntries [entry (.evict 5) .session false] active)
    AllSound leave ∧ NothingOwed leave ∧ NothingToAnswer leave ∧ leave.pool = ⟨[], false⟩ ∧ leave.session.founded = true ∧
    OwedApart leave ∧
    ending 2 .active ⟨⟨0x12#16, 5, .leave 0#8⟩, false⟩ (memberEffect leave.session.members ⟨0x12#16, 5, .leave 0#8⟩) = none ∧
    (after .noticeEffectsMade leave).port.events =
      [⟨.memberState .absent, 5, 8#16⟩, ⟨.memberState .absent, 9, 8#16⟩, ⟨.divergence .cleared, 5, 8#16⟩] ∧
    (after .noticeEffectsMade leave).timers.absence.get 5 = none ∧
    (after .noticeEffectsMade clash).port.events = [⟨.addressClash, 2, 8#16⟩] ∧
    (after .noticeEffectsMade admitted).timers.absence.get 9 = some 0 ∧
    (after .noticeEffectsMade admitted).timers.absence.get 5 = some 0 ∧
    namedTarget ⟨0x12#16, 7, .evict 5⟩ = some 5 ∧ (after .noticeEffectsMade both).outbox.entries = [] := by
  unfold AllSound NothingOwed NothingToAnswer OwedApart; decide +kernel

/-! ### Loading -/

/-- A LOADING station with sponsor 5, awaiting this part of its snapshot. -/
def loading (b : Building) (held : List Heard) (recs : List PoolRecord) : State :=
  { member .loading recs with joiner := ⟨some 5, b, held⟩, timers := { Timers.stopped with snapshot := some 0, beacon := some 0 } }

/-- CatchUpBufferKeepsNotices: 31 notices held, and 32; a SNAP-END of the sponsor, acted on at once. -/
theorem test_catch_up_met :
    let h : Heard := ⟨⟨0x12#16, 9, .leave 0#8⟩, false⟩
    let s := fun n => handed h.notice false (loading .claims (List.replicate n h) [])
    let snap := handed ⟨0x12#16, 5, .snapEnd 0#16 0#8⟩ false (loading .claims [h] [])
    h.notice.body.isFound = false ∧ h.notice.body ≠ .evict 2 ∧ some h.notice.sender ≠ (s 31).joiner.sponsor ∧
    (∀ a, h.notice.body ≠ .evict a) ∧ snap.joiner.sponsor = some 5 ∧ (after .noticeEffectsMade snap).joiner.catchUp = [] ∧
    (after .noticeEffectsMade (s 31)).joiner.catchUp.length = 32 ∧
    (after .noticeEffectsMade (s 32)).session.station = .leaving := by
  refine ⟨by decide, by decide, by decide, fun a ha => (by cases ha), by decide, ?_, ?_, ?_⟩ <;> decide +kernel

/-- The SNAP-MEMBERS bytes of a table in which 5 is PRESENT and this station SYNCING under the sponsor named. -/
def members (sponsor : Fin 16) : Vector Byte 16 :=
  Vector.ofFn fun a => if a = 2 then nibbles 2 sponsor else if a = 5 then 0x30#8 else 0#8

/-- SnapshotBuildsTheReplica, each clause. -/
theorem test_snapshot_met :
    let s := fun (x : State) (b : Body) => handed ⟨0x12#16, 5, b⟩ false x
    let claims := loading .claims [] waited
    let good := tableCheckOf table waited
    AllSound claims ∧ claims.pool.frozen = false ∧ some (5 : Addr) = claims.joiner.sponsor ∧
    ((hiNibble ((members 5).get 2)).val = 2 ∧ some (loNibble ((members 5).get 2)) = claims.joiner.sponsor) ∧
    (after .noticeEffectsMade (s (loading .members [] []) (.snapMembers (members 5)))).joiner.building = .claims ∧
    (after .noticeEffectsMade (s (loading .members [] []) (.snapMembers (members 4)))).session.station = .leaving ∧
    (after .noticeEffectsMade (s (loading .members [] []) (.snapMembers (members 5)))).checker = (loading .members [] []).checker ∧
    after .noticeEffectsMade (s claims (.snapMembers (members 5))) = claims ∧
    (after .noticeEffectsMade (s claims (.snapClaim 2#8 5 3 1#16 1 1 0 0#8))).pool.records =
      waited ++ [record 5 3 1#16 1 .waiting] ∧
    (∀ b ∈ [Body.snapClaim 1#8 5 3 1#16 1 1 0 0#8, .snapClaim 2#8 5 3 1#16 1 1 0 2#8, .snapClaim 2#8 5 3 1#16 2 1 0 0#8,
      .snapClaim 2#8 5 3 0#16 1 1 0 0#8, .snapClaim 2#8 5 3 16#16 1 1 0 0#8],
      (after .noticeEffectsMade (s claims b)).pool.records = waited) ∧
    (after .noticeEffectsMade (s claims (.snapEnd good 2#8))).session.station = .announcing ∧
    (after .noticeEffectsMade (s claims (.snapEnd good 3#8))).session.station = .leaving ∧
    claims.outbox.hasLeave = false ∧ claims.sponsor.owedBeacon = false ∧
    (after .noticeEffectsMade (s claims (.snapEnd good 2#8))).outbox.entries.map (fun e => e.body.isBeacon) = [true] := by
  unfold AllSound; decide +kernel

/-- SnapshotBuildsTheReplica: a buffer of two notices is replayed, without an event of its own. -/
theorem test_replay_met :
    let claims := loading .claims [⟨⟨0x12#16, 5, .claim 9 1 1#16⟩, false⟩, ⟨⟨0x12#16, 5, .leave 0#8⟩, false⟩]
      [record 2 8 3#16 2 .holding]
    let s := handed ⟨0x12#16, 5, .snapEnd (tableCheckOf table [record 2 8 3#16 2 .holding]) 1#8⟩ false claims
    let t := after .noticeEffectsMade s
    AllSound s ∧ (∀ x ∈ claims.joiner.catchUp, x.notice.sender = claims.own → x.own = true) ∧
    (t.session.station, t.session.count, t.session.members.get 5) = (.announcing, 9#16, Member.absent) ∧
    t.pool.records = [record 2 8 3#16 2 .holding] ∧ t.port.events = [⟨.stationState .announcing .snapshotDone, 2, 9#16⟩] := by
  unfold AllSound; decide +kernel

/-- JoinerGivesUp: each cause in LOADING, and the loss of the sponsor in ANNOUNCING. -/
theorem test_joiner_gives_up_met :
    (∀ x ∈ [(Body.leave 0#8, Cause.sponsorLost), (.evict 5, .sponsorLost), (.evict 2, .evicted)],
      (let s := handed ⟨0x12#16, 5, x.1⟩ false (loading .claims [] []);
      GntFollows s ∧ some (5 : Addr) = s.joiner.sponsor ∧ (after .noticeEffectsMade s).session.station = .seeking ∧
      (after .noticeEffectsMade s).port.events = [⟨.stationState .seeking x.2, 2, 0#16⟩])) ∧
    (let s := handed ⟨0x12#16, 5, .leave 0#8⟩ false announcing;
    namedTarget ⟨0x12#16, 5, .leave 0#8⟩ = some 5 ∧ (s.session.members.get s.own).sponsor = some 5 ∧ (5 : Addr) ≠ s.own ∧ (s.session.members.get s.own).state = .syncing ∧
    (memberEffect s.session.members ⟨0x12#16, 5, .leave 0#8⟩).changes ≠ [] ∧ AllSound s ∧ OwedApart s ∧
    (after .noticeEffectsMade s).port.events = [⟨.memberState .absent, 5, 8#16⟩, ⟨.memberState .absent, 2, 8#16⟩,
      ⟨.stationState .seeking .sponsorLost, 2, 0#16⟩]) := by
  unfold GntFollows AllSound OwedApart; decide +kernel

/-! ### Grant order and owed notices -/

/-- GrantPassGrantsAllItCan, OvertakenRecordsArePromoted: the records of each clause. -/
theorem test_grant_met :
    let pool := [record 5 9 2#16 0 .waiting, record 2 8 3#16 2 .waiting, record 4 8 4#16 1 .holding]
    bestGrantable pool = some (record 2 8 3#16 2 .waiting, 1) ∧ bestGrantable waited = none ∧
    (∀ r ∈ pool, r.sound = true) ∧ (grantPass 3 pool).granted = [record 2 8 3#16 2 .waiting] ∧
    grantPass 3 [{ record 5 9 2#16 0 .waiting with sound := false }] =
      ⟨[{ record 5 9 2#16 0 .waiting with sound := false }], [], true⟩ ∧
    (grantPass 3 pool).records[1]? = some (record 2 8 3#16 2 .holding) ∧ pool[1]? = some (record 2 8 3#16 2 .waiting) ∧
    (record 5 9 2#16 0 .waiting).passed.val < 3 ∧ HoldersDisjoint pool ∧
    (grantAt 3 pool (record 2 8 3#16 2 .waiting) 1)[0]? = some { record 5 9 2#16 0 .waiting with passed := 1 } ∧
    (grantAt 1 pool (record 2 8 3#16 2 .waiting) 1)[0]? = some { record 5 9 2#16 0 .waiting with effective := 1 } ∧
    (grantAt 0 pool (record 2 8 3#16 2 .waiting) 1)[0]? = some { record 5 9 2#16 0 .waiting with passed := 1 } := by
  unfold HoldersDisjoint; decide +kernel

/-- OwedNoticeIsPlaced: a PENDING slot with room and without, each owed kind. -/
theorem test_owed_notice_met :
    let s := withSlot 8 (slotIn .pending) active
    let full := withEntries (List.replicate 6 (entry (.claim 9 0 1#16) (.claimUnit 9) false)) s
    NothingOwed active ∧ (∀ d : Client, d ≠ 8 → (s.slot d).owed = .none) ∧ s.sponsor.owedAnswer = none ∧
    s.sponsor.owedBeacon = false ∧ (∀ a : Addr, s.sponsor.owedEvicts.get a = false) ∧ s.outbox.hasLeave = false ∧
    s.outbox.hasClaimNotice 8 = false ∧ (s.slot 8).owed = .claim ∧ (s.slot 8).state = .pending ∧
    ((after .owedNoticePlaced s).slot 8).state = .queued ∧ after .owedNoticePlaced full = full ∧
    ((after .owedNoticePlaced (withSlot 8 { slotIn .releasing with owed := .release } full)).slot 8).outboxEntry = .release ∧
    ((after .owedNoticePlaced (withSlot 8 { slotIn .withdrawing with owed := .withdraw } full)).slot 8).outboxEntry =
      .withdraw := by unfold NothingOwed; decide +kernel

/-- OwedNoticeIsPlaced: several notices are owed and there is room for three. -/
theorem test_owed_order_met :
    let s : State := { withSlot 8 (slotIn .pending) (withSlot 9 { slotIn .releasing with owed := .release }
        (withEntries (List.replicate 5 (entry (.refuse 9 1) .session false)) active)) with
      sponsor := { Sponsor.none with
        owedAnswer := some (.refuse 7 1), owedBeacon := true, owedEvicts := Sponsor.none.owedEvicts.set 5 true } }
    let t := after .owedNoticePlaced s
    s.session.station ≠ .leaving ∧ s.outbox.hasLeave = false ∧ OwedApart s ∧ NothingToAnswer s ∧
    (∀ c : Client, (s.slot c).owed = .claim → (s.slot c).state = .pending) ∧ (Body.refuse 7 1).tier = 2 ∧
    s.owedNotices.map Prod.fst = [.evict 5, .release 9 0, .refuse 7 1, .beacon 0#16 0#16 false, .claim 8 2 3#16] ∧
    (t.sponsor.owedEvicts.get 5, (t.slot 9).owed, t.sponsor.owedAnswer, t.sponsor.owedBeacon, (t.slot 8).owed) =
      (false, .none, none, true, .claim) := by unfold OwedApart NothingToAnswer; decide +kernel

/-- OwedNoticeIsPlaced: the EVICT of station 5 is recalled by that station's LEAVE, and its room goes to an owed RELEASE. -/
theorem test_recalled_evict_met :
    let s := handed ⟨0x12#16, 5, .leave 0#8⟩ false (withSlot 8 { slotIn .releasing with owed := .release }
      (withEntries (entry (.evict 5) .session false :: List.replicate 7 (entry (.refuse 9 1) .session false)) active))
    namedTarget ⟨0x12#16, 5, .leave 0#8⟩ = some 5 ∧ s.sponsor.serving = none ∧ s.sponsor.owedAnswer = none ∧
    s.outbox.room 3 = false ∧ (∃ e ∈ s.outbox.entries, e.body.isEvictOf 5 = true ∧ e.offered = false) ∧
    ((after .noticeEffectsMade s).slot 8).outboxEntry = .release := by decide +kernel

/-! ### Encodings and invariants -/

/-- NoticeIsReceivedAsCarried: the levels of a WITHDRAW, with a frame bit at the wrong level, and a read-back mismatch. -/
theorem test_levels :
    receiveLevels 0xC0#8 aNotice.levels = .notice aNotice ∧
    receiveLevels 0xC0#8 (true :: aNotice.levels.drop 1) = .notice aNotice ∧ aNotice.levels.length = 60 ∧
    readBackMismatch aNotice.levels (true :: aNotice.levels.drop 1) = true ∧
    readBackMismatch aNotice.levels aNotice.levels = false := by decide +kernel

/-- NoticeIsReceivedAsCarried: a carriage that stops after 31 bit times, with a number of no recessive end and one of six; the vote of a
listener from bit time 30 on, and the three ends of a round. -/
theorem test_votes :
    let cut := aNotice.levels.take 31 ++ List.replicate 30 false
    let wrong := receiveLevels 0x40#8 aNotice.levels
    carriageStop 0xC1#8 (List.replicate 20 false) = some 11 ∧ carriageStop 0xC0#8 (List.replicate 20 false) = some 5 ∧
    receiveLevels 0xC0#8 cut = .fault .stopped ∧ receptionEnd 0xC0#8 cut = carriageStop 0xC0#8 cut ∧
    carriageStop 0xC0#8 cut ≠ none ∧ wrong = .fault .tierMismatch ∧ receptionEnd 0x40#8 aNotice.levels = some 30 ∧
    (let cbd := aNotice.levels.take 32 ++ List.replicate 4 false;
      active.votes 0x40#8 none cbd = List.replicate 30 false ++ [true, true, true, true, false, false] ∧
      offline.votes 0x40#8 none cbd = List.replicate 36 false) ∧
    mismatchFound [true, false, true] [true, true, true] = some 2 ∧
    carrierDrives [true, false, true] [true, true, true] [false, false, false] = [true, false, false] ∧
    carrierDrives [true, true, true] [true, true, true] [true, true, false] = [true, false, false] ∧
    listenedRound 0xC0#8 (aNotice.levels ++ [false, false]) (List.replicate 62 false) .later =
      some (.roundTaken (.other 0xC0#8 aNotice.carriage) .later) ∧
    listenedRound 0xC0#8 cut [] .later = some (.roundMissed .stopped) ∧
    listenedRound 0x40#8 aNotice.levels [false, true] .later = some (.roundVoided false (some .tierMismatch)) ∧
    voidEnd [false, true, true, false] = some 4 ∧ carriedRound [false, true] .later = .roundVoided true none := by
  decide +kernel

/-- FrameIsReadAsSent: SDO before, at and after the decision point of READ_STATUS, and the frame's command. -/
theorem test_sdo :
    let s := after .readEvent oneEvent
    frameCommand [0x31#8, 0#8, 7#8] = .readStatus ∧ frameCommand [0x33#8, 1#8] = .frameAborted [0x33#8, 1#8] ∧
    s.sdo none = none ∧ State.reset.sdo (some []) = none ∧ s.sdo (some (bitsOf 0x30#8)) = some true ∧
    s.sdo (some (bitsOf 0x30#8 ++ bitsOf 0#8)) = some false ∧
    s.sdo (some (bitsOf 0x30#8 ++ bitsOf 0#8 ++ bitsOf 0#8 ++ List.replicate 5 false)) = some true := by decide +kernel

/-- FrameIsReadAsSent. -/
theorem test_frame_met :
    Instr.wellFormed (.claim 9#8 0x0105#16 2#8) = true ∧
    encodeFrame (.claim 9#8 0x0105#16 2#8) = some (0x20#8, [9#8, 1#8, 5#8, 2#8]) ∧
    decodeFrame 0x20#8 [9#8, 1#8, 5#8, 2#8] = .claim 9#8 0x0105#16 2#8 ∧
    decodeFrame 0x33#8 [] = .badFrame 0x33#8 [] ∧ decodeFrame 0x00#8 [] = .badFrame 0x00#8 [] := by decide

/-- A station whose slots are all FREE has them in form (R44). -/
theorem freeSlots (c : Client) : (active.slot c).form c := by
  have free : active.slot c = Slot.freeWith .none := (by decide : ∀ c : Client, active.slot c = Slot.freeWith .none) c
  rw [free]
  exact ⟨rfl, (nomatch ·), (nomatch ·)⟩

/-- StepKeepsCheckCurrent: a LOADING station with a partial table, and one that abandons. -/
theorem test_check_kept :
    let s := { member .loading [] with checker := { active.checker with tableCheck := emptyCheck } }
    s.session.station = .loading ∧ s.checker.tableCheck = emptyCheck ∧
    (after .stop s).session.station = .leaving ∧ (after .stop s).session.leftSynced = false ∧
    (after .stop s).checker.tableCheck = emptyCheck := by decide +kernel

/-- IndicationsOfATakenNotice: slots in form. -/
theorem test_slots_in_form : ∀ c : Client, ((withSlot 8 { slotIn .withdrawing with outboxEntry := .withdraw } active).slot c).form c := by
  intro c
  by_cases h : c = 8
  · subst h; exact ⟨.inr ⟨rfl, .inl rfl⟩, (nomatch ·), (nomatch ·)⟩
  · have free := (by decide : ∀ c : Client, c ≠ 8 →
      (withSlot 8 { slotIn .withdrawing with outboxEntry := .withdraw } active).slot c = Slot.freeWith .none) c h
    rw [free]
    exact ⟨rfl, (nomatch ·), (nomatch ·)⟩

/-- Every StepKeeps statement: a member that meets all the invariants takes a step. -/
theorem test_invariants_met :
    GntFollows active ∧ LockFollows active ∧ AttnFollows active ∧ EventForm active.port.events ∧ OutboxForm busy.outbox ∧
    OfferForm busy ∧ PoolForm (member .active waited) ∧ SlotsForm active ∧ CheckCurrent active ∧ ReplicaForm active ∧
    ActiveOnly active ∧ WithinCapacity active ∧ ResetForm active ∧
    TableForm active ∧ CarriedOwn active ∧ step active = .next (stepped active) := by
  refine ⟨by unfold GntFollows; decide, by unfold LockFollows; decide, by unfold AttnFollows; decide,
    ⟨by decide, by decide, by decide⟩, ⟨by decide, by decide, by decide⟩, ⟨by decide, by decide⟩,
    by unfold PoolForm PairsDistinct HoldersDisjoint; decide +kernel,
    ⟨freeSlots, by decide, by decide, by decide, by decide, by unfold OwedApart; decide, fun _ h => nomatch h⟩,
    by rw [CheckCurrent, if_neg (by decide)]; exact .inl (by decide +kernel),
    ⟨by decide, by decide⟩, fun h => absurd rfl h, ⟨by decide, by decide⟩, fun h => (by cases h),
    by unfold TableForm; decide +kernel, fun _ h => (nomatch h), rfl⟩

end Sys2Proof.Tests
end

