-- ==== Sys2Proof/Proofs/Sessions.lean ====
section
/-! SUPPORT. What the operations of the slots, of the Outbox and of the answers do to the session: it stays, or a storage upset
queues LEAVE(RESYNC); and that the configuration image, the bus, the sampled lines and the offer stay. Beside Laws/Moves.lean, which
tells what they do to everything else. -/

namespace Sys2Proof.Machine

/-- The session of a station that has queued LEAVE(RESYNC) (R132, R135, R167). -/
def State.resyncing (s : State) : Session :=
  { s.session with station := .leaving, leaveDest := some .seeking, leftSynced := s.syncFlag, leaveReason := some .resync }

/-- The states in which a storage upset queues LEAVE(RESYNC) (R167). -/
def StationState.resyncs (st : StationState) : Prop := st = .active ∨ st = .announcing ∨ st = .loading

/-- Session and joiner's state stay, or the station has queued LEAVE(RESYNC). -/
def SessionKept (s t : State) : Prop :=
  (t.session = s.session ∧ t.joiner = s.joiner) ∨ (s.session.station.resyncs ∧ t.session = s.resyncing)

/-- The configuration image, the bus and what is sampled of the lines stay, and a station that offers an entry goes on offering one. -/
def Wired (s t : State) : Prop :=
  (t.port.system = s.port.system ∧ t.port.loc = s.port.loc) ∧ (t.bus.round = s.bus.round ∧ t.bus.stuck = s.bus.stuck) ∧
    (∀ n, (t.line n).req = (s.line n).req ∧ (t.line n).edges = (s.line n).edges) ∧ (s.carries = true → t.carries = true)

/-- Both. -/
def Kept (s t : State) : Prop := SessionKept s t ∧ Wired s t

theorem State.syncFlag_congr {s t : State} (h : t.session = s.session) : t.syncFlag = s.syncFlag := by
  simp only [State.syncFlag, State.runsAbsence, h]

theorem State.resyncing_congr {s t : State} (h : t.session = s.session) : t.resyncing = s.resyncing := by
  simp only [State.resyncing, h, State.syncFlag_congr h]

theorem SessionKept.refl (s : State) : SessionKept s s := .inl ⟨rfl, rfl⟩

/-- A station that has queued its LEAVE queues no second one. -/
theorem SessionKept.trans {s t u : State} (h : SessionKept s t) (k : SessionKept t u) : SessionKept s u := by
  rcases h with ⟨hs, hj⟩ | ⟨hr, hs⟩
  · rcases k with ⟨ks, kj⟩ | ⟨kr, ks⟩
    · exact .inl ⟨ks.trans hs, kj.trans hj⟩
    · exact .inr ⟨hs ▸ kr, ks.trans (State.resyncing_congr hs)⟩
  · rcases k with ⟨ks, _⟩ | ⟨kr, _⟩
    · exact .inr ⟨hr, ks.trans hs⟩
    · rw [hs] at kr
      rcases kr with k | k | k <;> cases k

theorem Wired.refl (s : State) : Wired s s := ⟨⟨rfl, rfl⟩, ⟨rfl, rfl⟩, fun _ => ⟨rfl, rfl⟩, id⟩

theorem Wired.trans {s t u : State} (h : Wired s t) (k : Wired t u) : Wired s u := by
  obtain ⟨⟨hs, hl⟩, ⟨hr, hb⟩, hn, hc⟩ := h
  obtain ⟨⟨ks, kl⟩, ⟨kr, kb⟩, kn, kc⟩ := k
  exact ⟨⟨ks.trans hs, kl.trans hl⟩, ⟨kr.trans hr, kb.trans hb⟩,
    fun n => ⟨(kn n).1.trans (hn n).1, (kn n).2.trans (hn n).2⟩, kc ∘ hc⟩

theorem Wired.foldl {α : Type} {f : State → α → State} (h : ∀ s a, Wired s (f s a)) (l : List α) (s : State) :
    Wired s (l.foldl f s) := by
  induction l generalizing s with
  | nil => exact .refl s
  | cons a l ih => exact (h s a).trans (ih _)

theorem Kept.session {s t : State} (h : Kept s t) : SessionKept s t := h.1

theorem Kept.wired {s t : State} (h : Kept s t) : Wired s t := h.2

theorem Kept.refl (s : State) : Kept s s := ⟨.refl s, .refl s⟩

theorem Kept.trans {s t u : State} (h : Kept s t) (k : Kept t u) : Kept s u := ⟨h.1.trans k.1, h.2.trans k.2⟩

theorem Kept.foldl {α : Type} {f : State → α → State} (h : ∀ s a, Kept s (f s a)) (l : List α) (s : State) :
    Kept s (l.foldl f s) := by
  induction l generalizing s with
  | nil => exact .refl s
  | cons a l ih => exact (h s a).trans (ih _)

/-! ### What the Outbox goes on offering -/

theorem State.carries_iff (s : State) : s.carries = true ↔ ∃ e ∈ s.outbox.entries, e.offered = true := by
  simp [State.carries, Outbox.offered]

/-- A changed Outbox goes on offering what was offered. -/
def Outbox.offersOn (o x : Outbox) : Prop := (∃ e ∈ o.entries, e.offered = true) → ∃ e ∈ x.entries, e.offered = true

theorem mem_insertEntry {e x : Entry} {es : List Entry} : x ∈ insertEntry e es ↔ x = e ∨ x ∈ es := by
  induction es with
  | nil => simp [insertEntry]
  | cons y ys ih =>
    unfold insertEntry
    split
    · simp
    · simp only [List.mem_cons, ih]; tauto

theorem Outbox.submit_offersOn (o : Outbox) (b : Body) (tag : Word) (w : Owner) : o.offersOn (o.submit b tag w).1 := by
  unfold Outbox.submit
  split
  · exact id
  · split
    · rintro ⟨e, he, h⟩
      exact ⟨e, mem_insertEntry.2 (.inr he), h⟩
    · exact id

theorem State.offer_offersOn (s : State) (b : Body) (w : Owner) : s.outbox.offersOn (s.offer b w).1 := by
  unfold State.offer; split
  · exact id
  · exact s.outbox.submit_offersOn b _ w

theorem Outbox.removeUnsent_offersOn (o : Outbox) (test : Entry → Bool) : o.offersOn (o.removeUnsent test) := by
  rintro ⟨e, he, h⟩
  refine ⟨if test e && e.offered then { e with removal := true } else e, ?_, by split <;> exact h⟩
  refine List.mem_filter.2 ⟨List.mem_map.2 ⟨e, he, rfl⟩, ?_⟩
  cases hd : test e <;> simp [hd, h]

theorem Outbox.keepOffered_offersOn (o : Outbox) : o.offersOn o.keepOffered := by
  rintro ⟨e, he, h⟩
  exact ⟨{ e with removal := true }, List.mem_map.2 ⟨e, List.mem_filter.2 ⟨he, by simp [h]⟩, rfl⟩, h⟩

@[simp] theorem State.post_session (s : State) (k : EventKind) (w : Fin 16) : (s.post k w).session = s.session := rfl
@[simp] theorem State.post_joiner (s : State) (k : EventKind) (w : Fin 16) : (s.post k w).joiner = s.joiner := rfl
@[simp] theorem State.submit_session (s : State) (b : Body) : (s.submit b).1.session = s.session := rfl
@[simp] theorem State.submit_joiner (s : State) (b : Body) : (s.submit b).1.joiner = s.joiner := rfl

variable (s : State)

/-! ### One update -/

theorem State.setOutbox_kept {x : Outbox} (h : s.outbox.offersOn x) : Kept s (s.setOutbox x) :=
  ⟨.refl s, ⟨rfl, rfl⟩, ⟨rfl, rfl⟩, fun _ => ⟨rfl, rfl⟩, fun c => (State.carries_iff _).2 (h (s.carries_iff.1 c))⟩
theorem State.setTimers_kept (x : Timers) : Kept s (s.setTimers x) := .refl s
theorem State.setSponsor_kept (x : Sponsor) : Kept s (s.setSponsor x) := .refl s
theorem State.setPool_kept (x : Pool) : Kept s (s.setPool x) := .refl s
theorem State.setChecker_kept (x : Checker) : Kept s (s.setChecker x) := .refl s
theorem State.post_kept (k : EventKind) (w : Fin 16) : Kept s (s.post k w) := .refl s
theorem State.offer_kept (b : Body) (w : Owner) : Kept s (s.setOutbox (s.offer b w).1) := s.setOutbox_kept (s.offer_offersOn b w)
theorem State.submit_kept (b : Body) : Kept s (s.submit b).1 := s.offer_kept b .session

theorem State.setSlot_kept (c : Client) (v : Slot) : Kept s (s.setSlot c v) := by
  refine ⟨.inl ⟨by simp, by simp⟩, by simp, by simp, fun n => ?_, by simp [State.carries]⟩
  rw [State.setSlot_line]
  split <;> exact ⟨rfl, rfl⟩

/-- A port or a line written leaves the session. -/
theorem State.setPort_sessionKept (x : Port) : SessionKept s (s.setPort x) := .refl s
theorem State.setLine_sessionKept (n : LineNo) (l : Line) : SessionKept s (s.setLine n l) := .refl s

/-- A line's re-arm flag is no sampled level. -/
theorem State.setLine_kept (n : LineNo) {l : Line} (h : l.req = (s.line n).req ∧ l.edges = (s.line n).edges) : Kept s (s.setLine n l) := by
  refine ⟨.refl s, ⟨rfl, rfl⟩, ⟨rfl, rfl⟩, fun k => ?_, id⟩
  rw [State.setLine_line]
  split
  · rename_i e; rw [e]; exact h
  · exact ⟨rfl, rfl⟩

/-! ### The queuing of a LEAVE and storage upsets -/

theorem State.dropOwed_kept : Kept s s.dropOwed :=
  (s.setSponsor_kept _).trans (Kept.foldl (fun s c => s.setSlot_kept c _) sixteen _)

theorem State.clearOutbox_kept : Kept s s.clearOutbox :=
  (s.setOutbox_kept (x := s.outbox.cleared) s.outbox.keepOffered_offersOn).trans (State.dropOwed_kept _)

@[simp] theorem State.dropOwed_session : s.dropOwed.session = s.session := by rw [State.dropOwed_eq]

@[simp] theorem State.closeSlots_session : s.closeSlots.session = s.session := by rw [State.closeSlots_eq]

@[simp] theorem State.purge_session : s.purge.session = s.session := State.dropOwed_session _

@[simp] theorem State.enter_session (st : StationState) (c : Cause) :
    (s.enter st c).session = { s.session with station := st } := by rw [State.enter_eq]

@[simp] theorem State.placeLeave_session (r : LeaveReason) : (s.placeLeave r).session = s.session := rfl

@[simp] theorem State.stopLoading_session : s.stopLoading.session = s.session := rfl

@[simp] theorem State.recordLeave_session (r : LeaveReason) : (s.recordLeave r).session =
    { s.session with leaveDest := some r.dest, leftSynced := s.syncFlag, leaveReason := some r } := rfl

/-- What the queuing of a LEAVE does to the session, in any state. -/
theorem State.queueLeave_session (r : LeaveReason) : (s.queueLeave r).session =
    { s.session with station := .leaving, leaveDest := some r.dest, leftSynced := s.syncFlag, leaveReason := some r } := by
  have hs : (s.purge.closeSlots.placeLeave r).stopLoading.session = s.session := by simp
  rw [State.queueLeave, State.enter_session, State.recordLeave_session, hs, State.syncFlag_congr hs]

/-- A change of station state, its lock and its event. -/
theorem State.enter_wired (st : StationState) (c : Cause) : Wired s (s.enter st c) := by rw [State.enter_eq]; exact .refl s

theorem State.stopLoading_wired : Wired s s.stopLoading := .refl s

theorem State.recordLeave_wired (r : LeaveReason) : Wired s (s.recordLeave r) := .refl s

theorem State.markUpset_wired : Wired s s.markUpset := .refl s

theorem State.purge_kept : Kept s s.purge := (s.setOutbox_kept s.outbox.keepOffered_offersOn).trans (State.dropOwed_kept _)

theorem State.closeSlots_kept : Kept s s.closeSlots := Kept.foldl (fun s c => s.setSlot_kept c _) sixteen s

theorem State.placeLeave_kept (r : LeaveReason) : Kept s (s.placeLeave r) := s.setOutbox_kept (s.outbox.submit_offersOn _ _ _)

theorem State.queueLeave_wired (r : LeaveReason) : Wired s (s.queueLeave r) := by
  unfold State.queueLeave
  exact ((((s.purge_kept.trans (State.closeSlots_kept _)).trans (State.placeLeave_kept _ r)).wired.trans
    (State.stopLoading_wired _)).trans (State.recordLeave_wired _ r)).trans (State.enter_wired _ _ _)

theorem State.upset_kept : Kept s s.upset := by
  unfold State.upset
  split
  · exact .refl s
  · have hq : ∀ h : s.session.station.resyncs, Kept s (s.markUpset.queueLeave .resync) :=
      fun h => ⟨.inr ⟨h, State.queueLeave_session _ _⟩, s.markUpset_wired.trans (State.queueLeave_wired _ _)⟩
    split
    case h_1 h => exact hq (.inl h)
    case h_2 h => exact hq (.inr (.inl h))
    case h_3 h => exact hq (.inr (.inr h))
    all_goals exact .refl s

theorem State.freeze_kept : Kept s s.freeze := (s.setPool_kept _).trans (State.upset_kept _)

theorem State.readMembers_kept (as : List Addr) : Kept s (s.readMembers as) := by
  unfold State.readMembers; split
  · exact s.upset_kept
  · exact .refl s

theorem State.mismatch_kept : Kept s s.mismatch := by
  unfold State.mismatch
  cases s.session.station <;> first | exact s.upset_kept | exact .refl s

theorem State.waiterQuery_kept (m : Mask) : Kept s (s.waiterQuery m).1 := by
  unfold State.waiterQuery
  split
  · exact .refl s
  · split
    · exact s.freeze_kept
    · exact .refl s

/-! ### Submissions, answers and owed notices -/

theorem State.submitBeacon_kept : Kept s s.submitBeacon := by
  unfold State.submitBeacon; dsimp only; split
  · exact .refl s
  · split <;> exact s.submit_kept _

theorem State.submitEvict_kept (m : Addr) : Kept s (s.submitEvict m) := by
  unfold State.submitEvict; dsimp only; split
  · exact .refl s
  · split <;> exact s.submit_kept _

theorem State.submitAnswer_kept (b : Body) : Kept s (s.submitAnswer b) := by
  unfold State.submitAnswer; dsimp only; split <;> exact s.submit_kept _

theorem State.makeSnap_kept : Kept s s.makeSnap := by
  unfold State.makeSnap
  split
  · exact .refl s
  · split
    · split
      · exact .refl s
      · exact (s.setSponsor_kept _).trans (State.submitAnswer_kept _ _)
    · exact .refl s

theorem State.makeAnswer_kept (a : Addr) : Kept s (s.makeAnswer a) := by
  unfold State.makeAnswer
  split
  · split
    · exact .refl s
    · dsimp only
      split
      · exact ((s.readMembers_kept _).trans (State.setSponsor_kept _ _)).trans (State.submitAnswer_kept _ _)
      · exact s.readMembers_kept _
  · exact .refl s

theorem State.makeAnswers_kept : Kept s s.makeAnswers :=
  (s.makeSnap_kept.trans (State.makeSnap_kept _)).trans (Kept.foldl (fun s a => s.makeAnswer_kept a) _ _)

theorem State.serveEvict_kept (t : Addr) : Kept s (s.serveEvict t) := by
  unfold State.serveEvict; dsimp only; split
  · split
    iterate 2 exact s.submit_kept _
    all_goals exact .refl s
  · exact .refl s

theorem State.serveSlot_kept (claims : Bool) (c : Client) : Kept s (State.serveSlot claims s c) := by
  unfold State.serveSlot
  dsimp only
  split
  · split
    · exact .refl s
    · split
      · exact (s.offer_kept _ _).trans (State.setSlot_kept _ _ _)
      · exact s.mismatch_kept
      all_goals exact .refl s
  · exact .refl s

theorem State.serveAnswer_kept : Kept s s.serveAnswer := by
  unfold State.serveAnswer; dsimp only; split
  · exact .refl s
  · split
    · exact s.submit_kept _
    all_goals exact .refl s

theorem State.serveBeacon_kept : Kept s s.serveBeacon := by
  unfold State.serveBeacon; dsimp only; split
  · split
    iterate 2 exact s.submit_kept _
    all_goals exact .refl s
  · exact .refl s

theorem State.serveOwed_kept : Kept s s.serveOwed :=
  ((((Kept.foldl (fun s t => s.serveEvict_kept t) sixteen s).trans
    (Kept.foldl (fun s c => s.serveSlot_kept false c) sixteen _)).trans (State.serveAnswer_kept _)).trans
      (State.serveBeacon_kept _)).trans (Kept.foldl (fun s c => s.serveSlot_kept true c) sixteen _)

theorem State.answersAfter_kept (before : State) (b : Bool) : Kept s (State.answersAfter before s b) := by
  unfold State.answersAfter; split
  · exact s.makeAnswers_kept
  · exact .refl s

theorem State.roomEvent_kept : Kept s s.roomEvent := s.serveOwed_kept.trans (State.answersAfter_kept _ _ _)

theorem State.requestRemoval_kept (test : Entry → Bool) : Kept s (s.requestRemoval test) := by
  unfold State.requestRemoval; dsimp only; split
  · exact (s.setOutbox_kept (s.outbox.removeUnsent_offersOn test)).trans (State.roomEvent_kept _)
  · exact s.setOutbox_kept (s.outbox.removeUnsent_offersOn test)

/-! ### Slots and lines -/

theorem State.startClaim_kept (c : Client) (m : Mask) (k : Class) : Kept s (s.startClaim c m k) := by
  unfold State.startClaim
  dsimp only
  split
  · exact (s.offer_kept _ _).trans (State.setSlot_kept _ _ _)
  · exact s.setSlot_kept _ _
  · exact s.setSlot_kept _ _
  all_goals exact s.mismatch_kept

theorem State.testLine_kept (n : LineNo) : Kept s (s.testLine n) := by
  unfold State.testLine; split
  · exact s.startClaim_kept _ _ _
  · exact .refl s

theorem State.testLines_kept : Kept s s.testLines := Kept.foldl (fun s n => s.testLine_kept n) _ _

theorem State.testClient_kept (c : Client) : Kept s (s.testClient c) := by
  unfold State.testClient; split
  · exact s.testLine_kept _
  · exact .refl s

theorem State.rearmIfHigh_kept (c : Client) : Kept s (s.rearmIfHigh c) := by
  unfold State.rearmIfHigh; split
  · split
    · exact s.setLine_kept _ ⟨rfl, rfl⟩
    · exact .refl s
  · exact .refl s

theorem State.endSlot_kept (c : Client) (r : EndReason) : Kept s (s.endSlot c r) := s.setSlot_kept _ _

theorem State.freeSlot_kept (c : Client) : Kept s (s.freeSlot c) := s.setSlot_kept _ _

theorem State.teardownSlot_kept (r : Option EndReason) (c : Client) : Kept s (State.teardownSlot r s c) := by
  unfold State.teardownSlot
  split
  · exact .refl s
  · exact s.freeSlot_kept c
  · exact s.endSlot_kept c _
  · exact s.freeSlot_kept c

theorem State.submitWithdraw_kept (c : Client) : Kept s (s.submitWithdraw c) := by
  unfold State.submitWithdraw
  dsimp only
  split
  · exact (s.offer_kept _ _).trans (State.setSlot_kept _ _ _)
  · exact s.setSlot_kept _ _
  · exact s.setSlot_kept _ _
  all_goals exact s.mismatch_kept

theorem State.submitRelease_kept (c : Client) (r : ReleaseReason) : Kept s (s.submitRelease c r) := by
  unfold State.submitRelease
  dsimp only
  split
  · exact (s.offer_kept _ _).trans (State.setSlot_kept _ _ _)
  · exact s.setSlot_kept _ _
  · exact s.setSlot_kept _ _
  all_goals exact s.mismatch_kept

theorem State.withdrawSlot_kept (c : Client) : Kept s (s.withdrawSlot c) := by
  unfold State.withdrawSlot
  dsimp only
  split
  · exact (s.endSlot_kept c _).trans (State.testClient_kept _ _)
  · split
    · exact ((s.requestRemoval_kept _).trans (State.endSlot_kept _ _ _)).trans (State.testClient_kept _ _)
    · exact (s.requestRemoval_kept _).trans (State.setSlot_kept _ _ _)
  · exact s.submitWithdraw_kept c
  all_goals exact .refl s

theorem State.renewal_kept (c : Client) : Kept s (s.renewal c).1 := by
  unfold State.renewal
  dsimp only
  have h := s.waiterQuery_kept (s.slot c).set
  split
  · exact h
  · exact h
  · exact h.trans (State.setSlot_kept _ _ _)
  · split
    · exact h.trans (State.setSlot_kept _ _ _)
    · exact h

theorem State.leaseExpired_kept (c : Client) : Kept s (s.leaseExpired c) := by
  have hy : ∀ t : State, Kept t (t.toYielding c) := fun t => t.setSlot_kept _ _
  unfold State.leaseExpired
  dsimp only
  split
  · split
    · split
      · exact s.renewal_kept c
      · split
        · exact (s.renewal_kept c).trans (hy _)
        · exact s.renewal_kept c
    · exact hy s
  · exact hy s

theorem State.fallSlot_kept (c : Client) : Kept s (s.fallSlot c) := by
  unfold State.fallSlot
  split
  iterate 3 exact s.withdrawSlot_kept c
  iterate 2 exact s.submitRelease_kept c _
  · exact (s.freeSlot_kept c).trans (State.testClient_kept _ _)
  all_goals exact .refl s

theorem State.handEdge_kept (n : LineNo) (e : Edge) : Kept s (s.handEdge n e) := by
  cases e
  · exact s.testLine_kept n
  · exact s.fallSlot_kept _

theorem State.handEdges_kept (n : LineNo) (es : List Edge) : Kept s (s.handEdges n es) := by
  induction es generalizing s with
  | nil => exact .refl s
  | cons e es ih => exact (s.handEdge_kept n e).trans (ih _)

/-- The settling of a round, and an edge that waits, leave the session. -/
theorem State.settle_sessionKept (taken : Bool) : SessionKept s (s.settle taken).state := by
  have htold : ∀ (t : State) (c : Client), SessionKept t (t.toldRemoved c) := fun t c => by
    unfold State.toldRemoved
    dsimp only
    split
    · exact (t.setSlot_kept _ _).session
    · split
      · exact (t.setSlot_kept c _).session
      · exact .refl t
  unfold State.settle
  split
  · exact .refl s
  · dsimp only
    split
    · exact .refl s
    · split
      · rename_i e _ _ _
        cases hw : e.owner with
        | claimUnit c => exact (SessionKept.refl s).trans (htold _ c)
        | session => exact .refl s
      · exact .refl s

theorem State.edge_sessionKept (n : LineNo) (e : Edge) (h : Timing) : SessionKept s (s.edge n e h) := by
  cases h
  · exact (s.setLine_sessionKept n _).trans (State.handEdges_kept _ n _).session
  · exact s.setLine_sessionKept n _

theorem State.offerRoom_kept (room : Bool) (c : Option Client) : Kept s (s.offerRoom room c) := by
  have ht : ∀ t : State, Kept t (t.testEnded c) := fun t => by
    cases c with
    | none => exact .refl t
    | some c => exact t.testClient_kept c
  unfold State.offerRoom; split
  · exact s.serveOwed_kept.trans (ht _)
  · exact ht s

theorem Settled.close_kept (x : Settled) (before : State) : Kept x.state (x.close before) :=
  (State.offerRoom_kept _ _ _).trans (State.answersAfter_kept _ _ _)

theorem State.settleKept_sessionKept : SessionKept s s.settleKept :=
  (s.settle_sessionKept false).trans (Settled.close_kept _ s).session

/-! ### Indications and the Table Engine -/

theorem State.refuseQueued_kept (c : Client) (r : ClaimRefusal) : Kept s (s.refuseQueued c r) := by
  unfold State.refuseQueued
  dsimp only
  split
  · exact s.setSlot_kept _ _
  · split
    · exact (s.endSlot_kept c _).trans (State.testClient_kept _ _)
    · exact ((s.endSlot_kept c _).trans (State.rearmIfHigh_kept _ _)).trans (State.testClient_kept _ _)

theorem State.indicate_kept (c : Client) (i : Indication) (r : Option EndReason) : Kept s (s.indicate c i r) := by
  unfold State.indicate
  dsimp only
  split
  · exact s.setSlot_kept _ _
  · split
    · split
      · exact s.setSlot_kept _ _
      · exact s.mismatch_kept
    · split
      · exact s.submitWithdraw_kept c
      · exact s.mismatch_kept
  · exact s.refuseQueued_kept c _
  · split
    · exact (s.endSlot_kept c _).trans (State.testClient_kept _ _)
    · exact s.mismatch_kept
  · exact s.setSlot_kept _ _
  · exact .refl s
  · exact (s.endSlot_kept c _).trans (State.testClient_kept _ _)
  · exact (s.endSlot_kept c _).trans (State.testClient_kept _ _)
  · exact ((s.endSlot_kept c _).trans (State.rearmIfHigh_kept _ _)).trans (State.testClient_kept _ _)
  · exact s.teardownSlot_kept _ c
  · exact s.mismatch_kept

theorem State.tellOwn_kept (tell : Bool) (a : Addr) (c : Client) (i : Indication) (r : Option EndReason) :
    Kept s (s.tellOwn tell a c i r) := by
  unfold State.tellOwn; split
  · exact s.indicate_kept c i r
  · exact .refl s

theorem State.runPass_kept (tell : Bool) : Kept s (s.runPass tell) := by
  have h : ∀ t : State, Kept t ((grantPass s.port.threshold s.pool.records).granted.foldl (State.tellGrants tell) t) :=
    fun t => Kept.foldl (fun u (r : PoolRecord) => u.tellOwn_kept tell r.station r.client .granted none) _ t
  unfold State.runPass
  dsimp only
  split
  · exact ((s.setPool_kept _).trans (h _)).trans (State.freeze_kept _)
  · exact (s.setPool_kept _).trans (h _)

theorem State.withPool_kept {work : State → State} (h : ∀ s, Kept s (work s)) : Kept s (s.withPool work) := by
  unfold State.withPool; split
  · exact .refl s
  · exact h s

theorem State.takeClaim_kept (tell : Bool) (a : Addr) (c : Client) (k : Class) (m : Mask) : Kept s (s.takeClaim tell a c k m) := by
  refine s.withPool_kept fun s => ?_
  split
  · exact s.tellOwn_kept _ _ _ _ _
  · unfold State.admitClaim
    split
    · exact s.freeze_kept
    · exact s.tellOwn_kept _ _ _ _ _
    · split
      · exact s.tellOwn_kept _ _ _ _ _
      · exact ((s.setPool_kept _).trans (State.tellOwn_kept _ _ _ _ _ _)).trans (State.runPass_kept _ _)

theorem State.dropRecord_kept (tell : Bool) (a : Addr) (c : Client) (i : Option Standing → Indication) :
    Kept s (State.dropRecord tell a c i s) := by
  unfold State.dropRecord
  dsimp only
  split
  · exact s.freeze_kept
  · exact s.tellOwn_kept _ _ _ _ _
  · exact ((s.setPool_kept _).trans (State.tellOwn_kept _ _ _ _ _ _)).trans (State.runPass_kept _ _)

theorem State.removeRecords_kept (tell : Bool) (k : RemovalCause) (r : Option EndReason) (as : List Addr) :
    Kept s (s.removeRecords tell k r as) := by
  unfold State.removeRecords
  split
  · exact .refl s
  · refine s.withPool_kept fun s => ?_
    unfold State.dropStations
    dsimp only
    split
    · exact s.freeze_kept
    · split
      · exact .refl s
      · exact ((s.setPool_kept _).trans (Kept.foldl (fun t (x : PoolRecord) =>
          t.tellOwn_kept tell x.station x.client (.removed k x.standing) r) _ _)).trans (State.runPass_kept _ _)

theorem State.poolEffect_kept (tell : Bool) (n : Notice) (r : Option EndReason) (as : List Addr) :
    Kept s (s.poolEffect tell n r as) := by
  unfold State.poolEffect
  split
  · exact s.takeClaim_kept _ _ _ _ _
  · exact s.withPool_kept fun s => s.dropRecord_kept _ _ _ _
  · exact s.withPool_kept fun s => s.dropRecord_kept _ _ _ _
  · exact s.removeRecords_kept _ _ _ _
  · exact s.removeRecords_kept _ _ _ _
  all_goals exact .refl s

theorem State.askBack_kept (test : Entry → Bool) : Kept s (s.askBack test) := s.setOutbox_kept (s.outbox.removeUnsent_offersOn test)

theorem State.recall_kept (h : Heard) : Kept s (s.recall h) := by
  have he : ∀ s : State, Kept s (s.recallEvict h.notice) := fun s => by
    unfold State.recallEvict; split
    · exact (s.setSponsor_kept _).trans (State.askBack_kept _ _)
    · exact .refl s
  have hd : ∀ s : State, Kept s s.dropOwedSnap := fun s => by
    unfold State.dropOwedSnap; split
    · split <;> exact .refl s
    · exact .refl s
  have hs : ∀ s : State, Kept s (s.recallSnaps h.notice) := fun s => by
    unfold State.recallSnaps; split
    · exact .refl s
    · split
      · exact ((s.setSponsor_kept _).trans (hd _)).trans (State.askBack_kept _ _)
      · exact .refl s
  unfold State.recall
  split
  · exact s.askBack_kept _
  · split
    · exact .refl s
    · exact s.askBack_kept _
  · split
    · exact s.askBack_kept _
    · exact .refl s
  iterate 3
    · split
      · exact (he s).trans (hs _)
      · exact .refl s
  all_goals exact .refl s

theorem State.clearSuspect_kept : Kept s s.clearSuspect := by
  unfold State.clearSuspect; split
  · split <;> exact .refl s
  · exact .refl s

theorem State.checkServing_kept (h : Heard) : Kept s (s.checkServing h) := by
  unfold State.checkServing; split <;> exact .refl s

theorem State.postActive_kept (st : StationState) : Kept s (State.postActive st s) := by
  unfold State.postActive; split <;> exact .refl s

theorem State.recheck_kept (before : State) : Kept s (State.recheck before s) := by
  unfold State.recheck
  dsimp only
  split
  · exact .refl s
  · split
    · exact (s.setChecker_kept _).trans (State.freeze_kept _)
    · exact (s.setChecker_kept _).trans (State.readMembers_kept _ _)

end Sys2Proof.Machine
end

