-- ==== Sys2Proof/Proofs/Pools.lean ====
section
/-! SUPPORT. The grant pass, the membership effect and the pool effect of a notice: what they do to table and pool, and that they
keep the form of both (R4, R18, R27, R121). -/

namespace Sys2Proof.Machine

/-! ### The pool under quiet updates -/

/-- A quiet update leaves the pool, or freezes one with a failing record. -/
theorem Quiet.pool {s t : State} (h : Quiet s t) :
    t.pool = s.pool ∨ (s.poolFails = true ∧ t.pool = { s.pool with frozen := true }) := by
  cases h with
  | frozen h => exact .inr ⟨h, rfl⟩
  | slot => exact .inl (by simp)
  | _ => exact .inl rfl

theorem Quiets.pool {s t : State} (h : Quiets s t) :
    t.pool = s.pool ∨ (s.poolFails = true ∧ t.pool = { s.pool with frozen := true }) := by
  induction h with
  | refl => exact .inl rfl
  | tail _ h ih =>
    rename_i b c _
    rcases h.pool with hc | ⟨hf, hc⟩ <;> rcases ih with hb | ⟨hg, hb⟩
    · exact .inl (hc.trans hb)
    · exact .inr ⟨hg, hc.trans hb⟩
    · exact .inr ⟨by simpa only [State.poolFails, hb] using hf, by rw [hc, hb]⟩
    · exact .inr ⟨hg, by rw [hc, hb]⟩

/-- A pool without a failing record stays as it is. -/
theorem Quiets.pool_same {s t : State} (h : Quiets s t) (hf : s.poolFails = false) : t.pool = s.pool := by
  rcases h.pool with e | ⟨e, _⟩
  · exact e
  · rw [hf] at e; cases e

/-- A frozen pool stays frozen. -/
theorem Quiets.frozen {s t : State} (h : Quiets s t) (hf : s.pool.frozen = true) : t.pool.frozen = true := by
  rcases h.pool with e | ⟨_, e⟩ <;> simp [e, hf]

theorem Quiets.not_frozen {s t : State} (h : Quiets s t) (hf : t.pool.frozen = false) : s.pool.frozen = false := by
  cases hs : s.pool.frozen with
  | false => rfl
  | true => rw [h.frozen hs] at hf; cases hf

/-- A failing record met freezes the pool. -/
theorem State.freeze_frozen (s : State) : s.freeze.pool.frozen = true :=
  Quiets.frozen (State.upset_quiet (s.setPool { s.pool with frozen := true })) rfl

/-! ### Grants (R25 to R29) -/

theorem shares_comm (a b : Mask) : shares a b = shares b a := by unfold shares; rw [BitVec.and_comm]

theorem foldl_pickBetter_mem {l : List (PoolRecord × Nat)} {acc : Option (PoolRecord × Nat)} {x : PoolRecord × Nat}
    (h : l.foldl pickBetter acc = some x) : acc = some x ∨ x ∈ l := by
  induction l generalizing acc with
  | nil => exact .inl h
  | cons a l ih =>
    rcases ih h with e | e
    · cases acc with
      | none => cases e; exact .inr (by simp)
      | some b =>
        simp only [pickBetter] at e
        split at e
        · cases e; exact .inr (by simp)
        · exact .inl e
    · exact .inr (List.mem_cons_of_mem _ e)

/-- The record a pass grants stands at its position and is grantable. -/
theorem bestGrantable_some {recs : List PoolRecord} {g : PoolRecord} {i : Nat} (h : bestGrantable recs = some (g, i)) :
    recs[i]? = some g ∧ grantable recs g i = true := by
  rcases foldl_pickBetter_mem h with e | e
  · cases e
  · obtain ⟨hm, hg⟩ := List.mem_filter.1 e
    exact ⟨List.mk_mem_zipIdx_iff_getElem?.1 hm, hg⟩

/-- A grant leaves each record its pair, its set and its integrity check. -/
theorem afterGrant_kept (t : Nat) (g : PoolRecord) (i : Nat) (w : PoolRecord) (j : Nat) :
    (afterGrant t g i w j).station = w.station ∧ (afterGrant t g i w j).client = w.client ∧
      (afterGrant t g i w j).set = w.set ∧ (afterGrant t g i w j).sound = w.sound := by
  unfold afterGrant overtaken
  split
  · exact ⟨rfl, rfl, rfl, rfl⟩
  · split
    · split
      · exact ⟨rfl, rfl, rfl, rfl⟩
      · split <;> exact ⟨rfl, rfl, rfl, rfl⟩
    · exact ⟨rfl, rfl, rfl, rfl⟩

/-- A grant makes the record granted a holder, and no other. -/
theorem afterGrant_isHolding {t : Nat} {g : PoolRecord} {i : Nat} {w : PoolRecord} {j : Nat} (h : j ≠ i) :
    (afterGrant t g i w j).isHolding = w.isHolding := by
  unfold afterGrant overtaken
  rw [if_neg h]
  split
  · split
    · rfl
    · split <;> rfl
  · rfl

theorem grantAt_getElem (t : Nat) (recs : List PoolRecord) (g : PoolRecord) (i j : Nat) (h : j < (grantAt t recs g i).length) :
    (grantAt t recs g i)[j] = afterGrant t g i (recs[j]'(by simpa [grantAt] using h)) j := by
  simp [grantAt]

/-- A record after a grant is one of before, its pair and its integrity check the same. -/
theorem mem_grantAt {t : Nat} {recs : List PoolRecord} {g : PoolRecord} {i : Nat} {r : PoolRecord} (h : r ∈ grantAt t recs g i) :
    ∃ w ∈ recs, r.station = w.station ∧ r.client = w.client ∧ r.sound = w.sound := by
  obtain ⟨j, hj, rfl⟩ := List.mem_iff_getElem.1 h
  rw [grantAt_getElem]
  have k := afterGrant_kept t g i (recs[j]'(by simpa [grantAt] using hj)) j
  exact ⟨_, List.getElem_mem _, k.1, k.2.1, k.2.2.2⟩

theorem PairsDistinct.grantAt {recs : List PoolRecord} (h : PairsDistinct recs) (t : Nat) (g : PoolRecord) (i : Nat) :
    PairsDistinct (grantAt t recs g i) := by
  unfold PairsDistinct at h ⊢
  rw [List.pairwise_iff_getElem] at h ⊢
  intro j k hj hk hjk
  have lj : j < recs.length := by simpa [Machine.grantAt] using hj
  have lk : k < recs.length := by simpa [Machine.grantAt] using hk
  obtain ⟨sj, cj, -⟩ := afterGrant_kept t g i recs[j] j
  obtain ⟨sk, ck, -⟩ := afterGrant_kept t g i recs[k] k
  rw [grantAt_getElem, grantAt_getElem, sj, cj, sk, ck]
  exact h j k lj lk hjk

/-- The record granted shares no resource with a holder, so the holders stay disjoint. -/
theorem HoldersDisjoint.grantAt {recs : List PoolRecord} (h : HoldersDisjoint recs) (t : Nat) {g : PoolRecord} {i : Nat}
    (hg : recs[i]? = some g) (hb : blockedByHolding recs g.set = false) : HoldersDisjoint (grantAt t recs g i) := by
  have free : ∀ w ∈ recs, w.isHolding = true → shares w.set g.set = false := fun w hw hh => by
    simp only [blockedByHolding, List.any_eq_false, Bool.and_eq_true, not_and, Bool.not_eq_true] at hb
    exact hb w hw hh
  have atI : ∀ (j : Nat) (hj : j < recs.length), j = i → recs[j].set = g.set := fun j hj e => by
    subst e
    rw [List.getElem?_eq_getElem hj] at hg
    rw [Option.some.inj hg]
  unfold HoldersDisjoint at h ⊢
  rw [List.pairwise_iff_getElem] at h ⊢
  intro j k hj hk hjk
  have lj : j < recs.length := by simpa [Machine.grantAt] using hj
  have lk : k < recs.length := by simpa [Machine.grantAt] using hk
  rw [grantAt_getElem, grantAt_getElem, (afterGrant_kept t g i recs[j] j).2.2.1, (afterGrant_kept t g i recs[k] k).2.2.1]
  by_cases ej : j = i
  · have ek : k ≠ i := by omega
    rw [afterGrant_isHolding ek, atI j lj ej]
    intro _ hh
    rw [shares_comm]
    exact free _ (List.getElem_mem _) hh
  · by_cases ek : k = i
    · rw [afterGrant_isHolding ej, atI k lk ek]
      exact fun hh _ => free _ (List.getElem_mem _) hh
    · rw [afterGrant_isHolding ej, afterGrant_isHolding ek]
      exact h j k lj lk hjk

/-- What every grant keeps, the pass keeps. -/
theorem grantSteps_keeps {P : List PoolRecord → Prop} {t : Nat}
    (hP : ∀ recs g i, recs[i]? = some g → grantable recs g i = true → P recs → P (grantAt t recs g i)) (k : Nat)
    (recs : List PoolRecord) (h : P recs) : P (grantSteps t k recs).records := by
  induction k generalizing recs with
  | zero => exact h
  | succ k ih =>
    unfold grantSteps
    split
    · exact h
    · split
      · exact h
      · rename_i g i e
        obtain ⟨hg, hb⟩ := bestGrantable_some e
        exact ih _ (hP recs g i hg hb h)

theorem PairsDistinct.grantPass {recs : List PoolRecord} (h : PairsDistinct recs) (t : Nat) :
    PairsDistinct (grantPass t recs).records :=
  grantSteps_keeps (fun _ g i _ _ h => h.grantAt t g i) _ _ h

theorem HoldersDisjoint.grantPass {recs : List PoolRecord} (h : HoldersDisjoint recs) (t : Nat) :
    HoldersDisjoint (grantPass t recs).records := by
  refine grantSteps_keeps (fun recs g i hg hb h => h.grantAt t hg ?_) _ _ h
  simp only [grantable, Bool.and_eq_true, Bool.not_eq_true'] at hb
  exact hb.1.2

/-- A record after a pass is one of before, its pair and its integrity check the same. -/
theorem mem_grantPass {t : Nat} {recs : List PoolRecord} {r : PoolRecord} (h : r ∈ (grantPass t recs).records) :
    ∃ w ∈ recs, r.station = w.station ∧ r.client = w.client ∧ r.sound = w.sound := by
  refine grantSteps_keeps (t := t) (P := fun l => ∀ r ∈ l, ∃ w ∈ recs, r.station = w.station ∧ r.client = w.client ∧ r.sound = w.sound)
    (fun l g i _ _ hl r hr => ?_) recs.length recs (fun r hr => ⟨r, hr, rfl, rfl, rfl⟩) r h
  obtain ⟨w, hw, s1, c1, d1⟩ := mem_grantAt hr
  obtain ⟨v, hv, s2, c2, d2⟩ := hl w hw
  exact ⟨v, hv, s1.trans s2, c1.trans c2, d1.trans d2⟩

/-! ### The membership effect (R125 step 3) -/

theorem Table.get_write (t : Table) (a b : Addr) (st : MemberState) (p : Option Addr) : (t.write a st p).get b =
    if b = a then ⟨st, if st = .absent ∨ st = .present then none else p, true⟩ else t.get b := by
  simp only [Table.write, Vector.get_eq_getElem, Vector.getElem_set]
  by_cases h : b = a
  · simp [h]
  · have : a.val ≠ b.val := fun e => h (Fin.ext e.symm)
    simp [h, this]

theorem Table.get_makeAbsent (t : Table) (as : List Addr) (b : Addr) :
    (t.makeAbsent as).get b = if b ∈ as then .absent else t.get b := by
  induction as generalizing t with
  | nil => rfl
  | cons a as ih =>
    rw [Table.makeAbsent, ih, Table.get_write]
    by_cases h : b ∈ as
    · simp [h]
    · by_cases e : b = a <;> simp [h, e, Member.absent]

/-- A removal makes the record and those it names ABSENT and leaves the others. -/
theorem Table.get_remove (t : Table) (a b : Addr) : (t.remove a).table.get b =
    if b ∈ (t.remove a).changes.map Prod.fst then .absent else t.get b := by
  simp only [Table.remove, Table.get_makeAbsent, Table.get_write, List.map_cons, List.map_map, List.mem_cons]
  have e : (t.write a .absent none).sponsoredBy a = ((t.write a .absent none).sponsoredBy a).map (Prod.fst ∘ fun g => (g, MemberState.absent)) := by
    simp [Function.comp_def]
  rw [← e]
  by_cases h : b ∈ (t.write a .absent none).sponsoredBy a
  · simp [h]
  · by_cases e : b = a <;> simp [h, e, Member.absent]

/-- The records whose pool records a LEAVE or an EVICT removes are those made ABSENT, and the leaver. -/
theorem mem_removedStations_leave {n : Notice} {r : Byte} (hb : n.body = .leave r) (ch : List (Addr × MemberState)) (a : Addr) :
    a ∈ removedStations n ch ↔ a = n.sender ∨ a ∈ ch.map Prod.fst := by
  simp only [removedStations, hb, List.mem_cons, List.mem_filter, decide_eq_true_eq]
  by_cases h : a = n.sender <;> simp [h]

/-- A record that a notice takes out of PRESENT is one whose pool records it removes (R17, R18). -/
theorem memberEffect_present (t : Table) (n : Notice) {a : Addr} (h : (t.get a).state = .present) :
    ((memberEffect t n).table.get a).state = .present ∨ a ∈ removedStations n (memberEffect t n).changes := by
  have wrote : ∀ (b : Addr) (st : MemberState) (p : Option Addr), st = .present ∨ (t.get b).state ≠ .present →
      ((t.write b st p).get a).state = .present := fun b st p hb => by
    rw [Table.get_write]
    by_cases e : a = b
    · subst e
      rcases hb with rfl | hb
      · simp
      · exact absurd h hb
    · simp [e, h]
  unfold memberEffect
  split
  · split
    · rename_i e _
      exact .inl (wrote _ _ _ (.inr (by simp [Table.stateOf] at e; simp [e])))
    · rename_i e _
      exact .inl (wrote _ _ _ (.inr (by simp [Table.stateOf] at e; simp [e])))
    · exact .inl h
  · rename_i j _ _
    split
    · rename_i e
      refine .inl (wrote _ _ _ (.inr ?_))
      simp only [Table.admitEffective, Table.stateOf, Bool.and_eq_true] at e
      simp [of_decide_eq_true e.1.1]
    · exact .inl h
  · split
    · rename_i e
      exact .inl (wrote _ _ _ (.inr (by have := e.2.1; simp [Table.stateOf] at this; simp [this])))
    · exact .inl h
  · rename_i r hb
    split
    · exact .inl h
    · rw [mem_removedStations_leave hb, Table.get_remove]
      by_cases e : a ∈ (t.remove n.sender).changes.map Prod.fst
      · exact .inr (.inr e)
      · exact .inl (by rw [if_neg e]; exact h)
  · rename_i x hb
    split
    · rw [Table.get_remove]
      by_cases e : a ∈ (t.remove x).changes.map Prod.fst
      · exact .inr (by simpa only [removedStations, hb] using e)
      · exact .inl (by rw [if_neg e]; exact h)
    · exact .inl h
  · split
    · exact .inl (wrote _ _ _ (.inl rfl))
    · exact .inl h
  all_goals exact .inl h

/-- The form of a member record (R121). -/
def Member.form (m : Member) : Prop := m.sponsor ≠ none ↔ m.state = .joining ∨ m.state = .syncing

theorem Member.form_absent : Member.absent.form := by simp [Member.form, Member.absent]

/-- A record written has the form, with a sponsor where it needs one. -/
theorem Table.write_form {t : Table} (h : ∀ b, (t.get b).form) (a : Addr) (st : MemberState) (p : Option Addr)
    (hp : st = .joining ∨ st = .syncing → p ≠ none) (b : Addr) : ((t.write a st p).get b).form := by
  rw [Table.get_write]
  split
  · cases st <;> simp_all [Member.form]
  · exact h b

theorem Table.remove_form {t : Table} (h : ∀ b, (t.get b).form) (a b : Addr) : ((t.remove a).table.get b).form := by
  rw [Table.get_remove]
  split
  · exact Member.form_absent
  · exact h b

/-- The membership effect keeps the form of the table (R121). -/
theorem memberEffect_form {t : Table} (h : ∀ b, (t.get b).form) (n : Notice) (b : Addr) :
    ((memberEffect t n).table.get b).form := by
  unfold memberEffect
  split
  · split
    · exact Table.write_form h _ _ _ (fun _ => by simp) b
    · exact Table.write_form h _ _ _ (fun _ => by simp) b
    · exact h b
  · rename_i j _ _
    split
    · rename_i e
      refine Table.write_form h _ _ _ (fun _ => ?_) b
      simp only [Table.admitEffective, Bool.and_eq_true, decide_eq_true_eq] at e
      simp [e.1.2]
    · exact h b
  · split
    · exact Table.write_form h _ _ _ (by simp) b
    · exact h b
  · split
    · exact h b
    · exact Table.remove_form h _ b
  · split
    · exact Table.remove_form h _ b
    · exact h b
  · split
    · exact Table.write_form h _ _ _ (by simp) b
    · exact h b
  all_goals exact h b

theorem memberOfByte_form (b : Byte) : (memberOfByte b).form := by
  unfold memberOfByte
  split <;> simp [Member.form]

/-- A SNAP-MEMBERS sets the record of each address from its byte. -/
theorem tableOfBytes_get (v : Vector Byte 16) (a : Addr) : (tableOfBytes v).get a = memberOfByte (v.get a) := by
  revert a
  simp only [Fin.forall_fin_succ, tableOfBytes]
  exact ⟨rfl, rfl, rfl, rfl, rfl, rfl, rfl, rfl, rfl, rfl, rfl, rfl, rfl, rfl, rfl, rfl, fun i => i.elim0⟩

theorem Table.empty_get (a : Addr) : Table.empty.get a = .absent := by
  simp [Table.empty, Vector.get_eq_getElem]

/-! ### The pool effect (R125 step 4) -/

/-- What the pool effect of a notice comes to: the pool stays (a failing record met may freeze it, and only a frozen pool keeps records
of the stations removed), or its records are replaced and a grant pass runs. -/
inductive Pooled (s : State) (tell : Bool) (as : List Addr) : State → Prop
  | stays {t : State} (q : Quiets s t) (h : t.pool.frozen = false → ∀ r ∈ s.pool.records, r.station ∉ as) : Pooled s tell as t
  | passes {recs : List PoolRecord} {a : State} (q : Quiets (s.setPool { s.pool with records := recs }) a)
      (hd : PairsDistinct s.pool.records → PairsDistinct recs) (hh : HoldersDisjoint s.pool.records → HoldersDisjoint recs)
      (hp : ∀ r ∈ recs, (r ∈ s.pool.records ∧ r.station ∉ as) ∨ (s.session.members.get r.station).state = .present) :
      Pooled s tell as (a.runPass tell)

/-- A pool with a failing record met is frozen. -/
theorem Pooled.freeze {s : State} (h : s.poolFails = true) (tell : Bool) (as : List Addr) : Pooled s tell as s.freeze :=
  .stays (s.freeze_quiet h) fun e => by rw [s.freeze_frozen] at e; cases e

/-- A search that finds no record of a pair, and no failing one, has met none in the whole pool. -/
theorem searchPool_missing {recs : List PoolRecord} {a : Addr} {c : Client} (h : searchPool a c recs = .missing) :
    ∀ r ∈ recs, ¬ (r.station = a ∧ r.client = c) := by
  induction recs with
  | nil => simp
  | cons r rs ih =>
    unfold searchPool at h
    split at h
    · cases h
    · split at h
      · cases h
      · rename_i hn
        simp only [PoolRecord.isOf, Bool.and_eq_true, decide_eq_true_eq] at hn
        exact List.forall_mem_cons.2 ⟨hn, ih h⟩

theorem PairsDistinct.filter {recs : List PoolRecord} (h : PairsDistinct recs) (p : PoolRecord → Bool) :
    PairsDistinct (recs.filter p) := List.Pairwise.filter p h

theorem HoldersDisjoint.filter {recs : List PoolRecord} (h : HoldersDisjoint recs) (p : PoolRecord → Bool) :
    HoldersDisjoint (recs.filter p) := List.Pairwise.filter p h

/-- A record appended whose pair is new leaves the pairs distinct. -/
theorem PairsDistinct.append {recs : List PoolRecord} (h : PairsDistinct recs) {x : PoolRecord}
    (hx : ∀ r ∈ recs, ¬ (r.station = x.station ∧ r.client = x.client)) : PairsDistinct (recs ++ [x]) :=
  List.pairwise_append.2 ⟨h, List.pairwise_singleton _ _, fun r hr y hy => by rw [List.mem_singleton.1 hy]; exact hx r hr⟩

/-- A WAITING record appended leaves the holders disjoint. -/
theorem HoldersDisjoint.append {recs : List PoolRecord} (h : HoldersDisjoint recs) {x : PoolRecord} (hx : x.isHolding = false) :
    HoldersDisjoint (recs ++ [x]) :=
  List.pairwise_append.2 ⟨h, List.pairwise_singleton _ _, fun r _ y hy _ hh => by
    rw [List.mem_singleton.1 hy, hx] at hh; cases hh⟩

variable (s : State)

/-- What is done to a pool that is not frozen. -/
theorem State.withPool_pooled {work : State → State} {tell : Bool} {as : List Addr} (h : Pooled s tell as (work s)) :
    Pooled s tell as (s.withPool work) := by
  unfold State.withPool
  split
  · exact .stays .refl fun e => by simp_all
  · exact h

theorem State.takeClaim_pooled (tell : Bool) (a : Addr) (c : Client) (k : Class) (m : Mask) :
    Pooled s tell [] (s.takeClaim tell a c k m) := by
  have told : ∀ i, Pooled s tell [] (s.tellOwn tell a c i) := fun i =>
    .stays (s.tellOwn_quiet tell a c i none) fun _ _ _ => List.not_mem_nil
  refine s.withPool_pooled ?_
  split
  · exact told _
  · rename_i hn
    have hm : (s.session.members.get a).state = .present := by
      by_contra hne
      exact hn (.inl hne)
    unfold State.admitClaim
    split
    · exact .freeze (searchPool_failing ‹_›) tell []
    · exact told _
    · rename_i hs
      split
      · exact told _
      · refine .passes (State.tellOwn_quiet _ tell a c .accepted none) (fun h => h.append (searchPool_missing hs))
          (fun h => h.append rfl) fun r hr => ?_
        rcases List.mem_append.1 hr with hr | hr
        · exact .inl ⟨hr, List.not_mem_nil⟩
        · rw [List.mem_singleton.1 hr]; exact .inr hm

theorem State.dropRecord_pooled (tell : Bool) (a : Addr) (c : Client) (i : Option Standing → Indication) :
    Pooled s tell [] (State.dropRecord tell a c i s) := by
  unfold State.dropRecord
  dsimp only
  split
  · exact .freeze (searchPool_failing ‹_›) tell []
  · exact .stays (s.tellOwn_quiet _ _ _ _ _) fun _ _ _ => List.not_mem_nil
  · exact .passes (State.tellOwn_quiet _ tell a c _ none) (fun h => h.filter _) (fun h => h.filter _)
      fun r hr => .inl ⟨List.mem_of_mem_filter hr, List.not_mem_nil⟩

theorem State.removeRecords_pooled (tell : Bool) (k : RemovalCause) (e : Option EndReason) (as : List Addr) :
    Pooled s tell as (s.removeRecords tell k e as) := by
  unfold State.removeRecords
  split
  · rename_i h
    rw [List.isEmpty_iff.1 h]
    exact .stays .refl fun _ _ _ => List.not_mem_nil
  · refine s.withPool_pooled ?_
    unfold State.dropStations
    dsimp only
    split
    · exact .freeze ‹_› tell as
    · split
      · rename_i h
        refine .stays .refl fun _ r hr hm => ?_
        have := List.filter_eq_nil_iff.1 (List.isEmpty_iff.1 h) r hr
        simp [hm] at this
      · exact .passes (Quiets.foldl (fun t (x : PoolRecord) => t.tellOwn_quiet tell x.station x.client (.removed k x.standing) e) _ _)
          (fun h => h.filter _) (fun h => h.filter _)
          fun r hr => .inl ⟨List.mem_of_mem_filter hr, by simpa using (List.mem_filter.1 hr).2⟩

theorem State.poolEffect_pooled (tell : Bool) (n : Notice) (e : Option EndReason) (ch : List (Addr × MemberState)) :
    Pooled s tell (removedStations n ch) (s.poolEffect tell n e (removedStations n ch)) := by
  have nil : ∀ t, removedStations n ch = [] → Pooled s tell [] t → Pooled s tell (removedStations n ch) t := fun t h k => h ▸ k
  have none : removedStations n ch = [] → Pooled s tell (removedStations n ch) s := fun h =>
    .stays .refl fun _ _ _ => by rw [h]; exact List.not_mem_nil
  unfold State.poolEffect
  cases hb : n.body
  case claim => exact nil _ (by simp [removedStations, hb]) (s.takeClaim_pooled _ _ _ _ _)
  case withdraw => exact nil _ (by simp [removedStations, hb]) (s.withPool_pooled (s.dropRecord_pooled _ _ _ _))
  case release => exact nil _ (by simp [removedStations, hb]) (s.withPool_pooled (s.dropRecord_pooled _ _ _ _))
  case leave => exact s.removeRecords_pooled _ _ _ _
  case evict => exact s.removeRecords_pooled _ _ _ _
  all_goals exact none (by simp [removedStations, hb])

/-! ### The form of the pool -/

/-- The form of the pool rests on table and records, and on the frozen flag only where that is clear. -/
theorem PoolForm.of_same {s t : State} (h : PoolForm s) (hm : t.session.members = s.session.members)
    (hr : t.pool.records = s.pool.records) (hf : t.pool.frozen = false → s.pool.frozen = false) : PoolForm t := by
  obtain ⟨h1, h2, h3⟩ := h
  unfold PoolForm
  rw [hm, hr]
  exact ⟨h1, h2, fun e => h3 (hf e)⟩

theorem PoolForm.quiets {s t : State} (h : PoolForm s) (q : Quiets s t) : PoolForm t :=
  h.of_same q.replica.1 q.replica.2.2.2.1 q.not_frozen

/-- An empty pool has the form. -/
theorem PoolForm.empty {s : State} (h : s.pool.records = []) : PoolForm s := by
  unfold PoolForm
  rw [h]
  exact ⟨List.Pairwise.nil, List.Pairwise.nil, fun _ _ h => nomatch h⟩

/-- A grant pass keeps the form: it grants only what no holder blocks. -/
theorem PoolForm.runPass {s : State} (h : PoolForm s) (tell : Bool) : PoolForm (s.runPass tell) := by
  obtain ⟨h1, h2, h3⟩ := h
  have hp : PoolForm (s.setPool { s.pool with records := (grantPass s.port.threshold s.pool.records).records }) := by
    refine ⟨h1.grantPass _, h2.grantPass _, fun e r hr => ?_⟩
    obtain ⟨w, hw, hs, -⟩ := mem_grantPass hr
    rw [hs]
    exact h3 e w hw
  have hq := Quiets.foldl (fun u (r : PoolRecord) => u.tellOwn_quiet tell r.station r.client .granted none)
    (grantPass s.port.threshold s.pool.records).granted
    (s.setPool { s.pool with records := (grantPass s.port.threshold s.pool.records).records })
  unfold State.runPass
  dsimp only
  split
  · rename_i hf
    refine (hp.quiets hq).quiets (State.freeze_quiet _ ?_)
    rw [State.poolFails, hq.replica.2.2.2.1]
    exact grantSteps_failed _ _ _ hf
  · exact hp.quiets hq

/-- The pool effect keeps the form, where the records of stations not PRESENT are those it removes. -/
theorem Pooled.form {s t : State} {tell : Bool} {as : List Addr} (h : Pooled s tell as t) (h1 : PairsDistinct s.pool.records)
    (h2 : HoldersDisjoint s.pool.records) (h3 : s.pool.frozen = false → ∀ r ∈ s.pool.records,
      (s.session.members.get r.station).state = .present ∨ r.station ∈ as) : PoolForm t := by
  cases h with
  | stays q hn =>
    obtain ⟨hm, -, -, hr, -⟩ := q.replica
    unfold PoolForm
    rw [hm, hr]
    exact ⟨h1, h2, fun e r hr => (h3 (q.not_frozen e) r hr).resolve_right (hn e r hr)⟩
  | passes q hd hh hp =>
    refine PoolForm.runPass (PoolForm.quiets ⟨hd h1, hh h2, fun e r hr => ?_⟩ q) tell
    rcases hp r hr with ⟨hr, hn⟩ | hp
    · exact (h3 e r hr).resolve_right hn
    · exact hp

/-- Steps 3 and 4 of R125 keep the form of the pool: the records of a station that leaves PRESENT are removed with it (R17, R18). -/
theorem PoolForm.effect {s a : State} (h : PoolForm s) {n : Notice}
    (q : Quiets (s.setMembers (memberEffect s.session.members n).table) a) (tell : Bool) (e : Option EndReason) :
    PoolForm (a.poolEffect tell n e (removedStations n (memberEffect s.session.members n).changes)) := by
  obtain ⟨h1, h2, h3⟩ := h
  obtain ⟨hm, -, -, hr, -⟩ := q.replica
  refine (a.poolEffect_pooled tell n e _).form (hr ▸ h1) (hr ▸ h2) fun hf r hx => ?_
  rw [hm]
  exact memberEffect_present _ _ (h3 (q.not_frozen hf) r (hr ▸ hx))

end Sys2Proof.Machine
end

