-- ==== Sys2Proof/Proofs/Handling.lean ====
section
/-! SUPPORT. What the handling of a delivered notice comes to (`handle_cases`), said once for the invariants: the replica stays, is
emptied, is founded or awaited anew, takes a notice, or is built by a snapshot. -/

namespace Sys2Proof.Machine

/-! ### Station and replica -/

/-- A LEAVING station stays so with the sync flag it left with, and no station comes to LOADING. -/
def Stays (s t : State) : Prop :=
  (s.session.station = .leaving → t.session.station = .leaving ∧ t.session.leftSynced = s.session.leftSynced) ∧
    (s.session.station ≠ .loading → t.session.station ≠ .loading)

theorem Stays.trans {s t u : State} (h : Stays s t) (k : Stays t u) : Stays s u :=
  ⟨fun e => ⟨(k.1 (h.1 e).1).1, (k.1 (h.1 e).1).2.trans (h.1 e).2⟩, fun e => k.2 (h.2 e)⟩

theorem Stays.of_session {s t : State} (h : t.session.station = s.session.station)
    (hl : t.session.leftSynced = s.session.leftSynced) : Stays s t :=
  ⟨fun e => ⟨h.trans e, hl⟩, fun e => h ▸ e⟩

/-- Station, sync flag left with and the snapshot's progress stay, or the station has gone to LEAVING from a state of a session. -/
def Steady (s t : State) : Prop :=
  (t.session.station = s.session.station ∧ t.session.leftSynced = s.session.leftSynced ∧
      t.joiner.building = s.joiner.building) ∨
    (s.session.station.resyncs ∧ t.session.station = .leaving ∧ t.session.leftSynced = s.syncFlag)

theorem SessionKept.steady {s t : State} (h : SessionKept s t) : Steady s t := by
  rcases h with ⟨hs, hj⟩ | ⟨hr, hs⟩
  · exact .inl ⟨by rw [hs], by rw [hs], by rw [hj]⟩
  · exact .inr ⟨hr, by rw [hs]; rfl, by rw [hs]; rfl⟩

theorem Kept.steady {s t : State} (h : Kept s t) : Steady s t := h.session.steady

theorem Steady.stays {s t : State} (h : Steady s t) : Stays s t := by
  rcases h with ⟨hs, hl, -⟩ | ⟨hr, hs, -⟩
  · exact .of_session hs hl
  · refine ⟨fun e => ?_, fun _ => by rw [hs]; nofun⟩
    rw [e] at hr
    rcases hr with h | h | h <;> cases h

theorem Kept.stays {s t : State} (h : Kept s t) : Stays s t := h.steady.stays

/-- The queuing of a LEAVE by a station that has not queued one. -/
theorem State.queueLeave_steady {s : State} (h : s.session.station.resyncs) (r : LeaveReason) : Steady s (s.queueLeave r) :=
  .inr ⟨h, by rw [State.queueLeave_session], by rw [State.queueLeave_session]⟩

/-- LOADING, or LEAVING with the sync flag that LOADING gives (R135, R139). -/
def LoadingOrLeft (t : State) : Prop :=
  t.session.station = .loading ∨ (t.session.station = .leaving ∧ t.session.leftSynced = false)

theorem Steady.loadingOrLeft {s t : State} (h : Steady s t) (hs : LoadingOrLeft s) : LoadingOrLeft t := by
  rcases h with ⟨h1, h2, -⟩ | ⟨hr, h1, h2⟩
  · rcases hs with e | ⟨e, el⟩
    · exact .inl (h1.trans e)
    · exact .inr ⟨h1.trans e, h2.trans el⟩
  · rcases hs with e | ⟨e, -⟩
    · exact .inr ⟨h1, by rw [h2, State.syncFlag, State.runsAbsence, e]⟩
    · rw [e] at hr
      rcases hr with h | h | h <;> cases h

/-- No replica is held: what R7, R41, R142 and R173 leave. -/
structure Bare (t : State) : Prop where
  members : t.session.members = .empty
  founded : t.session.founded = false
  count : t.session.count = 0#16
  pool : t.pool = ⟨[], false⟩
  check : t.checker.tableCheck = emptyCheck

theorem Bare.discard (s : State) : Bare s.discard := by
  rw [State.discard_eq]
  constructor <;> dsimp only

theorem Bare.quiets {s t : State} (h : Bare s) (q : Quiets s t) : Bare t := by
  obtain ⟨h1, h2, h3, h4, h5⟩ := q.replica
  exact ⟨h1.trans h.members, h2.trans h.founded, h3.trans h.count,
    (q.pool_same (by simp [State.poolFails, h.pool])).trans h.pool, h5.trans h.check⟩

theorem Bare.enter {s : State} (h : Bare s) (st : StationState) (c : Cause) : Bare (s.enter st c) := by
  rw [State.enter_eq]
  refine ⟨h.members, h.founded, h.count, h.pool, ?_⟩
  dsimp only
  split <;> exact h.check

/-- Outside a session and without a replica. -/
structure Emptied (t : State) : Prop extends Bare t where
  outside : t.session.station.inSession = false

theorem Bare.seek {s : State} (h : Bare s) (c : Cause) : Emptied (s.seek c) :=
  { (h.enter .seeking c).quiets (State.placeJoin_quiet _) with
    outside := (State.placeJoin_quiet _).inSession.trans (by rw [State.enter_session]; rfl) }

theorem Bare.enterOutside {s : State} (h : Bare s) {st : StationState} (hs : st.inSession = false) (c : Cause) :
    Emptied (s.enter st c) :=
  { h.enter st c with outside := by rw [State.enter_session]; exact hs }

theorem Bare.setTag {s : State} (h : Bare s) (t : Word) : Bare (s.setTag t) :=
  ⟨h.members, h.founded, h.count, h.pool, h.check⟩

theorem Bare.goOffline {s : State} (h : Bare s) (c : Cause) : Emptied (s.goOffline c) := (h.setTag _).enterOutside rfl c

theorem Bare.goListening {s : State} (h : Bare s) (c : Cause) : Emptied (s.goListening c) :=
  ((h.setTag _).quiets (State.timers_quiet _ _)).enterOutside rfl c

theorem Bare.cleared (s : State) : Bare s.discard.clearOutbox := (Bare.discard s).quiets (State.clearOutbox_quiet _)

variable (s : State)

/-- A station that gives up, yields, leaves, is evicted or falls to FAULTED holds no replica and is outside a session. -/
theorem State.giveUp_emptied (c : Cause) : Emptied (s.giveUp c) := (Bare.cleared s).seek c

theorem State.yieldTo_emptied (tag : Word) : Emptied (s.yieldTo tag) :=
  (((Bare.cleared _).setTag tag).quiets (State.timers_quiet _ _)).seek _

theorem State.ownLeave_emptied : Emptied s.ownLeave := by
  have h := Bare.cleared (s.teardown (s.session.leaveReason.bind LeaveReason.ends))
  unfold State.ownLeave
  dsimp only
  split
  · exact h.goOffline _
  · split
    · exact h.seek _
    · exact h.goListening _

theorem State.evicted_emptied (st : StationState) : Emptied (s.evicted st) := by
  have h := Bare.cleared (s.teardown (some .evicted))
  unfold State.evicted
  dsimp only
  split
  · split
    · exact h.seek _
    · exact h.goOffline _
  · split
    · exact h.seek _
    · exact h.goOffline _
  all_goals exact h.seek _

theorem State.endMembership_emptied (st : StationState) (x : Ending) : Emptied (s.endMembership st x) := by
  cases x
  · exact s.ownLeave_emptied
  · exact s.evicted_emptied st
  · exact s.giveUp_emptied _

theorem State.enterFaulted_emptied (c : Cause) : Emptied (s.enterFaulted c) := by
  rw [State.enterFaulted_eq]
  exact { members := rfl, founded := rfl, count := rfl, pool := rfl, check := by rw [State.fallen, emptyCheck], outside := rfl }

/-! ### What leaves the bus alone -/

@[simp] theorem State.enter_bus (st : StationState) (c : Cause) : (s.enter st c).bus = s.bus := by rw [State.enter_eq]

@[simp] theorem State.seek_bus (c : Cause) : (s.seek c).bus = s.bus := s.enter_bus _ c

@[simp] theorem State.goOffline_bus (c : Cause) : (s.goOffline c).bus = s.bus := State.enter_bus _ _ c

@[simp] theorem State.goListening_bus (c : Cause) : (s.goListening c).bus = s.bus := State.enter_bus _ _ c

@[simp] theorem State.cleared_bus : s.discard.clearOutbox.bus = s.bus := (State.clearOutbox_quiet _).bus

@[simp] theorem State.teardown_bus (r : Option EndReason) : (s.teardown r).bus = s.bus := (s.teardown_quiet r).bus

@[simp] theorem State.giveUp_bus (c : Cause) : (s.giveUp c).bus = s.bus := by simp [State.giveUp]

@[simp] theorem State.yieldTo_bus (tag : Word) : (s.yieldTo tag).bus = s.bus := by
  rw [State.yieldTo, State.seek_bus, State.setTimers_bus, State.setTag, State.setSession_bus, State.cleared_bus, State.teardown_bus]

@[simp] theorem State.ownLeave_bus : s.ownLeave.bus = s.bus := by
  unfold State.ownLeave; dsimp only; split
  · simp
  · split <;> simp

@[simp] theorem State.evicted_bus (st : StationState) : (s.evicted st).bus = s.bus := by
  unfold State.evicted; dsimp only; split
  iterate 2 (split <;> simp)
  all_goals simp

@[simp] theorem State.endMembership_bus (st : StationState) (x : Ending) : (s.endMembership st x).bus = s.bus := by
  cases x <;> simp [State.endMembership]

/-- Quiet updates, the pool and the session apart from the station state and the founded flag. -/
inductive Work (s : State) : State → Prop
  | quiet {t : State} (h : Quiets s t) : Work s t
  | pool (x : Pool) : Work s (s.setPool x)
  | session (x : Session) (h : x.station = s.session.station ∧ x.founded = s.session.founded) : Work s (s.setSession x)

abbrev Works : State → State → Prop := Relation.ReflTransGen Work

theorem Quiets.works {s t : State} (h : Quiets s t) : Works s t := .single (.quiet h)

/-- Such work leaves the founded flag, the table check and the bus alone, and the station inside or outside a session. -/
theorem Works.kept {s t : State} (h : Works s t) : t.session.founded = s.session.founded ∧
    t.checker.tableCheck = s.checker.tableCheck ∧ t.bus = s.bus ∧
      t.session.station.inSession = s.session.station.inSession := by
  induction h with
  | refl => exact ⟨rfl, rfl, rfl, rfl⟩
  | tail _ h ih =>
    obtain ⟨h1, h2, h3, h4⟩ := ih
    cases h with
    | quiet q => exact ⟨q.replica.2.1.trans h1, q.replica.2.2.2.2.trans h2, q.bus.trans h3, q.inSession.trans h4⟩
    | pool x => exact ⟨h1, h2, h3, h4⟩
    | session x h => exact ⟨h.2.trans h1, h2, h3, by rw [State.setSession_session, h.1, h4]⟩

theorem Pooled.works {s t : State} {tell : Bool} {as : List Addr} (h : Pooled s tell as t) : Works s t := by
  cases h with
  | stays q => exact q.works
  | @passes recs a q _ _ _ =>
    refine (Relation.ReflTransGen.single (.pool _)).trans (q.works.trans ?_)
    have hq := Quiets.foldl (fun u (r : PoolRecord) => u.tellOwn_quiet tell r.station r.client .granted none)
      (grantPass a.port.threshold a.pool.records).granted
      (a.setPool { a.pool with records := (grantPass a.port.threshold a.pool.records).records })
    have hw : Works a _ := (Relation.ReflTransGen.single (.pool _)).trans hq.works
    unfold State.runPass
    dsimp only
    split
    · rename_i hf
      refine hw.trans (State.freeze_quiet _ ?_).works
      rw [State.poolFails, hq.replica.2.2.2.1]
      exact grantSteps_failed _ _ _ hf
    · exact hw

/-- The pool effect leaves table, founded flag and count alone. -/
theorem Pooled.members {s t : State} {tell : Bool} {as : List Addr} (h : Pooled s tell as t) :
    t.session.members = s.session.members := by
  cases h with
  | stays q => exact q.replica.1
  | @passes recs a q _ _ _ =>
    have hs : (a.runPass tell).session.members = a.session.members := by
      have hk := a.runPass_kept tell
      rcases hk.session with ⟨e, -⟩ | ⟨-, e⟩ <;> rw [e]
      rfl
    exact hs.trans q.replica.1

/-! ### Steps 1 to 4 of R125 -/

theorem State.countNotice_works (b : Body) : Works s (s.countNotice b) := by
  unfold State.countNotice; split
  · exact .single (.session _ ⟨rfl, rfl⟩)
  · exact .refl

/-- Step 1 after the count is quiet. -/
theorem State.stepOne_quiet (h : Heard) : Quiets (s.countNotice h.notice.body) (s.stepOne h) := by
  refine Quiets.comp ?_ (State.readMembers_quiet _ _)
  unfold State.noteClash; split
  · exact State.post_quiet _ _ _
  · exact .refl

theorem State.countNotice_same (b : Body) : (s.countNotice b).session.members = s.session.members ∧
    (s.countNotice b).pool = s.pool ∧ (s.countNotice b).joiner = s.joiner ∧
      (s.countNotice b).session.station = s.session.station ∧
      (s.countNotice b).session.leftSynced = s.session.leftSynced := by
  unfold State.countNotice; split <;> exact ⟨rfl, rfl, rfl, rfl, rfl⟩

theorem State.stepOne_steady (h : Heard) : Steady s (s.stepOne h) := by
  obtain ⟨-, -, hj, hs, hl⟩ := s.countNotice_same h.notice.body
  have hk : Kept (s.countNotice h.notice.body) (s.stepOne h) := by
    refine Kept.trans ?_ (State.readMembers_kept _ _)
    unfold State.noteClash; split <;> exact .refl _
  have hf : (s.countNotice h.notice.body).syncFlag = s.syncFlag := by
    simp only [State.syncFlag, State.runsAbsence, hs, hl]
  rcases hk.steady with ⟨k1, k2, k3⟩ | ⟨k1, k2, k3⟩
  · exact .inl ⟨k1.trans hs, k2.trans hl, k3.trans (by rw [hj])⟩
  · exact .inr ⟨hs ▸ k1, k2, k3.trans hf⟩

theorem State.stepOne_members (h : Heard) : (s.stepOne h).session.members = s.session.members :=
  (s.stepOne_quiet h).replica.1.trans (s.countNotice_same _).1

theorem PoolForm.stepOne {s : State} (p : PoolForm s) (h : Heard) : PoolForm (s.stepOne h) := by
  obtain ⟨hm, hp, -⟩ := s.countNotice_same h.notice.body
  exact (p.of_same hm (by rw [hp]) (by rw [hp]; exact id)).quiets (s.stepOne_quiet h)

theorem State.restartAbsence_quiet (a : Addr) : Quiets s (s.restartAbsence a) := by
  unfold State.restartAbsence; dsimp only; split
  · exact s.timers_quiet _
  · exact .refl

theorem State.restartAbsence_kept (a : Addr) : Kept s (s.restartAbsence a) := by
  unfold State.restartAbsence; dsimp only; split <;> exact .refl s

theorem State.liveMembers_quiet (e : TableChange) : Quiets (s.setMembers e.table) (s.liveMembers e) :=
  Quiets.foldl (fun s _ => (s.timers_quiet _).comp (State.post_quiet _ _ _)) _ _

theorem State.liveMembers_kept (e : TableChange) : Kept (s.setMembers e.table) (s.liveMembers e) :=
  Kept.foldl (f := State.memberChanged) (fun s _ => (s.setTimers_kept _).trans (State.post_kept _ _ _)) _ _

theorem State.setMembers_works (t : Table) : Works s (s.setMembers t) := .single (.session _ ⟨rfl, rfl⟩)

/-- Steps 1 to 4 of R125 as one event: the table takes the membership effect and the pool follows. -/
theorem State.fourSteps_cases (h : Heard) (x : Option EndReason) :
    (let t := s.fourSteps h (memberEffect s.session.members h.notice) x
    Works s t ∧ Stays s t ∧ t.session.members = (memberEffect s.session.members h.notice).table ∧
      (PoolForm s → PoolForm t)) := by
  dsimp only
  unfold State.fourSteps
  dsimp only
  generalize hu : (s.stepOne h).restartAbsence h.notice.sender = u
  have q : Quiets (s.stepOne h) u := hu ▸ State.restartAbsence_quiet _ _
  have k : Kept (s.stepOne h) u := hu ▸ State.restartAbsence_kept _ _
  have hm : u.session.members = s.session.members := q.replica.1.trans (s.stepOne_members h)
  have hp := (u.liveMembers (memberEffect s.session.members h.notice)).poolEffect_pooled true h.notice x
    (memberEffect s.session.members h.notice).changes
  refine ⟨?_, ?_, ?_, fun p => ?_⟩
  · exact ((s.countNotice_works _).trans ((s.stepOne_quiet h).comp q).works).trans
      ((u.setMembers_works _).trans ((u.liveMembers_quiet _).works.trans hp.works))
  · exact ((s.stepOne_steady h).stays.trans k.stays).trans ((Stays.of_session (by rfl) (by rfl)).trans
      ((u.liveMembers_kept _).stays.trans (State.poolEffect_kept _ _ _ _ _).stays))
  · exact hp.members.trans (u.liveMembers_quiet _).replica.1
  · have pu : PoolForm u := (p.stepOne h).quiets q
    rw [← hm]
    exact pu.effect (u.liveMembers_quiet _) true x

/-! ### Step 5 of R125 -/

theorem State.checker_quiet (x : Checker) (h : x.tableCheck = s.checker.tableCheck) (hs : SuspectKept s x) :
    Quiets s (s.setChecker x) := (Quiet.checker x h hs).all

/-- A beacon comparison leaves the replica. -/
theorem State.compared_cases (hs : s.session.station = .active) (a : Addr) (b : Bool) :
    Quiets s (s.compared a b) ∧ Stays s (s.compared a b) := by
  have same : Quiets s s ∧ Stays s s := ⟨.refl, .of_session rfl rfl⟩
  have told : ∀ (x : Checker) (k : EventKind) (w : Addr), x.tableCheck = s.checker.tableCheck →
      Quiets s ((s.setChecker x).post k w) ∧ ((s.setChecker x).post k w).session = s.session := fun x k w h =>
    ⟨(s.checker_quiet x h (.inl hs)).comp (State.post_quiet _ k w), rfl⟩
  have stays : ∀ {t : State}, Quiets s t ∧ t.session = s.session → Quiets s t ∧ Stays s t := fun h =>
    ⟨h.1, .of_session (by rw [h.2]) (by rw [h.2])⟩
  unfold State.compared
  split
  · exact stays (told _ _ _ rfl)
  · split
    · exact same
    · obtain ⟨q, e⟩ := told { s.checker with suspect := none, resyncPending := true } (.divergence .resync) a rfl
      generalize (s.setChecker _).post _ _ = u at q e
      have hu : u.session.station = .active := by rw [e, hs]
      exact ⟨q.comp (u.queueLeave_quiet (by rw [hu]; rfl) _),
        (stays ⟨q, e⟩).2.trans (State.queueLeave_steady (.inl hu) _).stays⟩
  · exact same
  · exact stays (told _ _ _ rfl)

/-- A BEACON leaves the replica; it may make an ANNOUNCING station ACTIVE, or make an ACTIVE one resynchronise. -/
theorem State.takeBeacon_cases (h : Heard) (p : Bool) (k n : Word) (b : Bool) :
    Quiets s (s.takeBeacon h p k n b) ∧ Stays s (s.takeBeacon h p k n b) := by
  have same : Quiets s s ∧ Stays s s := ⟨.refl, .of_session rfl rfl⟩
  unfold State.takeBeacon
  split
  · rename_i hs
    split
    · have q : Quiets s (s.change .active) := (Quiet.station (s := s) .active (by rw [hs]; rfl) (.inl rfl)).all
      have c : Stays s (s.change .active) := ⟨fun e => (by rw [hs] at e; cases e), fun _ e => nomatch e⟩
      exact ⟨q.comp (State.testLines_quiet _), c.trans (State.testLines_kept _).stays⟩
    · exact same
  · split
    · exact s.compared_cases ‹_› _ _
    · exact same
  all_goals exact same

/-- The local effects leave the replica. -/
theorem State.localEffects_cases (h : Heard) (e : TableChange) :
    Quiets s (s.localEffects h e) ∧ Stays s (s.localEffects h e) := by
  have q : Quiets s (s.pruneAnswers.clearSuspect.checkServing h) :=
    (s.pruneAnswers_quiet.comp (State.clearSuspect_quiet _)).comp (State.checkServing_quiet _ h)
  have k : Kept s (s.pruneAnswers.clearSuspect.checkServing h) :=
    ((s.setSponsor_kept _).trans (State.clearSuspect_kept _)).trans (State.checkServing_kept _ h)
  unfold State.localEffects
  generalize s.pruneAnswers.clearSuspect.checkServing h = u at q k
  suffices hu : Quiets u (u.kindEffects h e) ∧ Stays u (u.kindEffects h e) from ⟨q.comp hu.1, k.stays.trans hu.2⟩
  have same : Quiets u u ∧ Stays u u := ⟨.refl, .of_session rfl rfl⟩
  have kept : ∀ {t}, Quiets u t → Kept u t → Quiets u t ∧ Stays u t := fun q k => ⟨q, k.stays⟩
  unfold State.kindEffects
  split
  · split
    · refine kept (u.listJoin_quiet ‹_› _ _) ?_
      unfold State.listJoin; split
      iterate 3 (split <;> exact .refl u)
      exact .refl u
    · exact same
  · split
    · refine kept (u.ownAdmit_quiet (And.left ‹_›) _ _) ?_
      unfold State.ownAdmit; split
      · unfold State.startServing
        split
        · exact u.freeze_kept
        · split
          · exact u.upset_kept
          · exact .refl u
      · split <;> exact .refl u
    · exact same
  · exact u.takeBeacon_cases h _ _ _ _
  all_goals exact same

/-! ### Every delivered notice -/

/-- A session founded by this station (R129). -/
structure Founded (t : State) : Prop where
  station : t.session.station = .active
  members : t.session.members = founderTable t.own
  founded : t.session.founded = true
  pool : t.pool = ⟨[], false⟩

/-- A station admitted, with nothing of the replica yet (R154). -/
structure Admitted (t : State) : Prop where
  station : t.session.station = .loading
  members : t.session.members = .empty
  founded : t.session.founded = true
  pool : t.pool = ⟨[], false⟩
  check : t.checker.tableCheck = emptyCheck
  building : t.joiner.building = .members

/-- What the handling of a notice comes to. -/
inductive Handled (s : State) (n : Notice) : State → Prop
  /-- The replica stays. -/
  | quiet {t : State} (q : Quiets s t) (k : Steady s t) : Handled s n t
  /-- A station outside a session stays outside. -/
  | outside {t : State} (q : Quiets s t) (hs : s.session.station.inSession = false) : Handled s n t
  | founded {a t : State} (hs : s.session.station = .founding) (f : Founded a) (d : a.bus = s.bus) (q : Quiets a t) (k : Kept a t) :
      Handled s n t
  | admitted {t : State} (hs : s.session.station = .seeking) (f : Admitted t) (d : t.bus.delivered = s.bus.delivered) : Handled s n t
  /-- The membership or the session ends. -/
  | emptied {t : State} (hs : s.session.station.inSession = true) (e : Emptied t) (d : t.bus = s.bus) : Handled s n t
  /-- The notice is applied to the replica. -/
  | applied {t : State} (hs : s.session.station.applies = true) (w : Works s t) (k : Stays s t)
      (m : t.session.members = (memberEffect s.session.members n).table) (p : PoolForm s → PoolForm t) : Handled s n t
  /-- A SNAP-MEMBERS sets the table. -/
  | members {v : Vector Byte 16} {t : State} (hs : s.session.station = .loading)
      (q : Quiets (s.setMembers (tableOfBytes v)) t) (k : LoadingOrLeft t) : Handled s n t
  /-- A SNAP-CLAIM appends its record. -/
  | record (x : PoolRecord) (hs : s.session.station = .loading) (hb : s.joiner.building = .claims) :
      Handled s n (s.setPool { s.pool with records := s.pool.records ++ [x] })
  /-- A SNAP-END completes the snapshot, or a failing record stops it. -/
  | completed {t : State} (hs : s.session.station = .loading) (w : Works s t)
      (k : t.session.station = .announcing ∨ LoadingOrLeft t)
      (m : (∀ a, (s.session.members.get a).form) → ∀ a, (t.session.members.get a).form) (p : PoolForm s → PoolForm t) : Handled s n t

theorem Handled.same {s : State} {n : Notice} : Handled s n s := .quiet .refl (Kept.refl s).steady

theorem State.setTag_quiet (t : Word) : Quiets s (s.setTag t) :=
  (Quiet.session (s := s) { s.session with tag := t } ⟨rfl, rfl, rfl, rfl, rfl⟩).all

section
variable {s}

theorem State.enterOutside_quiet {st : StationState} (hs : s.session.station.inSession = false) (ht : st.inSession = false)
    (c : Cause) : Quiets s (s.enter st c) := s.enter_quiet (ht.trans hs.symm) c

theorem State.seek_quiet (hs : s.session.station.inSession = false) (c : Cause) : Quiets s (s.seek c) :=
  (State.enterOutside_quiet hs rfl c).comp (State.placeJoin_quiet _)

theorem State.goOffline_quiet (hs : s.session.station.inSession = false) (c : Cause) : Quiets s (s.goOffline c) :=
  (s.setTag_quiet 0#16).comp (State.enterOutside_quiet (s := s.setTag 0#16) hs rfl c)

theorem State.goListening_quiet (hs : s.session.station.inSession = false) (c : Cause) : Quiets s (s.goListening c) :=
  ((s.setTag_quiet 0#16).comp (State.timers_quiet _ { s.timers with listen := some 0 })).comp
    (State.enterOutside_quiet (s := (s.setTag 0#16).setTimers _) hs rfl c)

theorem State.stopListen_quiet : Quiets s s.stopListen := s.timers_quiet _

theorem State.stopAnswer_quiet : Quiets s s.stopAnswer := s.timers_quiet _

theorem State.hearSession_quiet (hs : s.session.station.inSession = false) (t : Word) : Quiets s (s.hearSession t) :=
  (State.stopListen_quiet.comp (State.setTag_quiet _ t)).comp (State.seek_quiet (s := s.stopListen.setTag t) hs _)

theorem State.hear_quiet (hs : s.session.station.inSession = false) (h : Heard) : Quiets s (s.hear h) := by
  unfold State.hear
  split
  · split
    · exact State.stopListen_quiet.comp (State.goOffline_quiet (s := s.stopListen) hs _)
    · exact State.hearSession_quiet hs _
  all_goals exact State.hearSession_quiet hs _

theorem State.noteHeard_quiet (o : Bool) : Quiets s (s.noteHeard o) := by
  unfold State.noteHeard; split
  · exact .refl
  · exact s.timers_quiet _

theorem State.refused_quiet (hs : s.session.station.inSession = false) (r : Fin 16) (o : Bool) : Quiets s (s.refused r o) := by
  unfold State.refused
  split
  · exact (s.timers_quiet _).comp
      (State.enterOutside_quiet (s := s.setTimers { s.timers with answer := none, backoff := some 0 }) hs rfl _)
  · split
    · exact State.stopAnswer_quiet.comp (State.goOffline_quiet (s := s.stopAnswer) hs _)
    · split
      · exact State.stopAnswer_quiet.comp (State.goOffline_quiet (s := s.stopAnswer) hs _)
      · exact State.noteHeard_quiet o

end

/-- The state of a station that founds, before the lines are tested. -/
theorem State.found_founded (tag : Word) : ∃ a, Founded a ∧ a.bus = s.bus ∧ s.found tag = a.testLines := by
  refine ⟨_, ⟨?_, ?_, ?_, ?_⟩, ?_, rfl⟩ <;> rfl

theorem State.takeFounding_cases (hs : s.session.station = .founding) (h : Heard) : Handled s h.notice (s.takeFounding h) := by
  unfold State.takeFounding
  split
  · split
    · obtain ⟨a, f, d, e⟩ := s.found_founded h.notice.tag
      rw [e]
      exact .founded hs f d a.testLines_quiet a.testLines_kept
    · exact .same
  · exact .outside (State.hear_quiet (by rw [hs]; rfl) h) (by rw [hs]; rfl)

theorem Admitted.enter {s : State} {c : Cause} (hm : s.session.members = .empty) (hf : s.session.founded = true)
    (hp : s.pool = ⟨[], false⟩) (hk : s.checker.tableCheck = emptyCheck) (hb : s.joiner.building = .members) :
    Admitted (s.enter .loading c) := by
  rw [State.enter_eq]
  exact ⟨rfl, hm, hf, hp, hk, hb⟩

theorem State.enterLoading_admitted (a : Addr) (n : Word) : Admitted (s.enterLoading a n) := by
  unfold State.enterLoading
  exact .enter rfl rfl rfl (State.setChecker_checker _ _ ▸ by dsimp only) rfl

theorem State.enterLoading_delivered (a : Addr) (n : Word) : (s.enterLoading a n).bus.delivered = s.bus.delivered := by
  unfold State.enterLoading
  rw [State.enter_bus]
  rfl

theorem State.takeSeeking_cases (hs : s.session.station = .seeking) (h : Heard) : Handled s h.notice (s.takeSeeking h) := by
  have ho : s.session.station.inSession = false := by rw [hs]; rfl
  have out : ∀ {t}, Quiets s t → Handled s h.notice t := fun q => .outside q ho
  have note : ∀ o, Handled s h.notice (s.noteHeard o) := fun o => out (State.noteHeard_quiet o)
  unfold State.takeSeeking
  split
  · exact .same
  · split
    · exact .same
    · split
      · exact out (s.timers_quiet _)
      · exact note _
    · split
      · exact .admitted hs (s.enterLoading_admitted _ _) (s.enterLoading_delivered _ _)
      · exact note _
    · split
      · exact out (State.refused_quiet ho _ _)
      · exact note _
    all_goals exact note _

theorem StationState.inSession_of_applies {st : StationState} (h : st.applies = true) : st.inSession = true := by
  cases st <;> first | rfl | cases h

theorem State.otherTag_cases (hs : s.session.station.inSession = true) (n : Notice) : Handled s n (s.otherTag n) := by
  unfold State.otherTag
  split
  · exact .same
  · split
    · exact .same
    · exact .emptied hs (s.yieldTo_emptied _) (s.yieldTo_bus _)

theorem State.takeMember_cases (hs : s.session.station.applies = true) (h : Heard) : Handled s h.notice (s.takeMember h) := by
  have hi := StationState.inSession_of_applies hs
  unfold State.takeMember
  split
  · exact .same
  · split
    · unfold State.applyNotice
      dsimp only
      split
      · rename_i y _
        refine .emptied hi (State.endMembership_emptied _ _ _) ?_
        rw [State.endMembership_bus]
        exact (Works.kept (State.fourSteps_cases (s.change .leaving) h _).1).2.2.1
      · obtain ⟨w, k, m, p⟩ := s.fourSteps_cases h
          (removalReason s.session.leaveReason (ending s.own s.session.station h (memberEffect s.session.members h.notice)))
        obtain ⟨q, l⟩ := State.localEffects_cases (s.fourSteps h (memberEffect s.session.members h.notice)
          (removalReason s.session.leaveReason (ending s.own s.session.station h (memberEffect s.session.members h.notice))))
          h (memberEffect s.session.members h.notice)
        exact .applied hs (w.trans q.works) (k.trans l) (q.replica.1.trans m) fun f => (p f).quiets q
    · exact s.otherTag_cases hi _

/-! ### Loading -/

/-- What building by a snapshot keeps: the work it is, the station, the form of the table and that of the pool. -/
def Builds (s t : State) : Prop :=
  Works s t ∧ (LoadingOrLeft s → LoadingOrLeft t) ∧
    ((∀ a, (s.session.members.get a).form) → ∀ a, (t.session.members.get a).form) ∧ (PoolForm s → PoolForm t)

theorem Builds.trans {s t u : State} (h : Builds s t) (k : Builds t u) : Builds s u :=
  ⟨h.1.trans k.1, k.2.1 ∘ h.2.1, k.2.2.1 ∘ h.2.2.1, k.2.2.2 ∘ h.2.2.2⟩

theorem Builds.of_quiets {s t : State} (q : Quiets s t) (k : Steady s t) : Builds s t :=
  ⟨q.works, k.loadingOrLeft, fun h a => by rw [q.replica.1]; exact h a, fun p => p.quiets q⟩

theorem State.replay_builds (h : Heard) : Builds s (s.replay h) := by
  unfold State.replay
  split
  · dsimp only
    have hp := ((s.stepOne h).setMembers (memberEffect (s.stepOne h).session.members h.notice).table).poolEffect_pooled false
      h.notice none (memberEffect (s.stepOne h).session.members h.notice).changes
    refine ⟨?_, fun l => ?_, fun f a => ?_, fun p => ?_⟩
    · exact ((s.countNotice_works _).trans (s.stepOne_quiet h).works).trans ((State.setMembers_works _ _).trans hp.works)
    · exact (State.poolEffect_kept _ _ _ _ _).steady.loadingOrLeft ((s.stepOne_steady h).loadingOrLeft l)
    · rw [hp.members]
      exact memberEffect_form (fun b => by rw [State.stepOne_members]; exact f b) _ _
    · exact (p.stepOne h).effect .refl false none
  · exact .of_quiets .refl (Kept.refl s).steady

theorem Builds.foldl {α : Type} {f : State → α → State} (h : ∀ s a, Builds s (f s a)) (l : List α) (s : State) :
    Builds s (l.foldl f s) := by
  induction l generalizing s with
  | nil => exact .of_quiets .refl (Kept.refl s).steady
  | cons a l ih => exact (h s a).trans (ih _)

theorem State.finalPass_builds : Builds s s.finalPass := by
  unfold State.finalPass State.withPool
  split
  · exact .of_quiets .refl (Kept.refl s).steady
  · have hp : Pooled s false [] (s.runPass false) :=
      .passes (recs := s.pool.records) .refl id id fun r hr => .inl ⟨hr, List.not_mem_nil⟩
    exact ⟨hp.works, (s.runPass_kept false).steady.loadingOrLeft, fun f a => by rw [hp.members]; exact f a, fun p => p.runPass false⟩

theorem State.announce_quiet (h : s.session.station.inSession = true) : Quiets s s.announce :=
  (((s.timers_quiet _).step (.joiner _ (.inl (Nat.zero_le _)))).comp (State.enter_quiet _ (h.symm ▸ rfl) _)).comp
    (State.submitBeacon_quiet _)

theorem State.announce_station : s.announce.session.station = .announcing := by
  unfold State.announce
  dsimp only
  generalize (s.setTimers _).setJoiner _ = u
  rcases (State.submitBeacon_kept (u.enter .announcing .snapshotDone)).session with ⟨e, -⟩ | ⟨hr, e⟩
  · rw [e, State.enter_session]
  · unfold State.submitBeacon
    dsimp only
    split
    · rw [State.enter_session]
    · split <;> simp

/-- A complete snapshot announces the station, or an upset met in it has made it leave. -/
theorem State.complete_builds (hs : s.session.station = .loading) :
    Works s s.complete ∧ (s.complete.session.station = .announcing ∨ LoadingOrLeft s.complete) ∧
      ((∀ a, (s.session.members.get a).form) → ∀ a, (s.complete.session.members.get a).form) ∧
      (PoolForm s → PoolForm s.complete) := by
  have h := Builds.foldl (fun s h => s.replay_builds h) s.joiner.catchUp s
  have hl : LoadingOrLeft s := .inl hs
  unfold State.complete
  dsimp only
  generalize s.joiner.catchUp.foldl State.replay s = t at h
  split
  · have h2 := h.trans t.finalPass_builds
    split
    · rename_i hn
      have q := t.finalPass.announce_quiet (by rw [hn]; rfl)
      exact ⟨h2.1.trans q.works, .inl t.finalPass.announce_station, fun f a => by rw [q.replica.1]; exact h2.2.2.1 f a,
        fun p => (h2.2.2.2 p).quiets q⟩
    · exact ⟨h2.1, .inr (h2.2.1 hl), h2.2.2.1, h2.2.2.2⟩
  · exact ⟨h.1, .inr (h.2.1 hl), h.2.2.1, h.2.2.2⟩

theorem State.endSnapshot_cases (hs : s.session.station = .loading) (k : Word) (c : Byte) (n : Notice) :
    Handled s n (s.endSnapshot k c) := by
  have hb : Builds s (if s.poolFails then s.freeze else s.readMembers sixteen) := by
    split
    · exact .of_quiets (s.freeze_quiet ‹_›) s.freeze_kept.steady
    · exact .of_quiets (s.readMembers_quiet _) (s.readMembers_kept _).steady
  obtain ⟨w, l, m, p⟩ := hb
  unfold State.endSnapshot
  dsimp only
  generalize (if s.poolFails then s.freeze else s.readMembers sixteen) = t at w l m p
  split
  · rename_i ht
    split
    · obtain ⟨w', l', m', p'⟩ := t.complete_builds ht
      exact .completed hs (w.trans w') l' (m' ∘ m) (p' ∘ p)
    · have q : Quiets t t.abandon := t.queueLeave_quiet (by rw [ht]; rfl) _
      obtain ⟨w', l', m', p'⟩ := Builds.of_quiets q (State.queueLeave_steady (.inr (.inr ht)) _)
      exact .completed hs (w.trans w') (.inr (l' (.inl ht))) (m' ∘ m) (p' ∘ p)
  · exact .completed hs w (.inr (l (.inl hs))) m p

theorem State.abandon_cases (hs : s.session.station = .loading) (n : Notice) : Handled s n s.abandon :=
  .quiet (s.queueLeave_quiet (by rw [hs]; rfl) _) (State.queueLeave_steady (.inr (.inr hs)) _)

theorem State.buffer_cases (hs : s.session.station = .loading) (h : Heard) : Handled s h.notice (s.buffer h) := by
  unfold State.buffer; split
  · rename_i hl
    exact .quiet (Quiet.joiner (s := s) { s.joiner with catchUp := s.joiner.catchUp ++ [h] } (.inr (by simpa using hl))).all
      (.inl ⟨rfl, rfl, rfl⟩)
  · exact s.abandon_cases hs _

theorem State.buildMembers_cases (hs : s.session.station = .loading) (v : Vector Byte 16) (n : Notice) :
    Handled s n (s.buildMembers v) := by
  unfold State.buildMembers
  dsimp only
  split
  · split
    · exact .members hs (Quiet.joiner (s := s.setMembers (tableOfBytes v)) { s.joiner with building := .claims } (.inl (Nat.le_refl _))).all
        (.inl hs)
    · have hi : (s.setMembers (tableOfBytes v)).session.station.inSession = true :=
        (congrArg StationState.inSession hs : s.session.station.inSession = _)
      refine .members hs (State.queueLeave_quiet _ hi _) ?_
      exact (State.queueLeave_steady (s := s.setMembers (tableOfBytes v)) (.inr (.inr hs)) _).loadingOrLeft (.inl hs)
  · exact .same

theorem State.buildClaim_cases (hs : s.session.station = .loading) (p : Byte) (r : Option PoolRecord) (n : Notice) :
    Handled s n (s.buildClaim p r) := by
  unfold State.buildClaim
  split
  · rename_i x
    split
    · rename_i h
      exact .record x hs h.1
    · exact .same
  · exact .same

theorem State.takeLoading_cases (hs : s.session.station = .loading) (h : Heard) : Handled s h.notice (s.takeLoading h) := by
  have hi : s.session.station.inSession = true := by rw [hs]; rfl
  have up : ∀ c, Handled s h.notice (s.giveUp c) := fun c => .emptied hi (s.giveUp_emptied c) (s.giveUp_bus c)
  have kept := s.buffer_cases hs h
  unfold State.takeLoading
  split
  · exact .same
  · split
    · unfold State.load
      dsimp only
      split
      · exact .same
      · split
        · exact s.buildMembers_cases hs _ _
        · exact kept
      · split
        · exact s.buildClaim_cases hs _ _ _
        · exact kept
      · split
        · exact s.endSnapshot_cases hs _ _ _
        · exact kept
      · split
        · exact up _
        · exact kept
      · split
        · exact up _
        · split
          · exact up _
          · exact kept
      all_goals exact kept
    · exact s.otherTag_cases hi _

/-- What the handling of a delivered notice comes to, in every state. -/
theorem State.handle_cases (h : Heard) : Handled s h.notice (s.handle h) := by
  unfold State.handle
  split
  · exact .same
  · exact .same
  · exact .same
  · rename_i hs
    exact .outside (State.hear_quiet (by rw [hs]; rfl) h) (by rw [hs]; rfl)
  · exact s.takeFounding_cases ‹_› h
  · exact s.takeSeeking_cases ‹_› h
  · exact s.takeLoading_cases ‹_› h
  all_goals
    rename_i hs
    exact s.takeMember_cases (by rw [hs]; rfl) h

/-- The handling of a notice leaves the delivered notice. -/
theorem Handled.delivered {s t : State} {n : Notice} (h : Handled s n t) : t.bus.delivered = s.bus.delivered := by
  cases h with
  | quiet q | outside q => rw [q.bus]
  | founded _ _ d q => rw [q.bus, d]
  | admitted _ _ d => exact d
  | emptied _ _ d => rw [d]
  | applied _ w => rw [w.kept.2.2.1]
  | members _ q => rw [q.bus]; rfl
  | record => rfl
  | completed _ w => rw [w.kept.2.2.1]

end Sys2Proof.Machine
end

