-- ==== Sys2Proof/Proofs/Stages.lean ====
section
/-! SUPPORT. What a command comes to for the replica (`exec_ran`): the effects of a delivered notice, stages that leave the replica or
empty it, and for the end of a taken round the effects of its notice. -/

namespace Sys2Proof.Machine

/-- A part of a command that takes no notice. -/
inductive Stage (s : State) : State → Prop
  /-- The replica stays, and the station stays or leaves. -/
  | quiet {t : State} (q : Quiets s t) (k : Steady s t) : Stage s t
  /-- A station outside a session stays outside. -/
  | outside {t : State} (q : Quiets s t) (h : s.session.station.inSession = false) : Stage s t
  /-- Quiet work dated with another count. -/
  | dated {n : Word} {t : State} (q : Quiets (s.setCount n) t) (k : Steady (s.setCount n) t) : Stage s (t.setCount s.session.count)
  | outbox (x : Outbox) : Stage s (s.setOutbox x)
  /-- The bus changes; a notice newly delivered that this station carried has its address. -/
  | bus (x : Bus) (h : ∀ d, x.delivered = some d → s.bus.delivered = some d ∨ (d.own = true → d.notice.sender = s.own)) :
      Stage s (s.setBus x)
  /-- The station falls to FAULTED. -/
  | emptied {t : State} (e : Emptied t) (d : t.bus.delivered = s.bus.delivered) (o : t.straps = s.straps) : Stage s t
  | newTag : Stage s s.nextTag

abbrev Stages : State → State → Prop := Relation.ReflTransGen Stage

/-- An operation that keeps the session but for an upset's LEAVE. -/
theorem SessionKept.stage {s t : State} (k : SessionKept s t) (q : Quiets s t) : Stages s t := .single (.quiet q k.steady)

theorem Kept.stage {s t : State} (k : Kept s t) (q : Quiets s t) : Stages s t := k.session.stage q

/-- A command without an end of a taken round: it may begin with the effects of a delivered notice. -/
def Ran (s t : State) : Prop := ∃ a, (a = s ∨ a = s.flush) ∧ Stages a t

/-- A command that ends in the effects of a taken notice. -/
def Took (s t : State) : Prop := ∃ a u h r c, (a = s ∨ a = s.flush) ∧ Stages a u ∧ t = u.takeNotice h r c

variable {s : State}

theorem Ran.here {t : State} (h : Stages s t) : Ran s t := ⟨s, .inl rfl, h⟩

theorem Ran.flushed {t : State} (h : Stages s.flush t) : Ran s t := ⟨s.flush, .inr rfl, h⟩

theorem Ran.comp {t u : State} (h : Ran s t) (k : Stages t u) : Ran s u := by
  obtain ⟨a, ha, hs⟩ := h
  exact ⟨a, ha, hs.trans k⟩

theorem Ran.refl (s : State) : Ran s s := .here .refl

/-- A frame whose decision is made on the station as it stands or with a notice's effects made. -/
theorem State.frame_ran {d : Decided} (h : Ran s d.state) : Ran s (s.frame d) := by
  unfold State.frame
  split
  · exact .refl s
  · exact h.comp ((State.setPort_sessionKept _ _).stage (Quiet.answer _ _).all)

theorem State.expire_ran {runs : State → Bool} {act : State → State} (h : ∀ t, runs t = true → Stages t (act t)) :
    Ran s (s.expire runs act) := by
  unfold State.expire
  split
  · split
    · exact .flushed (h _ ‹_›)
    · exact .flushed .refl
  · exact .refl s

/-! ### Rounds -/

theorem State.endRound_stage (s : State) : Stages s s.endRound := .single (.bus _ fun _ h => .inl h)

theorem State.endUntaken_stages (s : State) : Stages s s.endUntaken :=
  (s.settleKept_sessionKept.stage s.settleKept_quiet).trans (State.endRound_stage _)

theorem State.takeRound_stages (s : State) (h : Heard) : Stages s (s.takeRound h).state := by
  unfold State.takeRound
  exact (Relation.ReflTransGen.single (.dated (State.settle_quiet _ h.own) (State.settle_sessionKept _ h.own).steady)).tail
    (.bus _ fun _ h => .inl h)

/-- The straps and the address stay in every stage. -/
theorem Stage.own {t : State} (h : Stage s t) : t.own = s.own := by
  have quiets : ∀ {a b : State}, Quiets a b → b.own = a.own := fun q => congrArg Straps.address q.moves.kept.2.2.1
  cases h with
  | quiet q => exact quiets q
  | outside q => exact quiets q
  | dated q =>
    have e := quiets q
    exact e
  | outbox => rfl
  | bus => rfl
  | emptied _ _ o => exact congrArg Straps.address o
  | newTag => rfl

theorem Stages.own {t : State} (h : Stages s t) : t.own = s.own := by
  induction h with
  | refl => rfl
  | tail _ h ih => exact h.own.trans ih

/-- The end of a taken round: the notice is taken at once, delivered for later, or not delivered. -/
theorem State.endTaken_cases (s : State) (h : Heard) (e : Timing) (ho : h.own = true → h.notice.sender = s.own) :
    Stages s (s.endTaken h e) ∨ ∃ u r c, Stages s u ∧ s.endTaken h e = u.takeNotice h r c := by
  have k := s.takeRound_stages h
  unfold State.endTaken Settled.deliver
  split
  · cases e with
    | atOnce => exact .inr ⟨_, _, _, k, rfl⟩
    | later =>
      refine .inl ((k.tail (.dated (State.offerRoom_quiet _ _ _) (State.offerRoom_kept _ _ _).steady)).tail (.bus _ fun d hd => .inr ?_))
      cases hd
      intro h1
      rw [ho h1, ← k.own]
      exact (Stage.own (.dated (State.offerRoom_quiet _ _ _) (State.offerRoom_kept _ _ _).steady)).symm
  · exact .inl (k.trans ((State.offerRoom_kept _ _ _).stage (State.offerRoom_quiet _ _ _)))

theorem State.roundTaken_cases (s : State) (h : Hearing) (e : Timing) : Ran s (s.roundTaken h e) ∨ Took s (s.roundTaken h e) := by
  have ended : ∀ x : Heard, (x.own = true → x.notice.sender = s.flush.own) →
      Ran s (s.flush.endTaken x e) ∨ Took s (s.flush.endTaken x e) := fun x hx => by
    rcases s.flush.endTaken_cases x e hx with k | ⟨u, r, c, k, hu⟩
    · exact .inl (.flushed k)
    · exact .inr ⟨s.flush, u, x, r, c, .inr rfl, k, hu⟩
  unfold State.roundTaken
  split
  · exact .inl (.refl s)
  · split
    · split
      · unfold State.takeOwn
        split
        · exact .inl (.flushed .refl)
        · exact ended _ fun _ => s.flush.filled_sender _
      · exact .inl (.refl s)
    · split
      · exact .inl (.refl s)
      · unfold State.takeOther
        split
        · exact ended _ nofun
        · split
          · exact .inl (.flushed .refl)
          · exact .inl (.flushed s.flush.endUntaken_stages)

theorem State.enterFaulted_stage (s : State) (c : Cause) : Stages s (s.enterFaulted c) := by
  refine .single (.emptied (s.enterFaulted_emptied c) ?_ (s.enterFaulted_moves c).kept.2.2.1)
  rw [State.enterFaulted_eq]
  rfl

theorem State.endVoided_stages (s : State) (c : Bool) (f : Option ReceptionFault) : Stages s (s.endVoided c f) := by
  have h1 : Stages s (s.voidRound c f).state := by
    unfold State.voidRound
    dsimp only
    refine .tail (b := _) ?_ (.bus _ fun _ h => .inl h)
    split
    · have k : SessionKept s s.countVoid := .refl s
      exact (k.stage s.countVoid_quiet).trans ((State.settle_sessionKept _ false).stage (State.settle_quiet _ false))
    · exact (s.settle_sessionKept false).stage (s.settle_quiet false)
  unfold State.endVoided
  dsimp only
  split
  · exact h1.trans (State.enterFaulted_stage _ _)
  · split
    · exact h1.trans (State.enterFaulted_stage _ _)
    · exact h1.trans ((Settled.close_kept _ s).stage (Settled.close_quiet _ s))

theorem State.roundVoided_ran (s : State) (w : Bool) (f : Option ReceptionFault) : Ran s (s.roundVoided w f) := by
  unfold State.roundVoided
  split
  · exact .refl s
  · split
    · exact .refl s
    · exact .flushed (State.endVoided_stages _ _ _)

theorem State.roundMissed_ran (s : State) : Ran s s.roundMissed := by
  unfold State.roundMissed
  split
  · exact .refl s
  · split
    · exact .refl s
    · exact .flushed (State.endUntaken_stages _)

theorem State.roundStart_ran (s : State) : Ran s s.roundStart := by
  have bus : ∀ t : State, ∀ r, Stage t (t.setBus { t.bus with round := r }) := fun t r => .bus _ fun _ h => .inl h
  unfold State.roundStart
  split
  · exact .refl s
  · split
    · exact .here (.single (bus s _))
    · split
      · exact .here (.single (bus s _))
      · exact .here ((Relation.ReflTransGen.single (.outbox s.outbox.offerFirst)).tail (bus _ _))

theorem State.busStuck_ran (s : State) : Ran s s.busStuck := by
  unfold State.busStuck
  split
  · exact .refl s
  · refine .flushed (Relation.ReflTransGen.trans ?_ (State.endUntaken_stages _))
    exact (Relation.ReflTransGen.single (.bus _ fun _ h => .inl h)).trans ((State.post_kept _ _ _).stage (State.post_quiet _ _ _))

theorem State.busRecovered_ran (s : State) : Ran s s.busRecovered := by
  unfold State.busRecovered
  split
  · exact .refl s
  · exact .here ((Relation.ReflTransGen.single (.bus _ fun _ h => .inl h)).trans
      (((State.setTimers_kept _ _).trans (State.post_kept _ _ _)).stage ((State.timers_quiet _ _).comp (State.post_quiet _ _ _))))

/-! ### Lines and timers -/

theorem State.meet_cases (s : State) (h : Timing) : s.meet h = s ∨ s.meet h = s.flush := by
  cases h
  · exact .inr rfl
  · exact .inl rfl

theorem State.edge_stages (s : State) (n : LineNo) (l : Line) (hl : l.gnt = (s.line n).gnt) (e : Edge) (h : Timing) :
    Stages s ((s.setLine n l).edge n e h) :=
  ((s.setLine_sessionKept n l).trans (State.edge_sessionKept _ n e h)).stage ((Quiet.line n l hl).all.comp (State.edge_quiet _ n e h))

theorem State.reqRise_ran (s : State) (n : LineNo) (h : Timing) : Ran s (s.reqRise n h) := by
  unfold State.reqRise
  split
  · exact .refl s
  · split
    · exact ⟨_, s.meet_cases h, State.edge_stages _ n { (s.meet h).line n with req := true } rfl _ h⟩
    · exact .here ((s.setLine_sessionKept n _).stage (Quiet.line n { s.line n with req := true } rfl).all)

theorem State.reqFall_ran (s : State) (n : LineNo) (h : Timing) : Ran s (s.reqFall n h) := by
  unfold State.reqFall
  split
  · exact .refl s
  · split
    · exact ⟨_, s.meet_cases h, State.edge_stages _ n { (s.meet h).line n with req := false, rearm := false } rfl _ h⟩
    · exact .here ((s.setLine_sessionKept n _).stage (Quiet.line n { s.line n with req := false } rfl).all)

theorem State.edgeHandedOn_ran (s : State) (n : LineNo) : Ran s (s.edgeHandedOn n) := by
  unfold State.edgeHandedOn
  split
  · exact .refl s
  · rename_i es _
    exact .flushed (((State.setLine_sessionKept _ n _).trans (State.handEdge_kept _ n _).session).stage
      ((Quiet.line n { s.flush.line n with edges := es } rfl).all.comp (State.handEdge_quiet _ n _)))

theorem State.listenWindowExpiry_ran (s : State) : Ran s s.listenWindowExpiry := by
  refine State.expire_ran fun t h => ?_
  simp only [State.listenRuns, Bool.and_eq_true, decide_eq_true_eq] at h
  have ho : t.session.station.inSession = false := by rw [h.1.2]; rfl
  refine Relation.ReflTransGen.tail ?_ (.outside (State.enterOutside_quiet ?_ rfl _) ?_)
  · exact ((Relation.ReflTransGen.single (.outside State.stopListen_quiet ho)).tail .newTag).trans
      ((Relation.ReflTransGen.single (.bus _ fun _ h => .inl h)).tail (.quiet (State.submit_quiet _ _) (State.submit_kept _ _).steady))
  all_goals exact ho

theorem State.answerLimitExpiry_ran (s : State) : Ran s s.answerLimitExpiry := by
  refine State.expire_ran fun t h => ?_
  simp only [State.answerRuns, Bool.and_eq_true, decide_eq_true_eq] at h
  have ho : t.session.station.inSession = false := by rw [h.1.2]; rfl
  unfold State.endSeeking
  split
  · exact .single (.outside (State.stopAnswer_quiet.comp (State.placeJoin_quiet _)) ho)
  · exact .single (.outside (State.stopAnswer_quiet.comp (State.goListening_quiet (s := t.stopAnswer) ho _)) ho)

theorem State.backoffEnd_ran (s : State) : Ran s s.backoffEnd := by
  refine State.expire_ran fun t h => ?_
  simp only [State.backoffRuns, Bool.and_eq_true, decide_eq_true_eq] at h
  have ho : t.session.station.inSession = false := by rw [h.2]; rfl
  exact .single (.outside ((t.timers_quiet _).comp (State.seek_quiet (s := t.setTimers { t.timers with backoff := none, heard := false }) ho _)) ho)

theorem State.queueLeave_stages {s : State} (h : s.session.station.resyncs) (r : LeaveReason) : Stages s (s.queueLeave r) := by
  refine .single (.quiet (s.queueLeave_quiet ?_ r) (State.queueLeave_steady h r))
  rcases h with h | h | h <;> rw [h] <;> rfl

theorem State.snapshotLimitExpiry_ran (s : State) : Ran s s.snapshotLimitExpiry := by
  refine State.expire_ran fun t h => ?_
  simp only [State.snapshotRuns, Bool.and_eq_true, decide_eq_true_eq] at h
  exact State.queueLeave_stages (.inr (.inr h.1.2)) _

theorem State.beaconTimerExpiry_ran (s : State) : Ran s s.beaconTimerExpiry := by
  unfold State.beaconTimerExpiry; split
  · exact .here (((s.setTimers_kept _).trans (State.submitBeacon_kept _)).stage ((s.timers_quiet _).comp (State.submitBeacon_quiet _)))
  · exact .refl s

theorem State.absenceTimerExpiry_ran (s : State) (m : Addr) : Ran s (s.absenceTimerExpiry m) := by
  unfold State.absenceTimerExpiry; split
  · exact .here (((s.setTimers_kept _).trans (State.submitEvict_kept _ _)).stage ((s.timers_quiet _).comp (State.submitEvict_quiet _ _)))
  · exact .refl s

theorem State.leaseExpiry_ran (s : State) (c : Client) : Ran s (s.leaseExpiry c) :=
  State.expire_ran fun t _ => ((t.setSlot_kept _ _).trans (State.leaseExpired_kept _ c)).stage
    ((t.slot_quiet _ _).comp (State.leaseExpired_quiet _ c))

theorem State.yieldExpiry_ran (s : State) (c : Client) : Ran s (s.yieldExpiry c) :=
  State.expire_ran fun t _ => ((t.setSlot_kept _ _).trans (State.submitRelease_kept _ c _)).stage
    ((t.slot_quiet _ _).comp (State.submitRelease_quiet _ c _))

theorem State.retryExpiry_ran (s : State) (n : LineNo) : Ran s (s.retryExpiry n) := by
  refine State.expire_ran fun t _ => ?_
  unfold State.endRetry
  split
  · exact ((t.freeSlot_kept _).trans (State.startClaim_kept _ _ _ _)).stage ((t.freeSlot_quiet _).comp (State.startClaim_quiet _ _ _ _))
  · exact ((t.freeSlot_kept _).trans (State.testClient_kept _ _)).stage ((t.freeSlot_quiet _).comp (State.testClient_quiet _ _))

/-! ### The Card Port -/

theorem State.loadTests_stages {s t : State} (h : Stages s t) (o : Byte) (d : List Byte) (k : Nat) :
    Stages s (s.loadTests o d k t).state := by
  unfold State.loadTests
  split
  · exact .refl
  · split
    · exact .refl
    · split
      · exact .refl
      · exact h

theorem State.decideStart_stages (s : State) : Stages s s.decideStart.state := by
  unfold State.decideStart
  split
  · rename_i hs
    have ho : s.session.station.inSession = false := by rw [hs]; rfl
    split
    · refine .single (.outside (t := s.startUp) ?_ ho)
      refine (s.checker_quiet _ ?_ (.inr (.inr ?_))).comp ((State.timers_quiet _ _).comp (State.enterOutside_quiet ?_ rfl _))
      · rfl
      · rfl
      · exact ho
    · exact .refl
  · exact .refl

theorem State.decideStop_stages (s : State) : Stages s s.decideStop.state := by
  have off : ∀ {t : State}, Quiets s t → s.session.station.inSession = false → Stages s (t.goOffline .stop) := fun q ho =>
    .single (.outside (q.comp (State.goOffline_quiet (q.inSession.trans ho) _)) ho)
  unfold State.decideStop
  split
  · rename_i hs
    exact off State.stopListen_quiet (by rw [hs]; rfl)
  · rename_i hs
    exact off (s.requestRemoval_quiet _) (by rw [hs]; rfl)
  · rename_i hs
    exact off ((s.requestRemoval_quiet _).comp State.stopAnswer_quiet) (by rw [hs]; rfl)
  · rename_i hs
    exact off ((s.requestRemoval_quiet _).comp (State.timers_quiet _ _)) (by rw [hs]; rfl)
  · exact State.queueLeave_stages (.inr (.inr ‹_›)) _
  · exact State.queueLeave_stages (.inr (.inl ‹_›)) _
  · exact State.queueLeave_stages (.inl ‹_›) _
  · exact .single (.quiet (Quiet.session (s := s) { s.session with leaveDest := some .offline } ⟨rfl, rfl, rfl, rfl, rfl⟩).all
      (.inl ⟨rfl, rfl, rfl⟩))
  all_goals exact .refl

theorem State.decideResync_stages (s : State) : Stages s s.decideResync.state := by
  unfold State.decideResync; split
  · exact State.queueLeave_stages (.inl ‹_›) _
  · exact .refl

theorem State.decideClearFault_stages (s : State) : Stages s s.decideClearFault.state := by
  unfold State.decideClearFault; split
  · rename_i hs
    have ho : s.session.station.inSession = false := by rw [hs]; rfl
    exact .single (.outside (State.enterOutside_quiet ho rfl _) ho)
  · exact .refl

theorem State.decideClaim_stages (s : State) (c : Byte) (m : Mask) (k : Byte) : Stages s (s.decideClaim c m k).state := by
  unfold State.decideClaim
  split
  · exact .refl
  · split
    · exact .refl
    · split
      · exact .refl
      · split
        · exact .refl
        · exact (s.startClaim_kept _ _ _).stage (s.startClaim_quiet _ _ _)

theorem State.decideCancel_stages (s : State) (c : Byte) : Stages s (s.decideCancel c).state := by
  unfold State.decideCancel
  split
  · exact .refl
  · unfold State.cancelSlot
    split
    iterate 3 exact (s.withdrawSlot_kept _).stage (s.withdrawSlot_quiet _)
    all_goals exact .refl

theorem State.decideRelease_stages (s : State) (c : Byte) : Stages s (s.decideRelease c).state := by
  unfold State.decideRelease
  split
  · exact .refl
  · unfold State.releaseSlot
    split
    iterate 2 exact (s.submitRelease_kept _ _).stage (s.submitRelease_quiet _ _)
    all_goals exact .refl

theorem State.decideRenew_stages (s : State) (c : Byte) : Stages s (s.decideRenew c).state := by
  unfold State.decideRenew
  split
  · exact .refl
  · unfold State.renewSlot
    split
    · exact (s.renewal_kept _).stage (s.renewal_quiet _)
    · exact .refl

theorem State.decideReadEvent_state (s : State) : s.decideReadEvent.state = s := by
  unfold State.decideReadEvent; split <;> rfl

theorem State.decideReadSlot_state (s : State) (c : Byte) : (s.decideReadSlot c).state = s := by
  unfold State.decideReadSlot; split <;> rfl

theorem State.decideReadConfig_state (s : State) (p o n : Byte) : (s.decideReadConfig p o n).state = s := by
  unfold State.decideReadConfig
  split
  · rfl
  · split <;> rfl

theorem State.reading_stages (s : State) : Stages s s.reading := by
  unfold State.reading; split
  · exact .refl
  · exact (s.setPort_sessionKept _).stage (Quiet.answer s.port.response _).all

theorem State.eventRemoval_stages (s : State) : Stages s s.eventRemoval := by
  unfold State.eventRemoval
  split
  · rename_i h
    exact (s.setPort_sessionKept _).stage (Quiet.removal _ _ h).all
  · exact .refl

theorem State.decideReadResource_stages (s : State) (r : Byte) : Stages s (s.decideReadResource r).state := by
  unfold State.decideReadResource
  split
  · dsimp only
    split
    · exact s.freeze_kept.stage (s.freeze_quiet ‹_›)
    · exact .refl
  · exact .refl

theorem State.decideReadMember_stages (s : State) (a : Byte) : Stages s (s.decideReadMember a).state := by
  unfold State.decideReadMember; split
  · exact .refl
  · exact (s.readMembers_kept _).stage (s.readMembers_quiet _)

theorem State.badFrame_ran (s : State) (i : Byte) (ps : List Byte) : Ran s (s.badFrame i ps) := by
  unfold State.badFrame; split
  · exact .refl s
  · exact State.frame_ran (.refl s)

theorem State.frameAborted_ran (s : State) (bs : List Byte) : Ran s (s.frameAborted bs) := by
  unfold State.frameAborted; split
  · exact .refl s
  · exact .here ((s.setPort_sessionKept _).stage (Quiet.answer _ _).all)

/-! ### Every command -/

/-- What a command comes to, the two of reset apart: it answers a next state, by stages after the effects of a delivered notice, and
for the end of a taken round the effects of its notice. -/
theorem exec_ran (s : State) (i : Instr) (h1 : i ≠ .hardwareReset) (h2 : ∀ a f, i ≠ .resetRelease a f) :
    ∃ t, exec i s = .next t ∧ (Ran s t ∨ Took s t) := by
  have frame : ∀ {d : Decided}, Stages s.flush d.state → Ran s (s.frame d) ∨ Took s (s.frame d) := fun h =>
    .inl (State.frame_ran (.flushed h))
  cases i with
  | loadProfile o d =>
    exact ⟨_, rfl, frame (State.loadTests_stages ((State.setPort_sessionKept _ _).stage (Quiet.image _ s.flush.port.loc).all) o d _)⟩
  | loadLocal o d =>
    exact ⟨_, rfl, frame (State.loadTests_stages ((State.setPort_sessionKept _ _).stage (Quiet.image s.flush.port.system _).all) o d _)⟩
  | readConfig p o n => exact ⟨_, rfl, .inl (State.frame_ran (.here (by rw [State.decideReadConfig_state])))⟩
  | start => exact ⟨_, rfl, frame (State.decideStart_stages _)⟩
  | stop => exact ⟨_, rfl, frame (State.decideStop_stages _)⟩
  | resync => exact ⟨_, rfl, frame (State.decideResync_stages _)⟩
  | clearFault => exact ⟨_, rfl, frame (State.decideClearFault_stages _)⟩
  | claim c m k => exact ⟨_, rfl, frame (State.decideClaim_stages _ c m k)⟩
  | cancel c => exact ⟨_, rfl, frame (State.decideCancel_stages _ c)⟩
  | release c => exact ⟨_, rfl, frame (State.decideRelease_stages _ c)⟩
  | renew c => exact ⟨_, rfl, frame (State.decideRenew_stages _ c)⟩
  | readEvent =>
    exact ⟨_, rfl, .inl (Ran.comp (State.frame_ran (.flushed (by rw [State.decideReadEvent_state]))) (State.reading_stages _))⟩
  | readStatus => exact ⟨_, rfl, frame .refl⟩
  | readSlot c => exact ⟨_, rfl, frame (by rw [State.decideReadSlot_state])⟩
  | readResource r => exact ⟨_, rfl, frame (State.decideReadResource_stages _ r)⟩
  | readMember a => exact ⟨_, rfl, frame (State.decideReadMember_stages _ a)⟩
  | badFrame i ps => exact ⟨_, rfl, .inl (s.badFrame_ran i ps)⟩
  | frameAborted bs => exact ⟨_, rfl, .inl (s.frameAborted_ran bs)⟩
  | eventRemoval => exact ⟨_, rfl, .inl (.here s.eventRemoval_stages)⟩
  | hardwareReset => exact absurd rfl h1
  | resetRelease a f => exact absurd rfl (h2 a f)
  | reqRise n h => exact ⟨_, rfl, .inl (s.reqRise_ran n h)⟩
  | reqFall n h => exact ⟨_, rfl, .inl (s.reqFall_ran n h)⟩
  | roundStart => exact ⟨_, rfl, .inl s.roundStart_ran⟩
  | roundTaken h e => exact ⟨_, rfl, s.roundTaken_cases h e⟩
  | roundVoided w f => exact ⟨_, rfl, .inl (s.roundVoided_ran w f)⟩
  | roundMissed f => exact ⟨_, rfl, .inl s.roundMissed_ran⟩
  | busStuck => exact ⟨_, rfl, .inl s.busStuck_ran⟩
  | busRecovered => exact ⟨_, rfl, .inl s.busRecovered_ran⟩
  | listenWindowExpiry => exact ⟨_, rfl, .inl s.listenWindowExpiry_ran⟩
  | answerLimitExpiry => exact ⟨_, rfl, .inl s.answerLimitExpiry_ran⟩
  | backoffEnd => exact ⟨_, rfl, .inl s.backoffEnd_ran⟩
  | snapshotLimitExpiry => exact ⟨_, rfl, .inl s.snapshotLimitExpiry_ran⟩
  | beaconTimerExpiry => exact ⟨_, rfl, .inl s.beaconTimerExpiry_ran⟩
  | absenceTimerExpiry m => exact ⟨_, rfl, .inl (s.absenceTimerExpiry_ran m)⟩
  | leaseExpiry c => exact ⟨_, rfl, .inl (s.leaseExpiry_ran c)⟩
  | yieldExpiry c => exact ⟨_, rfl, .inl (s.yieldExpiry_ran c)⟩
  | retryExpiry n => exact ⟨_, rfl, .inl (s.retryExpiry_ran n)⟩
  | owedNoticePlaced => exact ⟨_, rfl, .inl (.flushed ((State.roomEvent_kept _).stage (State.roomEvent_quiet _)))⟩
  | edgeHandedOn n => exact ⟨_, rfl, .inl (s.edgeHandedOn_ran n)⟩
  | noticeEffectsMade => exact ⟨_, rfl, .inl (.flushed .refl)⟩

/-! ### The effects of a notice -/

theorem Steady.trans {s t u : State} (h : Steady s t) (k : Steady t u) : Steady s u := by
  rcases h with ⟨h1, h2, h3⟩ | ⟨hr, h1, h2⟩
  · have hf : t.syncFlag = s.syncFlag := by simp only [State.syncFlag, State.runsAbsence, h1, h2]
    rcases k with ⟨k1, k2, k3⟩ | ⟨kr, k1, k2⟩
    · exact .inl ⟨k1.trans h1, k2.trans h2, k3.trans h3⟩
    · exact .inr ⟨h1 ▸ kr, k1, k2.trans hf⟩
  · rcases k with ⟨k1, k2, -⟩ | ⟨kr, -⟩
    · exact .inr ⟨hr, k1.trans h1, k2.trans h2⟩
    · rw [h1] at kr
      rcases kr with e | e | e <;> cases e

/-- The room of a taken notice leaves replica, table check and bus. -/
theorem State.makeRoom_steady (s : State) (h : Heard) (r : Bool) (c : Option Client) :
    Stages s (s.makeRoom h r c) ∧ Steady s (s.makeRoom h r c) := by
  have q := s.recall_quiet h
  have k := s.recall_kept h
  unfold State.makeRoom
  dsimp only
  generalize s.recall h = a at q k
  have hd : Steady (a.setCount (a.countAfter h.notice))
      ((a.setCount (a.countAfter h.notice)).offerRoom (r || decide (a.outbox.entries.length < s.outbox.entries.length)) c) :=
    (State.offerRoom_kept _ _ _).steady
  exact ⟨(k.stage q).tail (.dated (State.offerRoom_quiet _ _ _) hd), k.steady.trans hd⟩

theorem State.makeRoom_replica (s : State) (h : Heard) (r : Bool) (c : Option Client) :
    (s.makeRoom h r c).session.members = s.session.members ∧ (s.makeRoom h r c).pool.records = s.pool.records ∧
      (s.makeRoom h r c).checker.tableCheck = s.checker.tableCheck ∧ (s.makeRoom h r c).bus = s.bus := by
  obtain ⟨hm, -, -, hr, hc⟩ := (s.recall_quiet h).replica
  obtain ⟨km, -, -, kr, kc, kb, -⟩ := (s.recall h).dated_kept h.notice (work := fun u => u.offerRoom _ c)
    fun u => u.offerRoom_quiet (r || decide ((s.recall h).outbox.entries.length < s.outbox.entries.length)) c
  exact ⟨km.trans hm, kr.trans hr, kc.trans hc, kb.trans (s.recall_quiet h).bus⟩

/-- The check worked out afresh leaves everything else of the replica. -/
theorem State.recheck_cases (b s : State) :
    State.recheck b s = s ∧ s.keepsCheck b = true ∨
      Quiets (s.setChecker { s.checker with tableCheck := tableCheckOf s.session.members s.pool.records }) (State.recheck b s) ∧
        s.keepsCheck b = false := by
  cases hk : s.keepsCheck b with
  | true => exact .inl ⟨by simp [State.recheck, hk], rfl⟩
  | false =>
    refine .inr ⟨?_, rfl⟩
    unfold State.recheck
    rw [hk]
    dsimp only
    split
    · exact nomatch ‹false = true›
    · split
      · exact State.freeze_quiet _ ‹_›
      · exact State.readMembers_quiet _ _

/-- What follows the handling of a notice leaves the replica, the check apart. -/
theorem State.recheck_works (b s : State) : ∃ k, Quiets (s.setChecker { s.checker with tableCheck := k }) (State.recheck b s) := by
  rcases State.recheck_cases b s with ⟨e, -⟩ | ⟨q, -⟩
  · exact ⟨s.checker.tableCheck, e.symm ▸ .refl⟩
  · exact ⟨_, q⟩

/-- A taken notice: the room (m), the handling (u), and what leaves replica and station but for the check and an upset's LEAVE. -/
theorem State.takeNotice_cases (s : State) (h : Heard) (r : Bool) (c : Option Client) : ∃ m u k,
    Stages s m ∧ Steady s m ∧ Handled m h.notice u ∧
      Quiets (u.setChecker { u.checker with tableCheck := k }) (s.takeNotice h r c) ∧ Kept u (s.takeNotice h r c) := by
  obtain ⟨k, q⟩ := State.recheck_works s ((s.makeRoom h r c).handle h)
  obtain ⟨hm, hs⟩ := s.makeRoom_steady h r c
  exact ⟨_, _, k, hm, hs, State.handle_cases _ h, (q.comp (State.makeAnswers_quiet _)).comp (State.postActive_quiet _ _),
    ((State.recheck_kept _ s).trans (State.makeAnswers_kept _)).trans (State.postActive_kept _ _)⟩

end Sys2Proof.Machine
end

