-- ==== Sys2Proof/Proofs/Invariants.lean ====
section
/-! SUPPORT. What a step comes to, and the invariants of replica, table check and pool: each is kept by every stage, by the handling of
every notice, and so by every step. -/

namespace Sys2Proof.Machine

/-! ### Steps -/

/-- A step is a millisecond, hardware reset, the release of RESETN, or a command by stages and effects of notices. -/
theorem step_cases {s t : State} (h : step s = .next t) :
    t = s.tick ∨ (∃ rest, t = { State.reset with pending := rest }) ∨
      (∃ rest a f, t = ({ s with pending := rest } : State).resetRelease a f) ∨
      ∃ rest, (Ran { s with pending := rest } t ∨ Took { s with pending := rest } t) ∧ Turns { s with pending := rest } t := by
  unfold step at h
  split at h
  · cases h; exact .inl rfl
  · rename_i i rest _
    by_cases h1 : i = .hardwareReset
    · subst h1; cases h; exact .inr (.inl ⟨rest, rfl⟩)
    · by_cases h2 : ∃ a f, i = .resetRelease a f
      · obtain ⟨a, f, rfl⟩ := h2
        cases h; exact .inr (.inr (.inl ⟨rest, a, f, rfl⟩))
      · have h3 : ∀ a f, i ≠ .resetRelease a f := fun a f e => h2 ⟨a, f, e⟩
        obtain ⟨u, hu, hr⟩ := exec_ran { s with pending := rest } i h1 h3
        obtain ⟨v, hv, ht⟩ := exec_turns { s with pending := rest } i h1 h3
        rw [h] at hu hv
        cases hu; cases hv
        exact .inr (.inr (.inr ⟨rest, hr, ht⟩))

/-- The state in which a delivered notice's effects are made is a stage further. -/
theorem State.taking_stage (s : State) : Stage s s.taking := .bus _ nofun

theorem State.flush_cases (s : State) : s.flush = s ∨ ∃ h, s.bus.delivered = some h ∧ s.flush = s.taking.takeNotice h false none := by
  unfold State.flush
  split
  · exact .inl rfl
  · exact .inr ⟨_, ‹_›, rfl⟩

/-- What every stage keeps, a chain of stages keeps. -/
theorem Stages.keeps {P : State → Prop} (hs : ∀ s t, Stage s t → P s → P t) {s t : State} (h : Stages s t) (p : P s) : P t := by
  induction h with
  | refl => exact p
  | tail _ h ih => exact hs _ _ h ih

/-- What the stages and the effects of notices keep, every command without reset keeps. -/
theorem Ran.keeps {P : State → Prop} {s t : State} (hs : ∀ s t, Stage s t → P s → P t)
    (ht : ∀ s h r c, P s → P (s.takeNotice h r c)) (p : P s) (h : Ran s t ∨ Took s t) : P t := by
  have start : ∀ {a : State}, a = s ∨ a = s.flush → P a := fun e => by
    rcases e with rfl | rfl
    · exact p
    · rcases s.flush_cases with e | ⟨h, -, e⟩
      · exact e.symm ▸ p
      · exact e.symm ▸ ht _ _ _ _ (hs _ _ s.taking_stage p)
  rcases h with ⟨a, ha, h⟩ | ⟨a, u, h, r, c, ha, hu, rfl⟩
  · exact h.keeps hs (start ha)
  · exact ht _ _ _ _ (hu.keeps hs (start ha))

/-! ### The replica (R7, R41, R119, R142) -/

theorem replicaForm_iff (s : State) : ReplicaForm s ↔ s.session.founded = s.session.station.inSession ∧
    (s.session.founded = false → s.session.members = .empty ∧ s.session.count = 0#16 ∧ s.pool = ⟨[], false⟩) := by
  unfold ReplicaForm
  refine and_congr_left fun _ => ?_
  cases s.session.station <;> cases s.session.founded <;> simp [StationState.inSession]

/-- A state that holds a replica in a session has the form whatever the replica is. -/
theorem ReplicaForm.inside {t : State} (h : t.session.founded = true) (hs : t.session.station.inSession = true) : ReplicaForm t :=
  (replicaForm_iff t).2 ⟨h.trans hs.symm, fun e => by rw [h] at e; cases e⟩

theorem Emptied.replicaForm {t : State} (h : Emptied t) : ReplicaForm t :=
  (replicaForm_iff t).2 ⟨h.founded.trans h.outside.symm, fun _ => ⟨h.members, h.count, h.pool⟩⟩

theorem ReplicaForm.quiets {s t : State} (h : ReplicaForm s) (q : Quiets s t) : ReplicaForm t := by
  rw [replicaForm_iff] at h ⊢
  obtain ⟨hm, hf, hc, -, -⟩ := q.replica
  rw [hf, q.inSession, hm, hc]
  refine ⟨h.1, fun e => ?_⟩
  obtain ⟨h1, h2, h3⟩ := h.2 e
  exact ⟨h1, h2, (q.pool_same (by simp [State.poolFails, h3])).trans h3⟩

/-- A replica held in a session is kept by the work of one. -/
theorem ReplicaForm.works {s t : State} (h : ReplicaForm s) (hs : s.session.station.inSession = true) (w : Works s t) :
    ReplicaForm t := by
  obtain ⟨hf, -, -, hi⟩ := w.kept
  rw [replicaForm_iff] at h
  exact .inside (hf.trans (h.1.trans hs)) (hi.trans hs)

/-- Outside a session the count is 0; inside, any is held. -/
theorem ReplicaForm.dated {s t : State} {n : Word} (h : ReplicaForm s) (q : Quiets (s.setCount n) t) :
    ReplicaForm (t.setCount s.session.count) := by
  rw [replicaForm_iff] at h ⊢
  obtain ⟨hm, hf, -, -, -⟩ := q.replica
  refine ⟨(hf.trans h.1).trans q.inSession.symm, fun e => ?_⟩
  obtain ⟨h1, h2, h3⟩ := h.2 (hf.symm.trans e)
  have hp : (s.setCount n).poolFails = false := by
    rw [State.poolFails, show (s.setCount n).pool = s.pool from rfl, h3]
    rfl
  exact ⟨hm.trans h1, h2, (q.pool_same hp).trans h3⟩

theorem ReplicaForm.stage {s t : State} (k : Stage s t) (h : ReplicaForm s) : ReplicaForm t := by
  cases k with
  | quiet q => exact h.quiets q
  | outside q => exact h.quiets q
  | dated q => exact h.dated q
  | outbox => exact h
  | bus => exact h
  | emptied e => exact e.replicaForm
  | newTag => exact h

theorem ReplicaForm.handled {s t : State} {n : Notice} (h : ReplicaForm s) (k : Handled s n t) : ReplicaForm t := by
  have loading : s.session.station = .loading → s.session.station.inSession = true := fun e => by rw [e]; rfl
  cases k with
  | quiet q => exact h.quiets q
  | outside q => exact h.quiets q
  | founded _ f _ q => exact (ReplicaForm.inside f.founded (by rw [f.station]; rfl)).quiets q
  | admitted _ f => exact .inside f.founded (by rw [f.station]; rfl)
  | emptied _ e => exact e.replicaForm
  | applied hs w => exact h.works (StationState.inSession_of_applies hs) w
  | members hs q =>
    have hm : ∀ v, ReplicaForm (s.setMembers v) := fun v => h.works (loading hs) (s.setMembers_works v)
    exact (hm _).quiets q
  | record x hs => exact h.works (loading hs) (.single (.pool _))
  | completed hs w => exact h.works (loading hs) w

/-- The check of the table is no part of the replica's form. -/
theorem ReplicaForm.taken (s : State) (h : Heard) (r : Bool) (c : Option Client) (p : ReplicaForm s) :
    ReplicaForm (s.takeNotice h r c) := by
  obtain ⟨m, u, k, hm, -, hd, q, -⟩ := s.takeNotice_cases h r c
  have hu : ReplicaForm u := (hm.keeps (fun _ _ => ReplicaForm.stage) p).handled hd
  have checked : ∀ x, ReplicaForm (u.setChecker x) := fun _ => hu
  exact (checked _).quiets q

/-! ### The form of the table (R121) -/

theorem tableForm_iff (s : State) : TableForm s ↔ ∀ a, (s.session.members.get a).form := Iff.rfl

theorem TableForm.of_members {s t : State} (h : TableForm s) (e : t.session.members = s.session.members) : TableForm t :=
  fun a => by rw [e]; exact h a

theorem TableForm.empty {t : State} (e : t.session.members = .empty) : TableForm t := (tableForm_iff t).2 fun a => by
  rw [e, Table.empty_get]
  exact Member.form_absent

theorem TableForm.stage {s t : State} (k : Stage s t) (h : TableForm s) : TableForm t := by
  cases k with
  | quiet q => exact h.of_members q.replica.1
  | outside q => exact h.of_members q.replica.1
  | dated q => exact h.of_members q.replica.1
  | outbox => exact h
  | bus => exact h
  | emptied e => exact .empty e.members
  | newTag => exact h

theorem TableForm.handled {s t : State} {n : Notice} (h : TableForm s) (k : Handled s n t) : TableForm t := by
  cases k with
  | quiet q => exact h.of_members q.replica.1
  | outside q => exact h.of_members q.replica.1
  | founded _ f _ q =>
    refine TableForm.of_members ((tableForm_iff _).2 fun b => ?_) q.replica.1
    rw [f.members]
    exact Table.write_form (fun b => by rw [Table.empty_get]; exact Member.form_absent) _ _ _ (by simp) b
  | admitted _ f => exact .empty f.members
  | emptied _ e => exact .empty e.members
  | applied _ _ _ m =>
    rw [tableForm_iff, m]
    exact memberEffect_form h n
  | members _ q =>
    refine TableForm.of_members ((tableForm_iff _).2 fun b => ?_) q.replica.1
    rw [State.setMembers, State.setSession_session, tableOfBytes_get]
    exact memberOfByte_form _
  | record => exact h
  | completed _ _ _ m => exact m h

theorem TableForm.taken (s : State) (h : Heard) (r : Bool) (c : Option Client) (p : TableForm s) :
    TableForm (s.takeNotice h r c) := by
  obtain ⟨m, u, k, hm, -, hd, q, -⟩ := s.takeNotice_cases h r c
  exact ((hm.keeps (fun _ _ => TableForm.stage) p).handled hd).of_members q.replica.1

/-! ### What exists in ACTIVE only, and the capacities (R4, R147, R153, R156, R161, R166) -/

theorem ActiveOnly.of_same {s t : State} (h : ActiveOnly s) (e : t.session.station = s.session.station)
    (h1 : t.checker.suspect = s.checker.suspect ∨ t.checker.suspect = none)
    (h2 : ∀ a : Addr, t.sponsor.answers.get a = s.sponsor.answers.get a ∨ t.sponsor.answers.get a = none)
    (h3 : t.sponsor.serving = s.sponsor.serving ∨ t.sponsor.serving = none) : ActiveOnly t := by
  intro hn
  obtain ⟨k1, k2, k3⟩ := h (e ▸ hn)
  refine ⟨?_, fun a => ?_, ?_⟩
  · rcases h1 with h | h <;> simp [h, k1]
  · rcases h2 a with h | h <;> simp [h, k2]
  · rcases h3 with h | h <;> simp [h, k3]

theorem ActiveOnly.entered {s : State} {st : StationState} (ha : st = .active ∨ OutOfActive s) : ActiveOnly (s.atStation st) := by
  intro hn
  rcases ha with rfl | ⟨h1, h2, h3⟩
  · exact absurd rfl hn
  · exact ⟨h3, h1, h2⟩

theorem ActiveOnly.quiet {s t : State} (k : Quiet s t) (h : ActiveOnly s) : ActiveOnly t := by
  have out : ∀ {t : State} {P : Prop}, t.session.station = s.session.station → s.session.station = .active ∨ P →
      (P → ActiveOnly t) → ActiveOnly t := fun e hp k => by
    rcases hp with ha | hp
    · exact fun hn => absurd (e.trans ha) hn
    · exact k hp
  cases k with
  | sponsor x hx => exact out rfl hx fun hk => h.of_same rfl (.inl rfl) hk.1 hk.2
  | checker x _ hx => exact out rfl hx fun hk => h.of_same rfl hk (fun _ => .inl rfl) (.inl rfl)
  | session x hx => exact h.of_same hx.1 (.inl rfl) (fun _ => .inl rfl) (.inl rfl)
  | station st _ ha => exact .entered ha
  | slot c v => exact h.of_same (by simp) (.inl (by simp)) (fun _ => .inl (by simp)) (.inl (by simp))
  | _ => exact h

theorem ActiveOnly.move {s t : State} (k : Move s t) (h : ActiveOnly s) : ActiveOnly t := by
  cases k with
  | quiet q => exact h.quiet q
  | session x hx => exact h.of_same hx.1 (.inl rfl) (fun _ => .inl rfl) (.inl rfl)
  | checker x hx =>
    rcases hx with ha | hk
    · exact fun hn => absurd ha hn
    · exact h.of_same rfl hk (fun _ => .inl rfl) (.inl rfl)
  | station st ha => exact .entered ha
  | _ => exact h

theorem WithinCapacity.move {s t : State} (k : Move s t) (h : WithinCapacity s) : WithinCapacity t := by
  obtain ⟨hp, hj⟩ := h
  cases k with
  | quiet q =>
    cases q with
    | joiner x hx => exact ⟨hp, hx.elim (fun e => e.trans hj) id⟩
    | slot c v => exact ⟨by simpa using hp, by simpa using hj⟩
    | _ => exact ⟨hp, hj⟩
  | pool x hx => exact ⟨hx.elim (fun e => e.trans hp) id, hj⟩
  | _ => exact ⟨hp, hj⟩

/-- What every update keeps, a longer chain keeps, where bus and tag are no part of it. -/
theorem Turns.keeps {P : State → Prop} (hm : ∀ s t, Move s t → P s → P t) (hb : ∀ s x, P s → P (s.setBus x))
    (ht : ∀ s, P s → P s.nextTag) {s t : State} (h : Turns s t) (p : P s) : P t := by
  induction h with
  | refl => exact p
  | tail _ h ih =>
    cases h with
    | moves h =>
      induction h with
      | refl => exact ih
      | tail _ h ih => exact hm _ _ h ih
    | round x => exact hb _ _ ih
    | pointer a => exact hb _ _ ih
    | newTag => exact ht _ ih

/-! ### The delivered notice (R91, R96) -/

theorem CarriedOwn.of_same {s t : State} (h : CarriedOwn s) (e : t.bus.delivered = s.bus.delivered) (o : t.own = s.own) : CarriedOwn t :=
  fun x hx ho => (h x (e ▸ hx) ho).trans o.symm

theorem CarriedOwn.stage {s t : State} (k : Stage s t) (h : CarriedOwn s) : CarriedOwn t := by
  have o := k.own
  cases k with
  | quiet q => exact h.of_same (by rw [q.bus]) o
  | outside q => exact h.of_same (by rw [q.bus]) o
  | dated q =>
    have e := q.bus
    exact h.of_same (congrArg Bus.delivered e) o
  | outbox => exact h
  | bus x hx =>
    intro d hd ho
    rcases hx d hd with e | e
    · exact h d e ho
    · exact e ho
  | emptied _ d => exact h.of_same d o
  | newTag => exact h

theorem CarriedOwn.taken (s : State) (h : Heard) (r : Bool) (c : Option Client) (p : CarriedOwn s) :
    CarriedOwn (s.takeNotice h r c) := by
  obtain ⟨m, u, k, hm, -, hd, q, -⟩ := s.takeNotice_cases h r c
  have o : (s.takeNotice h r c).own = s.own := congrArg Straps.address (s.takeNotice_moves h r c).kept.2.2.1
  have pm := hm.keeps (fun _ _ => CarriedOwn.stage) p
  refine pm.of_same ((congrArg Bus.delivered q.bus).trans hd.delivered) (o.trans ?_)
  exact hm.own.symm

/-! ### The table check (R21, R163, R173) -/

/-- The check of the empty replica that a station loading, or leaving while it loaded, holds (R21, R173; log 29). -/
def Unread (s : State) : Prop := LoadingOrLeft s ∧ s.checker.tableCheck = emptyCheck

/-- The check of the table and the pool held. -/
def Read (s : State) : Prop :=
  s.session.station ≠ .loading ∧ s.checker.tableCheck = tableCheckOf s.session.members s.pool.records

theorem checkCurrent_iff (s : State) : CheckCurrent s ↔ Unread s ∨ Read s := by
  unfold CheckCurrent Unread Read LoadingOrLeft
  by_cases h : s.session.station = .loading
  · simp [h]
  · simp only [h, if_false, false_or, ne_eq, not_false_eq_true, true_and]
    constructor
    · rintro (e | ⟨e1, e2, e3⟩)
      · exact .inr e
      · exact .inl ⟨⟨e1, e2⟩, e3⟩
    · rintro (⟨⟨e1, e2⟩, e3⟩ | e)
      · exact .inr ⟨e1, e2, e3⟩
      · exact .inl e

theorem Read.current {s : State} (h : Read s) : CheckCurrent s := (checkCurrent_iff s).2 (.inr h)
theorem Unread.current {s : State} (h : Unread s) : CheckCurrent s := (checkCurrent_iff s).2 (.inl h)

theorem Emptied.read {t : State} (h : Emptied t) : Read t := by
  refine ⟨fun e => ?_, ?_⟩
  · have := h.outside
    rw [e] at this
    cases this
  · rw [h.members, h.pool, h.check, tableCheckOf_empty]

theorem Admitted.unread {t : State} (h : Admitted t) : Unread t := ⟨.inl h.station, h.check⟩

theorem LoadingOrLeft.inSession {s : State} (h : LoadingOrLeft s) : s.session.station.inSession = true := by
  rcases h with h | ⟨h, -⟩ <;> rw [h] <;> rfl

/-- Updates that leave replica and check, and the station or make it leave, keep the check current. -/
theorem CheckCurrent.same {s t : State} (h : CheckCurrent s) (k : Steady s t) (hm : t.session.members = s.session.members)
    (hr : t.pool.records = s.pool.records) (hc : t.checker.tableCheck = s.checker.tableCheck) : CheckCurrent t := by
  rcases (checkCurrent_iff s).1 h with ⟨l, e⟩ | ⟨l, e⟩
  · exact Unread.current ⟨k.loadingOrLeft l, hc.trans e⟩
  · exact Read.current ⟨k.stays.2 l, by rw [hc, hm, hr, e]⟩

theorem CheckCurrent.quiets {s t : State} (h : CheckCurrent s) (q : Quiets s t) (k : Steady s t) : CheckCurrent t :=
  h.same k q.replica.1 q.replica.2.2.2.1 q.replica.2.2.2.2

theorem CheckCurrent.outside {s t : State} (h : CheckCurrent s) (q : Quiets s t) (hs : s.session.station.inSession = false) :
    CheckCurrent t := by
  have ht : t.session.station ≠ .loading := fun e => by
    have := q.inSession
    rw [e, hs] at this
    cases this
  obtain ⟨hm, -, -, hr, hc⟩ := q.replica
  rcases (checkCurrent_iff s).1 h with ⟨l, -⟩ | ⟨-, e⟩
  · rw [l.inSession] at hs; cases hs
  · exact Read.current ⟨ht, by rw [hc, hm, hr, e]⟩

theorem CheckCurrent.stage {s t : State} (k : Stage s t) (h : CheckCurrent s) : CheckCurrent t := by
  cases k with
  | quiet q k => exact h.quiets q k
  | outside q hs => exact h.outside q hs
  | dated q k =>
    have e := q.replica
    exact h.same k e.1 e.2.2.2.1 e.2.2.2.2
  | outbox => exact h
  | bus => exact h
  | emptied e => exact e.read.current
  | newTag => exact h

/-- The handling of a notice in LOADING, or in LEAVING where it was queued in LOADING: the check of the empty replica is kept, unless the
snapshot is complete. -/
theorem Handled.unread {s t : State} {n : Notice} (k : Handled s n t) (h : Unread s) :
    (s.session.station = .loading ∧ t.session.station = .announcing) ∨ CheckCurrent t := by
  obtain ⟨l, e⟩ := h
  have unread : LoadingOrLeft t → t.checker.tableCheck = s.checker.tableCheck →
      (s.session.station = .loading ∧ t.session.station = .announcing) ∨ CheckCurrent t := fun l' c => .inr (Unread.current ⟨l', c.trans e⟩)
  cases k with
  | quiet q k => exact unread (k.loadingOrLeft l) q.replica.2.2.2.2
  | outside q hs => rw [l.inSession] at hs; cases hs
  | founded hs => have := l.inSession; rw [hs] at this; cases this
  | admitted hs => have := l.inSession; rw [hs] at this; cases this
  | emptied _ e => exact .inr e.read.current
  | applied hs w k =>
    rcases l with l | ⟨l, l'⟩
    · rw [l] at hs; cases hs
    · obtain ⟨h1, h2⟩ := k.1 l
      exact unread (.inr ⟨h1, h2.trans l'⟩) w.kept.2.1
  | members _ q k => exact unread k q.replica.2.2.2.2
  | record x hs => exact unread (.inl hs) rfl
  | completed hs w k =>
    rcases k with k | k
    · exact .inl ⟨hs, k⟩
    · exact unread k w.kept.2.1

/-- Only an ADMIT leads to LOADING. -/
theorem Handled.loading {s t : State} {n : Notice} (k : Handled s n t) (h : s.session.station ≠ .loading)
    (e : t.session.station = .loading) : Admitted t := by
  cases k with
  | quiet q k => exact absurd e (k.stays.2 h)
  | outside q hs =>
    have := q.inSession
    rw [e, hs] at this
    cases this
  | founded _ f _ _ k =>
    refine absurd e (k.stays.2 ?_)
    rw [f.station]
    nofun
  | admitted _ f => exact f
  | emptied _ f =>
    have := f.outside
    rw [e] at this
    cases this
  | applied _ _ k => exact absurd e (k.2 h)
  | members hs => exact absurd hs h
  | record _ hs => exact absurd hs h
  | completed hs => exact absurd hs h

/-- A check worked out afresh is that of table and pool; that of a station just admitted is the empty replica's. -/
theorem CheckCurrent.fresh {u : State} (h : u.session.station = .loading → Admitted u) :
    CheckCurrent (u.setChecker { u.checker with tableCheck := tableCheckOf u.session.members u.pool.records }) := by
  by_cases hl : u.session.station = .loading
  · obtain ⟨-, hm, -, hp, -, -⟩ := h hl
    refine Unread.current ⟨.inl hl, ?_⟩
    rw [State.setChecker_checker, hm, hp, tableCheckOf_empty]
  · exact Read.current ⟨hl, rfl⟩

/-- A taken notice leaves the check current: worked out afresh where table or pool changed, in LOADING only when the snapshot is
complete. -/
theorem CheckCurrent.taken (s : State) (h : Heard) (r : Bool) (c : Option Client) (p : CheckCurrent s) :
    CheckCurrent (s.takeNotice h r c) := by
  obtain ⟨-, km⟩ := s.makeRoom_steady h r c
  obtain ⟨hm, hr, hc, -⟩ := s.makeRoom_replica h r c
  have pm : CheckCurrent (s.makeRoom h r c) := p.same km hm hr hc
  unfold State.takeNotice
  dsimp only
  generalize s.makeRoom h r c = m at km hm hr hc pm
  have hd := m.handle_cases h
  generalize m.handle h = u at hd
  have after : ∀ v, CheckCurrent v → CheckCurrent (State.postActive s.session.station v.makeAnswers) := fun v pv =>
    pv.quiets ((State.makeAnswers_quiet _).comp (State.postActive_quiet _ _))
      ((State.makeAnswers_kept _).trans (State.postActive_kept _ _)).steady
  have afresh : (u.session.station = .loading → Admitted u) → u.keepsCheck s = false → CheckCurrent (State.recheck s u) :=
    fun hl hk => by
      rcases State.recheck_cases s u with ⟨-, e⟩ | ⟨q, -⟩
      · rw [hk] at e; cases e
      · have k : Kept (u.setChecker { u.checker with tableCheck := tableCheckOf u.session.members u.pool.records })
            (State.recheck s u) := State.recheck_kept u s
        exact (CheckCurrent.fresh hl).quiets q k.steady
  have kept : CheckCurrent u → u.keepsCheck s = true → CheckCurrent (State.recheck s u) := fun pu hk => by
    rcases State.recheck_cases s u with ⟨e, -⟩ | ⟨-, e⟩
    · rwa [e]
    · rw [hk] at e; cases e
  have unread : Unread s → Unread m := fun hs => ⟨km.loadingOrLeft hs.1, hc.trans hs.2⟩
  refine after _ ?_
  by_cases hs : s.session.station = .loading
  · have us : Unread s := ((checkCurrent_iff s).1 p).resolve_right fun hr => hr.1 hs
    by_cases ha : u.session.station = .announcing
    · exact afresh (fun e => by rw [ha] at e; cases e) (by rw [State.keepsCheck_loading hs, ha]; rfl)
    · exact kept ((hd.unread (unread us)).resolve_left fun h => ha h.2) (by rw [State.keepsCheck_loading hs]; exact decide_eq_true ha)
  · have hml := km.stays.2 hs
    cases hk : u.keepsCheck s with
    | false => exact afresh (hd.loading hml) hk
    | true =>
      refine kept ?_ hk
      rw [State.keepsCheck_other hs, decide_eq_true_eq] at hk
      obtain ⟨e1, e2, e3⟩ := hk
      by_cases hu : u.session.station = .loading
      · exact (hd.loading hml hu).unread.current
      · rcases (checkCurrent_iff s).1 p with us | ⟨-, e⟩
        · exact (hd.unread (unread us)).resolve_left fun h => hml h.1
        · exact Read.current ⟨hu, by rw [e3, e1, e2, e]⟩

/-! ### The pool (R4, R18, R27) -/

theorem PoolForm.stage {s t : State} (k : Stage s t) (h : PoolForm s) : PoolForm t := by
  cases k with
  | quiet q => exact h.quiets q
  | outside q => exact h.quiets q
  | @dated n t q =>
    have hn : PoolForm (s.setCount n) := h
    have ht := hn.quiets q
    exact ht
  | outbox => exact h
  | bus => exact h
  | emptied e => exact .empty (by rw [e.pool])
  | newTag => exact h

/-- A station that loads has taken no SNAP-CLAIM. -/
def Unfilled (s : State) : Prop := s.session.station = .loading → s.pool.records = [] ∧ s.joiner.building ≠ .claims

theorem Unfilled.steady {s t : State} (h : Unfilled s) (k : Steady s t) (hr : t.pool.records = s.pool.records) : Unfilled t := by
  intro e
  rcases k with ⟨h1, -, h3⟩ | ⟨-, h1, -⟩
  · rw [hr, h3]
    exact h (h1 ▸ e)
  · rw [h1] at e; cases e

theorem Unfilled.outside {t : State} (h : t.session.station.inSession = false) : Unfilled t := fun e => by
  rw [e] at h; cases h

theorem Unfilled.stage {s t : State} (k : Stage s t) (h : Unfilled s) : Unfilled t := by
  cases k with
  | quiet q k => exact h.steady k q.replica.2.2.2.1
  | outside q hs => exact .outside (q.inSession.trans hs)
  | dated q k =>
    have e := q.replica.2.2.2.1
    exact h.steady k e
  | outbox => exact h
  | bus => exact h
  | emptied e => exact .outside e.outside
  | newTag => exact h

/-- The handling of a notice keeps the form of the pool; in LOADING while no SNAP-CLAIM has been taken. -/
theorem PoolForm.handled {s t : State} {n : Notice} (h : PoolForm s) (k : Handled s n t) (hu : Unfilled s) : PoolForm t := by
  cases k with
  | quiet q => exact h.quiets q
  | outside q => exact h.quiets q
  | founded _ f _ q => exact (PoolForm.empty (by rw [f.pool])).quiets q
  | admitted _ f => exact .empty (by rw [f.pool])
  | emptied _ e => exact .empty (by rw [e.pool])
  | applied _ _ _ _ p => exact p h
  | members hs q => exact .empty (q.replica.2.2.2.1.trans (hu hs).1)
  | record x hs hb => exact absurd hb (hu hs).2
  | completed _ _ _ _ p => exact p h

/-- The step that completes a snapshot keeps the form of the pool it was given. -/
theorem PoolForm.announced {s t : State} {n : Notice} (h : PoolForm s) (k : Handled s n t) (e : t.session.station = .announcing) :
    PoolForm t := by
  have out : LoadingOrLeft t → PoolForm t := fun l => by
    rcases l with l | ⟨l, -⟩ <;> rw [e] at l <;> cases l
  cases k with
  | quiet q => exact h.quiets q
  | outside q => exact h.quiets q
  | founded _ f _ q => exact (PoolForm.empty (by rw [f.pool])).quiets q
  | admitted _ f => exact .empty (by rw [f.pool])
  | emptied _ e => exact .empty (by rw [e.pool])
  | applied _ _ _ _ p => exact p h
  | members _ _ k => exact out k
  | record x hs => exact out (.inl hs)
  | completed _ _ _ _ p => exact p h

/-- A notice taken outside LOADING keeps the form, and a station admitted by it has taken no SNAP-CLAIM. -/
theorem PoolForm.taken {s : State} (p : PoolForm s) (hu : Unfilled s) (h : Heard) (r : Bool) (c : Option Client) :
    PoolForm (s.takeNotice h r c) ∧ (s.session.station ≠ .loading → Unfilled (s.takeNotice h r c)) := by
  obtain ⟨m, u, k, hm, km, hd, q, ku⟩ := s.takeNotice_cases h r c
  have pm := hm.keeps (fun _ _ => PoolForm.stage) p
  have um := hm.keeps (fun _ _ => Unfilled.stage) hu
  have pu : PoolForm u := pm.handled hd um
  have checked : ∀ x, PoolForm (u.setChecker x) := fun _ => pu
  refine ⟨(checked _).quiets q, fun hs => ?_⟩
  have uu : Unfilled u := fun e => by
    have a := hd.loading (km.stays.2 hs) e
    rw [a.pool, a.building]
    exact ⟨rfl, nofun⟩
  exact uu.steady ku.steady q.replica.2.2.2.1

theorem PoolForm.takenToAnnouncing {s : State} (p : PoolForm s) (h : Heard) (r : Bool) (c : Option Client)
    (e : (s.takeNotice h r c).session.station = .announcing) : PoolForm (s.takeNotice h r c) := by
  obtain ⟨m, u, k, hm, -, hd, q, ku⟩ := s.takeNotice_cases h r c
  have pm := hm.keeps (fun _ _ => PoolForm.stage) p
  have hu : u.session.station = .announcing := by
    rcases ku with ⟨hk, -⟩ | ⟨-, hk⟩
    · rw [← hk]; exact e
    · rw [hk] at e; cases e
  have pu : PoolForm u := pm.announced hd hu
  have checked : ∀ x, PoolForm (u.setChecker x) := fun _ => pu
  exact (checked _).quiets q

end Sys2Proof.Machine
end

