-- ==== Sys2Proof/Proofs/StepKeeps.lean ====
section
/-! PROOFS. The statements about what every step keeps: the table check (O57), the replica (O58) and the pool (O59). -/

namespace Sys2Proof.Machine

/-- What pending commands, a millisecond, both commands of reset, every stage and every taken notice keep, every step keeps. -/
theorem step_keeps {P : State → Prop} (hp : ∀ s rest, P s → P { s with pending := rest }) (ht : ∀ s, P s → P s.tick)
    (hr : ∀ rest, P { State.reset with pending := rest }) (ha : ∀ s a f, P s → P (s.resetRelease a f))
    (hs : ∀ s t, Stage s t → P s → P t) (hn : ∀ s h r c, P s → P (s.takeNotice h r c)) {s t : State} (h : step s = .next t)
    (p : P s) : P t := by
  rcases step_cases h with rfl | ⟨rest, rfl⟩ | ⟨rest, a, f, rfl⟩ | ⟨rest, k, -⟩
  · exact ht _ p
  · exact hr rest
  · exact ha _ _ _ (hp _ _ p)
  · exact Ran.keeps hs hn (hp _ _ p) k

/-- The same for what every elementary update keeps. -/
theorem step_keeps_moves {P : State → Prop} (hp : ∀ s rest, P s → P { s with pending := rest }) (ht : ∀ s, P s → P s.tick)
    (hr : ∀ rest, P { State.reset with pending := rest }) (ha : ∀ s a f, P s → P (s.resetRelease a f))
    (hm : ∀ s t, Move s t → P s → P t) (hb : ∀ s x, P s → P (s.setBus x)) (hg : ∀ s, P s → P s.nextTag) {s t : State}
    (h : step s = .next t) (p : P s) : P t := by
  rcases step_cases h with rfl | ⟨rest, rfl⟩ | ⟨rest, a, f, rfl⟩ | ⟨rest, -, k⟩
  · exact ht _ p
  · exact hr rest
  · exact ha _ _ _ (hp _ _ p)
  · exact k.keeps hm hb hg (hp _ _ p)

/-- A millisecond changes timers, slots and the queue alone. -/
theorem State.tick_eq (s : State) : ∃ ti sl pe, s.tick = { s with timers := ti, slots := sl, pending := pe } := by
  unfold State.tick
  split
  · exact ⟨s.timers, s.slots, s.pending, rfl⟩
  · exact ⟨_, _, _, rfl⟩

/-- The release of RESETN changes RESETN and the straps alone. -/
theorem State.resetRelease_eq (s : State) (a : Addr) (f : Bool) :
    ∃ b x, s.resetRelease a f = { s with resetHeld := b, straps := x } := by
  unfold State.resetRelease
  split
  · exact ⟨_, _, rfl⟩
  · exact ⟨s.resetHeld, s.straps, rfl⟩

theorem Bare.reset (rest : List Instr) : Emptied { State.reset with pending := rest } :=
  { members := rfl, founded := rfl, count := rfl, pool := rfl, check := by rw [State.reset], outside := rfl }

theorem step_keeps_checkCurrent {s t : State} (h : step s = .next t) (p : CheckCurrent s) : CheckCurrent t := by
  refine step_keeps (fun _ _ p => p) (fun s p => ?_) (fun rest => (Bare.reset rest).read.current) (fun s a f p => ?_)
    (fun _ _ => CheckCurrent.stage) CheckCurrent.taken h p
  · obtain ⟨_, _, _, e⟩ := s.tick_eq
    rw [e]; exact p
  · obtain ⟨_, _, e⟩ := s.resetRelease_eq a f
    rw [e]; exact p

theorem step_keeps_replicaForm {s t : State} (h : step s = .next t) (p : ReplicaForm s) : ReplicaForm t := by
  refine step_keeps (fun _ _ p => p) (fun s p => ?_) (fun rest => (Bare.reset rest).replicaForm) (fun s a f p => ?_)
    (fun _ _ => ReplicaForm.stage) ReplicaForm.taken h p
  · obtain ⟨_, _, _, e⟩ := s.tick_eq
    rw [e]; exact p
  · obtain ⟨_, _, e⟩ := s.resetRelease_eq a f
    rw [e]; exact p

theorem step_keeps_tableForm {s t : State} (h : step s = .next t) (p : TableForm s) : TableForm t := by
  refine step_keeps (fun _ _ p => p) (fun s p => ?_) (fun rest => .empty (Bare.reset rest).members) (fun s a f p => ?_)
    (fun _ _ => TableForm.stage) TableForm.taken h p
  · obtain ⟨_, _, _, e⟩ := s.tick_eq
    rw [e]; exact p
  · obtain ⟨_, _, e⟩ := s.resetRelease_eq a f
    rw [e]; exact p

theorem step_keeps_activeOnly {s t : State} (h : step s = .next t) (p : ActiveOnly s) : ActiveOnly t := by
  refine step_keeps_moves (fun _ _ p => p) (fun s p => ?_) (fun rest _ => ⟨rfl, noAnswers, rfl⟩) (fun s a f p => ?_)
    (fun _ _ => ActiveOnly.move) (fun _ _ p => p) (fun _ p => p) h p
  · obtain ⟨_, _, _, e⟩ := s.tick_eq
    rw [e]; exact p
  · obtain ⟨_, _, e⟩ := s.resetRelease_eq a f
    rw [e]; exact p

theorem step_keeps_withinCapacity {s t : State} (h : step s = .next t) (p : WithinCapacity s) : WithinCapacity t := by
  refine step_keeps_moves (fun _ _ p => p) (fun s p => ?_) (fun rest => ⟨Nat.zero_le _, Nat.zero_le _⟩) (fun s a f p => ?_)
    (fun _ _ => WithinCapacity.move) (fun _ _ p => p) (fun _ p => p) h p
  · obtain ⟨_, _, _, e⟩ := s.tick_eq
    rw [e]; exact p
  · obtain ⟨_, _, e⟩ := s.resetRelease_eq a f
    rw [e]; exact p

/-- The straps change at the release of RESETN alone, before which nothing is delivered. -/
theorem step_keeps_carriedOwn {s t : State} (h : step s = .next t) (hr : ResetForm s) (p : CarriedOwn s) : CarriedOwn t := by
  rcases step_cases h with rfl | ⟨rest, rfl⟩ | ⟨rest, a, f, rfl⟩ | ⟨rest, k, -⟩
  · obtain ⟨_, _, _, e⟩ := s.tick_eq
    rw [e]; exact p
  · exact nofun
  · unfold State.resetRelease
    split
    · rename_i hh
      have hd : s.bus.delivered = none := by rw [hr hh]; rfl
      intro x hx
      rw [show _ = s.bus.delivered from rfl, hd] at hx
      cases hx
    · exact p
  · exact Ran.keeps (fun _ _ => CarriedOwn.stage) CarriedOwn.taken (s := { s with pending := rest }) p k

/-- A command outside LOADING: the notice left to handle may lead to LOADING, but the pool is then empty when another is taken. -/
theorem Ran.keeps_poolForm {s t : State} (p : PoolForm s) (hs : s.session.station ≠ .loading) (k : Ran s t ∨ Took s t) : PoolForm t := by
  have u : Unfilled s := fun e => absurd e hs
  have start : ∀ {a : State}, a = s ∨ a = s.flush → PoolForm a ∧ Unfilled a := fun e => by
    rcases e with rfl | rfl
    · exact ⟨p, u⟩
    · rcases s.flush_cases with e | ⟨x, -, e⟩
      · rw [e]; exact ⟨p, u⟩
      · rw [e]
        obtain ⟨h1, h2⟩ := (p.stage s.taking_stage).taken (u.stage s.taking_stage) x false none
        exact ⟨h1, h2 hs⟩
  rcases k with ⟨a, ha, k⟩ | ⟨a, v, x, r, c, ha, k, rfl⟩
  · exact k.keeps (fun _ _ => PoolForm.stage) (start ha).1
  · have pv := k.keeps (fun _ _ => PoolForm.stage) (start ha).1
    have uv := k.keeps (fun _ _ => Unfilled.stage) (start ha).2
    exact (pv.taken uv x r c).1

/-- A command that makes a station ANNOUNCING, with no notice left to handle: the one that completes the snapshot. -/
theorem Ran.keeps_poolForm_announcing {s t : State} (p : PoolForm s) (hd : s.bus.delivered = none)
    (ht : t.session.station = .announcing) (k : Ran s t ∨ Took s t) : PoolForm t := by
  have start : ∀ {a : State}, a = s ∨ a = s.flush → PoolForm a := fun e => by
    rw [State.flush_none hd, or_self] at e
    exact e ▸ p
  rcases k with ⟨a, ha, k⟩ | ⟨a, v, x, r, c, ha, k, rfl⟩
  · exact k.keeps (fun _ _ => PoolForm.stage) (start ha)
  · have pv := k.keeps (fun _ _ => PoolForm.stage) (start ha)
    exact pv.takenToAnnouncing x r c ht

/-- Outside LOADING every step keeps the form; in LOADING the step that completes the snapshot does. -/
theorem step_keeps_poolForm {s t : State} (h : step s = .next t) (p : PoolForm s)
    (hs : s.session.station ≠ .loading ∨ (s.bus.delivered = none ∧ t.session.station = .announcing)) : PoolForm t := by
  rcases step_cases h with rfl | ⟨rest, rfl⟩ | ⟨rest, a, f, rfl⟩ | ⟨rest, k, -⟩
  · obtain ⟨_, _, _, e⟩ := s.tick_eq
    rw [e]; exact p
  · exact .empty rfl
  · obtain ⟨_, _, e⟩ := ({ s with pending := rest } : State).resetRelease_eq a f
    rw [e]; exact p
  · rcases hs with hs | ⟨hd, ht⟩
    · exact Ran.keeps_poolForm (s := { s with pending := rest }) p hs k
    · exact Ran.keeps_poolForm_announcing (s := { s with pending := rest }) p hd ht k

/-- Settles O57: stages keep the check current, and a taken notice has it worked out afresh where it changes table or pool. -/
theorem stepKeepsCheckCurrent : Obligations.StepKeepsCheckCurrent := fun _ _ p h => step_keeps_checkCurrent h p

/-- Settles O58: each of the five forms is kept by every stage and by the handling of every notice. -/
theorem stepKeepsReplicaForm : Obligations.StepKeepsReplicaForm := fun _ _ h =>
  ⟨step_keeps_replicaForm h, step_keeps_activeOnly h, step_keeps_withinCapacity h, step_keeps_tableForm h, step_keeps_carriedOwn h⟩

/-- Settles O59: the pool effect removes the records of a station that leaves PRESENT, and a pass grants only what no holder blocks. -/
theorem stepKeepsPoolForm : Obligations.StepKeepsPoolForm := fun _ _ h p hs => step_keeps_poolForm h p hs

end Sys2Proof.Machine
end

