-- ==== Sys2Proof/Proofs/Parameters.lean ====
section
/-! PROOFS. Reset values (O3), lease parameters (O14), the slots' table (O43). -/

namespace Sys2Proof.Machine

/-- Settles O3: the reset state's fields, read off. -/
theorem hardwareResetLeavesResetValues : Obligations.HardwareResetLeavesResetValues := by
  have all : ∀ {α : Type} {k : Nat} (x : α) (i : Fin k), (Vector.replicate k x).get i = x := fun x i => by
    simp [Vector.get_eq_getElem]
  have slot : ∀ c : Client, State.reset.slot c = Slot.freeWith .none := fun c => all _ c
  have line : ∀ n : LineNo, State.reset.line n = Line.reset := fun n => all _ n
  refine ⟨⟨rfl, rfl, rfl, all _, rfl, rfl, rfl, rfl, rfl, rfl, rfl, rfl, rfl, rfl, rfl, rfl, all _, rfl, rfl, all _, rfl,
    ⟨fun c => by rw [slot]; rfl, rfl, rfl, all _⟩, rfl, fun c => by rw [slot]; rfl, fun n => by rw [line]; exact ⟨rfl, rfl, rfl⟩, all _,
    all _, rfl, rfl, rfl, by rw [State.reset, emptyCheck], rfl, rfl, rfl⟩, fun _ => rfl⟩

/-! ### Lease parameters (R45) -/

/-- What several resources combine to: FIXED if any is, and of each number one that none undercuts. -/
def Combines (v : LeaseParams) (l : List LeaseParams) : Prop :=
  (v.mode = .fixed ↔ ∃ x ∈ l, x.mode = .fixed) ∧
    ((∀ x ∈ l, v.length ≤ x.length) ∧ ∃ x ∈ l, v.length = x.length) ∧
    ((∀ x ∈ l, v.limit ≤ x.limit) ∧ ∃ x ∈ l, v.limit = x.limit) ∧
    (∀ x ∈ l, v.window ≤ x.window) ∧ ∃ x ∈ l, v.window = x.window

/-- The smaller of a least number and one more is the least of all. -/
theorem min_least {α : Type} (f : α → Nat) {m : Nat} {l : List α} (h : (∀ x ∈ l, m ≤ f x) ∧ ∃ x ∈ l, m = f x) (y : α) :
    (∀ x ∈ l ++ [y], min m (f y) ≤ f x) ∧ ∃ x ∈ l ++ [y], min m (f y) = f x := by
  obtain ⟨h1, x, hx, e⟩ := h
  constructor
  · intro z hz
    rcases List.mem_append.1 hz with hz | hz
    · have := h1 z hz; omega
    · rw [List.mem_singleton.1 hz]; omega
  · by_cases c : m ≤ f y
    · exact ⟨x, List.mem_append_left _ hx, by omega⟩
    · exact ⟨y, by simp, by omega⟩

/-- One resource more. -/
theorem Combines.combine {v : LeaseParams} {l : List LeaseParams} (h : Combines v l) (y : LeaseParams) :
    Combines (v.combine y) (l ++ [y]) := by
  obtain ⟨hm, hl, hi, hw⟩ := h
  refine ⟨?_, min_least LeaseParams.length hl y, min_least LeaseParams.limit hi y, min_least LeaseParams.window hw y⟩
  have fixed : (v.combine y).mode = .fixed ↔ v.mode = .fixed ∨ y.mode = .fixed := by
    simp only [LeaseParams.combine]
    split <;> simp_all
  rw [fixed, hm]
  simp [or_and_right, exists_or]

theorem Combines.foldl {v : LeaseParams} {l : List LeaseParams} (h : Combines v l) (ys : List LeaseParams) :
    Combines (ys.foldl LeaseParams.combine v) (l ++ ys) := by
  induction ys generalizing v l with
  | nil => simpa using h
  | cons y ys ih => simpa using ih (h.combine y)

/-- The lease parameters of a set combine those of its resources. -/
theorem Port.leaseParams_combines (p : Port) {m : Mask} (h : resources m ≠ []) :
    Combines (p.leaseParams m) ((resources m).map p.resourceParams) := by
  unfold Port.leaseParams
  split
  · exact absurd ‹_› h
  · rename_i r rs e
    rw [e]
    have one : Combines (p.resourceParams r) [p.resourceParams r] := by simp [Combines]
    exact one.foldl (rs.map p.resourceParams)

/-- Settles O14: the parameters of the set combine those of its resources, whose numbers are the image's bytes. -/
theorem leaseParametersOfASet : Obligations.LeaseParametersOfASet := by
  intro p m h
  have hc := p.leaseParams_combines h
  have window : ∀ r, p.yieldWindow r = max 1 ((p.system.get ⟨3 + 3 * r.val, by omega⟩).toNat % 16) := fun r => by
    simp only [Port.yieldWindow, loNibble, Vector.get_eq_getElem]
    by_cases zero : (p.system[3 + 3 * r.val]).toNat % 16 = 0
    · simp [zero]
    · simp only [zero, if_false]; omega
  simp only [Combines, List.mem_map, exists_exists_and_eq_and, forall_exists_index, and_imp, forall_apply_eq_imp_iff₂,
    Port.resourceParams, window] at hc
  exact hc

/-! ### Indications (R53) -/

theorem lineOf_software {c : Client} (h : 8 ≤ c.val) : lineOf c = none := by simp [lineOf]; omega

/-- A forced end's re-arm and line test (R72, R78, R79): with REQ high the re-arm flag is set, and the line is not tested. -/
theorem State.rearm_retested (t : State) (n : LineNo) : (t.rearmIfHigh (clientOf n)).retested (clientOf n) =
    if (t.line n).req = true then t.setLine n { t.line n with rearm := true } else t.risen n := by
  simp only [State.rearmIfHigh, lineOf_clientOf, State.retested_line]
  split
  · simp [State.risen]
  · rfl

theorem State.rearm_software (t : State) {c : Client} (h : 8 ≤ c.val) : t.rearmIfHigh c = t := by
  simp [State.rearmIfHigh, lineOf_software h]

/-- REQ of a line does not follow a slot. -/
theorem State.ended_req (s : State) (c : Client) (r : EndReason) (n : LineNo) : ((s.ended c r).line n).req = (s.line n).req := by
  have e : (s.ended c r).line n = (s.setSlot c (Slot.freeWith r)).line n := rfl
  rw [e, State.setSlot_line]
  split <;> rfl

/-- A refused CLAIM of a QUEUED slot, a line slot's POOL_FULL apart (R53, R79). -/
theorem State.refuseQueued_line (s : State) (n : LineNo) {r : ClaimRefusal} (h : r ≠ .poolFull) : s.refuseQueued (clientOf n) r =
    (let t := s.ended (clientOf n) r.ends
    if (s.line n).req = true then t.setLine n { t.line n with rearm := true } else t.risen n) := by
  simp only [State.refuseQueued, h, and_false, if_false, State.testClient_eq, State.endSlot_eq, State.rearm_retested,
    State.ended_req]

theorem State.refuseQueued_software (s : State) {c : Client} (h : 8 ≤ c.val) (r : ClaimRefusal) :
    s.refuseQueued c r = s.ended c r.ends := by
  simp only [State.refuseQueued, lineOf_software h, Option.isSome_none, Bool.false_eq_true, false_and, if_false,
    State.testClient_eq, State.endSlot_eq, State.rearm_software _ h, State.retested_software _ h, ite_self]

/-- A slot FREE already is written the same. -/
theorem State.teardownSlot_eq_ended (s : State) (c : Client) (r : EndReason) : State.teardownSlot (some r) s c =
    if (s.slot c).state = .free then s
    else if (s.slot c).state = .retry then s.setSlot c (Slot.freeWith (s.slot c).lastEnd) else s.ended c r := by
  unfold State.teardownSlot
  cases (s.slot c).state <;> rfl

theorem State.teardownSlot_none (s : State) (c : Client) : State.teardownSlot none s c =
    if (s.slot c).state = .free then s else s.setSlot c (Slot.freeWith (s.slot c).lastEnd) := by
  unfold State.teardownSlot
  cases (s.slot c).state <;> rfl

section
variable {s : State} {c : Client}

/-- An ACCEPTED that the table of R53 pairs with no state is a mismatch. -/
theorem State.indicate_accepted_mismatch (h1 : (s.slot c).state ≠ .queued)
    (h2 : ¬ ((s.slot c).state = .withdrawing ∧ (s.slot c).closing = false ∧ (s.slot c).removalPending = true))
    (h3 : ¬ ((s.slot c).state = .withdrawing ∧ (s.slot c).closing = true ∧ (s.slot c).outboxEntry = .claim)) :
    s.indicate c .accepted = s.mismatch := by
  simp only [State.indicate]
  cases hv : (s.slot c).state
  case queued => exact absurd hv h1
  case withdrawing =>
    simp only [hv, true_and] at h2 h3 ⊢
    cases hc : (s.slot c).closing
    · simp_all
    · simp_all
  all_goals rfl

theorem State.indicate_refused_mismatch (h1 : (s.slot c).state ≠ .queued)
    (h2 : ¬ ((s.slot c).state = .withdrawing ∧ (s.slot c).outboxEntry = .claim)) (r : ClaimRefusal) :
    s.indicate c (.refused r) = s.mismatch := by
  simp only [State.indicate]
  cases hv : (s.slot c).state
  case queued => exact absurd hv h1
  case withdrawing => simp_all
  all_goals rfl

theorem State.indicate_granted_mismatch (h1 : (s.slot c).state ≠ .waiting) (h2 : (s.slot c).state ≠ .withdrawing) :
    s.indicate c .granted = s.mismatch := by
  simp only [State.indicate]
  cases hv : (s.slot c).state
  case waiting => exact absurd hv h1
  case withdrawing => exact absurd hv h2
  all_goals rfl

theorem State.indicate_withdrawn_mismatch (h : (s.slot c).state ≠ .withdrawing) (x : Option Standing) :
    s.indicate c (.withdrawn x) = s.mismatch := by
  simp only [State.indicate]
  cases hv : (s.slot c).state
  case withdrawing => exact absurd hv h
  all_goals rfl

theorem State.indicate_released_mismatch (h : (s.slot c).state ≠ .releasing) (f : Bool) (x : Option Standing) :
    s.indicate c (.released f x) = s.mismatch := by
  simp only [State.indicate]
  cases hv : (s.slot c).state
  case releasing => exact absurd hv h
  all_goals cases f <;> rfl

end

/-- Settles O43: the table of R53, row by row, and the mismatches beside it. -/
theorem slotsFollowIndications : Obligations.SlotsFollowIndications := by
  intro s c
  refine ⟨?_, ?_, ?_, ?_, ?_, ?_, ?_, ?_, ?_, ?_, ?_, ?_, ?_, ?_, ?_, State.indicate_accepted_mismatch,
    State.indicate_refused_mismatch, State.indicate_granted_mismatch, State.indicate_withdrawn_mismatch,
    State.indicate_released_mismatch, rfl, rfl, rfl⟩
  · intro h; simp [State.indicate, h]
  · intro h hc hr; simp [State.indicate, h, hc, hr, State.submitWithdraw_eq]
  · intro h hc ho; simp [State.indicate, h, hc, ho]
  · intro h; simp [State.indicate, h, State.leaseStart]
  · intro h; simp [State.indicate, h]
  · intro h x; simp [State.indicate, h, State.testClient_eq, State.endSlot_eq]
  · intro h x; simp [State.indicate, h, State.testClient_eq, State.endSlot_eq]
  · intro h hc x
    simp [State.indicate, h, State.testClient_eq, State.endSlot_eq, State.rearm_software _ hc, State.retested_software _ hc]
  · rintro n x rfl h
    simp [State.indicate, h, State.testClient_eq, State.endSlot_eq, State.rearm_retested, State.ended_req]
  · rintro n rfl h
    simp [State.indicate, h, State.refuseQueued, ClaimRefusal.ends]
  · intro hc h r
    simp only [State.indicate, h]
    exact State.refuseQueued_software _ hc r
  · rintro n r rfl hr h
    simp only [State.indicate, h]
    exact State.refuseQueued_line _ n hr
  · intro h ho r; simp [State.indicate, h, ho, State.testClient_eq, State.endSlot_eq]
  · intro k x r
    simp only [State.indicate]
    exact s.teardownSlot_eq_ended c r
  · intro k x
    simp only [State.indicate]
    exact s.teardownSlot_none c

end Sys2Proof.Machine
end

