-- ==== Sys2Proof/Proofs/Reports.lean ====
section
/-! PROOFS. The Event Queue (O16) and the inspection commands (O17, O18). -/

namespace Sys2Proof.Machine

/-! ### The Event Queue (R184) -/

/-- Behind a queue whose last entry is no EVENTS_LOST, the event or the first EVENTS_LOST is placed. -/
theorem enqueue_plain {own : Addr} {q : List Event} {e : Event} (h : ∀ x ∈ q, x.isLost = false) :
    enqueue own q e = if q.length < 31 then q ++ [e] else q ++ [⟨.eventsLost 1, own, e.count⟩] := by
  unfold enqueue
  split
  · rename_i hq
    exact absurd (h _ (List.mem_of_getLast? hq)) (by simp [Event.isLost])
  · rfl

/-- An EVENTS_LOST entry at the end counts one more, up to 255. -/
theorem enqueue_lost (own : Addr) (q : List Event) (k : Nat) (w : Fin 16) (n : Word) (e : Event) :
    enqueue own (q ++ [⟨.eventsLost k, w, n⟩]) e = q ++ [⟨.eventsLost (min (k + 1) 255), w, n⟩] := by
  simp [enqueue]

/-- A queue is one of events alone, or one that an EVENTS_LOST entry ends. -/
theorem EventForm.cases {q : List Event} (h : EventForm q) :
    (∀ x ∈ q, x.isLost = false) ∧ q.length < 32 ∨
      ∃ q' k w n, q = q' ++ [⟨.eventsLost k, w, n⟩] ∧ (∀ x ∈ q', x.isLost = false) ∧ q'.length < 32 := by
  obtain ⟨hl, hd, hf⟩ := h
  rcases List.eq_nil_or_concat q with rfl | ⟨q', x, rfl⟩
  · exact .inl ⟨by simp, by simp⟩
  · simp only [List.concat_eq_append, List.dropLast_concat, List.length_append, List.length_singleton, List.getLast?_append,
      List.getLast?_singleton, Option.some_or, Option.mem_some_iff, exists_eq_left', List.mem_append, List.mem_singleton] at *
    cases hx : x.isLost
    · refine .inl ⟨?_, ?_⟩
      · rintro y (hy | rfl)
        exacts [hd y hy, hx]
      · have : q'.length + 1 ≠ 32 := fun e => by simp [hx] at hf; omega
        omega
    · obtain ⟨kind, w, n⟩ := x
      cases kind <;> simp only [Event.isLost, Bool.false_eq_true] at hx
      rename_i k
      exact .inr ⟨q', k, w, n, rfl, hd, by omega⟩

/-- Events alone and one entry more: the form holds, where the 32nd entry is an EVENTS_LOST. -/
theorem EventForm.concat {q : List Event} {e : Event} (h : ∀ x ∈ q, x.isLost = false) (hl : q.length < 32)
    (he : q.length = 31 → e.isLost = true) : EventForm (q ++ [e]) := by
  refine ⟨by simpa using hl, by simpa using h, fun h32 => ⟨e, by simp, he ?_⟩⟩
  simpa using h32

theorem EventForm.enqueue {own : Addr} {q : List Event} {e : Event} (h : EventForm q) :
    EventForm (enqueue own q e) := by
  rcases h.cases with ⟨hp, hl⟩ | ⟨q', k, w, n, rfl, hp, hl⟩
  · rw [enqueue_plain hp]
    split
    · exact .concat hp (by omega) (by omega)
    · exact .concat hp (by omega) fun _ => rfl
  · rw [enqueue_lost]
    exact .concat hp hl fun _ => rfl

theorem exec_noticeEffectsMade_flush (s : State) : exec .noticeEffectsMade s = .next s.flush := rfl

/-- READ_STATUS answers the bytes of the station with the effects made. -/
theorem exec_readStatus {s : State} (h : s.resetHeld = false) :
    exec .readStatus s = .next (s.flush.answered .ok s.flush.statusBytes) :=
  congrArg Host.Outcome.next (s.frame_eq _ h)

/-- Settles O16: an event joins the queue by its room and kind, and is read back with ATTN as the queue stands. -/
theorem postingReachesTheQueue : Obligations.PostingReachesTheQueue := by
  refine ⟨fun own q e h => ⟨fun hp hl => ?_, fun hp hl => ?_, ?_, fun _ => h.enqueue⟩, ?_, fun who n => ?_⟩
  · rw [enqueue_plain hp, if_pos hl]
  · rw [enqueue_plain hp, if_neg (by omega)]
  · rintro q' k w n rfl
    constructor
    · intro hk
      rw [enqueue_lost, Nat.min_eq_left (by omega)]
    · rintro rfl
      rw [enqueue_lost]; rfl
  · intro s u hr hu
    cases hu
    exact ⟨_, exec_readStatus hr, rfl⟩
  · simp [Event.bytes, EventKind.code, EventKind.first, EventKind.second, EndReason.code, MemberState.code, DivergenceAction.code,
      StationState.code, Cause.code, wordBytes, hiByte, loByte]

/-! ### READ_STATUS and READ_SLOT (R188, R189) -/

theorem exec_readSlot {s : State} (h : s.resetHeld = false) (b : Byte) : exec (.readSlot b) s =
    .next ((s.flush.decideReadSlot b).state.answered (s.flush.decideReadSlot b).status (s.flush.decideReadSlot b).data) :=
  congrArg Host.Outcome.next (s.frame_eq _ h)

theorem sixteenOf_none {b : Byte} (h : 15 < b.toNat) : sixteenOf b = none := by
  unfold sixteenOf
  rw [dif_neg (by omega)]

theorem sixteenOf_ofNat (c : Fin 16) : sixteenOf (BitVec.ofNat 8 c.val) = some c := by
  have hc : (BitVec.ofNat 8 c.val).toNat = c.val := by simp; omega
  simp only [sixteenOf, hc, c.isLt, dif_pos]

/-- A flag byte with its bits given one by one. -/
theorem flagByte_eq (b0 b1 b2 b3 : Bool) : flagByte b0 b1 b2 b3 =
    BitVec.ofNat 8 ((if b0 then 1 else 0) + (if b1 then 2 else 0) + (if b2 then 4 else 0) + if b3 then 8 else 0) := by
  cases b0 <;> cases b1 <;> cases b2 <;> cases b3 <;> rfl

theorem flagByte_two (b0 b1 : Bool) : flagByte b0 b1 false false =
    BitVec.ofNat 8 ((if b0 then 1 else 0) + if b1 then 2 else 0) := by
  cases b0 <;> cases b1 <;> rfl

/-- Settles O17: the answered bytes are those of the station with the effects of a delivered notice made. -/
theorem readStatusAndSlotReport : Obligations.ReadStatusAndSlotReport := by
  refine ⟨fun s hr => ⟨s.flush, rfl, State.flush_none, ?_, fun b hb => ?_, fun c => ⟨fun hc => ?_, ?_⟩⟩, by decide, by decide, by decide,
    by decide, by decide, by decide⟩
  · rw [exec_readStatus hr, State.statusBytes, flagByte_two]
    rfl
  · rw [exec_readSlot hr, State.decideReadSlot, sixteenOf_none hb]
    rfl
  · rw [exec_readSlot hr, State.decideReadSlot, sixteenOf_ofNat]
    simp only [State.lineBytes, lineOf_software hc, State.slotBytes, flagByte_two]
    rfl
  · rintro n rfl
    rw [exec_readSlot hr, State.decideReadSlot, sixteenOf_ofNat]
    simp only [State.lineBytes, lineOf_clientOf, State.slotBytes, flagByte_eq, State.latched, Bool.and_eq_true,
      decide_eq_true_eq, Bool.not_eq_true', and_assoc]
    rfl

/-! ### READ_RESOURCE and READ_MEMBER (R9, R190, R191) -/

theorem betterKey_asymm {w x : PoolRecord} {i j : Nat} (h : betterKey w i x j = true) : betterKey x j w i = false := by
  simp only [betterKey, Bool.or_eq_true, Bool.and_eq_true, decide_eq_true_eq, Bool.or_eq_false_iff, Bool.and_eq_false_iff,
    decide_eq_false_iff_not, Fin.lt_def, Fin.ext_iff] at h ⊢
  rcases h with h | ⟨h, k⟩
  · exact ⟨by omega, .inl (by omega)⟩
  · exact ⟨by omega, .inr (by omega)⟩

/-- The candidate that is better than all others is picked. -/
theorem foldl_pickBetter_best {x : PoolRecord × Nat} {l : List (PoolRecord × Nat)} {acc : Option (PoolRecord × Nat)}
    (hx : acc = some x ∨ x ∈ l)
    (hb : ∀ y, acc = some y ∨ y ∈ l → y ≠ x → betterKey x.1 x.2 y.1 y.2 = true) : l.foldl pickBetter acc = some x := by
  induction l generalizing acc with
  | nil => simpa using hx
  | cons z zs ih =>
    refine ih (acc := pickBetter acc z) ?_ fun y hy => hb y ?_
    · rcases hx with rfl | hx
      · by_cases e : z = x
        · subst e; simp [pickBetter]
        · have := betterKey_asymm (hb z (by simp) e)
          simp [pickBetter, this]
      · rcases List.mem_cons.1 hx with rfl | hx
        · cases acc with
          | none => simp [pickBetter]
          | some a =>
            by_cases e : a = x
            · subst e; simp [pickBetter]
            · simp [pickBetter, hb a (by simp) e]
        · exact .inr hx
    · rcases hy with hy | hy
      · cases acc with
        | none => simp_all [pickBetter]
        | some a =>
          simp only [pickBetter] at hy
          split at hy <;> simp_all
      · simp [hy]

section
variable {recs : List PoolRecord} {r : Nat}

theorem mem_waitersOf (x : PoolRecord × Nat) :
    x ∈ waitersOf recs r ↔ recs[x.2]? = some x.1 ∧ x.1.isWaiting = true ∧ x.1.set.getLsbD r = true := by
  simp [waitersOf, List.mem_zipIdx_iff_getElem?]

theorem waitersOf_length : (waitersOf recs r).length = (recs.filter fun w => w.isWaiting && w.set.getLsbD r).length := by
  have h : (waitersOf recs r).map Prod.fst = recs.filter fun w => w.isWaiting && w.set.getLsbD r := by
    rw [waitersOf, ← Function.comp_def (fun w : PoolRecord => w.isWaiting && w.set.getLsbD r) Prod.fst, ← List.filter_map]
    simp
  rw [← h, List.length_map]

theorem waitersOf_isEmpty : (waitersOf recs r).isEmpty = false ↔ ∃ w ∈ recs, w.isWaiting = true ∧ w.set.getLsbD r = true := by
  rw [← Bool.not_eq_true, List.isEmpty_iff_length_eq_zero, waitersOf_length]
  simp

theorem holderOf_isSome : (holderOf recs r).isSome = true ↔ ∃ h ∈ recs, h.isHolding = true ∧ h.set.getLsbD r = true := by
  simp [holderOf]

/-- The first waiter is the one better than all others. -/
theorem firstWaiter_best {w : PoolRecord} {i : Nat} (hi : recs[i]? = some w) (hw : w.isWaiting = true) (hr : w.set.getLsbD r = true)
    (hb : ∀ x j, recs[j]? = some x → x.isWaiting = true → x.set.getLsbD r = true → j ≠ i → betterKey w i x j = true) :
    firstWaiter recs r = some w := by
  have best : (waitersOf recs r).foldl pickBetter none = some (w, i) :=
    foldl_pickBetter_best (.inr ((mem_waitersOf _).2 ⟨hi, hw, hr⟩)) fun y hy hne => by
      obtain ⟨hj, hyw, hyr⟩ := (mem_waitersOf y).1 (hy.resolve_left nofun)
      refine hb y.1 y.2 hj hyw hyr fun e => hne (Prod.ext ?_ e)
      rw [e] at hj
      exact Option.some.inj (hj.symm.trans hi)
  simp [firstWaiter, best]

theorem firstWaiter_none (h : ¬ ∃ w ∈ recs, w.isWaiting = true ∧ w.set.getLsbD r = true) : firstWaiter recs r = none := by
  rw [← waitersOf_isEmpty, Bool.not_eq_false, List.isEmpty_iff] at h
  simp [firstWaiter, h]

theorem viewState_held : viewState recs r = .held ↔ ∃ h ∈ recs, h.isHolding = true ∧ h.set.getLsbD r = true := by
  rw [← holderOf_isSome, viewState]
  cases (holderOf recs r).isSome <;> cases (waitersOf recs r).isEmpty <;> simp

theorem viewState_reserved : viewState recs r = .reserved ↔ (¬ ∃ h ∈ recs, h.isHolding = true ∧ h.set.getLsbD r = true) ∧
    ∃ w ∈ recs, w.isWaiting = true ∧ w.set.getLsbD r = true := by
  rw [← holderOf_isSome, ← waitersOf_isEmpty, viewState]
  cases (holderOf recs r).isSome <;> cases (waitersOf recs r).isEmpty <;> simp

theorem viewState_free : viewState recs r = .free ↔ ¬ ∃ x ∈ recs, x.set.getLsbD r = true := by
  have cases : (∃ x ∈ recs, x.set.getLsbD r = true) ↔ (∃ h ∈ recs, h.isHolding = true ∧ h.set.getLsbD r = true) ∨
      ∃ w ∈ recs, w.isWaiting = true ∧ w.set.getLsbD r = true := by
    constructor
    · rintro ⟨x, hx, hr⟩
      cases e : x.standing
      · exact .inr ⟨x, hx, by simp [PoolRecord.isWaiting, e], hr⟩
      · exact .inl ⟨x, hx, by simp [PoolRecord.isHolding, e], hr⟩
    · rintro (⟨x, hx, -, hr⟩ | ⟨x, hx, -, hr⟩) <;> exact ⟨x, hx, hr⟩
  rw [cases, ← viewState_held, ← waitersOf_isEmpty, viewState]
  cases (holderOf recs r).isSome <;> cases (waitersOf recs r).isEmpty <;> simp

end

/-- The code of a view state, in a byte. -/
theorem viewByte_eq (v w : ViewState) : byteOf v.code = byteOf w.code ↔ v = w := by
  cases v <;> cases w <;> decide

/-- The incomplete mark is bit 7. -/
theorem viewByte_marked (v : ViewState) : byteOf (v.code + 128) = byteOf v.code + 128#8 := by
  cases v <;> decide

theorem exec_readResource {s : State} (h : s.resetHeld = false) (hd : s.bus.delivered = none) (b : Byte) : exec (.readResource b) s =
    .next ((s.decideReadResource b).state.answered (s.decideReadResource b).status (s.decideReadResource b).data) := by
  have e : exec (.readResource b) s = .next (s.frame (s.flush.decideReadResource b)) := rfl
  rw [e, s.frame_eq _ h, State.flush_none hd]

theorem exec_readMember {s : State} (h : s.resetHeld = false) (hd : s.bus.delivered = none) (b : Byte) : exec (.readMember b) s =
    .next ((s.decideReadMember b).state.answered (s.decideReadMember b).status (s.decideReadMember b).data) := by
  have e : exec (.readMember b) s = .next (s.frame (s.flush.decideReadMember b)) := rfl
  rw [e, s.frame_eq _ h, State.flush_none hd]

theorem State.poolFails_iff (s : State) : s.poolFails = true ↔ ∃ x ∈ s.pool.records, x.sound = false := by
  simp [State.poolFails]

/-- A single member record read: one that fails its check is a storage upset. -/
theorem State.readMembers_single (s : State) (a : Addr) :
    s.readMembers [a] = if (s.session.members.get a).sound then s else s.upset := by
  cases h : (s.session.members.get a).sound <;> simp [State.readMembers, State.membersFail, h]

/-- Settles O18: the answer, and the freeze or upset of a failing record, after the effects of a delivered notice. -/
theorem readResourceAndMemberReport : Obligations.ReadResourceAndMemberReport := by
  refine ⟨fun s b hr hd => ⟨fun hn => ?_, fun hn => ?_⟩, fun s hr hd => ⟨fun b hb => ?_, fun a => ?_⟩⟩
  · rw [exec_readResource hr hd, State.decideReadResource, if_neg (by omega)]
    rfl
  · intro recs fails
    refine ⟨byteOf (viewState recs b.toNat).code, pairByte (holderOf recs b.toNat), pairByte (firstWaiter recs b.toNat),
      fun hf => ?_, fun hf => ?_, ?_, ?_, ?_, fun hv => ?_, fun hv => ?_, fun w i hi hw hs hb => ?_, fun hw => ?_⟩
    · have hf := s.poolFails_iff.2 hf
      rw [exec_readResource hr hd, State.decideReadResource, if_pos hn, ← waitersOf_length, ← viewByte_marked]
      simp only [hf, if_true, resourceBytes]
      rfl
    · have hf : s.poolFails = false := by simpa using mt s.poolFails_iff.1 hf
      rw [exec_readResource hr hd, State.decideReadResource, if_pos hn, ← waitersOf_length]
      simp only [hf, if_false, Bool.false_eq_true, resourceBytes]
      rfl
    · exact (viewByte_eq _ .held).trans viewState_held
    · exact (viewByte_eq _ .reserved).trans viewState_reserved
    · exact (viewByte_eq _ .free).trans viewState_free
    · have some := holderOf_isSome.2 (viewState_held.1 ((viewByte_eq _ .held).1 hv))
      obtain ⟨h, e⟩ := Option.isSome_iff_exists.1 some
      have hh := List.find?_some e
      simp only [Bool.and_eq_true] at hh
      exact ⟨h, List.mem_of_find?_eq_some e, hh.1, hh.2, by rw [e]; rfl⟩
    · have hn : ¬ (holderOf recs b.toNat).isSome = true := fun some =>
        hv ((viewByte_eq _ .held).2 (viewState_held.2 (holderOf_isSome.1 some)))
      rw [Option.not_isSome_iff_eq_none.1 hn]
      rfl
    · rw [firstWaiter_best hi hw hs hb]
      rfl
    · rw [firstWaiter_none hw]
      rfl
  · rw [exec_readMember hr hd, State.decideReadMember, sixteenOf_none hb]
    rfl
  · rw [exec_readMember hr hd, State.decideReadMember, sixteenOf_ofNat]
    simp only [State.readMembers_single]
    rfl

end Sys2Proof.Machine
end

