-- ==== Sys2Proof/Proofs/SoundPools.lean ====
section
/-! PROOFS. The pool under a taken CLAIM, WITHDRAW or RELEASE where every record passes its check, and the claim notices of O36. -/

namespace Sys2Proof.Machine

/-! ### Grant passes over records that pass their check -/

theorem grantAt_sound {t : Nat} {recs : List PoolRecord} (h : ∀ r ∈ recs, r.sound = true) (g : PoolRecord) (i : Nat) :
    ∀ r ∈ grantAt t recs g i, r.sound = true := fun r hr => by
  obtain ⟨w, hw, -, -, e⟩ := mem_grantAt hr
  rw [e, h w hw]

/-- A pass that meets no failing record does not stop at one. -/
theorem grantSteps_not_failed {t k : Nat} {recs : List PoolRecord} (h : ∀ r ∈ recs, r.sound = true) :
    (grantSteps t k recs).failed = false := by
  induction k generalizing recs with
  | zero => rfl
  | succ k ih =>
    have none : (recs.any fun r => !r.sound) = false := by simpa using h
    unfold grantSteps
    rw [none]
    cases hb : bestGrantable recs with
    | none => rfl
    | some g => exact ih (grantAt_sound (t := t) h g.1 g.2)

section
variable {t : Nat} {recs : List PoolRecord} (h : ∀ r ∈ recs, r.sound = true)
include h

theorem grantPass_not_failed : (grantPass t recs).failed = false := grantSteps_not_failed h

theorem grantPass_sound : ∀ r ∈ (grantPass t recs).records, r.sound = true := fun r hr => by
  obtain ⟨w, hw, -, -, e⟩ := mem_grantPass hr
  rw [e, h w hw]

/-! ### The search for a pair -/

theorem searchPool_none {a : Addr} {c : Client} (hn : ∀ r ∈ recs, ¬ (r.station = a ∧ r.client = c)) : searchPool a c recs = .missing := by
  induction recs with
  | nil => rfl
  | cons r rs ih =>
    obtain ⟨hr, hs⟩ := List.forall_mem_cons.1 h
    obtain ⟨nr, ns⟩ := List.forall_mem_cons.1 hn
    simp only [searchPool, hr, PoolRecord.isOf, Bool.not_true, Bool.false_eq_true, if_false, Bool.and_eq_true, decide_eq_true_eq, nr]
    exact ih hs ns

theorem searchPool_some {a : Addr} {c : Client} (hn : ∃ r ∈ recs, r.station = a ∧ r.client = c) :
    ∃ r ∈ recs, r.station = a ∧ r.client = c ∧ searchPool a c recs = .found r := by
  induction recs with
  | nil => simp at hn
  | cons x xs ih =>
    obtain ⟨hx, hs⟩ := List.forall_mem_cons.1 h
    by_cases e : x.station = a ∧ x.client = c
    · exact ⟨x, by simp, e.1, e.2, by simp [searchPool, hx, PoolRecord.isOf, e]⟩
    · obtain ⟨r, hr, h1, h2, h3⟩ := ih hs (by simpa [e] using hn)
      refine ⟨r, by simp [hr], h1, h2, ?_⟩
      simp only [searchPool, hx, PoolRecord.isOf, Bool.not_true, Bool.false_eq_true, if_false, Bool.and_eq_true, decide_eq_true_eq, e]
      exact h3

theorem withoutPair_sound (a : Addr) (c : Client) :
    withoutPair a c recs = recs.filter fun r => !(decide (r.station = a) && decide (r.client = c)) :=
  List.filter_congr fun r hr => by simp [h r hr, PoolRecord.isOf]

end

/-! ### Replica and quiet work -/

/-- Table, count and pool stay. -/
def SameReplica (s t : State) : Prop :=
  t.session.members = s.session.members ∧ t.session.count = s.session.count ∧ t.pool = s.pool

theorem SameReplica.trans {s t u : State} (h : SameReplica s t) (k : SameReplica t u) : SameReplica s u :=
  ⟨k.1.trans h.1, k.2.1.trans h.2.1, k.2.2.trans h.2.2⟩

/-- Quiet work on a pool with no failing record leaves the replica. -/
theorem Quiets.same {s t : State} (q : Quiets s t) (h : ∀ r ∈ s.pool.records, r.sound = true) : SameReplica s t := by
  obtain ⟨hm, -, hc, -⟩ := q.replica
  exact ⟨hm, hc, q.pool_same (State.poolFails_sound h)⟩

theorem AllSound.same {s t : State} (h : AllSound s) (k : SameReplica s t) : AllSound t :=
  ⟨fun r hr => h.1 r (k.2.2 ▸ hr), fun a => k.1 ▸ h.2 a⟩

theorem State.setCount_kept_back {s t : State} {n : Word} (k : Kept (s.setCount n) t) : Kept s (t.setCount s.session.count) := by
  obtain ⟨hs, hw⟩ := k
  refine ⟨?_, hw⟩
  rcases hs with ⟨e, j⟩ | ⟨r, e⟩
  · exact .inl ⟨by simp only [State.setCount, State.setSession, e], j⟩
  · exact .inr ⟨r, by simp only [State.setCount, State.setSession, e]; rfl⟩

/-- Dated work keeps what the work keeps. -/
theorem State.dated_kept_of (s : State) (n : Notice) {work : State → State} (k : ∀ s : State, Kept s (work s)) : Kept s (s.dated n work) :=
  State.setCount_kept_back (k _)

theorem State.makeRoom_kept (s : State) (h : Heard) (r : Bool) (c : Option Client) : Kept s (s.makeRoom h r c) :=
  (s.recall_kept h).trans (State.dated_kept_of _ _ fun u => u.offerRoom_kept _ c)

theorem State.makeRoom_replicaSame {s : State} (hs : ∀ r ∈ s.pool.records, r.sound = true) (h : Heard) (r : Bool) (c : Option Client) :
    SameReplica s (s.makeRoom h r c) := by
  have k := (s.recall_quiet h).same hs
  refine k.trans ?_
  have hs' : ∀ r ∈ ((s.recall h).setCount ((s.recall h).countAfter h.notice)).pool.records, r.sound = true := fun r hr => hs r (k.2.2 ▸ hr)
  obtain ⟨hm, -, hp⟩ := (State.offerRoom_quiet _ (r || decide ((s.recall h).outbox.entries.length < s.outbox.entries.length)) c).same hs'
  exact ⟨hm, rfl, hp⟩

/-! ### Steps 1 to 4 of R125 on such a pool -/

section
variable {s : State}

/-- A pass over records that pass their check: the pool it leaves, and what its indications are told of. -/
theorem State.runPass_eq (h : ∀ r ∈ s.pool.records, r.sound = true) (tell : Bool) : s.runPass tell =
    (grantPass s.port.threshold s.pool.records).granted.foldl (State.tellGrants tell)
      (s.setPool { s.pool with records := (grantPass s.port.threshold s.pool.records).records }) := by
  simp only [State.runPass, grantPass_not_failed h, Bool.false_eq_true, if_false]

theorem State.runPass_same (h : ∀ r ∈ s.pool.records, r.sound = true) (tell : Bool) :
    SameReplica (s.setPool { s.pool with records := (grantPass s.port.threshold s.pool.records).records }) (s.runPass tell) := by
  rw [State.runPass_eq h]
  exact (Quiets.foldl (fun u (r : PoolRecord) => u.tellOwn_quiet tell r.station r.client .granted none) _ _).same (grantPass_sound h)

/-- The grant pass over the records, in place of those held. -/
theorem State.passed_same {recs : List PoolRecord} {a : State} (h : ∀ r ∈ recs, r.sound = true)
    (q : Quiets (s.setPool { s.pool with records := recs }) a) (k : Wired s a) (tell : Bool) :
    SameReplica (s.setPool { s.pool with records := (grantPass s.port.threshold recs).records }) (a.runPass tell) := by
  obtain ⟨hm, hc, hp⟩ := q.same h
  have ht : a.port.threshold = s.port.threshold := by simp only [Port.threshold, k.1.1]
  have hr : a.pool.records = recs := by rw [hp]; rfl
  obtain ⟨km, kc, kp⟩ := State.runPass_same (s := a) (by rw [hr]; exact h) tell
  refine ⟨km.trans hm, kc.trans hc, kp.trans ?_⟩
  simp only [State.setPool_pool, ht, hp]

/-- The records after a taken CLAIM (R11 to R13). -/
def recordsClaimed (n t : Nat) (present : Bool) (recs : List PoolRecord) (a : Addr) (c : Client) (k : Class) (m : Mask) : List PoolRecord :=
  if present = true ∧ setValid n m = true ∧ (∀ r ∈ recs, ¬ (r.station = a ∧ r.client = c)) ∧ recs.length < 64 then
    (grantPass t (recs ++ [⟨a, c, m, k, k, 0, .waiting, true⟩])).records
  else recs

/-- The records after a taken WITHDRAW or RELEASE (R14, R16). -/
def recordsDropped (t : Nat) (recs : List PoolRecord) (a : Addr) (c : Client) : List PoolRecord :=
  if ∃ r ∈ recs, r.station = a ∧ r.client = c then
    (grantPass t (recs.filter fun r => !(decide (r.station = a) && decide (r.client = c)))).records
  else recs

theorem State.withPool_thawed (hf : s.pool.frozen = false) (work : State → State) : s.withPool work = work s := by
  simp [State.withPool, hf]

theorem State.setPool_self (s : State) : s.setPool { s.pool with records := s.pool.records } = s := rfl

/-! ### A taken CLAIM, in the order of R11 -/

section
variable {tell : Bool} {a : Addr} {c : Client} {k : Class} {m : Mask}

theorem State.takeClaim_notMember (hf : s.pool.frozen = false) (hn : (s.session.members.get a).state ≠ .present ∨ setValid s.port.n m = false) :
    s.takeClaim tell a c k m = s.tellOwn tell a c (.refused .notMember) := by
  rw [State.takeClaim, State.withPool_thawed hf]
  exact if_pos hn

theorem State.takeClaim_admit (hf : s.pool.frozen = false) (hp : (s.session.members.get a).state = .present)
    (hv : setValid s.port.n m = true) : s.takeClaim tell a c k m = State.admitClaim tell a c k m s := by
  rw [State.takeClaim, State.withPool_thawed hf]
  exact if_neg fun e => e.elim (fun e => e hp) fun e => by rw [hv] at e; cases e

variable (h : ∀ r ∈ s.pool.records, r.sound = true)
include h

theorem State.admitClaim_duplicate (hd : ∃ r ∈ s.pool.records, r.station = a ∧ r.client = c) :
    State.admitClaim tell a c k m s = s.tellOwn tell a c (.refused .duplicate) := by
  obtain ⟨r, -, -, -, e⟩ := searchPool_some h hd
  rw [State.admitClaim, e]

variable (hn : ∀ r ∈ s.pool.records, ¬ (r.station = a ∧ r.client = c))
include hn

theorem State.admitClaim_full (hl : 64 ≤ s.pool.records.length) :
    State.admitClaim tell a c k m s = s.tellOwn tell a c (.refused .poolFull) := by
  rw [State.admitClaim, searchPool_none h hn]
  exact if_pos hl

theorem State.admitClaim_appended (hl : s.pool.records.length < 64) : State.admitClaim tell a c k m s =
    ((s.setPool { s.pool with records := s.pool.records ++ [⟨a, c, m, k, k, 0, .waiting, true⟩] }).tellOwn tell a c .accepted).runPass
      tell := by
  rw [State.admitClaim, searchPool_none h hn]
  exact if_neg (Nat.not_le.2 hl)

end

/-- A taken CLAIM and the replica. -/
theorem State.takeClaim_same (hf : s.pool.frozen = false) (h : ∀ r ∈ s.pool.records, r.sound = true) (tell : Bool) (a : Addr) (c : Client)
    (k : Class) (m : Mask) :
    SameReplica (s.setPool { s.pool with
      records := recordsClaimed s.port.n s.port.threshold (decide ((s.session.members.get a).state = .present)) s.pool.records a c k m })
      (s.takeClaim tell a c k m) := by
  have told : ∀ i, SameReplica s (s.tellOwn tell a c i) := fun i => (s.tellOwn_quiet tell a c i none).same h
  unfold recordsClaimed
  by_cases hm : (s.session.members.get a).state = .present ∧ setValid s.port.n m = true
  · rw [State.takeClaim_admit hf hm.1 hm.2]
    by_cases hd : ∃ r ∈ s.pool.records, r.station = a ∧ r.client = c
    · rw [State.admitClaim_duplicate h hd, if_neg fun e => hd.elim fun x hx => e.2.2.1 x hx.1 hx.2]
      exact told _
    · have hn : ∀ r ∈ s.pool.records, ¬ (r.station = a ∧ r.client = c) := fun r hr e => hd ⟨r, hr, e⟩
      by_cases hl : 64 ≤ s.pool.records.length
      · rw [State.admitClaim_full h hn hl, if_neg fun e => absurd e.2.2.2 (Nat.not_lt.2 hl)]
        exact told _
      · rw [State.admitClaim_appended h hn (Nat.not_le.1 hl), if_pos ⟨decide_eq_true hm.1, hm.2, hn, Nat.not_le.1 hl⟩]
        refine State.passed_same (fun r hr => ?_) (State.tellOwn_quiet _ tell a c .accepted none)
          ((s.setPool_kept _).trans (State.tellOwn_kept _ _ _ _ _ _)).wired tell
        rcases List.mem_append.1 hr with hr | hr
        · exact h r hr
        · rw [List.mem_singleton.1 hr]
  · have hn : (s.session.members.get a).state ≠ .present ∨ setValid s.port.n m = false := by
      rw [not_and_or, Bool.not_eq_true] at hm; exact hm
    rw [State.takeClaim_notMember hf hn, if_neg fun e => hm ⟨of_decide_eq_true e.1, e.2.1⟩]
    exact told _

/-- A taken WITHDRAW or RELEASE and the replica. -/
theorem State.dropRecord_same (h : ∀ r ∈ s.pool.records, r.sound = true) (tell : Bool) (a : Addr) (c : Client)
    (i : Option Standing → Indication) :
    SameReplica (s.setPool { s.pool with records := recordsDropped s.port.threshold s.pool.records a c }) (State.dropRecord tell a c i s) := by
  unfold State.dropRecord recordsDropped
  by_cases hd : ∃ r ∈ s.pool.records, r.station = a ∧ r.client = c
  · obtain ⟨r, -, -, -, e⟩ := searchPool_some h hd
    rw [e, if_pos hd, withoutPair_sound h]
    exact State.passed_same (fun r hr => h r (List.mem_of_mem_filter hr)) (State.tellOwn_quiet _ tell a c _ none)
      ((s.setPool_kept _).trans (State.tellOwn_kept _ _ _ _ _ _)).wired tell
  · rw [searchPool_none h fun r hr e => hd ⟨r, hr, e⟩, if_neg hd]
    exact (s.tellOwn_quiet tell a c _ none).same h

end

end Sys2Proof.Machine
end

