-- ==== Sys2Proof/Proofs/Claims.lean ====
section
/-! PROOFS. The effects of an applied notice that leaves the station its place, step by step, and the claim notices of O36. -/

namespace Sys2Proof.Machine

/-- The states in which a notice of the session is applied (R125). -/
def StationState.member (st : StationState) : Prop := st = .announcing ∨ st = .active ∨ st = .leaving

theorem StationState.member.ne_loading {st : StationState} (h : st.member) : st ≠ .loading := by
  rcases h with h | h | h <;> simp [h]

/-- A member that queues LEAVE(RESYNC) stays one of the session, its tag and its table. -/
theorem SessionKept.member {s t : State} (k : SessionKept s t) (h : s.session.station.member) :
    t.session.station.member ∧ t.session.tag = s.session.tag ∧ t.session.members = s.session.members := by
  rcases k with ⟨e, -⟩ | ⟨-, e⟩
  · rw [e]; exact ⟨h, rfl, rfl⟩
  · rw [e]; exact ⟨.inr (.inr rfl), rfl, rfl⟩

theorem exec_effects {s : State} {h : Heard} (hd : s.bus.delivered = some h) :
    exec .noticeEffectsMade s = .next (s.taking.takeNotice h false none) := exec_noticeEffectsMade hd

section
variable {s : State} {h : Heard}

/-- A notice of the session taken by a member is applied. -/
theorem State.handle_member (hs : s.session.station.member) (ht : h.notice.tag = s.session.tag) (hf : h.notice.body.isFound = false) :
    s.handle h = s.applyNotice h := by
  have e : s.handle h = s.takeMember h := by
    unfold State.handle
    rcases hs with e | e | e <;> rw [e]
  rw [e, State.takeMember, hf, if_neg Bool.false_ne_true, if_pos ht]

/-- One that leaves the station its place has the four steps and its local effects. -/
theorem State.applyNotice_stays {e : TableChange} (he : memberEffect s.session.members h.notice = e)
    (hx : ending s.own s.session.station h e = none) :
    s.applyNotice h = (s.fourSteps h e (some .evicted)).localEffects h e := by
  simp only [State.applyNotice, he, hx, removalReason]

/-- What follows the handling leaves a replica whose records pass their check. -/
theorem State.afterHandling_same {b u : State} (hs : ∀ r ∈ u.pool.records, r.sound = true) (st : StationState) :
    SameReplica u (State.postActive st (State.recheck b u).makeAnswers) := by
  obtain ⟨k, q⟩ := State.recheck_works b u
  exact ((q.comp (State.makeAnswers_quiet _)).comp (State.postActive_quiet _ _)).same hs

/-! ### Steps 1 to 3 -/

/-- The station before the pool effect of a notice that changes no member record. -/
def State.stepped (s : State) (h : Heard) : State := (s.stepOne h).restartAbsence h.notice.sender

theorem State.stepped_quiet (s : State) (h : Heard) : Quiets (s.countNotice h.notice.body) (s.stepped h) :=
  (s.stepOne_quiet h).comp (State.restartAbsence_quiet _ _)

theorem State.countNotice_wired (s : State) (b : Body) : Wired s (s.countNotice b) := by
  unfold State.countNotice; split <;> exact .refl s

theorem State.stepOne_wired (s : State) (h : Heard) : Wired s (s.stepOne h) := by
  have clash : Wired (s.countNotice h.notice.body) ((s.countNotice h.notice.body).noteClash h) := by
    unfold State.noteClash; split
    · exact (State.post_kept _ _ _).wired
    · exact .refl _
  exact ((s.countNotice_wired _).trans clash).trans (State.readMembers_kept _ _).wired

theorem State.stepped_wired (s : State) (h : Heard) : Wired s (s.stepped h) :=
  (s.stepOne_wired h).trans (State.restartAbsence_kept _ _).wired

/-- Table and pool stay in these steps; the count goes up by one for a notice that counts. -/
theorem State.stepped_same (hs : ∀ r ∈ s.pool.records, r.sound = true) :
    (s.stepped h).session.members = s.session.members ∧
      (s.stepped h).session.count = (if counted h.notice.body then s.session.count + 1#16 else s.session.count) ∧
      (s.stepped h).pool = s.pool := by
  obtain ⟨em, ep, -⟩ := s.countNotice_same h.notice.body
  obtain ⟨hm, hc, hp⟩ := (s.stepped_quiet h).same (by rw [ep]; exact hs)
  refine ⟨hm.trans em, hc.trans ?_, hp.trans ep⟩
  unfold State.countNotice
  split <;> rfl

/-- A notice that changes no member record goes on with its pool effect. -/
theorem State.fourSteps_stays (x : Option EndReason) :
    s.fourSteps h ⟨s.session.members, []⟩ x = (s.stepped h).poolEffect true h.notice x (removedStations h.notice []) := by
  have hm : (s.stepped h).session.members = s.session.members :=
    (s.stepped_quiet h).replica.1.trans (s.countNotice_same _).1
  have same : (s.stepped h).liveMembers ⟨s.session.members, []⟩ = s.stepped h := by
    rw [← hm]; rfl
  exact congrArg (fun t : State => t.poolEffect true h.notice x (removedStations h.notice [])) same

end

/-! ### The claim notices -/

/-- CLAIM, WITHDRAW and RELEASE count, change no member record and end no membership. -/
theorem claimNotice_effect {n : Notice} {c : Client} (hb : claimClient n.body = some c) (t : Table) :
    memberEffect t n = ⟨t, []⟩ ∧ counted n.body = true ∧ n.body.isFound = false ∧ namedTarget n = none := by
  cases h : n.body <;> simp [h, claimClient] at hb <;> exact ⟨by simp [memberEffect, h], rfl, rfl, by simp [namedTarget, h]⟩

theorem ending_claim {h : Heard} {c : Client} (hb : claimClient h.notice.body = some c) (own : Addr) (st : StationState) (t : Table) :
    ending own st h ⟨t, []⟩ = none := by
  have hn := (claimNotice_effect hb t).2.2.2
  unfold ending
  split
  · rename_i e; simp [e, claimClient] at hb
  · simp [losesPlace, hn]

/-- A claim notice of the session taken by a member, with its pool effect. -/
theorem State.handle_claim {s : State} {h : Heard} {c : Client} (hb : claimClient h.notice.body = some c)
    (hs : s.session.station.member) (ht : h.notice.tag = s.session.tag) : s.handle h =
      ((s.stepped h).poolEffect true h.notice (some .evicted) (removedStations h.notice [])).localEffects h ⟨s.session.members, []⟩ := by
  obtain ⟨he, -, hf, -⟩ := claimNotice_effect hb s.session.members
  rw [State.handle_member hs ht hf, State.applyNotice_stays he (ending_claim hb _ _ _), State.fourSteps_stays]

/-- A taken claim notice: its pool effect on the station stepped so far gives the replica. -/
theorem State.takeNotice_claim {s : State} {h : Heard} {c : Client} (hb : claimClient h.notice.body = some c)
    (hs : s.session.station.member) (ht : h.notice.tag = s.session.tag) (hr : ∀ r ∈ s.pool.records, r.sound = true)
    {recs : List PoolRecord} (hrecs : ∀ r ∈ recs, r.sound = true)
    (hp : ∀ u : State, SameReplica { s with session := { s.session with count := s.session.count + 1#16 } } u → Wired s u →
      SameReplica (u.setPool { u.pool with records := recs }) (u.poolEffect true h.notice (some .evicted) (removedStations h.notice []))) :
    (s.takeNotice h false none).session.members = s.session.members ∧
      (s.takeNotice h false none).session.count = s.session.count + 1#16 ∧
      (s.takeNotice h false none).pool = { s.pool with records := recs } := by
  have km := s.makeRoom_kept h false none
  have rm := State.makeRoom_replicaSame hr h false none
  unfold State.takeNotice
  dsimp only
  generalize s.makeRoom h false none = m at km rm
  obtain ⟨hm, tm, -⟩ := km.session.member hs
  obtain ⟨m1, m2, m3⟩ := rm
  rw [State.handle_claim hb hm (ht.trans tm.symm)]
  obtain ⟨s1, s2, s3⟩ := State.stepped_same (s := m) (h := h) (by rw [m3]; exact hr)
  have hc : counted h.notice.body = true := (claimNotice_effect hb s.session.members).2.1
  obtain ⟨p1, p2, p3⟩ := hp (m.stepped h) ⟨s1.trans m1, by rw [s2, if_pos hc, m2], s3.trans m3⟩ (km.wired.trans (m.stepped_wired h))
  generalize (m.stepped h).poolEffect true h.notice (some .evicted) (removedStations h.notice []) = v at p1 p2 p3
  have hv : ∀ r ∈ v.pool.records, r.sound = true := by rw [p3]; exact hrecs
  obtain ⟨l1, l2, l3⟩ := (v.localEffects_cases h ⟨m.session.members, []⟩).1.same hv
  obtain ⟨a1, a2, a3⟩ := State.afterHandling_same (b := s) (u := v.localEffects h ⟨m.session.members, []⟩) (by rw [l3]; exact hv)
    s.session.station
  refine ⟨a1.trans (l1.trans (p1.trans (s1.trans m1))), a2.trans (l2.trans (p2.trans ?_)), a3.trans (l3.trans (p3.trans ?_))⟩
  · rw [State.setPool_session, s2, if_pos hc, m2]
  · rw [State.setPool_pool, s3, m3]

theorem recordsClaimed_sound {n t : Nat} {b : Bool} {recs : List PoolRecord} {a : Addr} {c : Client} {k : Class} {m : Mask}
    (h : ∀ r ∈ recs, r.sound = true) : ∀ r ∈ recordsClaimed n t b recs a c k m, r.sound = true := by
  unfold recordsClaimed
  split
  · refine grantPass_sound fun r hr => ?_
    rcases List.mem_append.1 hr with hr | hr
    · exact h r hr
    · rw [List.mem_singleton.1 hr]
  · exact h

theorem recordsDropped_sound {t : Nat} {recs : List PoolRecord} {a : Addr} {c : Client}
    (h : ∀ r ∈ recs, r.sound = true) : ∀ r ∈ recordsDropped t recs a c, r.sound = true := by
  unfold recordsDropped
  split
  · exact grantPass_sound fun r hr => h r (List.mem_of_mem_filter hr)
  · exact h

/-- A valid set has one to four resources, all below N. -/
theorem setValid_iff (n : Nat) (m : Mask) : setValid n m = true ↔
    1 ≤ (resources m).length ∧ (resources m).length ≤ 4 ∧ ∀ r ∈ resources m, r.val < n := by
  simp [setValid, and_assoc]

/-- A taken CLAIM of the session (R11 to R13). -/
theorem State.takeNotice_takesClaim {s : State} {h : Heard} {c : Client} {k : Class} {m : Mask} (hb : h.notice.body = .claim c k m)
    (hs : s.session.station.member) (ht : h.notice.tag = s.session.tag) (hf : s.pool.frozen = false)
    (hr : ∀ r ∈ s.pool.records, r.sound = true) :
    (s.takeNotice h false none).session.members = s.session.members ∧
      (s.takeNotice h false none).session.count = s.session.count + 1#16 ∧
      (s.takeNotice h false none).pool = { s.pool with
        records := recordsClaimed s.port.n s.port.threshold
          (decide ((s.session.members.get h.notice.sender).state = .present)) s.pool.records h.notice.sender c k m } := by
  refine State.takeNotice_claim (c := c) (by rw [hb]; rfl) hs ht hr (recordsClaimed_sound hr) fun u hu hw => ?_
  obtain ⟨u1, -, u3⟩ := hu
  have hn : u.port.n = s.port.n := by simp only [Port.n, hw.1.1]
  have hth : u.port.threshold = s.port.threshold := by simp only [Port.threshold, hw.1.1]
  have e := State.takeClaim_same (s := u) (by rw [u3]; exact hf) (by rw [u3]; exact hr) true h.notice.sender c k m
  rw [hn, hth, u1, u3] at e
  rw [u3, State.poolEffect, hb]
  exact e

/-- A taken WITHDRAW or RELEASE of the session (R14, R16). -/
theorem State.takeNotice_drops {s : State} {h : Heard} {c : Client} (hb : h.notice.body = .withdraw c ∨ ∃ r, h.notice.body = .release c r)
    (hs : s.session.station.member) (ht : h.notice.tag = s.session.tag) (hf : s.pool.frozen = false)
    (hr : ∀ r ∈ s.pool.records, r.sound = true) :
    (s.takeNotice h false none).session.members = s.session.members ∧
      (s.takeNotice h false none).session.count = s.session.count + 1#16 ∧
      (s.takeNotice h false none).pool = { s.pool with
        records := recordsDropped s.port.threshold s.pool.records h.notice.sender c } := by
  refine State.takeNotice_claim (c := c) (by rcases hb with e | ⟨r, e⟩ <;> rw [e] <;> rfl) hs ht hr (recordsDropped_sound hr)
    fun u hu hw => ?_
  have u3 := hu.2.2
  have hth : u.port.threshold = s.port.threshold := by simp only [Port.threshold, hw.1.1]
  have e := fun i => State.dropRecord_same (s := u) (by rw [u3]; exact hr) true h.notice.sender c i
  have hf' : u.pool.frozen = false := by rw [u3]; exact hf
  rw [hth, u3] at e
  rcases hb with hb | ⟨r, hb⟩
  · rw [u3, State.poolEffect, hb]
    dsimp only
    rw [State.takeWithdraw, State.withPool_thawed hf']
    exact e _
  · rw [u3, State.poolEffect, hb]
    dsimp only
    rw [State.takeRelease, State.withPool_thawed hf']
    exact e _

end Sys2Proof.Machine
end

