-- ==== Sys2Proof/Proofs/Frozen.lean ====
section
/-! PROOFS. A frozen pool whose upset is reported (R40), and the settling of O36. -/

namespace Sys2Proof.Machine

/-- Pool, slots, lines and the resync-pending flag stay, and a station with nothing to answer has nothing to answer. -/
def Still (s t : State) : Prop :=
  t.pool = s.pool ∧ (t.slots = s.slots ∧ t.lines = s.lines) ∧ t.checker.resyncPending = s.checker.resyncPending ∧
    (NothingToAnswer s → NothingToAnswer t)

theorem Still.refl (s : State) : Still s s := ⟨rfl, ⟨rfl, rfl⟩, rfl, id⟩

theorem Still.trans {s t u : State} (h : Still s t) (k : Still t u) : Still s u := by
  obtain ⟨hp, ⟨hs, hl⟩, hr, ha⟩ := h
  obtain ⟨kp, ⟨ks, kl⟩, kr, ka⟩ := k
  exact ⟨kp.trans hp, ⟨ks.trans hs, kl.trans hl⟩, kr.trans hr, ka ∘ ha⟩

theorem Still.foldl {α : Type} {f : State → α → State} (h : ∀ s a, Still s (f s a)) (l : List α) (s : State) : Still s (l.foldl f s) := by
  induction l generalizing s with
  | nil => exact .refl s
  | cons a l ih => exact (h s a).trans (ih _)

section
variable {s : State}

/-- An upset reported already is not reported again (R167). -/
theorem State.upset_pending (h : s.checker.resyncPending = true) : s.upset = s := by simp [State.upset, h]

theorem State.readMembers_pending (h : s.checker.resyncPending = true) (as : List Addr) : s.readMembers as = s := by
  simp [State.readMembers, State.upset_pending h]

/-- A pool frozen already, its upset reported. -/
theorem State.freeze_pending (h : s.checker.resyncPending = true) (hf : s.pool.frozen = true) : s.freeze = s := by
  have same : s.setPool { s.pool with frozen := true } = s := by rw [← hf]; rfl
  rw [State.freeze, same, State.upset_pending h]

/-- No notice is applied to a frozen pool (R40). -/
theorem State.poolEffect_frozen (hf : s.pool.frozen = true) (tell : Bool) (n : Notice) (x : Option EndReason) (as : List Addr) :
    s.poolEffect tell n x as = s := by
  have same : ∀ work : State → State, s.withPool work = s := fun work => by simp [State.withPool, hf]
  unfold State.poolEffect State.takeClaim State.takeWithdraw State.takeRelease State.removeRecords
  cases n.body <;> simp [same]

theorem State.recall_still (h : Heard) (ha : NothingToAnswer s) : Still s (s.recall h) := by
  have evict : Still s (s.recallEvict h.notice) := by
    unfold State.recallEvict; split <;> exact .refl s
  have snaps : (s.recallEvict h.notice).recallSnaps h.notice = s.recallEvict h.notice := by
    rw [State.recallSnaps, (evict.2.2.2 ha).2]
  unfold State.recall
  rw [snaps]
  cases s.session.station
  case announcing | active | leaving => dsimp only; split <;> first | exact evict | exact .refl s
  case listening => exact .refl s
  case founding | seeking => dsimp only; split <;> exact .refl s
  all_goals exact .refl s

/-- What is recalled is of the Outbox and the sponsor. -/
theorem State.recall_session (s : State) (h : Heard) : (s.recall h).session = s.session := by
  have evict : (s.recallEvict h.notice).session = s.session := by
    unfold State.recallEvict; split <;> rfl
  have owed : ∀ t : State, t.dropOwedSnap.session = t.session := fun t => by
    unfold State.dropOwedSnap; split
    · split <;> rfl
    · rfl
  have snaps : ∀ t : State, (t.recallSnaps h.notice).session = t.session := fun t => by
    unfold State.recallSnaps; split
    · rfl
    · split
      · exact owed _
      · rfl
  unfold State.recall
  cases s.session.station
  case announcing | active | leaving =>
    dsimp only; split
    · exact (snaps _).trans evict
    · rfl
  case founding | seeking => dsimp only; split <;> rfl
  all_goals rfl

theorem State.stepped_still (h : Heard) (hp : s.checker.resyncPending = true) : Still s (s.stepped h) := by
  have count : Still s (s.countNotice h.notice.body) := by
    unfold State.countNotice; split <;> exact .refl s
  have clash : Still s ((s.countNotice h.notice.body).noteClash h) := by
    unfold State.noteClash; split
    · exact count.trans (.refl _)
    · exact count
  have one : s.stepOne h = (s.countNotice h.notice.body).noteClash h :=
    State.readMembers_pending (clash.2.2.1.trans hp) _
  unfold State.stepped
  rw [one]
  unfold State.restartAbsence; dsimp only; split
  · exact clash.trans (.refl _)
  · exact clash

theorem State.liveMembers_still (s : State) (e : TableChange) : Still s (s.liveMembers e) :=
  (Still.refl s : Still s (s.setMembers e.table)).trans (Still.foldl (f := State.memberChanged) (fun s _ => .refl s) _ _)

/-- An empty answer list has no entry to remove. -/
theorem State.pruneAnswers_none (ha : NothingToAnswer s) : s.pruneAnswers = s := by
  obtain ⟨hn, -⟩ := ha
  have same : (Vector.ofFn fun a : Addr => match s.sponsor.answers.get a with
      | some (.joiner p) =>
        if s.session.members.stateOf a = .joining ∧ (s.session.members.get a).sponsor = some s.own then some (Answer.joiner p) else none
      | x => x) = s.sponsor.answers := by
    refine Eq.trans (congrArg Vector.ofFn (funext fun a => ?_)) (ofFn_get s.sponsor.answers)
    rw [hn a]
  exact congrArg (fun v => s.setSponsor { s.sponsor with answers := v }) same

theorem State.clearSuspect_still (s : State) : Still s s.clearSuspect := by
  unfold State.clearSuspect; split
  · split <;> exact .refl s
  · exact .refl s

/-- The kinds that have no local effect of their own. -/
theorem State.localEffects_plain {h : Heard} (hb : claimClient h.notice.body ≠ none ∨ namedTarget h.notice ≠ none) (s : State)
    (e : TableChange) : s.localEffects h e = s.pruneAnswers.clearSuspect := by
  have serving : s.pruneAnswers.clearSuspect.checkServing h = s.pruneAnswers.clearSuspect := by
    unfold State.checkServing
    split
    · rename_i e; simp [e, claimClient, namedTarget] at hb
    · rfl
  rw [State.localEffects, serving, State.kindEffects]
  cases hk : h.notice.body <;> simp [hk, claimClient, namedTarget] at hb <;> rfl

theorem State.localEffects_still {h : Heard} (hb : claimClient h.notice.body ≠ none ∨ namedTarget h.notice ≠ none) (e : TableChange) :
    Still s (s.localEffects h e) := by
  have prune : Still s s.pruneAnswers := ⟨rfl, ⟨rfl, rfl⟩, rfl, fun ha => by rw [State.pruneAnswers_none ha]; exact ha⟩
  rw [State.localEffects_plain hb]
  exact prune.trans (State.clearSuspect_still _)

theorem State.recheck_still (b : State) (hp : s.checker.resyncPending = true) (hf : s.pool.frozen = true) : Still s (State.recheck b s) := by
  unfold State.recheck
  dsimp only
  split
  · exact .refl s
  · split
    · rw [State.freeze_pending (by exact hp) (by exact hf)]
      exact .refl s
    · rw [State.readMembers_pending (by exact hp)]
      exact .refl s

end

/-- A claim notice and a LEAVE or EVICT count and are no FOUND. -/
theorem counted_of_claim_or_target {n : Notice} (hb : claimClient n.body ≠ none ∨ namedTarget n ≠ none) :
    counted n.body = true ∧ n.body.isFound = false := by
  cases h : n.body <;> simp [h, claimClient, namedTarget] at hb <;> exact ⟨rfl, rfl⟩

/-- What a member with a frozen pool, its upset reported, makes of a claim notice, LEAVE or EVICT that leaves it its place. -/
theorem State.takeNotice_frozen {s : State} {h : Heard} (hs : s.session.station.member) (ht : h.notice.tag = s.session.tag)
    (hb : claimClient h.notice.body ≠ none ∨ namedTarget h.notice ≠ none)
    (hx : ending s.own s.session.station h (memberEffect s.session.members h.notice) = none)
    (hf : s.pool.frozen = true) (hp : s.checker.resyncPending = true) (ho : NothingOwed s) (ha : NothingToAnswer s) :
    Still s (s.takeNotice h false none) ∧ (s.takeNotice h false none).session.count = s.session.count + 1#16 ∧
      (s.takeNotice h false none).session.members = (memberEffect s.session.members h.notice).table := by
  obtain ⟨hc, hn⟩ := counted_of_claim_or_target hb
  unfold State.takeNotice
  rw [State.makeRoom_none h false ho]
  have sm := State.recall_still h ha
  have qm := s.recall_quiet h
  have em := s.recall_session h
  have om : (s.recall h).own = s.own := congrArg Straps.address qm.moves.kept.2.2.1
  dsimp only
  generalize s.recall h = m at sm qm em om
  have mp : m.checker.resyncPending = true := sm.2.2.1.trans hp
  have mf : m.pool.frozen = true := by rw [sm.1]; exact hf
  rw [State.handle_member (by rw [em]; exact hs) (by rw [em]; exact ht) hn,
    State.applyNotice_stays (e := memberEffect s.session.members h.notice) (by rw [em]) (by rw [em, om]; exact hx)]
  have su := State.stepped_still h mp
  have qu := m.stepped_quiet h
  have four : m.fourSteps h (memberEffect s.session.members h.notice) (some .evicted) =
      (m.stepped h).liveMembers (memberEffect s.session.members h.notice) := by
    refine State.poolEffect_frozen ?_ _ _ _ _
    have e := (su.trans (State.liveMembers_still _ (memberEffect s.session.members h.notice))).1
    exact (congrArg Pool.frozen e).trans mf
  rw [four]
  have cu : (m.stepped h).session.count = s.session.count + 1#16 := by
    rw [qu.replica.2.2.1, State.countNotice, if_pos hc, State.setSession_session, em]
  generalize m.stepped h = u at su cu
  have sv := (sm.trans su).trans (u.liveMembers_still (memberEffect s.session.members h.notice))
  have qv := (u.liveMembers_quiet (memberEffect s.session.members h.notice)).replica
  generalize u.liveMembers (memberEffect s.session.members h.notice) = v at sv qv
  have sl := sv.trans (State.localEffects_still hb (memberEffect s.session.members h.notice))
  have ql := (v.localEffects_cases h (memberEffect s.session.members h.notice)).1.replica
  generalize v.localEffects h (memberEffect s.session.members h.notice) = l at sl ql
  have sr := sl.trans (State.recheck_still s (sl.2.2.1.trans hp) (by rw [sl.1]; exact hf))
  obtain ⟨k, qr⟩ := State.recheck_works s l
  have qr := (qr.comp (State.postActive_quiet _ s.session.station)).replica
  rw [State.makeAnswers_none (.inl (sr.2.2.2 ha))]
  have post : Still (State.recheck s l) (State.postActive s.session.station (State.recheck s l)) := by
    unfold State.postActive; split <;> exact .refl _
  exact ⟨sr.trans post, qr.2.2.1.trans (ql.2.2.1.trans (qv.2.2.1.trans cu)), qr.1.trans (ql.1.trans qv.1)⟩

/-- Settles O36: the pool effect of a claim notice on the station stepped so far, its indications, and what follows the handling. -/
theorem claimNoticesAreTaken : Obligations.ClaimNoticesAreTaken := by
  refine ⟨fun s h c k m hs hd ht hb hf ha => ?_, fun s h c hs hd ht hb hf ha => ?_, fun s h hs hd ht hb hx hf hp ho hn => ?_⟩
  · obtain ⟨e1, e2, e3⟩ := State.takeNotice_takesClaim (s := s.taking) hb hs ht hf ha.1
    refine ⟨_, exec_effects hd, e2, e1, by rw [e3]; exact hf, ?_⟩
    rw [e3]
    simp only [recordsClaimed, decide_eq_true_eq, setValid_iff, and_assoc]
    rfl
  · obtain ⟨e1, e2, e3⟩ := State.takeNotice_drops (s := s.taking) hb hs ht hf ha.1
    exact ⟨_, exec_effects hd, e2, e1, by rw [e3]; exact hf, by rw [e3]; rfl⟩
  · obtain ⟨⟨ep, ⟨es, el⟩, -⟩, ec, em⟩ := State.takeNotice_frozen (s := s.taking) hs ht hb hx hf hp ho hn
    exact ⟨_, exec_effects hd, ep, es, el, ec, em⟩

end Sys2Proof.Machine
end

