-- ==== Sys2Proof/Proofs/Blind.lean ====
section
/-! PROOFS. Indications (O44, first part): the slots act on them without looking at the pool, the table check, the answer list, the
serving state or the suspect, so that the order of the pool's work and of its indications does not show. -/

namespace Sys2Proof.Machine

/-- Another pool and table check, with no answer or snapshot to make and no suspect. -/
def State.held (s : State) (p : Pool) (k : Word) : State :=
  { s with
    pool := p
    checker := { s.checker with tableCheck := k, suspect := none }
    sponsor := { s.sponsor with answers := Vector.replicate 16 none, serving := none } }

/-- The work looks at none of these. -/
def Blind (f : State → State) : Prop := ∀ s p k, f (s.held p k) = (f s).held p k

theorem Blind.comp {f g : State → State} (hf : Blind f) (hg : Blind g) : Blind fun s => g (f s) := fun s p k => by
  dsimp only
  rw [hf, hg]

theorem Blind.foldl {α : Type} {f : State → α → State} (h : ∀ a, Blind fun s => f s a) (l : List α) : Blind fun s => l.foldl f s := by
  intro s p k
  induction l generalizing s with
  | nil => rfl
  | cons a l ih =>
    have e : f (s.held p k) a = (f s a).held p k := h a s p k
    simp only [List.foldl_cons, e]
    exact ih (f s a)

/-- What it chooses by is not touched. -/
theorem Blind.ite {c : State → Prop} [∀ s, Decidable (c s)] {f g : State → State} (hc : ∀ s p k, c (s.held p k) ↔ c s) (hf : Blind f)
    (hg : Blind g) : Blind fun s => if c s then f s else g s := fun s p k => by
  dsimp only
  by_cases h : c s
  · rw [if_pos h, if_pos ((hc s p k).2 h), hf]
  · rw [if_neg h, if_neg fun e => h ((hc s p k).1 e), hg]

theorem setSlot_blind (c : Client) (v : State → Slot) (hv : ∀ s p k, v (s.held p k) = v s) : Blind fun s => s.setSlot c (v s) :=
  fun s p k => by
    simp only [hv, State.setSlot, State.driveGnt]
    split <;> rfl

theorem post_blind (e : EventKind) (w : Fin 16) : Blind fun s => s.post e w := fun _ _ _ => rfl

theorem endSlot_blind (c : Client) (r : EndReason) : Blind fun s => s.endSlot c r :=
  (setSlot_blind c (fun _ => .freeWith r) fun _ _ _ => rfl).comp (post_blind _ c)

theorem freeSlot_blind (c : Client) : Blind fun s => s.freeSlot c :=
  setSlot_blind c (fun s => .freeWith (s.slot c).lastEnd) fun _ _ _ => rfl

theorem enter_blind (st : StationState) (c : Cause) : Blind fun s => s.enter st c := fun s p k => by
  simp only [State.enter_eq]
  cases st <;> rfl

theorem dropOwed_blind : Blind State.dropOwed := fun s p k => by
  have slots : Blind fun s => sixteen.foldl State.dropSlotOwed s := Blind.foldl (f := State.dropSlotOwed)
    (fun c => setSlot_blind c (fun s => { s.slot c with owed := .none }) fun _ _ _ => rfl) sixteen
  exact slots (s.setSponsor { s.sponsor with owedAnswer := none, owedBeacon := false, owedEvicts := Sponsor.none.owedEvicts }) p k

theorem purge_blind : Blind State.purge := fun s p k => dropOwed_blind (s.setOutbox s.outbox.keepOffered) p k

theorem closeSlots_blind : Blind State.closeSlots := Blind.foldl (f := State.closeSlot) (fun c => setSlot_blind c
  (fun s => (s.slot c).closed (if s.outbox.holdsFor c then (s.slot c).outboxEntry else .none)) fun _ _ _ => rfl) sixteen

theorem placeLeave_blind (r : LeaveReason) : Blind fun s => s.placeLeave r := fun _ _ _ => rfl

theorem stopLoading_blind : Blind State.stopLoading := fun _ _ _ => rfl

theorem recordLeave_blind (r : LeaveReason) : Blind fun s => s.recordLeave r := fun _ _ _ => rfl

theorem queueLeave_blind (r : LeaveReason) : Blind fun s => s.queueLeave r := fun s p k => by
  have stop := stopLoading_blind
  have place := placeLeave_blind r
  have record := recordLeave_blind r
  have enter := enter_blind .leaving r.cause
  simp only [Blind] at stop place record enter
  simp only [State.queueLeave, purge_blind s p k, closeSlots_blind _ p k, place, stop, record, enter]

theorem upset_blind : Blind State.upset := fun s p k => by
  have mark : Blind State.markUpset := fun _ _ _ => rfl
  have leave : Blind fun s => s.markUpset.queueLeave .resync := mark.comp (queueLeave_blind .resync)
  unfold State.upset
  have e1 : (s.held p k).checker.resyncPending = s.checker.resyncPending := rfl
  have e2 : (s.held p k).session.station = s.session.station := rfl
  rw [e1, e2]
  split
  · rfl
  · split
    iterate 3 exact leave s p k
    all_goals rfl

theorem mismatch_blind : Blind State.mismatch := fun s p k => by
  unfold State.mismatch
  have e : (s.held p k).session.station = s.session.station := rfl
  rw [e]
  split
  iterate 2 exact upset_blind s p k
  all_goals rfl

/-- A notice offered to the Outbox, and what the slot makes of the answer. -/
theorem offered_blind (b : State → Body) (o : Owner) (hb : ∀ s p k, b (s.held p k) = b s) {f : State → Outbox × Submitted → State}
    (hf : ∀ r, Blind fun s => f s r) : Blind fun s => f s (s.offer (b s) o) := fun s p k => by
  have e : (s.held p k).offer (b (s.held p k)) o = s.offer (b s) o := by rw [hb]; rfl
  simp only [e]
  exact hf _ s p k

theorem placed_blind (x : Outbox) (c : Client) (v : State → Slot) (hv : ∀ s p k, v (s.held p k) = v s)
    (ho : ∀ s, v (s.setOutbox x) = v s) : Blind fun s => (s.setOutbox x).setSlot c (v s) := by
  have set : Blind fun s => s.setOutbox x := fun _ _ _ => rfl
  have h := set.comp (setSlot_blind c v hv)
  simp only [ho] at h
  exact h

theorem startClaim_blind (c : Client) (m : State → Mask) (k : State → Class) (hm : ∀ s p t, m (s.held p t) = m s)
    (hk : ∀ s p t, k (s.held p t) = k s) : Blind fun s => s.startClaim c (m s) (k s) := fun s p t => by
  simp only [hm, hk]
  refine offered_blind (fun _ => .claim c (k s) (m s)) (.claimUnit c) (fun _ _ _ => rfl)
    (f := fun u r => match r.2 with
      | .placed => (u.setOutbox r.1).setSlot c { u.started c (m s) (k s) with state := .queued, outboxEntry := .claim }
      | .noRoom => u.setSlot c { u.started c (m s) (k s) with state := .pending, owed := .claim }
      | .leaving => u.setSlot c { u.started c (m s) (k s) with state := .queued }
      | .standing | .slotBusy => u.mismatch) (fun r => ?_) s p t
  obtain ⟨x, r⟩ := r
  cases r
  · exact placed_blind x c (fun u => { u.started c (m s) (k s) with state := .queued, outboxEntry := .claim }) (fun _ _ _ => rfl) fun _ => rfl
  · exact mismatch_blind
  · exact mismatch_blind
  · exact setSlot_blind c (fun u => { u.started c (m s) (k s) with state := .queued }) fun _ _ _ => rfl
  · exact setSlot_blind c (fun u => { u.started c (m s) (k s) with state := .pending, owed := .claim }) fun _ _ _ => rfl

theorem submitWithdraw_blind (c : Client) : Blind fun s => s.submitWithdraw c := by
  refine offered_blind (fun _ => .withdraw c) (.claimUnit c) (fun _ _ _ => rfl)
    (f := fun u r => match r.2 with
      | .placed => (u.setOutbox r.1).setSlot c { u.slot c with state := .withdrawing, removalPending := false, outboxEntry := .withdraw }
      | .noRoom => u.setSlot c { u.slot c with state := .withdrawing, removalPending := false, outboxEntry := .none, owed := .withdraw }
      | .leaving => u.setSlot c { u.slot c with state := .withdrawing, removalPending := false, outboxEntry := .none }
      | .standing | .slotBusy => u.mismatch) fun r => ?_
  obtain ⟨x, r⟩ := r
  cases r
  · exact placed_blind x c (fun u => { u.slot c with state := .withdrawing, removalPending := false, outboxEntry := .withdraw })
      (fun _ _ _ => rfl) fun _ => rfl
  · exact mismatch_blind
  · exact mismatch_blind
  · exact setSlot_blind c (fun u => { u.slot c with state := .withdrawing, removalPending := false, outboxEntry := .none }) fun _ _ _ => rfl
  · exact setSlot_blind c (fun u => { u.slot c with state := .withdrawing, removalPending := false, outboxEntry := .none, owed := .withdraw })
      fun _ _ _ => rfl

theorem testClient_blind (c : Client) : Blind fun s => s.testClient c := by
  unfold State.testClient
  cases lineOf c with
  | none => exact fun _ _ _ => rfl
  | some n =>
    exact .ite (c := fun s => s.lineReady n = true) (fun _ _ _ => Iff.rfl)
      (startClaim_blind _ (fun s => s.port.lineSet n) (fun s => s.port.lineClass n) (fun _ _ _ => rfl) fun _ _ _ => rfl) fun _ _ _ => rfl

theorem rearmIfHigh_blind (c : Client) : Blind fun s => s.rearmIfHigh c := by
  unfold State.rearmIfHigh
  cases lineOf c with
  | none => exact fun _ _ _ => rfl
  | some n => exact .ite (c := fun s => (s.line n).req = true) (fun _ _ _ => Iff.rfl) (fun _ _ _ => rfl) fun _ _ _ => rfl

theorem teardownSlot_blind (r : Option EndReason) (c : Client) : Blind fun s => State.teardownSlot r s c := fun s p k => by
  have e : (s.held p k).slot c = s.slot c := rfl
  simp only [State.teardownSlot, e]
  split
  · rfl
  · exact freeSlot_blind c s p k
  · exact endSlot_blind c _ s p k
  · exact freeSlot_blind c s p k

theorem refuseQueued_blind (c : Client) (r : ClaimRefusal) : Blind fun s => s.refuseQueued c r := by
  refine .ite (c := fun _ => (lineOf c).isSome = true ∧ r = .poolFull) (fun _ _ _ => Iff.rfl) ?_ ?_
  · exact (setSlot_blind c (fun s => { s.slot c with
      state := .retry, outboxEntry := .none, lastEnd := r.ends, retryMs := s.port.beaconInterval }) fun _ _ _ => rfl).comp (post_blind _ c)
  · have rearm : Blind fun s : State => if r = .poolFull then s else s.rearmIfHigh c :=
      .ite (fun _ _ _ => Iff.rfl) (fun _ _ _ => rfl) (rearmIfHigh_blind c)
    exact ((endSlot_blind c r.ends).comp rearm).comp (testClient_blind c)

/-- The table of R53 looks at slots, lines, Outbox and session alone. -/
theorem indicate_blind (c : Client) (i : Indication) (r : Option EndReason) : Blind fun s => s.indicate c i r := fun s p k => by
  have ended : ∀ x, Blind fun s => (s.endSlot c x).testClient c := fun x => (endSlot_blind c x).comp (testClient_blind c)
  have e : (s.held p k).slot c = s.slot c := rfl
  simp only [State.indicate, e]
  split
  · exact setSlot_blind c (fun s => { s.slot c with state := .waiting, outboxEntry := .none }) (fun _ _ _ => rfl) s p k
  · split
    · split
      · exact setSlot_blind c (fun s => { s.slot c with outboxEntry := .none, removalPending := false }) (fun _ _ _ => rfl) s p k
      · exact mismatch_blind s p k
    · split
      · exact submitWithdraw_blind c s p k
      · exact mismatch_blind s p k
  · exact refuseQueued_blind c _ s p k
  · split
    · exact ended _ s p k
    · exact mismatch_blind s p k
  · exact ((setSlot_blind c (fun s => s.leaseStart c 0) fun _ _ _ => rfl).comp (post_blind .claimGranted c)) s p k
  · rfl
  · exact ended _ s p k
  · exact ended _ s p k
  · exact (((endSlot_blind c .forced).comp (rearmIfHigh_blind c)).comp (testClient_blind c)) s p k
  · exact teardownSlot_blind r c s p k
  · exact mismatch_blind s p k

theorem tellOwn_blind (tell : Bool) (a : Addr) (c : Client) (i : Indication) (r : Option EndReason) : Blind fun s => s.tellOwn tell a c i r :=
  .ite (c := fun s => (tell && decide (a = s.own)) = true) (fun _ _ _ => Iff.rfl) (indicate_blind c i r) fun _ _ _ => rfl

end Sys2Proof.Machine
end

