-- ==== Sys2Proof/Proofs/ToldPasses.lean ====
section
/-! PROOFS. A claim notice taken by a member with nothing to answer and no suspect (O44, first part), and storage upsets (O10). -/

namespace Sys2Proof.Machine

/-- Nothing to answer and no suspect. -/
def Clean (s : State) : Prop := NothingToAnswer s ∧ s.checker.suspect = none

section
variable {s : State}

theorem State.held_clean (s : State) (p : Pool) (k : Word) : Clean (s.held p k) :=
  ⟨⟨fun a => by simp [State.held, Vector.get_eq_getElem], rfl⟩, rfl⟩

/-- Such a station shows it. -/
theorem Clean.held (h : Clean s) (p : Pool) (k : Word) :
    s.held p k = { s with pool := p, checker := { s.checker with tableCheck := k } } := by
  obtain ⟨⟨ha, hv⟩, hs⟩ := h
  have answers : s.sponsor.answers = Vector.replicate 16 none := by
    refine Vector.ext fun i hi => ?_
    rw [Vector.getElem_replicate]
    exact ha ⟨i, hi⟩
  unfold State.held
  rw [← answers, ← hv, ← hs]

theorem Clean.held_self (h : Clean s) : s.held s.pool s.checker.tableCheck = s := h.held _ _

/-- Work that looks at none of it leaves it so. -/
theorem Blind.clean {f : State → State} (hf : Blind f) (h : Clean s) : Clean (f s) := by
  rw [← h.held_self, hf]
  exact State.held_clean _ _ _

theorem Clean.pruneAnswers (h : Clean s) : s.pruneAnswers = s := State.pruneAnswers_none h.1

theorem Clean.clearSuspect (h : Clean s) : s.clearSuspect = s := by simp [State.clearSuspect, h.2]

/-- Kinds with no local effect of their own have none at such a station. -/
theorem Clean.localEffects {h : Heard} (hc : Clean s) (hb : claimClient h.notice.body ≠ none ∨ namedTarget h.notice ≠ none)
    (e : TableChange) : s.localEffects h e = s := by
  rw [State.localEffects_plain hb, hc.pruneAnswers, hc.clearSuspect]

/-- A member that does not become ACTIVE posts no entry to ACTIVE. -/
theorem SessionKept.postActive {t : State} (k : SessionKept s t) (hs : s.session.station.member) :
    State.postActive s.session.station t = t := by
  refine State.postActive_none ?_
  rcases hs with e | e | e
  · rcases k with ⟨k, -⟩ | ⟨-, k⟩ <;> simp [k, e, State.resyncing]
  · simp [e]
  · simp [e]

end

/-- The station with the count and the sender's absence timer of a taken notice that counts. -/
def State.countedFor (s : State) (a : Addr) : State :=
  { s with session := { s.session with count := s.session.count + 1#16 }, timers := s.restarted a }

section
variable {s : State} {h : Heard}

/-- Steps 1 and 2 of R125 with member records that pass their check and no address clash. -/
theorem State.stepped_eq (hc : counted h.notice.body = true) (ho : h.notice.sender = s.own → h.own = true)
    (hm : ∀ a, (s.session.members.get a).sound = true) : s.stepped h = s.countedFor h.notice.sender := by
  have count : s.countNotice h.notice.body = s.setSession { s.session with count := s.session.count + 1#16 } := if_pos hc
  have clash : ∀ t : State, t.own = s.own → t.noteClash h = t := fun t e => if_neg fun c => by
    rw [ho (c.1.trans e)] at c; exact absurd c.2 (by simp)
  have one : s.stepOne h = s.setSession { s.session with count := s.session.count + 1#16 } := by
    rw [State.stepOne, count, clash (s.setSession { s.session with count := s.session.count + 1#16 }) rfl]
    exact State.readMembers_sound fun a _ => hm a
  rw [State.stepped, one]
  unfold State.restartAbsence State.countedFor State.restarted
  dsimp only
  by_cases c : h.notice.sender ≠ s.own ∧
    ((s.session.members.get h.notice.sender).state = .syncing ∨ (s.session.members.get h.notice.sender).state = .present)
  · rw [if_pos c]
    exact if_pos ⟨c.2, c.1⟩
  · rw [if_neg c]
    exact if_neg fun e => c ⟨e.2, e.1⟩

/-- A claim notice taken by a member with nothing to answer, but for the check worked out afresh. -/
theorem State.takeNotice_clean {c : Client} (hb : claimClient h.notice.body = some c) (hs : s.session.station.member)
    (ht : h.notice.tag = s.session.tag) (ho : h.notice.sender = s.own → h.own = true)
    (hm : ∀ a, (s.session.members.get a).sound = true) (hc : Clean s)
    {w : State} (hw : (s.countedFor h.notice.sender).poolEffect true h.notice (some .evicted) (removedStations h.notice []) = w)
    (cw : Clean w) {x : State} (hx : State.recheck s w = x) (cx : Clean x) (kx : SessionKept (s.countedFor h.notice.sender) x) :
    s.takeNotice h false none = x := by
  obtain ⟨-, hcount, -, htarget⟩ := claimNotice_effect hb s.session.members
  have recalls : s.recallsNothing h.notice :=
    .inr (.inr (.inr (.inr ⟨hs, htarget, fun v hv => by rw [hc.1.2] at hv; cases hv⟩)))
  rw [State.takeNotice, State.makeRoom_same (State.recall_same recalls), State.handle_claim hb hs ht, State.stepped_eq hcount ho hm, hw,
    cw.localEffects (.inl (by rw [hb]; simp)), hx, State.makeAnswers_none (.inl cx.1)]
  exact kx.postActive (s := s.countedFor h.notice.sender) hs

/-- An indication of the sender's own slot. -/
def State.tellSender (s : State) (a : Addr) (c : Client) (i : Indication) : State := if a = s.own then s.indicate c i else s

theorem State.tellOwn_eq (s : State) (a : Addr) (c : Client) (i : Indication) : s.tellOwn true a c i = s.tellSender a c i := by
  by_cases e : a = s.own <;> simp [State.tellOwn, State.tellSender, e]

theorem State.tellSender_blind (a : Addr) (c : Client) (i : Indication) : Blind fun s => s.tellSender a c i := by
  have e : (fun s : State => s.tellSender a c i) = fun s => s.tellOwn true a c i := funext fun s => (s.tellOwn_eq a c i).symm
  rw [e]
  exact tellOwn_blind _ _ _ _ _

theorem Clean.countedFor (hc : Clean s) (a : Addr) : Clean (s.countedFor a) := hc

/-- A notice that leaves the pool gives its one indication. -/
theorem State.takeNotice_told {c : Client} (hb : claimClient h.notice.body = some c) (hs : s.session.station.member)
    (ht : h.notice.tag = s.session.tag) (ho : h.notice.sender = s.own → h.own = true) (ha : AllSound s) (hc : Clean s) {i : Indication}
    (hw : (s.countedFor h.notice.sender).poolEffect true h.notice (some .evicted) (removedStations h.notice []) =
      (s.countedFor h.notice.sender).tellOwn true h.notice.sender c i) :
    s.takeNotice h false none = (s.countedFor h.notice.sender).tellSender h.notice.sender c i := by
  rw [State.tellOwn_eq] at hw
  have clean : Clean ((s.countedFor h.notice.sender).tellSender h.notice.sender c i) :=
    (State.tellSender_blind h.notice.sender c i).clean (hc.countedFor h.notice.sender)
  have e := State.tellOwn_eq (s.countedFor h.notice.sender) h.notice.sender c i
  obtain ⟨em, -, -, er, ek⟩ := (State.tellOwn_quiet (s.countedFor h.notice.sender) true h.notice.sender c i none).replica
  have kept := (State.tellOwn_kept (s.countedFor h.notice.sender) true h.notice.sender c i none).session
  rw [e] at em er ek kept
  exact State.takeNotice_clean hb hs ht ho ha.2 hc hw clean (State.recheck_same hs.ne_loading em er ek) clean kept

/-- The GRANTED indications of a pass, to the slots of this station. -/
def State.tellGranted (s : State) (own : Addr) (l : List PoolRecord) : State :=
  (l.filter fun r => decide (r.station = own)).foldl (fun t r => t.indicate r.client .granted) s

theorem State.foldl_tellGrants (s : State) (l : List PoolRecord) : l.foldl (State.tellGrants true) s = s.tellGranted s.own l := by
  unfold State.tellGranted
  generalize ho : s.own = own
  induction l generalizing s with
  | nil => rfl
  | cons r l ih =>
    have keeps : (State.tellGrants true s r).own = own :=
      (congrArg Straps.address (State.tellOwn_quiet s true r.station r.client .granted none).moves.kept.2.2.1).trans ho
    rw [List.foldl_cons, ih _ keeps]
    by_cases e : r.station = own <;> simp [State.tellGrants, State.tellOwn, ho, e]

theorem foldl_tellGrants_blind (l : List PoolRecord) : Blind fun s => l.foldl (State.tellGrants true) s :=
  Blind.foldl (f := State.tellGrants true) (fun r => tellOwn_blind true r.station r.client .granted none) l

/-- The indications of a notice that changes the pool: its own, then those of its pass. -/
def State.toldPass (l : List PoolRecord) (a : Addr) (c : Client) (i : Indication) (s : State) : State :=
  l.foldl (State.tellGrants true) (s.tellOwn true a c i)

theorem State.toldPass_blind (l : List PoolRecord) (a : Addr) (c : Client) (i : Indication) : Blind (State.toldPass l a c i) :=
  (tellOwn_blind true a c i none).comp (foldl_tellGrants_blind l)

theorem State.toldPass_eq (s : State) (l : List PoolRecord) (a : Addr) (c : Client) (i : Indication) :
    State.toldPass l a c i s = (s.tellSender a c i).tellGranted s.own l := by
  have own : (s.tellSender a c i).own = s.own := by
    rw [← State.tellOwn_eq]
    exact congrArg Straps.address (s.tellOwn_quiet true a c i none).moves.kept.2.2.1
  rw [State.toldPass, State.foldl_tellGrants, State.tellOwn_eq, own]

theorem State.toldPass_quiet (s : State) (l : List PoolRecord) (a : Addr) (c : Client) (i : Indication) :
    Quiets s (State.toldPass l a c i s) :=
  (s.tellOwn_quiet true a c i none).comp
    (Quiets.foldl (fun u (r : PoolRecord) => u.tellOwn_quiet true r.station r.client .granted none) l _)

theorem State.toldPass_kept (s : State) (l : List PoolRecord) (a : Addr) (c : Client) (i : Indication) :
    Kept s (State.toldPass l a c i s) :=
  (s.tellOwn_kept true a c i none).trans
    (Kept.foldl (fun u (r : PoolRecord) => u.tellOwn_kept true r.station r.client .granted none) l _)

/-- The pool's work and its indications, in whatever order. -/
theorem State.runPass_told {u : State} (cu : Clean u) {recs : List PoolRecord} (hr : ∀ r ∈ recs, r.sound = true) (a : Addr) (c : Client)
    (i : Indication) : ((u.setPool { u.pool with records := recs }).tellOwn true a c i).runPass true =
      (State.toldPass (grantPass u.port.threshold recs).granted a c i u).held
        { u.pool with records := (grantPass u.port.threshold recs).records } u.checker.tableCheck := by
  have told : (u.setPool { u.pool with records := recs }).tellOwn true a c i =
      (u.tellOwn true a c i).held { u.pool with records := recs } u.checker.tableCheck := by
    rw [← tellOwn_blind true a c i none u, cu.held]
    rfl
  have image : (u.tellOwn true a c i).port.threshold = u.port.threshold := by
    simp only [Port.threshold, (u.tellOwn_kept true a c i none).wired.1.1]
  have pass := foldl_tellGrants_blind (grantPass u.port.threshold recs).granted (u.tellOwn true a c i)
    { u.pool with records := (grantPass u.port.threshold recs).records } u.checker.tableCheck
  unfold State.toldPass
  generalize u.tellOwn true a c i = v at told image pass ⊢
  have eq := State.runPass_eq (s := v.held { u.pool with records := recs } u.checker.tableCheck) hr true
  have threshold : (v.held { u.pool with records := recs } u.checker.tableCheck).port.threshold = u.port.threshold := image
  have records : (v.held { u.pool with records := recs } u.checker.tableCheck).pool.records = recs := rfl
  rw [threshold, records] at eq
  rw [told, eq]
  exact pass

/-- A notice that changes the pool gives its indication, then those of its pass. -/
theorem State.takeNotice_passed {c : Client} (hb : claimClient h.notice.body = some c) (hs : s.session.station.member)
    (ht : h.notice.tag = s.session.tag) (ho : h.notice.sender = s.own → h.own = true) (ha : AllSound s) (hf : s.pool.frozen = false)
    (hc : Clean s) {i : Indication} {recs : List PoolRecord} (hr : ∀ r ∈ recs, r.sound = true) (hl : recs.length ≠ s.pool.records.length)
    (hw : (s.countedFor h.notice.sender).poolEffect true h.notice (some .evicted) (removedStations h.notice []) =
      (((s.countedFor h.notice.sender).setPool { s.pool with records := recs }).tellOwn true h.notice.sender c i).runPass true) :
    s.takeNotice h false none = State.toldPass (grantPass s.port.threshold recs).granted h.notice.sender c i
      ((s.countedFor h.notice.sender).held ⟨(grantPass s.port.threshold recs).records, false⟩
        (tableCheckOf s.session.members (grantPass s.port.threshold recs).records)) := by
  have cu := hc.countedFor h.notice.sender
  have after := hw.trans (State.runPass_told cu hr h.notice.sender c i)
  have threshold : (s.countedFor h.notice.sender).port.threshold = s.port.threshold := rfl
  have pool : ∀ x, ({ (s.countedFor h.notice.sender).pool with records := x } : Pool) = ⟨x, false⟩ := fun x => by rw [← hf]; rfl
  rw [threshold, pool] at after
  have sound := grantPass_sound (t := s.port.threshold) hr
  have length := (grantPass_length s.port.threshold recs).trans_ne hl
  generalize grantPass s.port.threshold recs = p at after sound length ⊢
  rw [State.toldPass_blind]
  have quiet := State.toldPass_quiet (s.countedFor h.notice.sender) p.granted h.notice.sender c i
  have kept := (State.toldPass_kept (s.countedFor h.notice.sender) p.granted h.notice.sender c i).session
  generalize State.toldPass p.granted h.notice.sender c i (s.countedFor h.notice.sender) = v at after quiet kept ⊢
  have members : v.session.members = s.session.members := quiet.replica.1
  refine State.takeNotice_clean hb hs ht ho ha.2 hc after (State.held_clean _ _ _) ?_ (State.held_clean _ _ _) kept
  rw [← members]
  refine State.recheck_new ?_ (State.poolFails_sound sound) ?_
  · rw [State.keepsCheck_other hs.ne_loading]
    exact decide_eq_false fun e => length (congrArg List.length e.2.1)
  · simp only [State.membersFail, List.any_eq_false]
    intro a _
    have e : (v.held ⟨p.records, false⟩ (s.countedFor h.notice.sender).checker.tableCheck).session.members = s.session.members := members
    rw [e, ha.2 a]
    simp

end

end Sys2Proof.Machine
end

