-- ==== Sys2Proof/Proofs/ClaimIndications.lean ====
section
/-! PROOFS. The indications of CLAIM, WITHDRAW and RELEASE by the tests of R11 (O44, first part), and storage upsets (O10). -/

namespace Sys2Proof.Machine

/-- The record of a pair is the one that the search finds. -/
theorem searchPool_of_mem {recs : List PoolRecord} (h : ∀ r ∈ recs, r.sound = true) (hd : PairsDistinct recs) {r : PoolRecord}
    (hr : r ∈ recs) : searchPool r.station r.client recs = .found r := by
  obtain ⟨x, hx, h1, h2, e⟩ := searchPool_some h ⟨r, hr, rfl, rfl⟩
  have same : x = r := by
    by_contra hne
    have symm : ∀ a b : PoolRecord, ¬ (a.station = b.station ∧ a.client = b.client) → ¬ (b.station = a.station ∧ b.client = a.client) :=
      fun _ _ n e => n ⟨e.1.symm, e.2.symm⟩
    have : Std.Symm (fun a b : PoolRecord => ¬ (a.station = b.station ∧ a.client = b.client)) := ⟨symm⟩
    exact List.Pairwise.forall hd hx hr hne ⟨h1, h2⟩
  rw [e, same]

section
variable {s : State} {h : Heard}

/-- The notice, the member and the replica of O44. -/
structure MemberTakes (s : State) (h : Heard) : Prop where
  station : s.session.station.member
  tag : h.notice.tag = s.session.tag
  own : h.notice.sender = s.own → h.own = true
  thawed : s.pool.frozen = false
  sound : AllSound s
  distinct : PairsDistinct s.pool.records
  clean : Clean s

/-- The indications of a pass, as O44 says them. -/
theorem State.toldPass_held (hc : Clean s) (p : Pass) (k : Word) (c : Client) (i : Indication) :
    State.toldPass p.granted h.notice.sender c i ((s.countedFor h.notice.sender).held ⟨p.records, false⟩ k) =
      (({ s.countedFor h.notice.sender with
        pool := ⟨p.records, false⟩, checker := { s.checker with tableCheck := k } } : State).tellSender h.notice.sender c i).tellGranted
          s.own p.granted := by
  rw [State.toldPass_eq, (hc.countedFor h.notice.sender).held]
  rfl

variable (m : MemberTakes s h)
include m

/-- CLAIM (R11 to R13). -/
theorem MemberTakes.claim {c : Client} {k : Class} {set : Mask} (hb : h.notice.body = .claim c k set) :
    ((s.session.members.get h.notice.sender).state ≠ .present ∨ setValid s.port.n set = false →
      s.takeNotice h false none = (s.countedFor h.notice.sender).tellSender h.notice.sender c (.refused .notMember)) ∧
    ((s.session.members.get h.notice.sender).state = .present → setValid s.port.n set = true →
      ((∃ r ∈ s.pool.records, r.station = h.notice.sender ∧ r.client = c) →
        s.takeNotice h false none = (s.countedFor h.notice.sender).tellSender h.notice.sender c (.refused .duplicate)) ∧
      (¬ (∃ r ∈ s.pool.records, r.station = h.notice.sender ∧ r.client = c) → 64 ≤ s.pool.records.length →
        s.takeNotice h false none = (s.countedFor h.notice.sender).tellSender h.notice.sender c (.refused .poolFull)) ∧
      (¬ (∃ r ∈ s.pool.records, r.station = h.notice.sender ∧ r.client = c) → s.pool.records.length < 64 →
        s.takeNotice h false none =
          State.toldPass (grantPass s.port.threshold (s.pool.records ++ [⟨h.notice.sender, c, set, k, k, 0, .waiting, true⟩])).granted
            h.notice.sender c .accepted ((s.countedFor h.notice.sender).held
              ⟨(grantPass s.port.threshold (s.pool.records ++ [⟨h.notice.sender, c, set, k, k, 0, .waiting, true⟩])).records, false⟩
              (tableCheckOf s.session.members
                (grantPass s.port.threshold (s.pool.records ++ [⟨h.notice.sender, c, set, k, k, 0, .waiting, true⟩])).records)))) := by
  have hc : claimClient h.notice.body = some c := by rw [hb]; rfl
  have effect : (s.countedFor h.notice.sender).poolEffect true h.notice (some .evicted) (removedStations h.notice []) =
      (s.countedFor h.notice.sender).takeClaim true h.notice.sender c k set := by rw [State.poolEffect, hb]
  have sound : ∀ r ∈ (s.countedFor h.notice.sender).pool.records, r.sound = true := m.sound.1
  have told : ∀ {i}, (s.countedFor h.notice.sender).takeClaim true h.notice.sender c k set =
      (s.countedFor h.notice.sender).tellOwn true h.notice.sender c i →
        s.takeNotice h false none = (s.countedFor h.notice.sender).tellSender h.notice.sender c i := fun e =>
    State.takeNotice_told hc m.station m.tag m.own m.sound m.clean (effect.trans e)
  refine ⟨fun hn => told (State.takeClaim_notMember m.thawed hn), fun hp hv => ?_⟩
  have past := State.takeClaim_admit (s := s.countedFor h.notice.sender) (tell := true) (c := c) (k := k) m.thawed hp hv
  refine ⟨fun hd => told (past.trans (State.admitClaim_duplicate sound hd)), fun hd hl => ?_, fun hd hl => ?_⟩
  · exact told (past.trans (State.admitClaim_full sound (fun r hr e => hd ⟨r, hr, e⟩) hl))
  · refine State.takeNotice_passed hc m.station m.tag m.own m.sound m.thawed m.clean (fun r hr => ?_) (by simp)
      ((effect.trans past).trans (State.admitClaim_appended sound (fun r hr e => hd ⟨r, hr, e⟩) hl))
    rcases List.mem_append.1 hr with hr | hr
    · exact m.sound.1 r hr
    · rw [List.mem_singleton.1 hr]

/-- WITHDRAW and RELEASE (R14, R16). -/
theorem MemberTakes.drop {c : Client} {i : Option Standing → Indication}
    (hb : (h.notice.body = .withdraw c ∧ i = .withdrawn) ∨ ∃ code, h.notice.body = .release c code ∧ i = .released (decide (code = 1))) :
    ((∀ r ∈ s.pool.records, ¬ (r.station = h.notice.sender ∧ r.client = c)) →
      s.takeNotice h false none = (s.countedFor h.notice.sender).tellSender h.notice.sender c (i none)) ∧
    ∀ r ∈ s.pool.records, r.station = h.notice.sender → r.client = c → s.takeNotice h false none =
      State.toldPass (grantPass s.port.threshold
          (s.pool.records.filter fun x => !(decide (x.station = h.notice.sender) && decide (x.client = c)))).granted
        h.notice.sender c (i (some r.standing)) ((s.countedFor h.notice.sender).held
          ⟨(grantPass s.port.threshold
            (s.pool.records.filter fun x => !(decide (x.station = h.notice.sender) && decide (x.client = c)))).records, false⟩
          (tableCheckOf s.session.members (grantPass s.port.threshold
            (s.pool.records.filter fun x => !(decide (x.station = h.notice.sender) && decide (x.client = c)))).records)) := by
  have hc : claimClient h.notice.body = some c := by rcases hb with ⟨e, -⟩ | ⟨_, e, -⟩ <;> rw [e] <;> rfl
  have thawed : (s.countedFor h.notice.sender).pool.frozen = false := m.thawed
  have effect : (s.countedFor h.notice.sender).poolEffect true h.notice (some .evicted) (removedStations h.notice []) =
      State.dropRecord true h.notice.sender c i (s.countedFor h.notice.sender) := by
    rcases hb with ⟨e, rfl⟩ | ⟨_, e, rfl⟩
    · rw [State.poolEffect, e]
      exact State.withPool_thawed thawed _
    · rw [State.poolEffect, e]
      exact State.withPool_thawed thawed _
  have sound : ∀ r ∈ (s.countedFor h.notice.sender).pool.records, r.sound = true := m.sound.1
  refine ⟨fun hn => ?_, fun r hr h1 h2 => ?_⟩
  · refine State.takeNotice_told hc m.station m.tag m.own m.sound m.clean (effect.trans ?_)
    rw [State.dropRecord, searchPool_none sound hn]
    rfl
  · refine State.takeNotice_passed hc m.station m.tag m.own m.sound m.thawed m.clean
      (fun r hr => m.sound.1 r (List.mem_of_mem_filter hr)) ?_ (effect.trans ?_)
    · exact (List.length_filter_lt_length_iff_exists.2 ⟨r, hr, by simp [h1, h2]⟩).ne
    · have found := searchPool_of_mem sound m.distinct hr
      rw [h1, h2] at found
      rw [State.dropRecord, found]
      dsimp only
      rw [withoutPair_sound sound]
      rfl

end

/-- The first part of O44. -/
theorem claimIndications (s : State) (h : Heard) (m : MemberTakes s.taking h) (hd : s.bus.delivered = some h) :
    (let sender := h.notice.sender;
    let tell := fun (t : State) (c : Client) (i : Indication) => if sender = s.own then t.indicate c i else t;
    let counted : State := { s.taking with
      session := { s.session with count := s.session.count + 1#16 }, timers := s.restarted sender };
    let passed := fun (p : Pass) (told : State → State) =>
      (p.granted.filter fun r => decide (r.station = s.own)).foldl (fun t r => t.indicate r.client .granted)
        (told { counted with
          pool := ⟨p.records, false⟩
          checker := { s.checker with tableCheck := tableCheckOf s.session.members p.records } });
    (∀ c k m, h.notice.body = .claim c k m →
      (let dup := ∃ r ∈ s.pool.records, r.station = sender ∧ r.client = c;
      ((s.session.members.get sender).state ≠ .present ∨ setValid s.port.n m = false →
        exec .noticeEffectsMade s = .next (tell counted c (.refused .notMember))) ∧
      ((s.session.members.get sender).state = .present → setValid s.port.n m = true →
        (dup → exec .noticeEffectsMade s = .next (tell counted c (.refused .duplicate))) ∧
        (¬ dup → 64 ≤ s.pool.records.length → exec .noticeEffectsMade s = .next (tell counted c (.refused .poolFull))) ∧
        (¬ dup → s.pool.records.length < 64 → exec .noticeEffectsMade s = .next
          (passed (grantPass s.port.threshold (s.pool.records ++ [⟨sender, c, m, k, k, 0, .waiting, true⟩]))
            fun t => tell t c .accepted))))) ∧
    ∀ (c : Client) (i : Option Standing → Indication),
      (h.notice.body = .withdraw c ∧ i = .withdrawn) ∨
        (∃ code, h.notice.body = .release c code ∧ i = .released (decide (code = 1))) →
      ((∀ r ∈ s.pool.records, ¬ (r.station = sender ∧ r.client = c)) → exec .noticeEffectsMade s = .next (tell counted c (i none))) ∧
      ∀ r ∈ s.pool.records, r.station = sender → r.client = c → exec .noticeEffectsMade s = .next
        (passed (grantPass s.port.threshold
          (s.pool.records.filter fun x => !(decide (x.station = sender) && decide (x.client = c))))
          fun t => tell t c (i (some r.standing)))) := by
  have passed := fun (p : Pass) (c : Client) (i : Indication) =>
    State.toldPass_held (s := s.taking) (h := h) m.clean p (tableCheckOf s.session.members p.records) c i
  refine ⟨fun c k set hb => ?_, fun c i hb => ?_⟩
  · obtain ⟨refused, admitted⟩ := m.claim hb
    refine ⟨fun hn => (exec_effects hd).trans (congrArg _ (refused hn)), fun hp hv => ?_⟩
    obtain ⟨dup, full, appended⟩ := admitted hp hv
    exact ⟨fun e => (exec_effects hd).trans (congrArg _ (dup e)), fun e l => (exec_effects hd).trans (congrArg _ (full e l)),
      fun e l => (exec_effects hd).trans (congrArg _ ((appended e l).trans (passed _ c _)))⟩
  · obtain ⟨missing, found⟩ := m.drop hb
    exact ⟨fun hn => (exec_effects hd).trans (congrArg _ (missing hn)),
      fun r hr h1 h2 => (exec_effects hd).trans (congrArg _ ((found r hr h1 h2).trans (passed _ c _)))⟩

end Sys2Proof.Machine
end

