-- ==== Sys2Proof/Proofs/Upsets.lean ====
section
/-! PROOFS. The room of a taken notice, and storage upsets by station state (O10). -/

namespace Sys2Proof.Machine

/-- Pool and serving stay (or serving ends), and session and checker with them, or a mismatch has queued LEAVE(RESYNC). -/
def Mild (s t : State) : Prop :=
  t.pool = s.pool ∧ (t.sponsor.serving = s.sponsor.serving ∨ t.sponsor.serving = none) ∧
    ((t.session = s.session ∧ t.checker = s.checker) ∨
      ((s.session.station = .active ∨ s.session.station = .announcing) ∧ t.session = s.resyncing ∧ t.checker.resyncPending = true))

theorem Mild.refl (s : State) : Mild s s := ⟨rfl, .inl rfl, .inl ⟨rfl, rfl⟩⟩

theorem Mild.trans {s t u : State} (h : Mild s t) (k : Mild t u) : Mild s u := by
  obtain ⟨hp, hv, hs⟩ := h
  obtain ⟨kp, kv, ks⟩ := k
  refine ⟨kp.trans hp, ?_, ?_⟩
  · rcases kv with e | e
    · rw [e]; exact hv
    · exact .inr e
  · rcases hs with ⟨es, ec⟩ | ⟨ea, es, ec⟩
    · rcases ks with ⟨fs, fc⟩ | ⟨fa, fs, fc⟩
      · exact .inl ⟨fs.trans es, fc.trans ec⟩
      · exact .inr ⟨by rw [← es]; exact fa, fs.trans (State.resyncing_congr es), fc⟩
    · rcases ks with ⟨fs, fc⟩ | ⟨fa, -⟩
      · exact .inr ⟨ea, fs.trans es, by rw [fc]; exact ec⟩
      · rw [es] at fa
        rcases fa with e | e <;> cases e

theorem Mild.foldl {α : Type} {f : State → α → State} (h : ∀ s a, Mild s (f s a)) (l : List α) (s : State) : Mild s (l.foldl f s) := by
  induction l generalizing s with
  | nil => exact .refl s
  | cons a l ih => exact (h s a).trans (ih _)

section
variable (s : State)

theorem State.setSlot_mild (c : Client) (v : Slot) : Mild s (s.setSlot c v) := ⟨by simp, by simp, by simp⟩

theorem State.submit_mild (b : Body) : Mild s (s.submit b).1 := .refl s

/-- What the queuing of a LEAVE leaves of pool and checker. -/
theorem State.queueLeave_parts (r : LeaveReason) : (s.queueLeave r).pool = s.pool ∧ (s.queueLeave r).sponsor.serving = none ∧
    (s.queueLeave r).checker = { s.checker with suspect := none } := by
  rw [State.queueLeave, State.enter_eq]
  simp [State.recordLeave, State.stopLoading, State.placeLeave, State.closeSlots_eq, State.purge, State.dropOwed_eq]

/-- An upset of a station that resynchronises, and what is left of it where it is reported already. -/
theorem State.upset_resyncs (hs : s.session.station.resyncs) (hp : s.checker.resyncPending = false) :
    s.upset = s.markUpset.queueLeave .resync := by
  unfold State.upset
  rw [hp]
  rcases hs with e | e | e <;> rw [e] <;> rfl

theorem State.mismatch_mild : Mild s s.mismatch := by
  have told : s.session.station = .active ∨ s.session.station = .announcing → Mild s s.upset := fun hs => by
    cases hp : s.checker.resyncPending with
    | true => rw [State.upset_pending hp]; exact .refl s
    | false =>
      rw [State.upset_resyncs s (hs.elim .inl fun e => .inr (.inl e)) hp]
      obtain ⟨ep, ev, ec⟩ := s.markUpset.queueLeave_parts .resync
      exact ⟨ep, .inr ev, .inr ⟨hs, State.queueLeave_session _ _, by rw [ec]; rfl⟩⟩
  unfold State.mismatch
  cases e : s.session.station
  case active => exact told (.inl e)
  case announcing => exact told (.inr e)
  all_goals exact .refl s

theorem State.serveEvict_mild (t : Addr) : Mild s (s.serveEvict t) := by
  unfold State.serveEvict; dsimp only; split
  · split <;> exact .refl s
  · exact .refl s

theorem State.serveSlot_mild (claims : Bool) (c : Client) : Mild s (State.serveSlot claims s c) := by
  unfold State.serveSlot; dsimp only; split
  · split
    · exact .refl s
    · split
      · exact (Mild.refl s).trans (State.setSlot_mild _ _ _)
      · exact s.mismatch_mild
      all_goals exact .refl s
  · exact .refl s

theorem State.serveAnswer_mild : Mild s s.serveAnswer := by
  unfold State.serveAnswer; dsimp only; split
  · exact .refl s
  · split <;> exact .refl s

theorem State.serveBeacon_mild : Mild s s.serveBeacon := by
  unfold State.serveBeacon; dsimp only; split
  · split <;> exact .refl s
  · exact .refl s

theorem State.serveOwed_mild : Mild s s.serveOwed :=
  ((((Mild.foldl (fun s t => s.serveEvict_mild t) sixteen s).trans
    (Mild.foldl (fun s c => s.serveSlot_mild false c) sixteen _)).trans (State.serveAnswer_mild _)).trans
      (State.serveBeacon_mild _)).trans (Mild.foldl (fun s c => s.serveSlot_mild true c) sixteen _)

theorem State.startClaim_mild (c : Client) (m : Mask) (k : Class) : Mild s (s.startClaim c m k) := by
  unfold State.startClaim; dsimp only; split
  · exact (Mild.refl s).trans (State.setSlot_mild _ _ _)
  · exact s.setSlot_mild _ _
  · exact s.setSlot_mild _ _
  all_goals exact s.mismatch_mild

theorem State.testEnded_mild (c : Option Client) : Mild s (s.testEnded c) := by
  cases c with
  | none => exact .refl s
  | some c =>
    unfold State.testEnded State.testClient
    dsimp only
    split
    · unfold State.testLine; split
      · exact s.startClaim_mild _ _ _
      · exact .refl s
    · exact .refl s

theorem State.offerRoom_mild (room : Bool) (c : Option Client) : Mild s (s.offerRoom room c) := by
  unfold State.offerRoom; split
  · exact s.serveOwed_mild.trans (State.testEnded_mild _ _)
  · exact s.testEnded_mild c

theorem State.recall_mild (h : Heard) : Mild s (s.recall h) := by
  have evict : Mild s (s.recallEvict h.notice) := by
    unfold State.recallEvict; split <;> exact .refl s
  have owed : ∀ t : State, Mild t t.dropOwedSnap := fun t => by
    unfold State.dropOwedSnap; split
    · split <;> exact .refl t
    · exact .refl t
  have snaps : ∀ t : State, Mild t (t.recallSnaps h.notice) := fun t => by
    unfold State.recallSnaps; split
    · exact .refl t
    · split
      · have stop : Mild t (t.setSponsor { t.sponsor with serving := none }) := ⟨rfl, .inr rfl, .inl ⟨rfl, rfl⟩⟩
        exact (stop.trans (owed _)).trans (.refl _)
      · exact .refl t
  unfold State.recall
  cases s.session.station
  case announcing | active | leaving =>
    dsimp only; split
    · exact evict.trans (snaps _)
    · exact .refl s
  case founding | seeking => dsimp only; split <;> exact .refl s
  all_goals exact .refl s

variable {s}

/-- Dated work of this sort is of this sort. -/
theorem State.dated_mild (n : Notice) {work : State → State} (k : ∀ s : State, Mild s (work s)) : Mild s (s.dated n work) := by
  obtain ⟨kp, kv, ks⟩ := k (s.setCount (s.countAfter n))
  refine ⟨kp, kv, ?_⟩
  rcases ks with ⟨es, ec⟩ | ⟨ea, es, ec⟩
  · exact .inl ⟨by simp only [State.dated, State.setCount, State.setSession] at es ⊢; rw [es], ec⟩
  · exact .inr ⟨ea, by simp only [State.dated, State.setCount, State.setSession] at es ⊢; rw [es]; rfl, ec⟩

theorem State.makeRoom_mild (s : State) (h : Heard) (r : Bool) (c : Option Client) : Mild s (s.makeRoom h r c) :=
  (s.recall_mild h).trans (State.dated_mild _ fun u => u.offerRoom_mild _ c)

/-! ### A failing record at the pool's head (R40) -/

/-- Steps 1 and 2 of R125 where the member records read pass their check. -/
theorem State.stepped_parts {h : Heard} (hm : ∀ a ∈ recordsRead h.notice, (s.session.members.get a).sound = true) :
    (s.stepped h).session = (s.countNotice h.notice.body).session ∧ (s.stepped h).pool = s.pool ∧ (s.stepped h).checker = s.checker := by
  have count : (s.countNotice h.notice.body).pool = s.pool ∧ (s.countNotice h.notice.body).checker = s.checker := by
    unfold State.countNotice; split <;> exact ⟨rfl, rfl⟩
  have members := (s.countNotice_same h.notice.body).1
  have clash : ((s.countNotice h.notice.body).noteClash h).session = (s.countNotice h.notice.body).session ∧
      ((s.countNotice h.notice.body).noteClash h).pool = s.pool ∧ ((s.countNotice h.notice.body).noteClash h).checker = s.checker := by
    unfold State.noteClash; split <;> exact ⟨rfl, count⟩
  have one : s.stepOne h = (s.countNotice h.notice.body).noteClash h :=
    State.readMembers_sound fun a ha => by rw [clash.1, members]; exact hm a ha
  rw [State.stepped, one]
  unfold State.restartAbsence; dsimp only; split <;> exact clash

/-- A search that meets a failing record freezes the pool; the station resynchronises, or does so already. -/
theorem State.freeze_parts (hs : s.session.station.resyncs ∧ s.checker.resyncPending = false ∨ s.checker.resyncPending = true) :
    s.freeze.pool = { s.pool with frozen := true } ∧ s.freeze.checker.resyncPending = true ∧
      s.freeze.session = if s.checker.resyncPending = true then s.session else s.resyncing := by
  have frozen : s.freeze = (s.setPool { s.pool with frozen := true }).upset := rfl
  rw [frozen]
  rcases hs with ⟨hs, hp⟩ | hp
  · rw [State.upset_resyncs _ (by exact hs) (by exact hp)]
    obtain ⟨ep, -, ec⟩ := (s.setPool { s.pool with frozen := true }).markUpset.queueLeave_parts .resync
    refine ⟨ep, by rw [ec]; rfl, ?_⟩
    rw [State.queueLeave_session, hp]
    rfl
  · rw [State.upset_pending (by exact hp), hp]
    exact ⟨rfl, hp, rfl⟩

theorem State.clearSuspect_parts (s : State) : s.clearSuspect.session = s.session ∧
    s.clearSuspect.checker.tableCheck = s.checker.tableCheck ∧ s.clearSuspect.pool = s.pool ∧
      s.clearSuspect.checker.resyncPending = s.checker.resyncPending := by
  unfold State.clearSuspect; split
  · split <;> exact ⟨rfl, rfl, rfl, rfl⟩
  · exact ⟨rfl, rfl, rfl, rfl⟩

/-- A taken CLAIM whose search meets the failing record at the pool's head is not applied. -/
theorem State.takeNotice_failing {h : Heard} {c : Client} {k : Class} {m : Mask} {r : PoolRecord} {rs : List PoolRecord}
    (hs : s.session.station = .announcing ∨ s.session.station = .active) (hq : s.checker.resyncPending = false)
    (ht : h.notice.tag = s.session.tag) (hb : h.notice.body = .claim c k m)
    (hp : (s.session.members.get h.notice.sender).state = .present) (hm : (s.session.members.get h.notice.sender).sound = true)
    (hv : setValid s.port.n m = true) (hl : s.pool = ⟨r :: rs, false⟩) (hr : r.sound = false) :
    (s.takeNotice h false none).pool = ⟨r :: rs, true⟩ ∧ (s.takeNotice h false none).checker.resyncPending = true ∧
      (s.takeNotice h false none).session = { s.resyncing with count := s.session.count + 1#16 } := by
  have hc : claimClient h.notice.body = some c := by rw [hb]; rfl
  have member : s.session.station.member := hs.elim .inl fun e => .inr (.inl e)
  obtain ⟨mp, -, ms⟩ := s.makeRoom_mild h false none
  have mk := s.makeRoom_kept h false none
  obtain ⟨mm, mt, mr⟩ := mk.session.member member
  have mc := (s.makeRoom_replica h false none).2.2.1
  rw [State.takeNotice]
  generalize s.makeRoom h false none = a at mp ms mk mm mt mr mc
  rw [State.handle_claim hc mm (ht.trans mt.symm)]
  have reads : ∀ b ∈ recordsRead h.notice, (a.session.members.get b).sound = true := by
    rw [recordsRead, hb]
    intro b hb
    rw [List.mem_singleton.1 hb, mr]
    exact hm
  obtain ⟨us, up, uc⟩ := State.stepped_parts reads
  have uw := (mk.wired.trans (a.stepped_wired h)).1.1
  have quiet := (a.stepped_quiet h).replica
  have counts : (a.countNotice h.notice.body).session = { a.session with count := a.session.count + 1#16 } := by rw [hb]; rfl
  rw [counts] at us
  generalize a.stepped h = u at us up uc uw quiet
  have effect : u.poolEffect true h.notice (some .evicted) (removedStations h.notice []) = u.freeze := by
    have pool : u.pool = ⟨r :: rs, false⟩ := up.trans (mp.trans hl)
    rw [State.poolEffect, hb]
    dsimp only
    rw [State.takeClaim_admit (by rw [pool]) (by rw [us]; exact mr ▸ hp) (by simp only [Port.n, uw]; exact hv), State.admitClaim, pool,
      searchPool, hr]
    rfl
  have pending : u.session.station.resyncs ∧ u.checker.resyncPending = false ∨ u.checker.resyncPending = true := by
    rcases ms with ⟨es, ec⟩ | ⟨-, -, ec⟩
    · exact .inl ⟨by rw [us, es]; exact hs.elim (fun e => .inr (.inl e)) .inl, by rw [uc, ec]; exact hq⟩
    · exact .inr (by rw [uc]; exact ec)
  have session : (if u.checker.resyncPending = true then u.session else u.resyncing) = { s.resyncing with count := s.session.count + 1#16 } := by
    rcases ms with ⟨es, ec⟩ | ⟨-, es, ec⟩
    · rw [uc, ec, hq, if_neg Bool.false_ne_true]
      simp only [State.resyncing, State.syncFlag, State.runsAbsence, us, es]
    · rw [uc, ec, if_pos rfl, us, es]
      rfl
  obtain ⟨fp, fc, fs⟩ := State.freeze_parts pending
  rw [session] at fs
  have fails : u.poolFails = true := by
    rw [State.poolFails, up, mp, hl]
    simp [hr]
  have ft : u.freeze.checker.tableCheck = s.checker.tableCheck :=
    (State.freeze_quiet u fails).replica.2.2.2.2.trans ((congrArg Checker.tableCheck uc).trans mc)
  rw [effect, State.localEffects_plain (.inl (by rw [hc]; simp))]
  obtain ⟨ls, lt, lp, lq⟩ := u.freeze.pruneAnswers.clearSuspect_parts
  have ls := ls.trans fs
  have lp := lp.trans (fp.trans (by rw [up, mp, hl]))
  rw [State.recheck_same member.ne_loading (by rw [ls]; rfl) (by rw [lp, hl]) (lt.trans ft),
    State.makeAnswers_none (.inr (by rw [ls]; simp [State.resyncing])), State.postActive_none (.inl (by rw [ls]; simp [State.resyncing]))]
  exact ⟨lp, lq.trans fc, ls⟩

end

/-- Settles O10: by station state and the resync-pending flag; a failing record at the head of the pool stops a taken CLAIM. -/
theorem storageUpsetByStationState : Obligations.StorageUpsetByStationState := by
  refine ⟨fun s => ⟨State.upset_pending, fun hp => ⟨fun hs => ?_, fun hs => ?_, fun h1 h2 h3 h4 => ?_⟩, rfl, fun hs => ?_, fun h1 h2 => ?_⟩,
    fun s h c k m r rs hs hq hd ht hb hp hm hv hl hr => ?_⟩
  · exact s.upset_resyncs (hs.elim .inl fun e => e.elim (fun e => .inr (.inl e)) fun e => .inr (.inr e)) hp
  · simp only [State.upset, hp, hs]
    rfl
  · unfold State.upset
    rw [hp]
    cases e : s.session.station <;> first | contradiction | rfl
  · rcases hs with e | e <;> rw [State.mismatch, e]
  · unfold State.mismatch
    cases e : s.session.station <;> first | contradiction | rfl
  · obtain ⟨e1, e2, e3⟩ := State.takeNotice_failing (s := s.taking) hs hq ht hb hp hm hv hl hr
    refine ⟨_, exec_effects hd, e1, e2, e3.trans ?_⟩
    have sync : s.taking.syncFlag = true := by
      rcases hs with e | e <;> exact by rw [State.syncFlag, State.runsAbsence, show s.taking.session.station = _ from e]
    rw [State.resyncing, sync]
    rfl

end Sys2Proof.Machine
end

