-- ==== Sys2Proof/Proofs/Served.lean ====
section
/-! PROOFS. The room of a taken notice where every owed notice can be placed: nothing is posted, and no slot ends (O44, second part). -/

namespace Sys2Proof.Machine

/-- A slot that a teardown reports: neither FREE nor in RETRY. -/
def Slot.live (v : Slot) : Bool := decide (v.state ≠ .free) && decide (v.state ≠ .retry)

/-- The slot is the same, or its claim goes on. -/
def Slot.alike (v w : Slot) : Prop := w = v ∨ (v.live = true ∧ w.live = true ∧ w.lastEnd = v.lastEnd)

theorem Slot.alike.trans {v w x : Slot} (h : v.alike w) (k : w.alike x) : v.alike x := by
  rcases h with rfl | ⟨h1, h2, h3⟩
  · exact k
  · rcases k with rfl | ⟨k1, k2, k3⟩
    · exact .inr ⟨h1, h2, h3⟩
    · exact .inr ⟨h1, k2, k3.trans h3⟩

/-- What is owed can be placed, and is owed by claims that go on. -/
def Apart (s : State) : Prop := OwedApart s ∧ ∀ c, (s.slot c).owed ≠ .none → (s.slot c).live = true

/-- A slot in its form owes for a claim that goes on. -/
theorem Slot.form.live {c : Client} {v : Slot} (h : v.form c) (ho : v.owed ≠ .none) : v.live = true := by
  obtain ⟨hs, -, -⟩ := h
  cases e : v.state <;> simp only [e] at hs
  case free => rw [hs] at ho; exact absurd rfl ho
  case retry => exact absurd hs.2.1 ho
  all_goals simp [Slot.live, e]

/-- Outbox, sponsor and the claims' notices apart, the station is as before. -/
def Served (s t : State) : Prop :=
  Apart s → (t.session = s.session ∧ t.pool = s.pool ∧ t.checker = s.checker ∧ t.port = s.port ∧ t.straps = s.straps) ∧
    (∀ c, (s.slot c).alike (t.slot c)) ∧ Apart t

theorem Served.refl (s : State) : Served s s := fun h => ⟨⟨rfl, rfl, rfl, rfl, rfl⟩, fun _ => .inl rfl, h⟩

theorem Served.trans {s t u : State} (h : Served s t) (k : Served t u) : Served s u := fun a => by
  obtain ⟨⟨h1, h2, h3, h4, h5⟩, hs, ha⟩ := h a
  obtain ⟨⟨k1, k2, k3, k4, k5⟩, ks, ka⟩ := k ha
  exact ⟨⟨k1.trans h1, k2.trans h2, k3.trans h3, k4.trans h4, k5.trans h5⟩, fun c => (hs c).trans (ks c), ka⟩

theorem Served.foldl {α : Type} {f : State → α → State} (h : ∀ s a, Served s (f s a)) (l : List α) (s : State) : Served s (l.foldl f s) := by
  induction l generalizing s with
  | nil => exact .refl s
  | cons a l ih => exact (h s a).trans (ih _)

section
variable (s : State)

/-- Entries of no claim, or fewer entries, and fewer answers owed, keep apart what is owed. -/
theorem Served.outbox {x : Outbox} {p : Sponsor} (hx : ∀ e ∈ x.entries, claimClient e.body = none ∨ ∃ d ∈ s.outbox.entries, d.body = e.body)
    (hp : p.owedAnswer = s.sponsor.owedAnswer ∨ p.owedAnswer = none) : Served s ((s.setOutbox x).setSponsor p) := fun ⟨⟨ho, ha⟩, hl⟩ => by
  refine ⟨⟨rfl, rfl, rfl, rfl, rfl⟩, fun _ => .inl rfl, ⟨fun c hc e he => ?_, fun b hb => ?_⟩, hl⟩
  · rcases hx e he with h | ⟨d, hd, h⟩
    · rw [h]; nofun
    · rw [← h]; exact ho c hc d hd
  · rcases hp with h | h
    · exact ha b (by rw [← h]; exact hb)
    · have hb : b ∈ p.owedAnswer := hb
      rw [h] at hb; cases hb

theorem mem_submit {o : Outbox} {b : Body} {tag : Word} {w : Owner} {e : Entry} (h : e ∈ (o.submit b tag w).1.entries) :
    e.body = b ∨ e ∈ o.entries := by
  unfold Outbox.submit at h
  split at h
  · exact .inr h
  · split at h
    · rcases mem_insertEntry.1 h with rfl | h
      · exact .inl rfl
      · exact .inr h
    · exact .inr h

theorem State.mem_offer {b : Body} {w : Owner} {e : Entry} (h : e ∈ (s.offer b w).1.entries) : e.body = b ∨ e ∈ s.outbox.entries := by
  unfold State.offer at h
  split at h
  · exact .inr h
  · exact mem_submit h

/-- A notice of no claim submitted. -/
theorem State.submit_served {b : Body} (hb : claimClient b = none) {p : Sponsor}
    (hp : p.owedAnswer = s.sponsor.owedAnswer ∨ p.owedAnswer = none) : Served s ((s.submit b).1.setSponsor p) :=
  .outbox s (x := (s.offer b .session).1) (fun e he => (s.mem_offer he).elim (fun h => .inl (by rw [h]; exact hb)) fun h => .inr ⟨e, h, rfl⟩) hp

theorem State.serveEvict_served (t : Addr) : Served s (s.serveEvict t) := by
  unfold State.serveEvict; dsimp only; split
  · split
    iterate 2 exact s.submit_served rfl (.inl rfl)
    all_goals exact .refl s
  · exact .refl s

theorem State.serveBeacon_served : Served s s.serveBeacon := by
  unfold State.serveBeacon; dsimp only; split
  · split
    iterate 2 exact s.submit_served rfl (.inl rfl)
    all_goals exact .refl s
  · exact .refl s

theorem claimClient_of_tier {b : Body} (h : b.tier = 2) : claimClient b = none := by
  cases b <;> first | rfl | cases h

theorem State.serveAnswer_served : Served s s.serveAnswer := fun ha => by
  refine (?_ : Served s s.serveAnswer) ha
  unfold State.serveAnswer; dsimp only; split
  · exact .refl s
  · rename_i b hb
    split
    · exact s.submit_served (claimClient_of_tier (ha.1.2 b hb)) (.inr rfl)
    all_goals exact .refl s

theorem slotBody_claims {c : Client} {v : Slot} {b : Body} (h : slotBody c v v.owed = some b) : claimClient b = some c ∧ v.owed ≠ .none := by
  cases e : v.owed <;> simp [e, slotBody] at h <;> subst h <;> exact ⟨rfl, by simp⟩

/-- A claim notice of a client with none in the Outbox meets no limit. -/
theorem Outbox.submit_fits {o : Outbox} {b : Body} {c : Client} (hb : claimClient b = some c)
    (ho : ∀ e ∈ o.entries, claimClient e.body ≠ some c) (tag : Word) (w : Owner) :
    (o.submit b tag w).2 = .placed ∨ (o.submit b tag w).2 = .noRoom := by
  have none : ¬ o.hasClaimNotice c = true := by simpa [Outbox.hasClaimNotice] using ho
  rw [o.submit_claim hb, if_neg none]
  split
  · exact .inl rfl
  · exact .inr rfl

theorem State.serveSlot_served (claims : Bool) (c : Client) : Served s (State.serveSlot claims s c) := fun ha => by
  refine (?_ : Served s (State.serveSlot claims s c)) ha
  obtain ⟨⟨ho, hb⟩, hl⟩ := ha
  unfold State.serveSlot
  dsimp only
  split
  · split
    · exact .refl s
    · rename_i body hbody
      obtain ⟨hc, hw⟩ := slotBody_claims hbody
      have offer : (s.offer body (.claimUnit c)).2 ≠ .slotBusy := by
        unfold State.offer
        split
        · nofun
        · rcases Outbox.submit_fits hc (ho c hw) s.session.tag (.claimUnit c) with e | e <;> rw [e] <;> nofun
      split
      · have live := hl c hw
        refine fun _ => ⟨by simp, fun d => ?_, ⟨fun d hd e he => ?_, fun b h => hb b (by simpa using h)⟩, fun d hd => ?_⟩
        · simp only [State.setSlot_slot, State.setOutbox_slot]
          split
          · rename_i e
            rw [e]
            refine .inr ⟨live, ?_, rfl⟩
            cases claims
            · exact live
            · rfl
          · exact .inl rfl
        · simp only [State.setSlot_slot, State.setOutbox_slot, State.setSlot_outbox, State.setOutbox_outbox] at hd he
          split at hd
          · exact absurd rfl hd
          · rename_i hne
            rcases s.mem_offer he with h | h
            · rw [h, hc]; exact fun e => hne (Option.some.inj e).symm
            · exact ho d hd e h
        · simp only [State.setSlot_slot, State.setOutbox_slot] at hd ⊢
          split at hd
          · exact absurd rfl hd
          · rename_i hne
            rw [if_neg hne]; exact hl d hd
      · exact absurd ‹_› offer
      all_goals exact .refl s
  · exact .refl s

theorem State.serveOwed_served : Served s s.serveOwed :=
  ((((Served.foldl (fun s t => s.serveEvict_served t) sixteen s).trans
    (Served.foldl (fun s c => s.serveSlot_served false c) sixteen _)).trans (State.serveAnswer_served _)).trans
      (State.serveBeacon_served _)).trans (Served.foldl (fun s c => s.serveSlot_served true c) sixteen _)

theorem mem_removeUnsent {o : Outbox} {test : Entry → Bool} {e : Entry} (h : e ∈ (o.removeUnsent test).entries) :
    ∃ d ∈ o.entries, d.body = e.body := by
  obtain ⟨d, hd, rfl⟩ := List.mem_map.1 (List.mem_of_mem_filter h)
  exact ⟨d, hd, by split <;> rfl⟩

theorem State.askBack_served (test : Entry → Bool) : Served s (s.askBack test) :=
  Served.outbox s (x := s.outbox.removeUnsent test) (p := s.sponsor) (fun _ he => .inr (mem_removeUnsent he)) (.inl rfl)

theorem Served.sponsor {p : Sponsor} (hp : p.owedAnswer = s.sponsor.owedAnswer ∨ p.owedAnswer = none) : Served s (s.setSponsor p) :=
  Served.outbox s (x := s.outbox) (fun e he => .inr ⟨e, he, rfl⟩) hp

theorem State.recall_served (h : Heard) : Served s (s.recall h) := by
  have evict : Served s (s.recallEvict h.notice) := by
    unfold State.recallEvict; split
    · exact (Served.sponsor s (.inl rfl)).trans (State.askBack_served _ _)
    · exact .refl s
  have owed : ∀ t : State, Served t t.dropOwedSnap := fun t => by
    unfold State.dropOwedSnap; split
    · split
      · exact Served.sponsor t (.inr rfl)
      · exact .refl t
    · exact .refl t
  have snaps : ∀ t : State, Served t (t.recallSnaps h.notice) := fun t => by
    unfold State.recallSnaps; split
    · exact .refl t
    · split
      · have stop : Served t (t.setSponsor { t.sponsor with serving := none }) := Served.sponsor t (.inl rfl)
        exact (stop.trans (owed _)).trans (State.askBack_served _ _)
      · exact .refl t
  unfold State.recall
  cases s.session.station
  case announcing | active | leaving =>
    dsimp only; split
    · exact evict.trans (snaps _)
    · exact .refl s
  case listening => exact s.askBack_served _
  case founding | seeking =>
    dsimp only; split
    all_goals first | exact s.askBack_served _ | exact .refl s
  all_goals exact .refl s

/-- Dated work of this sort is of this sort. -/
theorem State.dated_served (n : Notice) {work : State → State} (k : ∀ s : State, Served s (work s)) : Served s (s.dated n work) := fun ha => by
  obtain ⟨⟨e1, e2, e3, e4, e5⟩, hs, hp⟩ := k (s.setCount (s.countAfter n)) ha
  refine ⟨⟨?_, e2, e3, e4, e5⟩, hs, hp⟩
  simp only [State.dated, State.setCount, State.setSession] at e1 ⊢
  rw [e1]

/-- The room of a taken notice, where no slot ended with its round. -/
theorem State.makeRoom_served (h : Heard) (r : Bool) : Served s (s.makeRoom h r none) := by
  have room : ∀ (b : Bool) (t : State), Served t (t.offerRoom b none) := fun b t => by
    unfold State.offerRoom State.testEnded
    dsimp only
    split
    · exact t.serveOwed_served
    · exact .refl t
  exact (s.recall_served h).trans (State.dated_served _ _ (room _))

end

end Sys2Proof.Machine
end

