-- ==== Sys2Proof/Proofs/Endings.lean ====
section
/-! PROOFS. The end of the slots, slot by slot, and its events (R64 to R67; O44, second part). -/

namespace Sys2Proof.Machine

/-! ### Lists without repeats -/

/-- What is filtered first is filtered last. -/
theorem eraseDups_filter {α : Type} [BEq α] [LawfulBEq α] (p : α → Bool) (l : List α) : (l.filter p).eraseDups = l.eraseDups.filter p := by
  induction hn : l.length using Nat.strong_induction_on generalizing l with
  | _ n ih =>
    cases l with
    | nil => rfl
    | cons a as =>
      have shorter : (as.filter fun b => !b == a).length < n := by
        rw [← hn]
        exact Nat.lt_succ_of_le (List.length_filter_le _ _)
      have rest := ih _ shorter (as.filter fun b => !b == a) rfl
      rw [List.eraseDups_cons]
      cases hp : p a
      · rw [List.filter_cons_of_neg (by simp [hp]), List.filter_cons_of_neg (by simp [hp]), ← rest, List.filter_filter]
        refine congrArg List.eraseDups (List.filter_congr fun b _ => ?_)
        by_cases e : b = a
        · simp [e, hp]
        · simp [e]
      · rw [List.filter_cons_of_pos hp, List.filter_cons_of_pos hp, List.eraseDups_cons, ← rest, List.filter_filter, List.filter_filter]
        exact congrArg (fun l => a :: l.eraseDups) (List.filter_congr fun b _ => Bool.and_comm _ _)

theorem eraseDups_of_nodup {α : Type} [BEq α] [LawfulBEq α] {l : List α} (h : l.Nodup) : l.eraseDups = l := by
  induction l with
  | nil => rfl
  | cons a as ih =>
    obtain ⟨ha, has⟩ := List.nodup_cons.1 h
    have all : (as.filter fun b => !b == a) = as := List.filter_eq_self.2 fun b hb => by
      have : b ≠ a := fun e => ha (e ▸ hb)
      simp [this]
    rw [List.eraseDups_cons, all, ih has]

/-! ### Slots that end -/

/-- A slot that has ended, by a teardown that reports it with a reason, or with none. -/
def Slot.gone (v : Slot) (x : Option EndReason) : Slot :=
  if v.live then .freeWith (x.getD v.lastEnd) else if v.state = .free then v else .freeWith v.lastEnd

theorem Slot.gone_live (v : Slot) (x : Option EndReason) : (v.gone x).live = false := by
  unfold Slot.gone
  split
  · rfl
  · split
    · rename_i h; simp [Slot.live, h]
    · rfl

theorem Slot.gone_gone (v : Slot) (x : Option EndReason) : (v.gone x).gone x = v.gone x := by
  have free : (v.gone x).state = .free := by
    unfold Slot.gone
    split
    · rfl
    · split
      · assumption
      · rfl
  rw [Slot.gone, if_neg (by rw [Slot.gone_live]; simp), if_pos free]

/-- The events of an ending, in the order of a list of clients: one each, for the slots that are live. -/
def endEvents (x : Option EndReason) (n : Word) (l : List Client) : List Event :=
  match x with
  | some r => l.map fun c => ⟨.claimEnded r, c, n⟩
  | none => []

theorem endEvents_append (x : Option EndReason) (n : Word) (l k : List Client) : endEvents x n (l ++ k) = endEvents x n l ++ endEvents x n k := by
  cases x <;> simp [endEvents]

/-- The slots of the clients of a list have ended in its order; session, straps and the rest of the slots stay. -/
structure Ended (x : Option EndReason) (l : List Client) (s t : State) : Prop where
  session : t.session = s.session
  straps : t.straps = s.straps
  events : t.port.events =
    (endEvents x s.postCount (l.eraseDups.filter fun c => (s.slot c).live)).foldl (enqueue s.own) s.port.events
  slot : ∀ c, t.slot c = if c ∈ l then (s.slot c).gone x else s.slot c

theorem Ended.own {x : Option EndReason} {l : List Client} {s t : State} (h : Ended x l s t) : t.own = s.own :=
  congrArg Straps.address h.straps

theorem Ended.postCount {x : Option EndReason} {l : List Client} {s t : State} (h : Ended x l s t) : t.postCount = s.postCount := by
  simp only [State.postCount, h.session]

/-- Pool, outbox and the like are not looked at. -/
theorem Ended.of_same {x : Option EndReason} {s t : State} (h1 : t.session = s.session) (h2 : t.straps = s.straps)
    (h3 : t.port.events = s.port.events) (h4 : ∀ c, t.slot c = s.slot c) : Ended x [] s t :=
  ⟨h1, h2, by rw [h3]; cases x <;> rfl, fun c => by simp [h4]⟩

theorem Ended.trans {x : Option EndReason} {l k : List Client} {s t u : State} (h : Ended x l s t) (g : Ended x k t u) : Ended x (l ++ k) s u := by
  refine ⟨g.session.trans h.session, g.straps.trans h.straps, ?_, fun c => ?_⟩
  · have later : (k.eraseDups.filter fun c => (t.slot c).live) = ((k.removeAll l).eraseDups.filter fun c => (s.slot c).live) := by
      have e : k.removeAll l = k.filter fun c => !l.contains c := rfl
      rw [e, eraseDups_filter, List.filter_filter]
      refine List.filter_congr fun c _ => ?_
      rw [h.slot c]
      by_cases hc : c ∈ l
      · simp [hc, Slot.gone_live]
      · simp [hc]
    rw [g.events, h.events, h.own, h.postCount, later, ← List.foldl_append, ← endEvents_append, ← List.filter_append, List.eraseDups_append]
  · rw [g.slot c, h.slot c]
    by_cases hl : c ∈ l <;> by_cases hk : c ∈ k <;> simp [hl, hk, Slot.gone_gone]

/-- One slot. -/
theorem State.teardownSlot_ended (x : Option EndReason) (s : State) (c : Client) : Ended x [c] s (State.teardownSlot x s c) := by
  have one : ([c] : List Client).eraseDups = [c] := eraseDups_of_nodup (List.nodup_singleton c)
  have set : ∀ v, (s.slot c).gone x = v → (s.slot c).live = false → Ended x [c] s (s.setSlot c v) := fun v hv hl =>
    ⟨by simp, by simp, by rw [one]; cases x <;> simp [hl, endEvents], fun d => by
      by_cases e : d = c <;> simp [e, hv]⟩
  cases hs : (s.slot c).state
  case free =>
    have e : State.teardownSlot x s c = s := by unfold State.teardownSlot; rw [hs]
    have hl : (s.slot c).live = false := by simp [Slot.live, hs]
    have hg : (s.slot c).gone x = s.slot c := by rw [Slot.gone, hl, if_neg Bool.false_ne_true, if_pos hs]
    rw [e]
    exact ⟨rfl, rfl, by rw [one]; cases x <;> simp [hl, endEvents], fun d => by by_cases e : d = c <;> simp [e, hg]⟩
  case retry =>
    have e : State.teardownSlot x s c = s.freeSlot c := by unfold State.teardownSlot; rw [hs]
    have hl : (s.slot c).live = false := by simp [Slot.live, hs]
    rw [e]
    exact set _ (by rw [Slot.gone, hl, if_neg Bool.false_ne_true, if_neg (by rw [hs]; nofun)]) hl
  all_goals
    have hl : (s.slot c).live = true := by simp [Slot.live, hs]
    have hg : (s.slot c).gone x = .freeWith (x.getD (s.slot c).lastEnd) := by rw [Slot.gone, if_pos hl]
    cases x with
    | none =>
      have e : State.teardownSlot none s c = s.freeSlot c := by unfold State.teardownSlot; rw [hs]
      rw [e]
      exact ⟨by simp [State.freeSlot], by simp [State.freeSlot], by simp [State.freeSlot, endEvents],
        fun d => by by_cases e : d = c <;> simp [State.freeSlot, e, hg]⟩
    | some r =>
      have e : State.teardownSlot (some r) s c = s.endSlot c r := by unfold State.teardownSlot; rw [hs]
      rw [e]
      exact ⟨by simp [State.endSlot], by simp [State.endSlot, State.post], by
          rw [one]; simp [State.endSlot, State.post, endEvents, hl, State.postCount],
        fun d => by by_cases e : d = c <;> simp [State.endSlot, State.post, e, hg]⟩

/-- Several slots, in the order of a list. -/
theorem State.teardownSlots_ended (x : Option EndReason) (s : State) (l : List Client) : Ended x l s (l.foldl (State.teardownSlot x) s) := by
  induction l generalizing s with
  | nil => exact .of_same rfl rfl rfl fun _ => rfl
  | cons c l ih => exact (s.teardownSlot_ended x c).trans (ih _)

theorem State.teardown_ended (x : Option EndReason) (s : State) : Ended x sixteen s (s.teardown x) := s.teardownSlots_ended x sixteen

/-! ### The records of a station that leaves the session -/

theorem grantSteps_granted {t k : Nat} {recs : List PoolRecord} {r : PoolRecord} (h : r ∈ (grantSteps t k recs).granted) :
    ∃ w ∈ recs, r.station = w.station := by
  induction k generalizing recs with
  | zero => simp [grantSteps] at h
  | succ k ih =>
    unfold grantSteps at h
    split at h
    · simp at h
    · cases hb : bestGrantable recs with
      | none => simp [hb] at h
      | some g =>
        rw [hb] at h
        rcases List.mem_cons.1 h with rfl | h
        · exact ⟨_, List.mem_of_getElem? (bestGrantable_some hb).1, rfl⟩
        · obtain ⟨w, hw, e⟩ := ih h
          obtain ⟨v, hv, e2, -⟩ := mem_grantAt hw
          exact ⟨v, hv, e.trans e2⟩

/-- A pass over other stations' records tells this station nothing. -/
theorem State.runPass_others {s : State} (h : ∀ r ∈ s.pool.records, r.sound = true) (ho : ∀ r ∈ s.pool.records, r.station ≠ s.own) :
    s.runPass true = s.setPool { s.pool with records := (grantPass s.port.threshold s.pool.records).records } := by
  rw [State.runPass_eq h, State.foldl_tellGrants, State.tellGranted]
  have none : ((grantPass s.port.threshold s.pool.records).granted.filter fun r => decide (r.station =
      (s.setPool { s.pool with records := (grantPass s.port.threshold s.pool.records).records }).own)) = [] := by
    refine List.filter_eq_nil_iff.2 fun r hr => ?_
    obtain ⟨w, hw, e⟩ := grantSteps_granted hr
    simpa [e] using ho w hw
  rw [none]
  rfl

/-- REMOVED indications end this station's slots in pool order. -/
theorem State.foldl_tellRemoved (k : RemovalCause) (x : Option EndReason) (s : State) (l : List PoolRecord) :
    l.foldl (State.tellRemoved true k x) s =
      ((l.filter fun r => decide (r.station = s.own)).map PoolRecord.client).foldl (State.teardownSlot x) s := by
  induction l generalizing s with
  | nil => rfl
  | cons r l ih =>
    by_cases e : r.station = s.own
    · have one : State.tellRemoved true k x s r = State.teardownSlot x s r.client := by
        simp [State.tellRemoved, State.tellOwn, e, State.indicate]
      rw [List.foldl_cons, one, ih, (s.teardownSlot_ended x r.client).own]
      simp [e]
    · have one : State.tellRemoved true k x s r = s := by simp [State.tellRemoved, State.tellOwn, e]
      rw [List.foldl_cons, one, ih]
      simp [e]

theorem State.teardownSlots_pool (x : Option EndReason) (l : List Client) (s : State) : (l.foldl (State.teardownSlot x) s).pool = s.pool := by
  refine (Mild.foldl (f := State.teardownSlot x) (fun s c => ?_) l s).1
  unfold State.teardownSlot
  split
  · exact .refl s
  · exact s.setSlot_mild _ _
  · exact (s.setSlot_mild _ _).trans (.refl _)
  · exact s.setSlot_mild _ _

/-- The clients with a record of this station that a member removal ends, in pool order; none of a frozen pool. -/
def State.removedClients (s : State) : List Client :=
  if s.pool.frozen then [] else (s.pool.records.filter fun r => decide (r.station = s.own)).map PoolRecord.client

/-- The removal of this station's records, with those of others. -/
theorem State.removeRecords_ended {s : State} (h : ∀ r ∈ s.pool.records, r.sound = true) (k : RemovalCause) (x : Option EndReason)
    {as : List Addr} (ho : s.own ∈ as) : Ended x s.removedClients s (s.removeRecords true k x as) := by
  have some : as.isEmpty = false := by cases as <;> simp_all
  unfold State.removeRecords State.withPool State.removedClients
  rw [some, if_neg Bool.false_ne_true]
  split
  · exact .of_same rfl rfl rfl fun _ => rfl
  · unfold State.dropStations
    rw [State.poolFails_sound h, if_neg Bool.false_ne_true]
    dsimp only
    split
    · rename_i he
      have none : (s.pool.records.filter fun r => decide (r.station = s.own)) = [] := by
        refine List.filter_eq_nil_iff.2 fun r hr e => ?_
        have := List.filter_eq_nil_iff.1 (List.isEmpty_iff.1 he) r hr
        rw [of_decide_eq_true e] at this
        exact this (by simpa using ho)
      rw [none]
      exact .of_same rfl rfl rfl fun _ => rfl
    · have gone : ((s.pool.records.filter fun r => decide (r.station ∈ as)).filter fun r => decide (r.station = s.own)) =
          s.pool.records.filter fun r => decide (r.station = s.own) := by
        rw [List.filter_filter]
        refine List.filter_congr fun r _ => ?_
        by_cases e : r.station = s.own
        · simp [e, ho]
        · simp [e]
      rw [State.foldl_tellRemoved]
      have own : (s.setPool { s.pool with records := s.pool.records.filter fun r => decide (r.station ∉ as) }).own = s.own := rfl
      rw [own, gone]
      have ended := State.teardownSlots_ended x
        (s.setPool { s.pool with records := s.pool.records.filter fun r => decide (r.station ∉ as) })
        ((s.pool.records.filter fun r => decide (r.station = s.own)).map PoolRecord.client)
      have pool := State.teardownSlots_pool x
        ((s.pool.records.filter fun r => decide (r.station = s.own)).map PoolRecord.client)
        (s.setPool { s.pool with records := s.pool.records.filter fun r => decide (r.station ∉ as) })
      generalize List.foldl (State.teardownSlot x) (s.setPool { s.pool with records := s.pool.records.filter fun r => decide (r.station ∉ as) })
        ((s.pool.records.filter fun r => decide (r.station = s.own)).map PoolRecord.client) = t at ended pool
      have rest : ∀ r ∈ t.pool.records, r ∈ s.pool.records ∧ r.station ≠ s.own := by
        rw [pool]
        intro r hr
        obtain ⟨hr, hn⟩ := List.mem_filter.1 hr
        exact ⟨hr, fun e => of_decide_eq_true hn (e ▸ ho)⟩
      rw [State.runPass_others (fun r hr => h r (rest r hr).1) fun r hr e => (rest r hr).2 (e.trans ended.own)]
      exact ⟨ended.session, ended.straps, ended.events, ended.slot⟩

end Sys2Proof.Machine
end

