-- ==== Sys2Proof/Proofs/LostPlaces.lean ====
section
/-! PROOFS. The own LEAVE and an eviction, event by event (O44). -/

namespace Sys2Proof.Machine

/-- These events are posted; slots, pool and straps stay. -/
structure Reports (l : List Event) (s t : State) : Prop where
  events : t.port.events = l.foldl (enqueue s.own) s.port.events
  slots : ∀ c, t.slot c = s.slot c
  pool : t.pool = s.pool
  straps : t.straps = s.straps

theorem Reports.own {l : List Event} {s t : State} (h : Reports l s t) : t.own = s.own := congrArg Straps.address h.straps

theorem Reports.trans {l k : List Event} {s t u : State} (h : Reports l s t) (g : Reports k t u) : Reports (l ++ k) s u :=
  ⟨by rw [g.events, h.events, h.own, List.foldl_append], fun c => (g.slots c).trans (h.slots c), g.pool.trans h.pool, g.straps.trans h.straps⟩

section
variable {s : State} {h : Heard}

/-- The events of an address clash (R141). -/
def clashEvents (own : Addr) (h : Heard) (n : Word) : List Event :=
  if h.notice.sender = own ∧ h.own = false then [⟨.addressClash, own, n⟩] else []

/-- Steps 1 and 2 of R125 with member records that pass their check. -/
theorem State.stepped_reports (hf : s.session.founded = true) (hc : counted h.notice.body = true)
    (hm : ∀ a, (s.session.members.get a).sound = true) :
    Reports (clashEvents s.own h (s.session.count + 1#16)) s (s.stepped h) := by
  have count : s.countNotice h.notice.body = s.setSession { s.session with count := s.session.count + 1#16 } := if_pos hc
  have clash : Reports (clashEvents s.own h (s.session.count + 1#16)) s ((s.countNotice h.notice.body).noteClash h) := by
    rw [count]
    unfold State.noteClash clashEvents
    by_cases e : h.notice.sender = s.own ∧ h.own = false
    · have post : (s.setSession { s.session with count := s.session.count + 1#16 }).postCount = s.session.count + 1#16 := if_pos hf
      rw [if_pos e, if_pos (by exact e), e.1]
      exact ⟨congrArg (fun n => enqueue s.own s.port.events ⟨.addressClash, s.own, n⟩) post, fun _ => rfl, rfl, rfl⟩
    · rw [if_neg e, if_neg (by exact e)]
      exact ⟨rfl, fun _ => rfl, rfl, rfl⟩
  have members : ((s.countNotice h.notice.body).noteClash h).session.members = s.session.members := by
    rw [count]
    unfold State.noteClash; split <;> rfl
  have one : s.stepOne h = (s.countNotice h.notice.body).noteClash h :=
    State.readMembers_sound fun a _ => by rw [members]; exact hm a
  rw [State.stepped, one]
  generalize (s.countNotice h.notice.body).noteClash h = t at clash
  unfold State.restartAbsence; dsimp only; split
  · exact ⟨clash.events, clash.slots, clash.pool, clash.straps⟩
  · exact clash

/-- The MEMBER_STATEs of the records that changed (R121). -/
def memberEvents (l : List (Addr × MemberState)) (n : Word) : List Event := l.map fun x => ⟨.memberState x.2, x.1, n⟩

/-- Step 3 of R125: MEMBER_STATE of every record that changed. -/
theorem State.liveMembers_reports (hf : s.session.founded = true) (e : TableChange) :
    Reports (memberEvents e.changes s.session.count) s (s.liveMembers e) ∧
      (s.liveMembers e).session = { s.session with members := e.table } := by
  have each : ∀ (l : List (Addr × MemberState)) (t : State), t.session.founded = true →
      Reports (memberEvents l t.session.count) t (l.foldl State.memberChanged t) ∧
        (l.foldl State.memberChanged t).session = t.session := by
    intro l
    induction l with
    | nil => exact fun t _ => ⟨⟨rfl, fun _ => rfl, rfl, rfl⟩, rfl⟩
    | cons x l ih =>
      intro t ht
      obtain ⟨r, k⟩ := ih (t.memberChanged x) ht
      have post : t.postCount = t.session.count := if_pos ht
      have first : Reports [⟨.memberState x.2, x.1, t.session.count⟩] t (t.memberChanged x) :=
        ⟨congrArg (fun n => enqueue t.own t.port.events ⟨.memberState x.2, x.1, n⟩) post, fun _ => rfl, rfl, rfl⟩
      exact ⟨first.trans r, k⟩
  obtain ⟨r, k⟩ := each e.changes (s.setMembers e.table) hf
  exact ⟨⟨r.events, r.slots, r.pool, r.straps⟩, k⟩

end

/-! ### What follows the teardown -/

/-- A station without a replica enters a state: STATION_STATE with the count 0, the slots as they were. -/
def Closes (c : Cause) (s t : State) : Prop :=
  t.port.events = enqueue s.own s.port.events ⟨.stationState t.session.station c, s.own, 0#16⟩ ∧ ∀ k, t.slot k = s.slot k

section
variable {s : State}

theorem State.enter_closes (h : s.session.founded = false) (st : StationState) (c : Cause) : Closes c s (s.enter st c) := by
  have post : s.postCount = 0#16 := if_neg (by rw [h]; nofun)
  rw [State.enter_eq]
  exact ⟨by dsimp only; rw [post], fun _ => rfl⟩

theorem State.seek_closes (h : s.session.founded = false) (c : Cause) : Closes c s (s.seek c) := State.enter_closes h .seeking c

theorem State.goOffline_closes (h : s.session.founded = false) (c : Cause) : Closes c s (s.goOffline c) :=
  State.enter_closes (s := s.setTag 0#16) h .offline c

theorem State.goListening_closes (h : s.session.founded = false) (c : Cause) : Closes c s (s.goListening c) :=
  State.enter_closes (s := (s.setTag 0#16).setTimers { s.timers with listen := some 0 }) h .listening c

/-- The replica discarded and the Outbox cleared after a teardown: events and slots as it leaves them. -/
theorem State.cleared_after (hs : ∀ c, (s.slot c).owed = .none) :
    s.discard.clearOutbox.session.founded = false ∧ s.discard.clearOutbox.port.events = s.port.events ∧
      s.discard.clearOutbox.own = s.own ∧ ∀ c, s.discard.clearOutbox.slot c = s.slot c := by
  have slot : ∀ c, ({ s.slot c with owed := .none } : Slot) = s.slot c := fun c => by rw [← hs c]
  simp only [State.clearOutbox, State.dropOwed_eq, State.discard_eq]
  refine ⟨rfl, rfl, rfl, fun c => ?_⟩
  exact (Vector.get_ofFn _ c).trans (slot c)

end

theorem Slot.gone_owed {c : Client} {v w : Slot} (h : v.form c) (k : v.alike w) (x : Option EndReason) :
    w.gone x = .freeWith (if v.live then x.getD v.lastEnd else v.lastEnd) := by
  unfold Slot.gone
  rcases k with rfl | ⟨h1, h2, h3⟩
  · split
    · rfl
    · split
      · rename_i e
        have := h.1
        rw [e] at this
        exact this
      · rfl
  · rw [if_pos h1, if_pos h2, h3]

theorem Slot.alike.live {v w : Slot} (k : v.alike w) : w.live = v.live := by
  rcases k with rfl | ⟨h1, h2, -⟩
  · rfl
  · rw [h1, h2]

/-- How the slots end with the membership (R64, R65). -/
def Ending.ends (queued : Option LeaveReason) : Ending → Option EndReason
  | .left => queued.bind LeaveReason.ends
  | .evicted | .sponsorLost => some .evicted

/-- The cause of the change of station state that ends the membership (R134, R138). -/
def Ending.cause : Ending → Cause
  | .left => .left
  | .evicted => .evicted
  | .sponsorLost => .sponsorLost

/-- The own LEAVE and an eviction: the rest of the slots ends, and the station goes on elsewhere. -/
theorem State.endMembership_closes {s : State} {y : Ending} (hy : y ≠ .sponsorLost) (st : StationState)
    (hs : ∀ c, ((s.teardown (y.ends s.session.leaveReason)).slot c).owed = .none) :
    Closes y.cause (s.teardown (y.ends s.session.leaveReason)) (s.endMembership st y) := by
  have closes : ∀ {t u : State} {c : Cause}, (∀ c, (t.slot c).owed = .none) →
      (t.discard.clearOutbox.session.founded = false → Closes c t.discard.clearOutbox u) → Closes c t u := fun ht hu => by
    obtain ⟨hf, he, ho, hk⟩ := State.cleared_after ht
    obtain ⟨h1, h2⟩ := hu hf
    exact ⟨by rw [h1, he, ho], fun k => (h2 k).trans (hk k)⟩
  cases y with
  | left =>
    refine closes hs fun hf => ?_
    show Closes .left _ s.ownLeave
    unfold State.ownLeave
    dsimp only
    split
    · exact State.goOffline_closes hf _
    · split
      · exact State.seek_closes hf _
      · exact State.goListening_closes hf _
  | evicted =>
    refine closes hs fun hf => ?_
    show Closes .evicted _ (s.evicted st)
    unfold State.evicted
    dsimp only
    split
    iterate 2
      · split
        · exact State.seek_closes hf _
        · exact State.goOffline_closes hf _
    all_goals exact State.seek_closes hf _
  | sponsorLost => exact absurd rfl hy

/-! ### The notice that ends the membership -/

/-- The clients whose slots end, in the order of their CLAIM_ENDEDs: those with a record, in pool order, then the others. -/
def State.endingClients (s : State) : List Client :=
  (s.removedClients.eraseDups.filter fun c => (s.slot c).live) ++
    sixteen.filter fun c => (s.slot c).live && !s.removedClients.contains c

theorem endingClients_eq (s : State) :
    ((s.removedClients ++ sixteen).eraseDups.filter fun c => (s.slot c).live) = s.endingClients := by
  have rest : sixteen.removeAll s.removedClients = sixteen.filter fun c => !s.removedClients.contains c := rfl
  rw [List.eraseDups_append, List.filter_append, rest, eraseDups_filter, eraseDups_of_nodup nodup_sixteen, List.filter_filter]
  rfl

/-- The handling of a LEAVE or EVICT of this station that ends its membership. -/
theorem State.applyNotice_ends {s : State} {h : Heard} {y : Ending} (hy : y ≠ .sponsorLost)
    (he : ending s.own s.session.station h (memberEffect s.session.members h.notice) = some y)
    (hn : namedTarget h.notice ≠ none) (ho : s.own ∈ removedStations h.notice (memberEffect s.session.members h.notice).changes)
    (ha : AllSound s) (hf : s.session.founded = true)
    (hg : ∀ c, ((s.slot c).gone (y.ends s.session.leaveReason)).owed = .none) :
    (s.applyNotice h).port.events =
      (clashEvents s.own h (s.session.count + 1#16) ++
        memberEvents (memberEffect s.session.members h.notice).changes (s.session.count + 1#16) ++
        endEvents (y.ends s.session.leaveReason) (s.session.count + 1#16) s.endingClients ++
        [(⟨.stationState (s.applyNotice h).session.station y.cause, s.own, 0#16⟩ : Event)]).foldl (enqueue s.own) s.port.events ∧
    ∀ c, (s.applyNotice h).slot c = (s.slot c).gone (y.ends s.session.leaveReason) := by
  obtain ⟨hc, -⟩ := counted_of_claim_or_target (.inr hn)
  have reason : removalReason s.session.leaveReason (some y) = y.ends s.session.leaveReason := by cases y <;> rfl
  have applied : s.applyNotice h = ((s.change .leaving).fourSteps h (memberEffect s.session.members h.notice)
      (y.ends s.session.leaveReason)).endMembership s.session.station y := by
    simp only [State.applyNotice, he, reason]
  rw [applied]
  generalize hx : y.ends s.session.leaveReason = x at *
  -- steps 1 to 3, as in LEAVING
  have leaving : Reports [] s (s.change .leaving) := ⟨rfl, fun _ => rfl, rfl, rfl⟩
  have ls : (s.change .leaving).session = { s.session with station := .leaving } := rfl
  generalize s.change .leaving = l at leaving ls
  have stepped := State.stepped_reports (s := l) (h := h) (by rw [ls]; exact hf) hc (by rw [ls]; exact ha.2)
  have us := (State.stepped_parts (s := l) (h := h) fun a _ => by rw [ls]; exact ha.2 a).1
  have counts : (l.countNotice h.notice.body).session = { l.session with count := l.session.count + 1#16 } :=
    congrArg State.session (if_pos hc)
  rw [counts, ls] at us
  have four : l.fourSteps h (memberEffect s.session.members h.notice) x =
      ((l.stepped h).liveMembers (memberEffect s.session.members h.notice)).poolEffect true h.notice x
        (removedStations h.notice (memberEffect s.session.members h.notice).changes) := rfl
  rw [four]
  generalize l.stepped h = u at stepped us
  obtain ⟨members, vs⟩ := State.liveMembers_reports (s := u) (by rw [us]; exact hf) (memberEffect s.session.members h.notice)
  generalize u.liveMembers (memberEffect s.session.members h.notice) = v at members vs
  have so_far := (leaving.trans stepped).trans members
  rw [us] at vs so_far
  have own : v.own = s.own := so_far.own
  -- step 4: the slots with a record
  have removal : ∃ k, v.poolEffect true h.notice x (removedStations h.notice (memberEffect s.session.members h.notice).changes) =
      v.removeRecords true k x (removedStations h.notice (memberEffect s.session.members h.notice).changes) := by
    cases hb : h.notice.body <;> simp [namedTarget, hb] at hn <;> exact ⟨_, by rw [State.poolEffect, hb]⟩
  obtain ⟨k, removal⟩ := removal
  rw [removal]
  have records := State.removeRecords_ended (s := v) (by rw [so_far.pool]; exact ha.1) k x (by rw [own]; exact ho)
  generalize v.removeRecords true k x (removedStations h.notice (memberEffect s.session.members h.notice).changes) = w at records
  have queued : w.session.leaveReason = s.session.leaveReason := by rw [records.session, vs]
  -- then the others
  have ended := records.trans (w.teardown_ended x)
  have slots : ∀ c, (w.teardown x).slot c = (s.slot c).gone x := fun c => by
    rw [ended.slot c, if_pos (by simp [mem_sixteen]), so_far.slots c]
  have closes := State.endMembership_closes (s := w) hy s.session.station (by rw [queued, hx]; exact fun c => by rw [slots c]; exact hg c)
  rw [queued, hx] at closes
  generalize w.endMembership s.session.station y = z at closes
  refine ⟨?_, fun c => (closes.2 c).trans (slots c)⟩
  have clients : ((v.removedClients ++ sixteen).eraseDups.filter fun c => (v.slot c).live) = s.endingClients := by
    have same : v.removedClients = s.removedClients := by rw [State.removedClients, State.removedClients, so_far.pool, own]
    rw [same, ← endingClients_eq]
    exact List.filter_congr fun c _ => by rw [so_far.slots c]
  have post : v.postCount = s.session.count + 1#16 := by
    rw [State.postCount, vs]
    exact if_pos hf
  have before := so_far.events
  rw [closes.1, ended.own, ended.events, clients, post, own, before]
  simp only [List.foldl_append, List.foldl_cons, List.foldl_nil, leaving.own, ls]

end Sys2Proof.Machine
end

