-- ==== Sys2Proof/Proofs/TakenIndications.lean ====
section
/-! PROOFS. The indications of a taken notice (O44): its settling. -/

namespace Sys2Proof.Machine

/-- The table check worked out afresh over no replica changes nothing else. -/
theorem Emptied.recheck {z : State} (e : Emptied z) (b : State) : ∃ k, State.recheck b z = z.setChecker k := by
  cases h : z.keepsCheck b with
  | true => exact ⟨z.checker, by simp [State.recheck, h]; rfl⟩
  | false =>
    refine ⟨_, State.recheck_new h (by simp [State.poolFails, e.pool]) ?_⟩
    simp only [State.membersFail, List.any_eq_false, e.members]
    intro a _
    rw [Table.empty_get]
    simp [Member.absent]

/-- A notice of O44 that takes this station's place, and how. -/
structure TakesPlace (s : State) (h : Heard) (y : Ending) : Prop where
  station : s.session.station.member
  ends : y ≠ .sponsorLost
  ending : ending s.own s.session.station h (memberEffect s.session.members h.notice) = some y
  target : namedTarget h.notice ≠ none
  own : s.own ∈ removedStations h.notice (memberEffect s.session.members h.notice).changes

section
variable {s : State} {h : Heard}

/-- The own LEAVE, taken in LEAVING. -/
theorem TakesPlace.left (hs : s.session.station = .leaving) (ho : h.own = true) (hm : h.notice.sender = s.own) {code : Byte}
    (hb : h.notice.body = .leave code) : TakesPlace s h .left where
  station := .inr (.inr hs)
  ends := nofun
  ending := by simp only [Machine.ending, ho, hs, hb]
  target := by simp [namedTarget, hb]
  own := by simp [removedStations, hb, hm]

/-- A LEAVE of the own address that the station did not carry. -/
theorem TakesPlace.clash (hs : s.session.station.member) (ho : h.own = false) (hm : h.notice.sender = s.own) {code : Byte}
    (hb : h.notice.body = .leave code) : TakesPlace s h .evicted where
  station := hs
  ends := nofun
  ending := by simp [Machine.ending, ho, losesPlace, namedTarget, hb, hm]
  target := by simp [namedTarget, hb]
  own := by simp [removedStations, hb, hm]

/-- An EVICT of a station whose record is SYNCING or PRESENT. -/
theorem TakesPlace.evict (hs : s.session.station.member) (hb : h.notice.body = .evict s.own)
    (hm : (s.session.members.get s.own).state = .present ∨ (s.session.members.get s.own).state = .syncing) : TakesPlace s h .evicted where
  station := hs
  ends := nofun
  ending := by
    unfold Machine.ending
    split
    · rename_i e; rw [hb] at e; cases e
    · simp [losesPlace, namedTarget, hb]
  target := by simp [namedTarget, hb]
  own := by
    have effect : memberEffect s.session.members h.notice = s.session.members.remove s.own := by
      rw [memberEffect, hb]
      exact if_pos hm.symm
    simp [effect, removedStations, hb, Table.remove]

theorem TakesPlace.of_same {m : State} {y : Ending} (p : TakesPlace s h y) (hs : m.session = s.session) (ho : m.straps = s.straps) :
    TakesPlace m h y := by
  have own : m.own = s.own := congrArg Straps.address ho
  obtain ⟨p1, p2, p3, p4, p5⟩ := p
  exact ⟨by rw [hs]; exact p1, p2, by rw [hs, own]; exact p3, p4, by rw [hs, own]; exact p5⟩

/-- What such a notice leads to, in events and slots. -/
theorem State.takeNotice_places {y : Ending} (p : TakesPlace s h y) (ht : h.notice.tag = s.session.tag) (ha : AllSound s) (hp : OwedApart s)
    (hv : ∀ c, (s.slot c).form c) (hf : s.session.founded = true) :
    (s.takeNotice h false none).port.events =
      (clashEvents s.own h (s.session.count + 1#16) ++
        memberEvents (memberEffect s.session.members h.notice).changes (s.session.count + 1#16) ++
        endEvents (y.ends s.session.leaveReason) (s.session.count + 1#16) s.endingClients ++
        [(⟨.stationState (s.takeNotice h false none).session.station y.cause, s.own, 0#16⟩ : Event)]).foldl (enqueue s.own) s.port.events ∧
    ∀ c, (s.takeNotice h false none).slot c = .freeWith
      (if (s.slot c).live then (y.ends s.session.leaveReason).getD (s.slot c).lastEnd else (s.slot c).lastEnd) := by
  have apart : Apart s := ⟨hp, fun c => (hv c).live⟩
  obtain ⟨⟨ms, mp, -, mq, mo⟩, mv, -⟩ := s.makeRoom_served h false apart
  rw [State.takeNotice]
  generalize s.makeRoom h false none = m at ms mp mq mo mv
  have own : m.own = s.own := congrArg Straps.address mo
  have pm := p.of_same ms mo
  have found := (counted_of_claim_or_target (.inr p.target)).2
  have gone : ∀ c x, (m.slot c).gone x = .freeWith (if (s.slot c).live then x.getD (s.slot c).lastEnd else (s.slot c).lastEnd) :=
    fun c x => Slot.gone_owed (hv c) (mv c) x
  rw [State.handle_member pm.station (ht.trans (by rw [ms])) found]
  obtain ⟨events, slots⟩ := State.applyNotice_ends pm.ends pm.ending pm.target pm.own
    (by exact ⟨by rw [mp]; exact ha.1, by rw [ms]; exact ha.2⟩) (by rw [ms]; exact hf) fun c => by rw [gone c]; rfl
  have emptied : Emptied (m.applyNotice h) := by
    simp only [State.applyNotice, pm.ending]
    exact State.endMembership_emptied _ _ _
  have clients : m.endingClients = s.endingClients := by
    have live : ∀ c, (m.slot c).live = (s.slot c).live := fun c => (mv c).live
    simp only [State.endingClients, State.removedClients, mp, own, live]
  rw [own, ms, mq, clients] at events
  generalize m.applyNotice h = z at events slots emptied
  obtain ⟨k, e⟩ := emptied.recheck s
  have outside : (z.setChecker k).session.station ≠ .active := fun e => by
    have := emptied.outside
    rw [show z.session.station = .active from e] at this
    cases this
  rw [e, State.makeAnswers_none (.inr outside), State.postActive_none (.inl outside)]
  exact ⟨events, fun c => (slots c).trans (by rw [ms, gone c])⟩

end

/-- Settles O44: the claim notices by their indications, a notice that takes the place by the slots it ends. -/
theorem indicationsOfATakenNotice : Obligations.IndicationsOfATakenNotice := by
  refine ⟨fun s h hs hd ht ho hf ha hp hn hc => claimIndications s h ⟨hs, ht, ho, hf, ha, hp, hn, hc⟩ hd, ?_⟩
  intro s h reason cause hd ht hk ha hp hv hf
  have place : ∃ y, TakesPlace s.taking h y ∧ y.ends s.session.leaveReason = reason ∧ y.cause = cause := by
    rcases hk with ⟨hs, ho, hm, rfl, ⟨code, hb⟩, hr⟩ | ⟨hs, hb, hm, rfl, rfl⟩
    · refine ⟨.left, .left hs ho hm hb, ?_, rfl⟩
      rw [hr]
      rcases s.session.leaveReason with - | - | - | - <;> rfl
    · rcases hb with hb | ⟨⟨code, hb⟩, hm, ho⟩
      · exact ⟨.evicted, .evict hs hb hm, rfl, rfl⟩
      · exact ⟨.evicted, .clash hs ho hm hb, rfl, rfl⟩
  obtain ⟨y, p, rfl, rfl⟩ := place
  obtain ⟨events, slots⟩ := State.takeNotice_places p ht ha hp hv hf
  exact ⟨_, exec_effects hd, events, slots⟩

end Sys2Proof.Machine
end

