-- ==== Sys2Proof/Proofs/Replay.lean ====
section
/-! PROOFS. A notice replayed without indications (R21, R157): the replica it gives is that of `Replica.take` (O47). -/

namespace Sys2Proof.Machine

/-! ### The records a removal makes ABSENT -/

/-- Those that a removal reports are those that became ABSENT. -/
theorem Table.mem_remove_changes {t : Table} {x : Addr} (hx : (t.get x).state ≠ .absent) (a : Addr) :
    a ∈ (t.remove x).changes.map Prod.fst ↔ ((t.remove x).table.get a).state = .absent ∧ (t.get a).state ≠ .absent := by
  constructor
  · intro h
    refine ⟨by rw [Table.get_remove, if_pos h]; rfl, ?_⟩
    by_cases e : a = x
    · rw [e]; exact hx
    · have mem : a ∈ (t.write x .absent none).sponsoredBy x := by
        simpa [Table.remove, e, Function.comp_def] using h
      have state := (List.mem_filter.1 mem).2
      simp only [Table.stateOf, Table.get_write, e, if_false, Bool.and_eq_true, Bool.or_eq_true, decide_eq_true_eq] at state
      rcases state.1 with s | s <;> simp [s]
  · rintro ⟨h1, h2⟩
    by_contra hn
    rw [Table.get_remove, if_neg hn] at h1
    exact h2 h1

/-- The stations whose pool records a LEAVE removes (R17, R18). -/
theorem mem_removedStations_leave_iff {n : Notice} {r : Byte} (hb : n.body = .leave r) (t : Table) (a : Addr) :
    a ∈ removedStations n (memberEffect t n).changes ↔
      a = n.sender ∨ ((memberEffect t n).table.get a).state = .absent ∧ (t.get a).state ≠ .absent := by
  rw [mem_removedStations_leave hb]
  simp only [memberEffect, hb]
  split
  · simp
  · rename_i h; rw [Table.mem_remove_changes h]

theorem mem_removedStations_evict_iff {n : Notice} {e : Addr} (hb : n.body = .evict e) (t : Table) (a : Addr) :
    a ∈ removedStations n (memberEffect t n).changes ↔
      ((memberEffect t n).table.get a).state = .absent ∧ (t.get a).state ≠ .absent := by
  simp only [removedStations, memberEffect, hb]
  split
  · rename_i h
    refine Table.mem_remove_changes ?_ a
    rcases h with h | h <;> simp only [Table.stateOf] at h <;> rw [h] <;> nofun
  · simp

/-- Records written anew pass their check (R121). -/
theorem memberEffect_sound {t : Table} (h : ∀ a, (t.get a).sound = true) (n : Notice) (a : Addr) :
    ((memberEffect t n).table.get a).sound = true := by
  have wrote : ∀ (b : Addr) (st : MemberState) (p : Option Addr), ((t.write b st p).get a).sound = true := fun b st p => by
    rw [Table.get_write]; split
    · rfl
    · exact h a
  have removed : ∀ b : Addr, ((t.remove b).table.get a).sound = true := fun b => by
    rw [Table.get_remove]; split
    · rfl
    · exact h a
  unfold memberEffect
  split
  · split
    · exact wrote _ _ _
    · exact wrote _ _ _
    · exact h a
  · split
    · exact wrote _ _ _
    · exact h a
  · split
    · exact wrote _ _ _
    · exact h a
  · split
    · exact h a
    · exact removed _
  · split
    · exact removed _
    · exact h a
  · split
    · exact wrote _ _ _
    · exact h a
  all_goals exact h a

/-! ### The pool without indications -/

section
variable {s : State}

theorem State.tellOwn_silent (s : State) (a : Addr) (c : Client) (i : Indication) (x : Option EndReason) : s.tellOwn false a c i x = s := rfl

theorem State.runPass_silent (h : ∀ r ∈ s.pool.records, r.sound = true) :
    s.runPass false = s.setPool { s.pool with records := (grantPass s.port.threshold s.pool.records).records } := by
  rw [State.runPass_eq h]
  exact foldl_same (f := State.tellGrants false) (fun _ => rfl) _

theorem State.takeClaim_silent (hf : s.pool.frozen = false) (h : ∀ r ∈ s.pool.records, r.sound = true) (a : Addr) (c : Client) (k : Class)
    (m : Mask) : s.takeClaim false a c k m = s.setPool { s.pool with
      records := recordsClaimed s.port.n s.port.threshold (decide ((s.session.members.get a).state = .present)) s.pool.records a c k m } := by
  unfold recordsClaimed
  by_cases hm : (s.session.members.get a).state = .present ∧ setValid s.port.n m = true
  · rw [State.takeClaim_admit hf hm.1 hm.2]
    by_cases hd : ∃ r ∈ s.pool.records, r.station = a ∧ r.client = c
    · rw [State.admitClaim_duplicate h hd, if_neg fun e => hd.elim fun x hx => e.2.2.1 x hx.1 hx.2]
      rfl
    · have hn : ∀ r ∈ s.pool.records, ¬ (r.station = a ∧ r.client = c) := fun r hr e => hd ⟨r, hr, e⟩
      by_cases hl : 64 ≤ s.pool.records.length
      · rw [State.admitClaim_full h hn hl, if_neg fun e => absurd e.2.2.2 (Nat.not_lt.2 hl)]
        rfl
      · rw [State.admitClaim_appended h hn (Nat.not_le.1 hl), if_pos ⟨decide_eq_true hm.1, hm.2, hn, Nat.not_le.1 hl⟩,
          State.tellOwn_silent, State.runPass_silent]
        · rfl
        · intro r hr
          rcases List.mem_append.1 hr with hr | hr
          · exact h r hr
          · rw [List.mem_singleton.1 hr]
  · have hn : (s.session.members.get a).state ≠ .present ∨ setValid s.port.n m = false := by
      rw [not_and_or, Bool.not_eq_true] at hm; exact hm
    rw [State.takeClaim_notMember hf hn, if_neg fun e => hm ⟨of_decide_eq_true e.1, e.2.1⟩]
    rfl

theorem State.dropRecord_silent (h : ∀ r ∈ s.pool.records, r.sound = true) (a : Addr) (c : Client) (i : Option Standing → Indication) :
    State.dropRecord false a c i s = s.setPool { s.pool with records := recordsDropped s.port.threshold s.pool.records a c } := by
  unfold State.dropRecord recordsDropped
  by_cases hd : ∃ r ∈ s.pool.records, r.station = a ∧ r.client = c
  · obtain ⟨r, -, -, -, e⟩ := searchPool_some h hd
    rw [e, if_pos hd, withoutPair_sound h]
    exact State.runPass_silent (s := s.setPool _) fun r hr => h r (List.mem_of_mem_filter hr)
  · rw [searchPool_none h fun r hr e => hd ⟨r, hr, e⟩, if_neg hd]
    rfl

/-- The records of some stations removed, and a pass where there was one. -/
theorem State.removeRecords_silent (hf : s.pool.frozen = false) (h : ∀ r ∈ s.pool.records, r.sound = true) (k : RemovalCause)
    (x : Option EndReason) (as : List Addr) : s.removeRecords false k x as = s.setPool { s.pool with
      records := if s.pool.records.any (fun q => decide (q.station ∈ as)) then
          (grantPass s.port.threshold (s.pool.records.filter fun q => !decide (q.station ∈ as))).records
        else s.pool.records } := by
  have none : (s.pool.records.any fun q => decide (q.station ∈ as)) = false ↔
      (s.pool.records.filter fun q => decide (q.station ∈ as)) = [] := by simp
  unfold State.removeRecords
  cases as with
  | nil => simp; rfl
  | cons a as =>
    rw [List.isEmpty_cons, if_neg Bool.false_ne_true, State.withPool_thawed hf, State.dropStations, State.poolFails_sound h,
      if_neg Bool.false_ne_true]
    dsimp only
    by_cases hn : (s.pool.records.filter fun q => decide (q.station ∈ a :: as)) = []
    · rw [hn, List.isEmpty_nil, if_pos rfl, none.2 hn, if_neg Bool.false_ne_true]
      rfl
    · rw [if_neg (by rw [List.isEmpty_iff]; exact hn), if_pos (by rw [← Bool.not_eq_false]; exact fun e => hn (none.1 e))]
      have told : ∀ t : State, List.foldl (State.tellRemoved false k x) t (s.pool.records.filter fun q => decide (q.station ∈ a :: as)) = t :=
        fun t => foldl_same (f := State.tellRemoved false k x) (fun _ => rfl) _
      have rest : (s.pool.records.filter fun q => decide (q.station ∉ a :: as)) = s.pool.records.filter fun q => !decide (q.station ∈ a :: as) :=
        List.filter_congr fun q _ => by simp
      rw [told, rest]
      exact State.runPass_silent (s := s.setPool _) fun r hr => h r (List.mem_of_mem_filter hr)

end

theorem recordsClaimed_eq (r : Replica) (n t : Nat) {x : Notice} {c : Client} {k : Class} {m : Mask} (hb : x.body = .claim c k m) (new : Table) :
    recordsClaimed n t (decide ((r.members.get x.sender).state = .present)) r.records x.sender c k m = r.poolAfter n t new x := by
  have pairs : (∀ q ∈ r.records, ¬ (q.station = x.sender ∧ q.client = c)) ↔
      (r.records.any fun q => decide (q.station = x.sender) && decide (q.client = c)) = false := by simp
  simp only [recordsClaimed, Replica.poolAfter, hb, decide_eq_true_eq, pairs]

theorem recordsDropped_eq (t : Nat) (recs : List PoolRecord) (a : Addr) (c : Client) : recordsDropped t recs a c =
    if recs.any fun q => decide (q.station = a) && decide (q.client = c) then
      (grantPass t (recs.filter fun q => !(decide (q.station = a) && decide (q.client = c)))).records
    else recs := by
  have pairs : (∃ q ∈ recs, q.station = a ∧ q.client = c) ↔
      (recs.any fun q => decide (q.station = a) && decide (q.client = c)) = true := by simp
  simp only [recordsDropped, pairs]

/-- The pool effect of a replayed notice. -/
theorem State.poolEffect_silent {s : State} (r : Replica) (x : Notice) (hf : s.pool.frozen = false) (h : ∀ q ∈ s.pool.records, q.sound = true)
    (hm : s.session.members = (memberEffect r.members x).table) (hr : s.pool.records = r.records) :
    s.poolEffect false x none (removedStations x (memberEffect r.members x).changes) = s.setPool { s.pool with
      records := r.poolAfter s.port.n s.port.threshold (memberEffect r.members x).table x } := by
  unfold State.poolEffect
  have dropped : ∀ as : List Addr, ∀ gone : PoolRecord → Bool, (∀ q, decide (q.station ∈ as) = gone q) → ∀ k,
      s.removeRecords false k none as = s.setPool { s.pool with
        records := if r.records.any gone then (grantPass s.port.threshold (r.records.filter fun q => !gone q)).records else r.records } :=
    fun as gone e k => by
      have e : (fun q : PoolRecord => decide (q.station ∈ as)) = gone := funext e
      have e2 : (fun q : PoolRecord => !decide (q.station ∈ as)) = fun q => !gone q := funext fun q => by rw [← e]
      rw [State.removeRecords_silent hf h, e, e2, hr]
  cases hb : x.body
  case claim c k m =>
    have same : (memberEffect r.members x).table = r.members := by simp [memberEffect, hb]
    dsimp only
    rw [State.takeClaim_silent hf h, hm, same, hr, recordsClaimed_eq r _ _ hb]
  case withdraw c =>
    dsimp only
    rw [State.takeWithdraw, State.withPool_thawed hf, State.dropRecord_silent h, hr, recordsDropped_eq, Replica.poolAfter, hb]
  case release c code =>
    dsimp only
    rw [State.takeRelease, State.withPool_thawed hf, State.dropRecord_silent h, hr, recordsDropped_eq, Replica.poolAfter, hb]
  case leave code =>
    dsimp only
    rw [dropped _ (fun q => decide (q.station = x.sender) || (decide (((memberEffect r.members x).table.get q.station).state = .absent) &&
      decide ((r.members.get q.station).state ≠ .absent))) (fun q => by
        simp only [mem_removedStations_leave_iff hb, Bool.decide_or, Bool.decide_and]), Replica.poolAfter, hb]
  case evict e =>
    dsimp only
    rw [dropped _ (fun q => decide (((memberEffect r.members x).table.get q.station).state = .absent) &&
      decide ((r.members.get q.station).state ≠ .absent)) (fun q => by
        simp only [mem_removedStations_evict_iff hb, Bool.decide_and]), Replica.poolAfter, hb]
  all_goals
    dsimp only
    rw [Replica.poolAfter, hb]
    dsimp only
    rw [← hr]
    rfl

end Sys2Proof.Machine
end

