-- ==== Sys2Proof/Proofs/Snapshot.lean ====
section
/-! PROOFS. The snapshot of the recorded sponsor builds the replica (R20, R155 to R157; O47). -/

namespace Sys2Proof.Machine

section
variable {s : State} {h : Heard}

/-! ### A notice taken in LOADING -/

/-- What a LOADING station handles to another state than ANNOUNCING and ACTIVE stands so at the end of the event. -/
theorem State.takeNotice_loading (hs : s.session.station = .loading) (ht : h.notice.tag = s.session.tag) (hf : h.notice.body.isFound = false) :
    s.takeNotice h false none = State.postActive .loading (State.recheck s (s.load h)).makeAnswers := by
  have handled : s.handle h = s.load h := by
    unfold State.handle
    rw [hs]
    exact (if_neg (by rw [hf]; exact Bool.false_ne_true)).trans (if_pos ht)
  unfold State.takeNotice
  dsimp only
  rw [State.makeRoom_same (State.recall_same (.inr (.inr (.inl hs)))), handled, hs]

theorem State.takeNotice_loads (hs : s.session.station = .loading) (ht : h.notice.tag = s.session.tag) (hf : h.notice.body.isFound = false)
    (ha : (s.load h).session.station ≠ .active) (hn : (s.load h).session.station ≠ .announcing) : s.takeNotice h false none = s.load h := by
  have kept : State.recheck s (s.load h) = s.load h := by
    rw [State.recheck, State.keepsCheck_loading hs, if_pos (decide_eq_true hn)]
  rw [State.takeNotice_loading hs ht hf, kept, State.makeAnswers_none (.inr ha), State.postActive_none (.inl ha)]

theorem exec_loads (hs : s.session.station = .loading) (hd : s.bus.delivered = some h) (ht : h.notice.tag = s.session.tag)
    (hf : h.notice.body.isFound = false) {u : State} (hu : s.taking.load h = u) (ha : u.session.station ≠ .active)
    (hn : u.session.station ≠ .announcing) : exec .noticeEffectsMade s = .next u := by
  have made : s.taking.takeNotice h false none = s.taking.load h :=
    State.takeNotice_loads hs ht hf (by rw [hu]; exact ha) (by rw [hu]; exact hn)
  rw [exec_noticeEffectsMade hd, made, hu]

/-- An abandoned snapshot (R159). -/
theorem State.abandon_parts (s : State) : s.abandon.session.station = .leaving ∧ s.abandon.session.leaveDest = some .seeking ∧
    s.abandon.session.members = s.session.members ∧ s.abandon.session.count = s.session.count ∧ s.abandon.pool = s.pool ∧
    s.abandon.joiner = Joiner.none := by
  have session : s.abandon.session = _ := s.queueLeave_session .abandon
  have joiner : s.abandon.joiner = Joiner.none := by
    rw [State.abandon, State.queueLeave, State.enter_eq]
    rfl
  rw [session]
  exact ⟨rfl, rfl, rfl, rfl, (s.queueLeave_parts _).1, joiner⟩

/-! ### SNAP-MEMBERS and SNAP-CLAIM -/

/-- What a byte of SNAP-MEMBERS says of a record (R194). -/
theorem memberOfByte_parts (b : Byte) :
    (memberOfByte b).state = (match (hiNibble b).val with | 1 => .joining | 2 => .syncing | 3 => .present | _ => .absent) ∧
      (memberOfByte b).sponsor = if (hiNibble b).val = 1 ∨ (hiNibble b).val = 2 then some (loNibble b) else none := by
  unfold memberOfByte
  split <;> simp_all

/-- The own byte names a record that is SYNCING under the sponsor. -/
theorem memberOfByte_mine (b : Byte) (p : Option Addr) :
    ((memberOfByte b).state = .syncing ∧ (memberOfByte b).sponsor = p) ↔ ((hiNibble b).val = 2 ∧ some (loNibble b) = p) := by
  unfold memberOfByte
  split <;> simp_all

theorem State.load_snapMembers {v : Vector Byte 16} (hb : h.notice.body = .snapMembers v) (hp : some h.notice.sender = s.joiner.sponsor) :
    s.load h = s.buildMembers v := by
  simp only [State.load, hb, hp, decide_true, if_true]

theorem State.buildMembers_awaited (v : Vector Byte 16) (hb : s.joiner.building = .members) :
    s.buildMembers v =
      if (hiNibble (v.get s.own)).val = 2 ∧ some (loNibble (v.get s.own)) = s.joiner.sponsor then
        (s.setMembers (tableOfBytes v)).setJoiner { s.joiner with building := .claims }
      else (s.setMembers (tableOfBytes v)).abandon := by
  have mine : ((tableOfBytes v).stateOf s.own = .syncing ∧ ((tableOfBytes v).get s.own).sponsor = s.joiner.sponsor) ↔
      (hiNibble (v.get s.own)).val = 2 ∧ some (loNibble (v.get s.own)) = s.joiner.sponsor := by
    rw [Table.stateOf, tableOfBytes_get]
    exact memberOfByte_mine _ _
  unfold State.buildMembers
  rw [if_pos hb]
  exact if_congr mine rfl rfl

/-- The record of a SNAP-CLAIM where one is awaited at its position (R155). -/
theorem State.buildClaim_eq (s : State) (p : Byte) (r : Option PoolRecord) : s.buildClaim p r = s.setPool { s.pool with
    records := if s.joiner.building = .claims ∧ p.toNat = s.pool.records.length ∧ s.pool.records.length < 64 then
      s.pool.records ++ r.toList else s.pool.records } := by
  unfold State.buildClaim
  cases r with
  | none => simp; rfl
  | some x =>
    by_cases room : s.joiner.building = .claims ∧ p.toNat = s.pool.records.length ∧ s.pool.records.length < 64
    · rw [if_pos room]; exact if_pos room
    · rw [if_neg room]; exact if_neg room

theorem snapRecord_toList (n : Nat) (a : Addr) (c : Client) (m : Mask) (rq ef : Class) (ps : Fin 16) (sd : Byte) :
    (snapRecord n a c m rq ef ps sd).toList =
      if sd.toNat ≤ 1 ∧ rq ≤ ef ∧ 1 ≤ (resources m).length ∧ (resources m).length ≤ 4 ∧ ∀ r ∈ resources m, r.val < n then
        [⟨a, c, m, rq, ef, ps, if sd = 0#8 then .waiting else .holding, true⟩]
      else [] := by
  unfold snapRecord
  simp only [setValid_iff]
  split <;> rfl

theorem State.load_snapClaim {p : Byte} {a : Addr} {c : Client} {m : Mask} {rq ef : Class} {ps : Fin 16} {sd : Byte}
    (hb : h.notice.body = .snapClaim p a c m rq ef ps sd) (hp : some h.notice.sender = s.joiner.sponsor) :
    s.load h = s.setPool { s.pool with records :=
      if s.joiner.building = .claims ∧ p.toNat = s.pool.records.length ∧ s.pool.records.length < 64 ∧ sd.toNat ≤ 1 ∧
          rq ≤ ef ∧ 1 ≤ (resources m).length ∧ (resources m).length ≤ 4 ∧ ∀ r ∈ resources m, r.val < s.port.n then
        s.pool.records ++ [⟨a, c, m, rq, ef, ps, if sd = 0#8 then .waiting else .holding, true⟩]
      else s.pool.records } := by
  have e : s.load h = s.buildClaim p (snapRecord s.port.n a c m rq ef ps sd) := by
    simp only [State.load, hb, hp, decide_true, if_true]
  rw [e, State.buildClaim_eq, snapRecord_toList]
  congr 2
  by_cases room : s.joiner.building = .claims ∧ p.toNat = s.pool.records.length ∧ s.pool.records.length < 64
  · obtain ⟨r1, r2, r3⟩ := room
    simp only [r1, r2, r3, true_and, if_true]
    split <;> simp
  · rw [if_neg room, if_neg fun e => room ⟨e.1, e.2.1, e.2.2.1⟩]

/-! ### SNAP-END -/

theorem State.load_snapEnd {k : Word} {n : Byte} (hb : h.notice.body = .snapEnd k n) (hp : some h.notice.sender = s.joiner.sponsor)
    (hs : s.session.station = .loading) (ha : AllSound s) :
    s.load h = if k = tableCheckOf s.session.members s.pool.records ∧ n.toNat = s.pool.records.length then s.complete else s.abandon := by
  have e : s.load h = s.endSnapshot k n := by
    simp only [State.load, hb, hp, decide_true, if_true]
  rw [e, State.endSnapshot, State.poolFails_sound ha.1, if_neg Bool.false_ne_true, State.readMembers_sound fun a _ => ha.2 a]
  exact if_pos hs

/-! ### The replay (R157) -/

/-- Records granted or newly appended pass their check. -/
theorem Replica.poolAfter_sound {r : Replica} (hr : ∀ q ∈ r.records, q.sound = true) (n t : Nat) (new : Table) (x : Notice) :
    ∀ q ∈ r.poolAfter n t new x, q.sound = true := by
  have dropped : ∀ gone : PoolRecord → Bool, ∀ q ∈ (if r.records.any gone then
      (grantPass t (r.records.filter fun q => !gone q)).records else r.records), q.sound = true := fun gone => by
    split
    · exact grantPass_sound fun q hq => hr q (List.mem_of_mem_filter hq)
    · exact hr
  cases hb : x.body
  case claim c k m =>
    rw [← recordsClaimed_eq r n t hb new]
    exact recordsClaimed_sound hr
  case withdraw | release | leave | evict =>
    simp only [Replica.poolAfter, hb]
    exact dropped _
  all_goals
    simp only [Replica.poolAfter, hb]
    exact hr

/-- Step 1 of R125 on sound records: the count, and perhaps ADDRESS_CLASH. -/
theorem State.stepOne_sound (hm : ∀ a, (s.session.members.get a).sound = true) (h : Heard) : ∃ p : Port,
    s.stepOne h = { s with
      session := { s.session with count := if counted h.notice.body then s.session.count + 1#16 else s.session.count }
      port := p } ∧ p.system = s.port.system ∧ ((h.notice.sender = s.own → h.own = true) → p = s.port) := by
  have count : s.countNotice h.notice.body = { s with
      session := { s.session with count := if counted h.notice.body then s.session.count + 1#16 else s.session.count } } := by
    unfold State.countNotice
    split <;> rfl
  have read : s.stepOne h = (s.countNotice h.notice.body).noteClash h := by
    refine State.readMembers_sound fun a _ => ?_
    rw [← (s.countNotice_same h.notice.body).1] at hm
    unfold State.noteClash
    split <;> exact hm a
  rw [read, count]
  by_cases clash : h.notice.sender = s.own ∧ h.own = false
  · exact ⟨_, if_pos clash, rfl, fun e => absurd (e clash.1) (by rw [clash.2]; exact Bool.false_ne_true)⟩
  · exact ⟨s.port, if_neg clash, rfl, fun _ => rfl⟩

/-- A LOADING station in the replay of its catch-up buffer: it holds the replica `r`, and has besides posted no more than events. -/
structure Replays (s : State) (r : Replica) (u : State) : Prop where
  state : u = { s with
    session := { s.session with members := r.members, count := r.count }
    pool := ⟨r.records, false⟩
    port := u.port }
  system : u.port.system = s.port.system
  records : ∀ q ∈ r.records, q.sound = true
  members : ∀ a, (r.members.get a).sound = true

theorem Replays.refl (ha : AllSound s) (hf : s.pool.frozen = false) :
    Replays s ⟨s.session.members, s.session.count, s.pool.records⟩ s where
  state := by rw [← hf]
  system := rfl
  records := ha.1
  members := ha.2

/-- A notice counts in the replay where it counts in the session (R123). -/
theorem Replica.take_eq (r : Replica) (n t : Nat) (x : Notice) : r.take n t x =
    ⟨(memberEffect r.members x).table, if counted x.body then r.count + 1#16 else r.count,
      r.poolAfter n t (memberEffect r.members x).table x⟩ := by
  unfold Replica.take
  cases x.body <;> rfl

/-- One replayed notice (R157). -/
theorem Replays.replay {r : Replica} {u : State} (k : Replays s r u) (hs : s.session.station = .loading) (x : Heard) :
    Replays s (r.take s.port.n s.port.threshold x.notice) (u.replay x) ∧
      ((x.notice.sender = s.own → x.own = true) → (u.replay x).port = u.port) := by
  obtain ⟨e, es, er, em⟩ := k
  obtain ⟨p, step, ps, clash⟩ := State.stepOne_sound (s := u) (by rw [e]; exact em) x
  have table : (u.stepOne x).session.members = r.members := by rw [step, e]
  have sizes : p.n = s.port.n ∧ p.threshold = s.port.threshold := by
    have system := ps.trans es
    simp only [Port.n, Port.threshold, system, and_self]
  have made : u.replay x = { s with
      session := { s.session with
        members := (memberEffect r.members x.notice).table, count := if counted x.notice.body then r.count + 1#16 else r.count }
      pool := ⟨r.poolAfter s.port.n s.port.threshold (memberEffect r.members x.notice).table x.notice, false⟩
      port := p } := by
    unfold State.replay
    rw [if_pos (by rw [e]; exact hs)]
    dsimp only
    rw [table, State.poolEffect_silent r x.notice (by rw [step, e]; rfl) (by rw [step, e]; exact er) rfl (by rw [step, e]; rfl),
      ← sizes.1, ← sizes.2, step, e]
    rfl
  rw [Replica.take_eq, made]
  refine ⟨⟨rfl, ps.trans es, Replica.poolAfter_sound er _ _ _ _, memberEffect_sound em _⟩, fun own => ?_⟩
  exact clash (by rw [e]; exact own)

/-- The whole buffer, from head to tail. -/
theorem Replays.foldl {r : Replica} {u : State} (k : Replays s r u) (hs : s.session.station = .loading) (l : List Heard) :
    Replays s (l.foldl (fun r h => r.take s.port.n s.port.threshold h.notice) r) (l.foldl State.replay u) ∧
      ((∀ x ∈ l, x.notice.sender = s.own → x.own = true) → (l.foldl State.replay u).port = u.port) := by
  induction l generalizing r u with
  | nil => exact ⟨k, fun _ => rfl⟩
  | cons x l ih =>
    obtain ⟨k1, p1⟩ := k.replay hs x
    obtain ⟨k2, p2⟩ := ih k1
    exact ⟨k2, fun own => (p2 fun y hy => own y (.tail _ hy)).trans (p1 (own x (.head _)))⟩

/-- The final pass (R34). -/
theorem Replays.finalPass {r : Replica} {u : State} (k : Replays s r u) :
    Replays s { r with records := (grantPass s.port.threshold r.records).records } u.finalPass ∧ u.finalPass.port = u.port := by
  obtain ⟨e, es, er, em⟩ := k
  have pass : u.finalPass = u.setPool ⟨(grantPass s.port.threshold r.records).records, false⟩ := by
    rw [State.finalPass, State.withPool_thawed (by rw [e]), State.runPass_silent (by rw [e]; exact er)]
    have sizes : u.port.threshold = s.port.threshold := by simp only [Port.threshold, es]
    rw [sizes, e]
  rw [pass]
  exact ⟨⟨by rw [e]; rfl, es, grantPass_sound er, em⟩, rfl⟩

/-! ### The entry to ANNOUNCING (steps 3 to 5 of R157) -/

/-- A submitted BEACON stands in the Outbox or is owed, and nothing else changes (R139). -/
theorem State.submitBeacon_parts (s : State) : ∃ (o : Outbox) (b : Bool),
    s.submitBeacon = (s.setOutbox o).setSponsor { s.sponsor with owedBeacon := b } ∧
      (s.session.station ≠ .leaving → s.outbox.hasLeave = false → (∃ e ∈ o.entries, e.body.isBeacon = true) ∨ b = true) := by
  cases hb : s.sponsor.owedBeacon with
  | true => exact ⟨s.outbox, true, by rw [State.submitBeacon, if_pos hb, ← hb]; rfl, fun _ _ => .inr rfl⟩
  | false =>
    have made : ∀ r : State × Submitted, s.submit (.beacon 0#16 0#16 false) = r → s.submitBeacon =
        if r.2 = .noRoom then r.1.setSponsor { r.1.sponsor with owedBeacon := true } else r.1 := fun r hr => by
      rw [State.submitBeacon, if_neg (by rw [hb]; exact Bool.false_ne_true), hr]
      obtain ⟨t, x⟩ := r
      cases x <;> rfl
    have same : ∀ o : Outbox, s.setOutbox o = (s.setOutbox o).setSponsor { s.sponsor with owedBeacon := false } := fun o => by
      rw [← hb]; rfl
    cases hr : s.refuses with
    | true =>
      refine ⟨s.outbox, false, (made (s.setOutbox s.outbox, .leaving) (by simp [State.submit, State.offer, hr])).trans (same _), fun h1 h2 => ?_⟩
      simp [State.refuses, h1, h2] at hr
    | false =>
      by_cases standing : (s.outbox.entries.any fun e => e.body.isBeacon) = true
      · refine ⟨s.outbox, false, (made (s.setOutbox s.outbox, .standing) ?_).trans (same _), fun _ _ => .inl ?_⟩
        · simp only [State.submit, State.offer, hr, Outbox.submit, Outbox.limit, if_pos standing, Bool.false_eq_true, if_false]
        · simpa using standing
      · cases hm : s.outbox.room (Body.beacon 0#16 0#16 false).tier with
        | true =>
          refine ⟨s.outbox.place (.beacon 0#16 0#16 false) s.session.tag .session, false,
            (made (s.setOutbox _, .placed) ?_).trans (same _), fun _ _ => .inl ⟨_, mem_insertEntry.2 (.inl rfl), rfl⟩⟩
          simp only [State.submit, State.offer, hr, Outbox.submit, Outbox.limit, if_neg standing, hm, Bool.false_eq_true, if_false, if_true]
        | false =>
          refine ⟨s.outbox, true, made (s.setOutbox s.outbox, .noRoom) ?_, fun _ _ => .inr rfl⟩
          simp only [State.submit, State.offer, hr, Outbox.submit, Outbox.limit, if_neg standing, hm, Bool.false_eq_true, if_false]

/-- The LOADING station that has built its replica becomes ANNOUNCING. -/
theorem Replays.announce {r : Replica} {u : State} (k : Replays s r u) : ∃ (o : Outbox) (b : Bool),
    u.announce = { s with
      session := { s.session with station := .announcing, members := r.members, count := r.count }
      pool := ⟨r.records, false⟩
      joiner := .none
      outbox := o
      sponsor := { s.sponsor with answers := Vector.replicate 16 none, serving := none, owedBeacon := b }
      timers := { s.timers with
        snapshot := none
        absence := Vector.ofFn fun a : Addr =>
          if a ≠ s.own ∧ ((r.members.get a).state = .syncing ∨ (r.members.get a).state = .present) then some 0 else none }
      checker := { s.checker with suspect := none }
      port := { u.port with
        locked := true
        attn := true
        events := enqueue s.own u.port.events
          ⟨.stationState .announcing .snapshotDone, s.own, if s.session.founded then r.count else 0#16⟩ } } ∧
      (s.outbox.hasLeave = false → (∃ e ∈ o.entries, e.body.isBeacon = true) ∨ b = true) := by
  unfold State.announce
  dsimp only
  rw [State.enter_eq]
  obtain ⟨o, b, e, w⟩ := State.submitBeacon_parts (_ : State)
  rw [e]
  refine ⟨o, b, ?_, fun h => ?_⟩
  · rw [k.state]; rfl
  · refine w (by simp) ?_
    rw [k.state]; exact h

/-- A snapshot whose SNAP-END matches (R157). -/
theorem State.complete_replays (ha : AllSound s) (hf : s.pool.frozen = false) (hs : s.session.station = .loading) :
    ∃ (r : Replica) (u : State), r = s.joiner.catchUp.foldl (fun r h => r.take s.port.n s.port.threshold h.notice)
        ⟨s.session.members, s.session.count, s.pool.records⟩ ∧
      Replays s { r with records := (grantPass s.port.threshold r.records).records } u ∧ s.complete = u.announce ∧
      ((∀ x ∈ s.joiner.catchUp, x.notice.sender = s.own → x.own = true) → u.port = s.port) := by
  obtain ⟨k, p⟩ := (Replays.refl ha hf).foldl hs s.joiner.catchUp
  obtain ⟨k2, p2⟩ := k.finalPass
  refine ⟨_, _, rfl, k2, ?_, fun own => p2.trans (p own)⟩
  unfold State.complete
  dsimp only
  rw [if_pos (by rw [k.state]; exact hs), if_pos (by rw [k2.state]; exact hs)]

/-- The event of a SNAP-END that matches: ANNOUNCING with the check of the replica it built (R157, R163). -/
theorem State.takeNotice_announces {r : Replica} {u : State} (k : Replays s r u) (hs : s.session.station = .loading)
    (ht : h.notice.tag = s.session.tag) (hf : h.notice.body.isFound = false) (hl : s.load h = u.announce) :
    s.takeNotice h false none =
      u.announce.setChecker { u.announce.checker with tableCheck := tableCheckOf r.members r.records } := by
  obtain ⟨o, b, e, -⟩ := k.announce
  have session : u.announce.session = { s.session with station := .announcing, members := r.members, count := r.count } := by rw [e]
  have pool : u.announce.pool = ⟨r.records, false⟩ := by rw [e]
  have checked : State.recheck s u.announce =
      u.announce.setChecker { u.announce.checker with tableCheck := tableCheckOf r.members r.records } := by
    rw [State.recheck_new, session, pool]
    · rw [State.keepsCheck_loading hs, session]; rfl
    · exact State.poolFails_sound (by rw [pool]; exact k.records)
    · rw [State.membersFail, session]; simpa using fun a _ => k.members a
  have station : (u.announce.setChecker { u.announce.checker with
      tableCheck := tableCheckOf r.members r.records }).session.station ≠ .active := by
    rw [State.setChecker_session, session]; nofun
  rw [State.takeNotice_loading hs ht hf, hl, checked, State.makeAnswers_none (.inr station), State.postActive_none (.inl station)]

end

/-- Settles O47: each snapshot notice by what it builds, and the matching SNAP-END by the replay of the buffer. -/
theorem snapshotBuildsTheReplica : Obligations.SnapshotBuildsTheReplica := by
  intro s h hs hd ht hp
  have nActive : s.session.station ≠ .active := by rw [hs]; nofun
  have nAnnouncing : s.session.station ≠ .announcing := by rw [hs]; nofun
  refine ⟨fun v hb ha => ?members, fun v hb ha => ?notAwaited, fun p st c m rq ef ps sd hb => ?claim, fun k n hb ha hf => ?last⟩
  case members =>
    intro mine
    have load := (State.load_snapMembers (s := s.taking) hb hp).trans (State.buildMembers_awaited v ha)
    have parts := State.abandon_parts (s.taking.setMembers (tableOfBytes v))
    obtain ⟨station, dest, members, count, pool, joiner⟩ := parts
    by_cases hm : mine
    · replace load := load.trans (if_pos hm)
      refine ⟨_, exec_loads hs hd ht (by rw [hb]; rfl) load nActive nAnnouncing, fun a => ?_, rfl, rfl, fun _ => ⟨hs, rfl, rfl⟩,
        fun hn => absurd hm hn⟩
      exact tableOfBytes_get v a ▸ memberOfByte_parts (v.get a)
    · replace load := load.trans (if_neg hm)
      refine ⟨_, exec_loads hs hd ht (by rw [hb]; rfl) load (by rw [station]; nofun) (by rw [station]; nofun), fun a => ?_, count, pool,
        fun hy => absurd hy hm, fun _ => ⟨station, dest, joiner⟩⟩
      rw [members]
      exact tableOfBytes_get v a ▸ memberOfByte_parts (v.get a)
  case notAwaited =>
    have load : s.taking.load h = s.taking := (State.load_snapMembers (s := s.taking) hb hp).trans (if_neg ha)
    exact exec_loads hs hd ht (by rw [hb]; rfl) load nActive nAnnouncing
  case claim =>
    exact ⟨_, exec_loads hs hd ht (by rw [hb]; rfl) (State.load_snapClaim (s := s.taking) hb hp) nActive nAnnouncing, rfl, rfl, rfl, rfl, rfl⟩
  case last =>
    intro fits
    have load := State.load_snapEnd (s := s.taking) hb hp hs ha
    refine ⟨fun hn => ?_, fun hy => ?_⟩
    · replace load := load.trans (if_neg hn)
      obtain ⟨station, -⟩ := State.abandon_parts s.taking
      have ends : exec .noticeEffectsMade s = .next s.taking.abandon :=
        exec_loads hs hd ht (by rw [hb]; rfl) load (by rw [station]; nofun) (by rw [station]; nofun)
      exact ends
    · replace load := load.trans (if_pos hy)
      obtain ⟨r, u, hr, k, complete, clash⟩ := State.complete_replays (s := s.taking) ha hf hs
      obtain ⟨o, b, e, beacon⟩ := k.announce
      refine ⟨_, (exec_noticeEffectsMade hd).trans (congrArg _ (State.takeNotice_announces k hs ht (by rw [hb]; rfl) (load.trans complete))), ?_⟩
      intro r'
      have same : r' = r := hr.symm
      rw [same, e]
      refine ⟨rfl, rfl, rfl, rfl, rfl, rfl, fun founded own => ?_, fun hl _ => beacon hl⟩
      have founded' : s.taking.session.founded = true := founded
      simp only [State.setChecker_port, clash own, founded', if_true]
      rfl

end Sys2Proof.Machine
end

