-- ==== Sys2Proof/Proofs/Wires.lean ====
section
/-! PROOFS. No taken notice touches the configuration image, the round, the stuck bus or what is sampled of the lines, and an entry
that is offered goes on being offered (O25). -/

namespace Sys2Proof.Machine

variable (s : State)

/-! ### Changes of station state -/

theorem State.change_wired (st : StationState) : Wired s (s.change st) := by cases st <;> exact .refl s

theorem State.discard_wired : Wired s s.discard := .refl s

theorem State.setTag_wired (tag : Word) : Wired s (s.setTag tag) := .refl s

theorem State.seek_wired (c : Cause) : Wired s (s.seek c) := (s.enter_wired _ c).trans (State.submit_kept _ _).wired

theorem State.goOffline_wired (c : Cause) : Wired s (s.goOffline c) := (s.setTag_wired _).trans (State.enter_wired _ _ c)

theorem State.goListening_wired (c : Cause) : Wired s (s.goListening c) :=
  ((s.setTag_wired _).trans (State.setTimers_kept _ _).wired).trans (State.enter_wired _ _ c)

theorem State.teardown_wired (r : Option EndReason) : Wired s (s.teardown r) :=
  (Kept.foldl (fun s c => s.teardownSlot_kept r c) sixteen s).wired

/-- The end of a membership up to the change of state. -/
theorem State.cleared_wired (r : Option EndReason) : Wired s (s.teardown r).discard.clearOutbox :=
  ((s.teardown_wired r).trans (State.discard_wired _)).trans (State.clearOutbox_kept _).wired

theorem State.giveUp_wired (c : Cause) : Wired s (s.giveUp c) :=
  (s.discard_wired.trans (State.clearOutbox_kept _).wired).trans (State.seek_wired _ c)

theorem State.yieldTo_wired (tag : Word) : Wired s (s.yieldTo tag) :=
  (((s.cleared_wired _).trans (State.setTag_wired _ tag)).trans (State.setTimers_kept _ _).wired).trans (State.seek_wired _ _)

theorem State.ownLeave_wired : Wired s s.ownLeave := by
  have cleared := s.cleared_wired (s.session.leaveReason.bind LeaveReason.ends)
  unfold State.ownLeave
  dsimp only
  split
  · exact cleared.trans (State.goOffline_wired _ _)
  · split
    · exact cleared.trans (State.seek_wired _ _)
    · exact cleared.trans (State.goListening_wired _ _)

theorem State.evicted_wired (st : StationState) : Wired s (s.evicted st) := by
  have cleared := s.cleared_wired (some .evicted)
  unfold State.evicted
  dsimp only
  split
  · split
    · exact cleared.trans (State.seek_wired _ _)
    · exact cleared.trans (State.goOffline_wired _ _)
  · split
    · exact cleared.trans (State.seek_wired _ _)
    · exact cleared.trans (State.goOffline_wired _ _)
  all_goals exact cleared.trans (State.seek_wired _ _)

theorem State.endMembership_wired (st : StationState) (x : Ending) : Wired s (s.endMembership st x) := by
  cases x with
  | left => exact s.ownLeave_wired
  | evicted => exact s.evicted_wired st
  | sponsorLost => exact s.giveUp_wired _

/-! ### Notices taken outside the session (R127, R129, R143, R144, R154) -/

theorem State.hear_wired (h : Heard) : Wired s (s.hear h) := by
  have session : Wired s (s.hearSession h.notice.tag) := by
    refine .trans ?_ (State.seek_wired _ _)
    exact .refl s
  unfold State.hear
  split
  · split
    · refine .trans ?_ (State.goOffline_wired _ _)
      exact .refl s
    · exact session
  all_goals exact session

theorem State.found_wired (tag : Word) : Wired s (s.found tag) := by
  refine .trans ?_ (State.testLines_kept _).wired
  refine .trans ?_ (State.change_wired _ _)
  exact .refl s

theorem State.takeFounding_wired (h : Heard) : Wired s (s.takeFounding h) := by
  unfold State.takeFounding
  split
  · split
    · exact s.found_wired _
    · exact .refl s
  · exact s.hear_wired h

theorem State.noteHeard_wired (own : Bool) : Wired s (s.noteHeard own) := by cases own <;> exact .refl s

theorem State.enterLoading_wired (a : Addr) (n : Word) : Wired s (s.enterLoading a n) := by
  refine .trans ?_ (State.enter_wired _ _ _)
  exact .refl s

theorem State.refused_wired (r : Fin 16) (own : Bool) : Wired s (s.refused r own) := by
  unfold State.refused
  split
  · refine .trans ?_ (State.enter_wired _ _ _)
    exact .refl s
  · split
    · refine .trans ?_ (State.goOffline_wired _ _)
      exact .refl s
    · split
      · refine .trans ?_ (State.goOffline_wired _ _)
        exact .refl s
      · exact s.noteHeard_wired own

theorem State.takeSeeking_wired (h : Heard) : Wired s (s.takeSeeking h) := by
  have heard := s.noteHeard_wired h.own
  unfold State.takeSeeking
  split
  · exact .refl s
  · split
    · exact .refl s
    · split
      · exact .refl s
      · exact heard
    · split
      · exact s.enterLoading_wired _ _
      · exact heard
    · split
      · exact s.refused_wired _ _
      · exact heard
    all_goals exact heard

/-! ### Notices of the session -/

theorem State.setMembers_wired (t : Table) : Wired s (s.setMembers t) := .refl s

theorem State.fourSteps_wired (h : Heard) (e : TableChange) (x : Option EndReason) : Wired s (s.fourSteps h e x) := by
  have members : ∀ t : State, Wired t (t.liveMembers e) := fun t => (t.setMembers_wired e.table).trans (t.liveMembers_kept e).wired
  exact ((s.stepped_wired h).trans (members _)).trans (State.poolEffect_kept _ _ _ _ _).wired

theorem State.listJoin_wired (a : Addr) (k : Word) : Wired s (s.listJoin a k) := by
  unfold State.listJoin
  split
  · split <;> exact .refl s
  · split <;> exact .refl s
  · split <;> exact .refl s
  · exact .refl s

theorem State.startServing_wired (a : Addr) : Wired s (s.startServing a) := by
  unfold State.startServing
  split
  · exact s.freeze_kept.wired
  · split
    · exact s.upset_kept.wired
    · exact .refl s

theorem State.ownAdmit_wired (a : Addr) (b : Bool) : Wired s (s.ownAdmit a b) := by
  unfold State.ownAdmit
  split
  · exact s.startServing_wired a
  · split <;> exact .refl s

theorem State.compared_wired (a : Addr) (b : Bool) : Wired s (s.compared a b) := by
  unfold State.compared
  split
  · exact .refl s
  · split
    · exact .refl s
    · refine .trans ?_ (State.queueLeave_wired _ _)
      exact .refl s
  · exact .refl s
  · exact .refl s

theorem State.takeBeacon_wired (h : Heard) (p : Bool) (k n : Word) (b : Bool) : Wired s (s.takeBeacon h p k n b) := by
  unfold State.takeBeacon
  split
  · split
    · exact (s.change_wired _).trans (State.testLines_kept _).wired
    · exact .refl s
  · split
    · exact s.compared_wired _ _
    · exact .refl s
  all_goals exact .refl s

theorem State.kindEffects_wired (h : Heard) (e : TableChange) : Wired s (s.kindEffects h e) := by
  unfold State.kindEffects
  split
  · split
    · exact s.listJoin_wired _ _
    · exact .refl s
  · split
    · exact s.ownAdmit_wired _ _
    · exact .refl s
  · exact s.takeBeacon_wired h _ _ _ _
  all_goals exact .refl s

theorem State.localEffects_wired (h : Heard) (e : TableChange) : Wired s (s.localEffects h e) := by
  have pruned : Wired s s.pruneAnswers := .refl s
  exact ((pruned.trans (State.clearSuspect_kept _).wired).trans (State.checkServing_kept _ h).wired).trans (State.kindEffects_wired _ h e)

theorem State.applyNotice_wired (h : Heard) : Wired s (s.applyNotice h) := by
  unfold State.applyNotice
  dsimp only
  split
  · exact ((s.change_wired _).trans (State.fourSteps_wired _ _ _ _)).trans (State.endMembership_wired _ _ _)
  · exact (s.fourSteps_wired _ _ _).trans (State.localEffects_wired _ _ _)

theorem State.otherTag_wired (n : Notice) : Wired s (s.otherTag n) := by
  unfold State.otherTag
  split
  · exact .refl s
  · split
    · exact .refl s
    · exact s.yieldTo_wired _

theorem State.takeMember_wired (h : Heard) : Wired s (s.takeMember h) := by
  unfold State.takeMember
  split
  · exact .refl s
  · split
    · exact s.applyNotice_wired h
    · exact s.otherTag_wired _

/-! ### Loading -/

theorem State.abandon_wired : Wired s s.abandon := s.queueLeave_wired _

theorem State.buildMembers_wired (v : Vector Byte 16) : Wired s (s.buildMembers v) := by
  unfold State.buildMembers
  split
  · dsimp only
    split
    · exact .refl s
    · exact (s.setMembers_wired _).trans (State.abandon_wired _)
  · exact .refl s

theorem State.replay_wired (h : Heard) : Wired s (s.replay h) := by
  unfold State.replay
  split
  · exact ((s.stepOne_wired h).trans (State.setMembers_wired _ _)).trans (State.poolEffect_kept _ _ _ _ _).wired
  · exact .refl s

theorem State.announce_wired : Wired s s.announce := by
  refine .trans ?_ (State.submitBeacon_kept _).wired
  refine .trans ?_ (State.enter_wired _ _ _)
  exact .refl s

theorem State.complete_wired : Wired s s.complete := by
  have replayed := Wired.foldl (fun s h => s.replay_wired h) s.joiner.catchUp s
  have passed := replayed.trans (State.withPool_kept _ fun t => t.runPass_kept false).wired
  unfold State.complete
  dsimp only
  split
  · split
    · exact passed.trans (State.announce_wired _)
    · exact passed
  · exact replayed

theorem State.endSnapshot_wired (k : Word) (n : Byte) : Wired s (s.endSnapshot k n) := by
  have read : Wired s (if s.poolFails then s.freeze else s.readMembers sixteen) := by
    split
    · exact s.freeze_kept.wired
    · exact (s.readMembers_kept _).wired
  unfold State.endSnapshot
  revert read
  generalize (if s.poolFails then s.freeze else s.readMembers sixteen) = t
  intro read
  dsimp only
  split
  · split
    · exact read.trans (State.complete_wired _)
    · exact read.trans (State.abandon_wired _)
  · exact read

theorem State.buffer_wired (h : Heard) : Wired s (s.buffer h) := by
  unfold State.buffer
  split
  · exact .refl s
  · exact s.abandon_wired

theorem State.load_wired (h : Heard) : Wired s (s.load h) := by
  have buffered := s.buffer_wired h
  unfold State.load
  dsimp only
  split
  · exact .refl s
  · split
    · exact s.buildMembers_wired _
    · exact buffered
  · split
    · rw [State.buildClaim_eq]; exact .refl s
    · exact buffered
  · split
    · exact s.endSnapshot_wired _ _
    · exact buffered
  · split
    · exact s.giveUp_wired _
    · exact buffered
  · split
    · exact s.giveUp_wired _
    · split
      · exact s.giveUp_wired _
      · exact buffered
  all_goals exact buffered

theorem State.takeLoading_wired (h : Heard) : Wired s (s.takeLoading h) := by
  unfold State.takeLoading
  split
  · exact .refl s
  · split
    · exact s.load_wired h
    · exact s.otherTag_wired _

/-! ### The whole event -/

theorem State.handle_wired (h : Heard) : Wired s (s.handle h) := by
  unfold State.handle
  split
  iterate 3 exact .refl s
  · exact s.hear_wired h
  · exact s.takeFounding_wired h
  · exact s.takeSeeking_wired h
  · exact s.takeLoading_wired h
  all_goals exact s.takeMember_wired h

theorem State.takeNotice_wired (h : Heard) (r : Bool) (c : Option Client) : Wired s (s.takeNotice h r c) :=
  ((((s.makeRoom_kept h r c).wired.trans (State.handle_wired _ h)).trans (State.recheck_kept _ s).wired).trans
    (State.makeAnswers_kept _).wired).trans (State.postActive_kept _ _).wired

theorem State.flush_wired : Wired s s.flush := by
  rcases s.flush_cases with e | ⟨h, -, e⟩
  · rw [e]; exact .refl s
  · rw [e]
    have taking : Wired s s.taking := .refl s
    exact taking.trans (State.takeNotice_wired _ _ _ _)

/-- A taken notice leaves no other to be handled. -/
theorem State.takeNotice_delivered (h : Heard) (r : Bool) (c : Option Client) : (s.takeNotice h r c).bus.delivered = s.bus.delivered := by
  have room : (s.makeRoom h r c).bus = s.bus := (s.makeRoom_replica h r c).2.2.2
  have after : (s.takeNotice h r c).bus.delivered = ((s.makeRoom h r c).handle h).bus.delivered := by
    obtain ⟨k, q⟩ := State.recheck_works s ((s.makeRoom h r c).handle h)
    exact congrArg Bus.delivered ((q.comp (State.makeAnswers_quiet _)).comp (State.postActive_quiet _ _)).bus
  rw [after, (State.handle_cases _ h).delivered, room]

theorem State.flush_delivered : s.flush.bus.delivered = none := by
  cases hd : s.bus.delivered with
  | none => rw [State.flush_none hd, hd]
  | some h =>
    have made : s.flush = s.taking.takeNotice h false none := by
      simp only [State.flush, hd]
      rfl
    rw [made, State.takeNotice_delivered]
    rfl

end Sys2Proof.Machine
end

