-- ==== Sys2Proof/Proofs/Flushed.lean ====
section
/-! PROOFS. What acts on the station with the effects of a delivered notice made acts so after them (R22, R125; O25). -/

namespace Sys2Proof.Machine

section
variable {s : State}

theorem State.flush_flush (s : State) : s.flush.flush = s.flush := State.flush_none s.flush_delivered

theorem State.flush_resetHeld (s : State) : s.flush.resetHeld = s.resetHeld := by
  obtain ⟨-, held, -⟩ := s.flush_moves.kept
  exact held

/-! ### Frames, reset lines and the stuck bus -/

/-- A framed command that meets the station with the effects made. -/
theorem State.frame_flush (hr : s.resetHeld = false) (decide : State → Decided) :
    s.frame (decide s.flush) = s.flush.frame (decide s.flush.flush) := by
  rw [State.flush_flush, State.frame_eq _ _ hr, State.frame_eq _ _ (s.flush_resetHeld.trans hr)]

theorem exec_station_flush (hr : s.resetHeld = false) :
    ∀ c ∈ [Instr.start, .stop, .resync, .clearFault, .readEvent, .readStatus], exec c s = exec c s.flush := by
  simp only [List.forall_mem_cons]
  refine ⟨congrArg Host.Outcome.next (State.frame_flush hr State.decideStart), congrArg Host.Outcome.next (State.frame_flush hr State.decideStop),
    congrArg Host.Outcome.next (State.frame_flush hr State.decideResync), congrArg Host.Outcome.next (State.frame_flush hr State.decideClearFault),
    congrArg (fun t : State => Host.Outcome.next t.reading) (State.frame_flush hr State.decideReadEvent),
    congrArg Host.Outcome.next (State.frame_flush hr State.decideReadStatus), nofun⟩

theorem exec_byte_flush (hr : s.resetHeld = false) (b : Byte) :
    ∀ c ∈ [Instr.readResource b, .readMember b, .readSlot b, .cancel b, .release b, .renew b], exec c s = exec c s.flush := by
  simp only [List.forall_mem_cons]
  exact ⟨congrArg Host.Outcome.next (State.frame_flush hr fun t => t.decideReadResource b), congrArg Host.Outcome.next (State.frame_flush hr fun t => t.decideReadMember b),
    congrArg Host.Outcome.next (State.frame_flush hr fun t => t.decideReadSlot b), congrArg Host.Outcome.next (State.frame_flush hr fun t => t.decideCancel b),
    congrArg Host.Outcome.next (State.frame_flush hr fun t => t.decideRelease b), congrArg Host.Outcome.next (State.frame_flush hr fun t => t.decideRenew b), nofun⟩

theorem exec_claim_flush (hr : s.resetHeld = false) (b : Byte) (m : Mask) (k : Byte) : exec (.claim b m k) s = exec (.claim b m k) s.flush :=
  congrArg Host.Outcome.next (State.frame_flush hr fun t => t.decideClaim b m k)

theorem exec_load_flush (hr : s.resetHeld = false) (o : Byte) (d : List Byte) :
    ∀ c ∈ [Instr.loadProfile o d, .loadLocal o d], exec c s = exec c s.flush := by
  simp only [List.forall_mem_cons]
  exact ⟨congrArg Host.Outcome.next (State.frame_flush hr fun t => t.decideLoadProfile o d), congrArg Host.Outcome.next (State.frame_flush hr fun t => t.decideLoadLocal o d),
    nofun⟩

theorem State.busStuck_flush (hr : s.resetHeld = false) (hb : s.bus.stuck = false) : s.busStuck = s.flush.busStuck := by
  obtain ⟨-, ⟨-, stuck⟩, -, -⟩ := s.flush_wired
  simp only [State.busStuck, State.flush_resetHeld, stuck, hr, hb, State.flush_flush, Bool.or_self, Bool.false_eq_true, if_false]

/-! ### Edges -/

/-- The tests of an edge read the same of the station with the effects made. -/
theorem State.flush_line (s : State) (n : LineNo) : s.flush.port.lineEnabled n = s.port.lineEnabled n ∧
    (s.flush.line n).req = (s.line n).req ∧ (s.flush.line n).edges = (s.line n).edges := by
  obtain ⟨⟨-, image⟩, -, lines, -⟩ := s.flush_wired
  exact ⟨by simp only [Port.lineEnabled, image], lines n⟩

theorem State.reqRise_flush (hr : s.resetHeld = false) {n : LineNo} (hn : s.port.lineEnabled n = true) :
    s.reqRise n .atOnce = if (s.line n).req = true then s else s.flush.reqRise n .atOnce := by
  obtain ⟨enabled, req, -⟩ := s.flush_line n
  cases hq : (s.line n).req <;>
    simp [State.reqRise, State.flush_resetHeld, hr, enabled, req, hq, hn, State.meet, State.flush_flush]

theorem State.reqFall_flush (hr : s.resetHeld = false) {n : LineNo} (hn : s.port.lineEnabled n = true) :
    s.reqFall n .atOnce = if (s.line n).req = false then s else s.flush.reqFall n .atOnce := by
  obtain ⟨enabled, req, -⟩ := s.flush_line n
  cases hq : (s.line n).req <;>
    simp [State.reqFall, State.flush_resetHeld, hr, enabled, req, hq, hn, State.meet, State.flush_flush]

theorem State.edgeHandedOn_flush {n : LineNo} (he : (s.line n).edges ≠ []) : s.edgeHandedOn n = s.flush.edgeHandedOn n := by
  obtain ⟨-, -, edges⟩ := s.flush_line n
  unfold State.edgeHandedOn
  rw [edges, State.flush_flush]
  cases hl : (s.line n).edges with
  | nil => exact absurd hl he
  | cons e es => rfl

/-! ### Expiries -/

/-- An expiry whose timer runs. -/
theorem State.expire_flush {runs : State → Bool} (hr : runs s = true) (act : State → State) : s.expire runs act = s.flush.expire runs act := by
  unfold State.expire
  rw [State.flush_flush, if_pos hr]
  cases runs s.flush <;> rfl

/-! ### Rounds -/

theorem State.flush_round (s : State) : s.flush.bus.round = s.bus.round := by
  obtain ⟨-, ⟨round, -⟩, -, -⟩ := s.flush_wired
  exact round

/-- An offer stands until its round is settled, whatever the notice before leads to. -/
theorem State.flush_carries (h : s.outbox.offered ≠ none) : s.carries = true ∧ s.flush.carries = true := by
  obtain ⟨-, -, -, carries⟩ := s.flush_wired
  have offers : s.carries = true := Option.isSome_iff_ne_none.2 h
  exact ⟨offers, carries offers⟩

variable {r : Round} (hr : s.bus.round = some r)
include hr

theorem State.roundTaken_own_flush (ho : s.outbox.offered ≠ none) (t : Timing) : s.roundTaken .own t = s.flush.roundTaken .own t := by
  obtain ⟨c, cf⟩ := State.flush_carries ho
  simp only [State.roundTaken, State.flush_round, hr, c, cf, State.flush_flush, if_true]

theorem State.roundTaken_other_flush {w : Byte} (hw : ∀ k, r.number = some k → k < w) (bs : List Byte) (t : Timing) :
    s.roundTaken (.other w bs) t = s.flush.roundTaken (.other w bs) t := by
  simp only [State.roundTaken, State.flush_round, hr, Round.wouldWin_false r w hw, State.flush_flush, Bool.false_eq_true, if_false]

theorem State.roundVoided_true_flush (ho : s.outbox.offered ≠ none) (f : Option ReceptionFault) :
    s.roundVoided true f = s.flush.roundVoided true f := by
  obtain ⟨c, cf⟩ := State.flush_carries ho
  simp only [State.roundVoided, State.flush_round, hr, c, cf, State.flush_flush, Bool.not_true, Bool.and_false, Bool.false_eq_true, if_false]

theorem State.roundVoided_false_flush (f : Option ReceptionFault) : s.roundVoided false f = s.flush.roundVoided false f := by
  simp only [State.roundVoided, State.flush_round, hr, State.flush_flush, Bool.false_and, Bool.false_eq_true, if_false]

theorem State.roundMissed_flush (hi : s.flush.session.station.inSession = false) : s.roundMissed = s.flush.roundMissed := by
  simp only [State.roundMissed, State.flush_round, hr, State.flush_flush, hi, Bool.false_eq_true, if_false]

end

end Sys2Proof.Machine
end

