-- ==== Sys2Proof/Proofs/Later.lean ====
section
/-! PROOFS. Effects made later are those made at once, where the taking of the notice recalls nothing or nothing is owed (R97, R112; O25). -/

namespace Sys2Proof.Machine

section
variable {s t y : State} {h : Heard}

/-! ### The round's end leaves session and sponsor -/

theorem State.tellOwner_same (s : State) (w : Owner) : (s.tellOwner w).session = s.session ∧ (s.tellOwner w).sponsor = s.sponsor := by
  cases w with
  | session => exact ⟨rfl, rfl⟩
  | claimUnit c =>
    unfold State.tellOwner State.toldRemoved
    dsimp only
    split
    · simp
    · split
      · obtain ⟨e, -⟩ := State.setSlot_mild s c (.freeWith .withdrawn)
        simp [State.endSlot, State.post]
      · exact ⟨rfl, rfl⟩

theorem State.settle_same (s : State) (taken : Bool) :
    (s.settle taken).state.session = s.session ∧ (s.settle taken).state.sponsor = s.sponsor := by
  unfold State.settle
  split
  · exact ⟨rfl, rfl⟩
  · dsimp only
    split
    · exact ⟨rfl, rfl⟩
    · split
      · exact State.tellOwner_same (s.setOutbox _) _
      · exact ⟨rfl, rfl⟩

theorem State.takeRound_same (s : State) (h : Heard) :
    (s.takeRound h).state.session = s.session ∧ (s.takeRound h).state.sponsor = s.sponsor := by
  obtain ⟨session, sponsor⟩ := (s.setCount (s.countAfter h.notice)).settle_same h.own
  exact ⟨by simp only [State.takeRound, State.setBus_session, State.setCount, State.setSession] at session ⊢; rw [session], sponsor⟩

/-! ### Notices that recall nothing -/

theorem State.recallsNothing.congr {n : Notice} (hr : s.recallsNothing n) (hs : t.session = s.session)
    (hv : t.sponsor.serving = s.sponsor.serving ∨ t.sponsor.serving = none) : t.recallsNothing n := by
  unfold State.recallsNothing at hr ⊢
  rw [hs]
  refine hr.imp_right fun hr => hr.imp_right fun hr => hr.imp_right fun hr => hr.imp_right fun ⟨hm, hn, hd⟩ => ⟨hm, hn, fun v hv' => ?_⟩
  rcases hv with hv | hv
  · exact hd v (hv.symm.trans hv')
  · rw [hv] at hv'; cases hv'

/-- Room work takes a member at most to LEAVING, where the same notices recall nothing. -/
theorem State.recallsNothing.mild {n : Notice} (hr : s.recallsNothing n) (k : Mild s t) : t.recallsNothing n := by
  obtain ⟨-, hv, ⟨hs, -⟩ | ⟨ha, hs, -⟩⟩ := k
  · exact hr.congr hs hv
  · have stays : namedTarget n = none ∧
        ∀ v, s.sponsor.serving = some v → ((memberEffect s.session.members n).table.get v.joiner).state ≠ .absent := by
      rcases hr with hr | hr | hr | hr | ⟨-, hr⟩
      iterate 4 rcases ha with ha | ha <;> rw [hr] at ha <;> cases ha
      exact hr
    refine .inr (.inr (.inr (.inr ⟨.inr (.inr (by rw [hs]; rfl)), stays.1, fun v hv' => ?_⟩)))
    rw [hs]
    rcases hv with hv | hv
    · exact stays.2 v (hv.symm.trans hv')
    · rw [hv] at hv'; cases hv'

/-! ### A notice handled by the state that its room leaves -/

theorem SessionKept.not_active (k : SessionKept s t) (hs : s.session.station ≠ .active) : t.session.station ≠ .active := by
  rcases k with ⟨e, -⟩ | ⟨-, e⟩
  · rw [e]; exact hs
  · rw [e]; nofun

/-- A LEAVING station is not made ACTIVE by a notice. -/
theorem Handled.not_active {n : Notice} (k : Handled s n t) (hs : s.session.station = .leaving) : t.session.station ≠ .active := by
  cases k with
  | quiet _ k =>
    rcases k with ⟨e, -⟩ | ⟨-, e, -⟩
    · rw [e, hs]; nofun
    · rw [e]; nofun
  | outside _ e => rw [hs] at e; cases e
  | founded e => rw [hs] at e; cases e
  | admitted e => rw [hs] at e; cases e
  | emptied _ e =>
    intro ha
    have outside := e.outside
    rw [ha] at outside
    cases outside
  | applied _ _ k =>
    rw [(k.1 hs).1]
    nofun
  | members e => rw [hs] at e; cases e
  | record _ e => rw [hs] at e; cases e
  | completed e => rw [hs] at e; cases e

/-- The check is worked out afresh for a state in the event of `t` where it is in that of `s`. -/
theorem State.keepsCheck_mild (k : Mild s t) (hm : t.session.members = s.session.members) (hc : t.checker.tableCheck = s.checker.tableCheck)
    (u : State) : u.keepsCheck t = u.keepsCheck s := by
  obtain ⟨hp, -, ⟨hs, -⟩ | ⟨ha, hs, -⟩⟩ := k
  · by_cases hl : s.session.station = .loading
    · rw [State.keepsCheck_loading hl, State.keepsCheck_loading (by rw [hs]; exact hl)]
    · rw [State.keepsCheck_other hl, State.keepsCheck_other (by rw [hs]; exact hl), hm, hp, hc]
  · have nLoading : s.session.station ≠ .loading := fun e => by rcases ha with ha | ha <;> rw [e] at ha <;> cases ha
    rw [State.keepsCheck_other nLoading, State.keepsCheck_other (by rw [hs]; nofun), hm, hp, hc]

/-- The room of a notice may be offered ahead: the rest of the event is the same. -/
theorem State.takeNotice_roomed (r : Bool) (c : Option Client) (hn : (y.makeRoom h r c).makeRoom h false none = y.makeRoom h r c) :
    (y.makeRoom h r c).takeNotice h false none = y.takeNotice h r c := by
  have mild := y.makeRoom_mild h r c
  obtain ⟨members, -, check, -⟩ := y.makeRoom_replica h r c
  unfold State.takeNotice
  dsimp only
  rw [hn]
  generalize y.makeRoom h r c = t at mild members check
  have rechecked : State.recheck t (t.handle h) = State.recheck y (t.handle h) := by
    unfold State.recheck
    rw [State.keepsCheck_mild mild members check]
  rw [rechecked]
  obtain ⟨-, -, ⟨hs, -⟩ | ⟨ha, hs, -⟩⟩ := mild
  · rw [hs]
  · have leaving : t.session.station = .leaving := by rw [hs]; rfl
    have last : (State.recheck y (t.handle h)).makeAnswers.session.station ≠ .active :=
      ((State.recheck_kept _ y).trans (State.makeAnswers_kept _)).session.not_active ((State.handle_cases t h).not_active leaving)
    rw [State.postActive_none (.inl last), State.postActive_none (.inl last)]

/-- Such a notice is handled after the room as with it. -/
theorem State.takeNotice_recallsNothing (hr : y.recallsNothing h.notice) (r : Bool) (c : Option Client) :
    (y.dated h.notice fun u => u.offerRoom r c).takeNotice h false none = y.takeNotice h r c := by
  have room : y.makeRoom h r c = y.dated h.notice fun u => u.offerRoom r c := by
    unfold State.makeRoom
    rw [State.recall_same hr]
    simp
  rw [← room]
  exact State.takeNotice_roomed r c (State.makeRoom_same (State.recall_same (hr.mild (y.makeRoom_mild h r c))))

/-! ### Nothing owed -/

theorem State.offerRoom_nothingOwed (ho : NothingOwed s) (r : Bool) : s.offerRoom r none = s := by
  cases r <;> simp [State.offerRoom, State.testEnded, State.serveOwed_none ho]

theorem State.takeNotice_nothingOwed (ho : NothingOwed y) (r : Bool) :
    (y.dated h.notice fun u => u.offerRoom r none).takeNotice h false none = y.takeNotice h r none := by
  have still : (y.dated h.notice fun u => u.offerRoom r none) = y :=
    State.dated_same (State.offerRoom_nothingOwed (s := y.setCount (y.countAfter h.notice)) ho r)
  rw [still]
  unfold State.takeNotice
  rw [State.makeRoom_none h r ho, State.makeRoom_none h false ho]

/-! ### The end of a taken round (R97) -/

/-- The round's end, its notice delivered, and the effects made then. -/
theorem State.endTaken_flush (hd : s.bus.delivered = none) (room : (s.takeRound h).state.recallsNothing h.notice ∨
    NothingOwed (s.takeRound h).state ∧ (s.takeRound h).ended = none) : (s.endTaken h .later).flush = s.endTaken h .atOnce := by
  have bus := s.takeRound_bus h
  unfold State.endTaken
  generalize s.takeRound h = x at room bus
  have waits : x.state.bus.delivered = none := by rw [bus]; exact hd
  unfold Settled.deliver
  split
  · have offered : (x.state.dated h.notice fun u => u.offerRoom x.room x.ended).bus.delivered = none := by
      obtain ⟨-, -, -, -, -, e, -⟩ := x.state.dated_kept h.notice (work := fun u => u.offerRoom x.room x.ended)
        fun u => u.offerRoom_quiet x.room x.ended
      rw [e, waits]
    have made : (x.state.dated h.notice fun u => u.offerRoom x.room x.ended).takeNotice h false none =
        x.state.takeNotice h x.room x.ended := by
      rcases room with room | ⟨room, ended⟩
      · exact State.takeNotice_recallsNothing room _ _
      · rw [ended]; exact State.takeNotice_nothingOwed room _
    dsimp only
    rw [← made]
    generalize (x.state.dated h.notice fun u => u.offerRoom x.room x.ended) = t at offered
    have same : (t.setBus { t.bus with delivered := some h }).taking = t := by
      rw [State.taking, ← offered]; rfl
    have flushed : (t.setBus { t.bus with delivered := some h }).flush = (t.setBus { t.bus with delivered := some h }).taking.takeNotice h false none := rfl
    rw [flushed, same]
  · have offered : (x.state.offerRoom x.room x.ended).bus.delivered = none := by
      rw [(x.state.offerRoom_quiet x.room x.ended).bus, waits]
    exact State.flush_none offered

/-- What the end of a taken round leaves owed, where the station owes nothing and no removal was asked. -/
theorem State.takeRound_nothingOwed (ho : NothingOwed s) (hr : NoRemoval s) (own : h.own = true → ∃ e, s.outbox.offered = some e) :
    NothingOwed (s.takeRound h).state ∧ (s.takeRound h).ended = none := by
  cases hw : h.own with
  | true =>
    obtain ⟨e, he⟩ := own hw
    rw [s.takeRound_own h hw he]
    exact ⟨ho, rfl⟩
  | false =>
    rw [s.takeRound_kept h hw hr]
    exact ⟨ho, rfl⟩

/-- Effects made later are those made at once. -/
theorem State.roundTaken_later (hd : s.bus.delivered = none) (w : Hearing) (recalls : (NothingOwed s ∧ NoRemoval s) ∨ ∀ n : Notice,
      (∃ e, w = .own ∧ s.outbox.offered = some e ∧ n = s.filled e) ∨ (∃ k bs, w = .other k bs ∧ receive k bs = .notice n) →
      s.recallsNothing n) : (s.roundTaken w .later).flush = s.roundTaken w .atOnce := by
  have same : s.flush = s := State.flush_none hd
  have ended : ∀ h : Heard, (h.own = true → ∃ e, s.outbox.offered = some e) → (NothingOwed s ∧ NoRemoval s ∨ s.recallsNothing h.notice) →
      (s.endTaken h .later).flush = s.endTaken h .atOnce := fun h own recalls => by
    refine State.endTaken_flush hd ?_
    obtain ⟨session, sponsor⟩ := s.takeRound_same h
    rcases recalls with ⟨ho, hr⟩ | hr
    · exact .inr (State.takeRound_nothingOwed ho hr own)
    · exact .inl (hr.congr session (.inl (by rw [sponsor])))
  unfold State.roundTaken
  cases hr : s.bus.round with
  | none => exact same
  | some r =>
    dsimp only
    cases w with
    | own =>
      dsimp only
      split
      · rw [same]
        unfold State.takeOwn
        cases he : s.outbox.offered with
        | none => exact same
        | some e => exact ended ⟨s.filled e, true⟩ (fun _ => ⟨e, he⟩) (recalls.imp_right fun f => f _ (.inl ⟨e, rfl, he, rfl⟩))
      · exact same
    | other k bs =>
      dsimp only
      split
      · exact same
      · rw [same]
        unfold State.takeOther
        cases hn : receive k bs with
        | notice n => exact ended ⟨n, false⟩ nofun (recalls.imp_right fun f => f _ (.inr ⟨k, bs, rfl, hn⟩))
        | fault f =>
          dsimp only
          split
          · exact same
          · have bus : s.endUntaken.bus.delivered = none := by
              rw [State.endUntaken, State.endRound]
              exact (congrArg Bus.delivered s.settleKept_quiet.bus).trans hd
            exact State.flush_none bus

end

/-- Settles O25: the room of a notice may be offered ahead of its handling, and making the effects twice is making them once. -/
theorem effectsLaterEqualEffectsAtOnce : Obligations.EffectsLaterEqualEffectsAtOnce := by
  refine ⟨fun s hd => congrArg Host.Outcome.next (State.flush_none hd), fun s t h _ hd recalls ht => ?_, fun s u hu => ?_⟩
  · cases ht
    exact congrArg Host.Outcome.next (State.roundTaken_later hd h recalls)
  · cases hu
    refine ⟨s.flush_delivered, congrArg (fun t : State => Host.Outcome.next t.roomEvent) s.flush_flush.symm, fun hr => ?frames, fun n => ?lines,
      fun c hc => congrArg Host.Outcome.next (State.expire_flush (decide_eq_true hc) _),
      fun c hc => congrArg Host.Outcome.next (State.expire_flush (decide_eq_true hc) _), fun r hr => ?rounds,
      fun hs ht => congrArg Host.Outcome.next (State.expire_flush ?_ _), fun hb => ?timers⟩
    case frames =>
      refine ⟨exec_station_flush hr, exec_byte_flush hr, exec_claim_flush hr, exec_load_flush hr, fun n hn => ⟨?_, ?_⟩,
        fun hb => congrArg Host.Outcome.next (State.busStuck_flush hr hb)⟩
      · exact (congrArg Host.Outcome.next (State.reqRise_flush hr hn)).trans (apply_ite _ _ _ _)
      · exact (congrArg Host.Outcome.next (State.reqFall_flush hr hn)).trans (apply_ite _ _ _ _)
    case lines =>
      exact ⟨fun he => congrArg Host.Outcome.next (State.edgeHandedOn_flush he),
        fun hc => congrArg Host.Outcome.next (State.expire_flush (decide_eq_true hc) _)⟩
    case rounds =>
      refine ⟨fun ho => ⟨fun t => congrArg Host.Outcome.next (State.roundTaken_own_flush hr ho t),
          fun f => congrArg Host.Outcome.next (State.roundVoided_true_flush hr ho f)⟩,
        fun w bs t hw => congrArg Host.Outcome.next (State.roundTaken_other_flush hr hw bs t),
        fun f => congrArg Host.Outcome.next (State.roundVoided_false_flush hr f), fun h1 h2 h3 h4 _ => ?_⟩
      refine congrArg Host.Outcome.next (State.roundMissed_flush hr ?_)
      cases hs : s.flush.session.station <;> simp_all [StationState.inSession]
    case timers =>
      refine ⟨fun hs ht => congrArg Host.Outcome.next (State.expire_flush ?_ _), fun hs ht => congrArg Host.Outcome.next (State.expire_flush ?_ _),
        fun hs ht => congrArg Host.Outcome.next (State.expire_flush ?_ _)⟩
      · simp [State.listenRuns, hs, hb, Option.isSome_iff_ne_none, ht]
      · simp [State.answerRuns, hs, hb, Option.isSome_iff_ne_none, ht]
      · simp [State.snapshotRuns, hs, hb, Option.isSome_iff_ne_none, ht]
    · simp [State.backoffRuns, hs, Option.isSome_iff_ne_none, ht]

end Sys2Proof.Machine
end

