-- ==== Sys2Proof/Proofs/Grants.lean ====
section
/-! PROOFS. Grantable records, the best of them, one grant, and the pass of grants (R23 to R30; O49, O50). -/

namespace Sys2Proof.Machine

/-! ### Keys and grantable records (R23, R25) -/

/-- A record with no better key than a second one, which has none than a third, has no better key than the third. -/
theorem betterKey_false_trans {w x y : PoolRecord} {i j k : Nat} (h : betterKey w i x j = false) (h' : betterKey x j y k = false) :
    betterKey w i y k = false := by
  simp only [betterKey, Bool.or_eq_false_iff, Bool.and_eq_false_iff, decide_eq_false_iff_not, Fin.lt_def, Fin.ext_iff] at h h' ⊢
  omega

/-- Of two records at different places one has the better key. -/
theorem betterKey_total {w x : PoolRecord} {i j : Nat} (h : betterKey x j w i = false) (hne : j ≠ i) : betterKey w i x j = true := by
  simp only [betterKey, Bool.or_eq_false_iff, Bool.and_eq_false_iff, decide_eq_false_iff_not, Bool.or_eq_true, Bool.and_eq_true,
    decide_eq_true_eq, Fin.lt_def, Fin.ext_iff] at h ⊢
  omega

theorem isWaiting_eq_not_isHolding (r : PoolRecord) : r.isWaiting = !r.isHolding := by
  unfold PoolRecord.isWaiting PoolRecord.isHolding
  cases r.standing <;> rfl

/-- A holder blocks by holding, a better key by order: a record is grantable where every record of the pool that shares a resource
with it waits behind it. -/
theorem grantable_iff (recs : List PoolRecord) (r : PoolRecord) (i : Nat) : grantable recs r i = true ↔
    r.isWaiting = true ∧
      ∀ w j, recs[j]? = some w → shares w.set r.set = true → w.isWaiting = true ∧ betterKey w j r i = false := by
  simp only [grantable, blockedByHolding, blockedByOrder, Bool.and_eq_true, Bool.not_eq_true', List.any_eq_false, not_and,
    Bool.not_eq_true, Prod.forall, List.mk_mem_zipIdx_iff_getElem?, and_assoc]
  refine and_congr_right fun _ => ⟨fun ⟨held, ordered⟩ w j hj hs => ?_, fun h => ⟨fun w hw hh => ?_, fun w j hj hw hs => (h w j hj hs).2⟩⟩
  · have waits : w.isWaiting = true := by
      rw [isWaiting_eq_not_isHolding, Bool.not_eq_true']
      by_contra hh
      rw [held w (List.mem_of_getElem? hj) (by simpa using hh)] at hs
      cases hs
    exact ⟨waits, ordered w j hj waits hs⟩
  · obtain ⟨j, hj⟩ := List.getElem?_of_mem hw
    by_contra hs
    have waits := (h w j hj (by simpa using hs)).1
    rw [isWaiting_eq_not_isHolding, hh] at waits
    cases waits

theorem grantable_waits {recs : List PoolRecord} {r : PoolRecord} {i : Nat} (h : grantable recs r i = true) : r.isWaiting = true :=
  ((grantable_iff recs r i).1 h).1

/-! ### The best grantable record (R27) -/

/-- What a search for the better picks is beaten by no candidate. -/
theorem foldl_pickBetter_unbeaten {x : PoolRecord × Nat} {l : List (PoolRecord × Nat)} {acc : Option (PoolRecord × Nat)}
    (h : l.foldl pickBetter acc = some x) : ∀ y, acc = some y ∨ y ∈ l → betterKey y.1 y.2 x.1 x.2 = false := by
  have self : ∀ z : PoolRecord × Nat, betterKey z.1 z.2 z.1 z.2 = false := fun z => by simp [betterKey]
  induction l generalizing acc with
  | nil =>
    rintro y (hy | hy)
    · rw [List.foldl_nil, hy] at h
      cases h
      exact self _
    · cases hy
  | cons z zs ih =>
    have rest := ih h
    have picked : ∀ y, acc = some y ∨ y = z → ∃ p, pickBetter acc z = some p ∧ betterKey y.1 y.2 p.1 p.2 = false := fun y hy => by
      cases acc with
      | none => exact ⟨z, rfl, hy.elim nofun fun e => e ▸ self z⟩
      | some a =>
        unfold pickBetter
        dsimp only
        by_cases hz : betterKey z.1 z.2 a.1 a.2 = true
        · rw [if_pos hz]
          refine ⟨z, rfl, hy.elim (fun e => ?_) fun e => e ▸ self z⟩
          cases e
          exact betterKey_asymm hz
        · rw [if_neg hz]
          refine ⟨a, rfl, hy.elim (fun e => ?_) fun e => e ▸ by simpa using hz⟩
          cases e
          exact self _
    intro y hy
    by_cases hz : y ∈ zs
    · exact rest y (.inr hz)
    · obtain ⟨p, hp, better⟩ := picked y (hy.imp_right fun m => (List.mem_cons.1 m).resolve_right hz)
      exact betterKey_false_trans better (rest p (.inl hp))

/-- The record granted first has a better key than every other grantable record. -/
theorem bestGrantable_best {recs : List PoolRecord} {g r : PoolRecord} {i j : Nat} (h : bestGrantable recs = some (g, i))
    (hr : recs[j]? = some r) (hne : j ≠ i) (hg : grantable recs r j = true) : betterKey g i r j = true :=
  betterKey_total (foldl_pickBetter_unbeaten h (r, j)
    (.inr (List.mem_filter.2 ⟨List.mk_mem_zipIdx_iff_getElem?.2 hr, hg⟩))) hne

/-- A search for the better among candidates finds one. -/
theorem foldl_pickBetter_none {l : List (PoolRecord × Nat)} (h : l.foldl pickBetter none = none) : l = [] := by
  have found : ∀ (l : List (PoolRecord × Nat)) (a : PoolRecord × Nat), l.foldl pickBetter (some a) ≠ none := fun l => by
    induction l with
    | nil => nofun
    | cons z zs ih =>
      intro a
      rw [List.foldl_cons, pickBetter]
      split <;> exact ih _
  cases l with
  | nil => rfl
  | cons z zs => exact absurd h (found zs z)

theorem bestGrantable_none {recs : List PoolRecord} (h : bestGrantable recs = none) {r : PoolRecord} {j : Nat} (hr : recs[j]? = some r) :
    grantable recs r j = false := by
  have empty := List.filter_eq_nil_iff.1 (foldl_pickBetter_none h) (r, j) (List.mk_mem_zipIdx_iff_getElem?.2 hr)
  simpa using empty

/-! ### One grant (R27 to R29) -/

theorem grantAt_getElem? (t : Nat) (recs : List PoolRecord) (g : PoolRecord) (i j : Nat) :
    (grantAt t recs g i)[j]? = recs[j]?.map fun w => afterGrant t g i w j := by
  simp [grantAt, Function.comp_def]

/-- Pair, set, requested class and integrity check of a record. -/
def PoolRecord.claimed (r : PoolRecord) : Addr × Client × Mask × Class × Bool := (r.station, r.client, r.set, r.requested, r.sound)

theorem afterGrant_claimed (t : Nat) (g : PoolRecord) (i : Nat) (w : PoolRecord) (j : Nat) : (afterGrant t g i w j).claimed = w.claimed := by
  have requested : (afterGrant t g i w j).requested = w.requested := by
    unfold afterGrant overtaken
    split_ifs <;> rfl
  obtain ⟨station, client, set, sound⟩ := afterGrant_kept t g i w j
  simp only [PoolRecord.claimed, station, client, set, requested, sound]

theorem grantAt_claimed (t : Nat) (recs : List PoolRecord) (g : PoolRecord) (i : Nat) :
    (grantAt t recs g i).map PoolRecord.claimed = recs.map PoolRecord.claimed := by
  refine List.ext_getElem? fun j => ?_
  rw [List.getElem?_map, List.getElem?_map, grantAt_getElem?]
  cases recs[j]? with
  | none => rfl
  | some w => exact congrArg some (afterGrant_claimed t g i w j)

/-- The number of WAITING records: what a grant pass counts down. -/
def waitingCount (recs : List PoolRecord) : Nat := recs.countP PoolRecord.isWaiting

theorem waitingCount_le (recs : List PoolRecord) : waitingCount recs ≤ recs.length := List.countP_le_length

/-- A grant takes the mark WAITING from the record granted and from no other. -/
theorem grantAt_isWaiting (t : Nat) {recs : List PoolRecord} (g : PoolRecord) (i : Nat) :
    (grantAt t recs g i).map PoolRecord.isWaiting = (recs.map PoolRecord.isWaiting).set i false := by
  refine List.ext_getElem (by simp [grantAt]) fun j hj hj' => ?_
  rw [List.getElem_map, grantAt_getElem, List.getElem_set, List.getElem_map]
  by_cases e : i = j
  · rw [if_pos e, afterGrant, if_pos e.symm]
    rfl
  · rw [if_neg e, isWaiting_eq_not_isHolding, afterGrant_isHolding (Ne.symm e), ← isWaiting_eq_not_isHolding]

theorem waitingCount_grantAt (t : Nat) {recs : List PoolRecord} {g : PoolRecord} {i : Nat} (hg : recs[i]? = some g)
    (hw : g.isWaiting = true) : waitingCount recs = waitingCount (grantAt t recs g i) + 1 := by
  obtain ⟨hi, rfl⟩ := List.getElem?_eq_some_iff.1 hg
  have marks : ∀ l, waitingCount l = (l.map PoolRecord.isWaiting).count true := fun l => by
    simp only [waitingCount, List.count, List.countP_map, Function.comp_def, beq_true]
  have marked : (recs.map PoolRecord.isWaiting)[i]'(by simpa using hi) = true := by simpa using hw
  have here : 0 < (recs.map PoolRecord.isWaiting).count true := List.count_pos_iff.2 (marked ▸ List.getElem_mem _)
  rw [marks, marks, grantAt_isWaiting, List.count_set (by simpa using hi), marked]
  have unmarked : (false == true) = false := rfl
  simp only [beq_self_eq_true, unmarked, if_true, Bool.false_eq_true, if_false]
  omega

/-! ### The pass (R26, R27, R30, R40) -/

section
variable {t k : Nat} {recs : List PoolRecord} (hs : ∀ r ∈ recs, r.sound = true)
include hs

/-- A pass in which none can be granted is over. -/
theorem grantSteps_none (hb : bestGrantable recs = none) : grantSteps t k recs = ⟨recs, [], false⟩ := by
  have sound : (recs.any fun r => !r.sound) = false := by simpa using hs
  cases k with
  | zero => rfl
  | succ k => rw [grantSteps, sound, hb]; rfl

/-- A step of the pass is the grant of the best grantable record, and the pass goes on from the pool that grant leaves. -/
theorem grantSteps_some {g : PoolRecord} {i : Nat} (hb : bestGrantable recs = some (g, i)) : grantSteps t (k + 1) recs =
    ⟨(grantSteps t k (grantAt t recs g i)).records, g :: (grantSteps t k (grantAt t recs g i)).granted, false⟩ := by
  have sound : (recs.any fun r => !r.sound) = false := by simpa using hs
  have going : (grantSteps t k (grantAt t recs g i)).failed = false := grantSteps_not_failed (grantAt_sound hs g i)
  rw [grantSteps, sound, hb]
  simp only [going, Bool.false_eq_true, if_false]

end

/-- The grant made counts down the WAITING records. -/
theorem waitingCount_best (t : Nat) {recs : List PoolRecord} {g : PoolRecord} {i : Nat} (hb : bestGrantable recs = some (g, i)) :
    waitingCount recs = waitingCount (grantAt t recs g i) + 1 := by
  obtain ⟨hg, able⟩ := bestGrantable_some hb
  exact waitingCount_grantAt t hg (grantable_waits able)

/-- A pass that has as many steps as records wait goes on until none can be granted. -/
theorem grantSteps_exhausts {t k : Nat} {recs : List PoolRecord} (hs : ∀ r ∈ recs, r.sound = true) (hk : waitingCount recs ≤ k) :
    bestGrantable (grantSteps t k recs).records = none := by
  induction k generalizing recs with
  | zero =>
    cases hb : bestGrantable recs with
    | none => exact hb
    | some b =>
      have counted := waitingCount_best t hb
      omega
  | succ k ih =>
    cases hb : bestGrantable recs with
    | none => rw [grantSteps_none hs hb, hb]
    | some b =>
      have counted := waitingCount_best t hb
      rw [grantSteps_some hs hb]
      exact ih (grantAt_sound hs _ _) (by omega)

/-- A step to spare changes nothing: the pass is over before. -/
theorem grantSteps_succ {t k : Nat} {recs : List PoolRecord} (hs : ∀ r ∈ recs, r.sound = true) (hk : waitingCount recs ≤ k) :
    grantSteps t (k + 1) recs = grantSteps t k recs := by
  induction k generalizing recs with
  | zero =>
    have ended : bestGrantable recs = none := grantSteps_exhausts (t := t) hs hk
    rw [grantSteps_none hs ended, grantSteps_none hs ended]
  | succ k ih =>
    cases hb : bestGrantable recs with
    | none => rw [grantSteps_none hs hb, grantSteps_none hs hb]
    | some b =>
      have counted := waitingCount_best t hb
      rw [grantSteps_some hs hb, grantSteps_some hs hb, ih (grantAt_sound hs _ _) (by omega)]

/-- The pass is its first grant and the pass over the pool that grant leaves. -/
theorem grantPass_some {t : Nat} {recs : List PoolRecord} {g : PoolRecord} {i : Nat} (hs : ∀ r ∈ recs, r.sound = true)
    (hb : bestGrantable recs = some (g, i)) : grantPass t recs =
      ⟨(grantPass t (grantAt t recs g i)).records, g :: (grantPass t (grantAt t recs g i)).granted, false⟩ := by
  have counted := waitingCount_best t hb
  have most := waitingCount_le recs
  obtain ⟨k, hk⟩ : ∃ k, recs.length = k + 1 := ⟨recs.length - 1, by omega⟩
  have pass : grantPass t (grantAt t recs g i) = grantSteps t k (grantAt t recs g i) := by
    rw [grantPass, grantAt_length, hk, grantSteps_succ (grantAt_sound hs g i) (by omega)]
  rw [pass, grantPass, hk, grantSteps_some hs hb]

/-- A failing record stops the pass at its first step. -/
theorem grantPass_failing {t : Nat} {recs : List PoolRecord} (h : ∃ r ∈ recs, r.sound = false) : grantPass t recs = ⟨recs, [], true⟩ := by
  have fails : (recs.any fun r => !r.sound) = true := by simpa using h
  obtain ⟨r, hr, -⟩ := h
  obtain ⟨k, hk⟩ := Nat.exists_eq_succ_of_ne_zero (List.length_pos_of_mem hr).ne'
  rw [grantPass, hk, grantSteps, fails]
  rfl

theorem grantPass_claimed (t : Nat) (recs : List PoolRecord) :
    (grantPass t recs).records.map PoolRecord.claimed = recs.map PoolRecord.claimed :=
  grantSteps_keeps (P := fun l => l.map PoolRecord.claimed = recs.map PoolRecord.claimed)
    (fun l g i _ _ h => (grantAt_claimed t l g i).trans h) _ _ rfl

/-- A record is grantable where those that share a resource with it wait, none of them with a better key. -/
theorem grantable_iff_order (recs : List PoolRecord) (r : PoolRecord) (i : Nat) : grantable recs r i = true ↔
    r.standing = .waiting ∧
      ∀ w j, recs[j]? = some w → (∃ x : Fin 16, w.set.getLsbD x.val = true ∧ r.set.getLsbD x.val = true) →
        w.standing = .waiting ∧ ¬ (r.effective < w.effective ∨ (r.effective = w.effective ∧ j < i)) := by
  simp only [grantable_iff, PoolRecord.isWaiting, decide_eq_true_eq, shares_iff, betterKey, Bool.or_eq_false_iff, Bool.and_eq_false_iff,
    decide_eq_false_iff_not, not_or, not_and_or, eq_comm (a := r.effective)]

/-- Settles O49: each grant takes one of the WAITING records, so the pool's length is steps enough; what every grant keeps, the pass
keeps. -/
theorem grantPassGrantsAllItCan : Obligations.GrantPassGrantsAllItCan := by
  refine fun th recs => ⟨fun hs => ⟨fun r i hr => ?exhausted, ?unrolled⟩, grantPass_failing, grantPass_claimed th recs, fun h => h.grantPass th,
    fun g i hb => ?best, fun hb r j => bestGrantable_none hb, fun r i _ => grantable_iff_order recs r i⟩
  case exhausted => exact bestGrantable_none (grantSteps_exhausts hs (waitingCount_le recs)) hr
  case unrolled =>
    cases hb : bestGrantable recs with
    | none => exact grantSteps_none hs hb
    | some b => exact grantPass_some hs hb
  case best =>
    obtain ⟨hg, able⟩ := bestGrantable_some hb
    exact ⟨hg, able, fun r j => bestGrantable_best hb⟩

/-! ### Passed counts and promotion (R28, R29) -/

theorem passed_ceiling (p : Fin 16) : Fin.ofNat 16 (min (p.val + 1) 15) = if h : p.val + 1 < 16 then ⟨p.val + 1, h⟩ else 15 := by
  revert p; decide

theorem effective_ceiling (e : Class) : Fin.ofNat 4 (min (e.val + 1) 3) = if e = 0 then 1 else if e = 1 then 2 else 3 := by
  revert e; decide

/-- An overtaken record is promoted exactly at the count T; below it, or with promotion off, its count alone goes up. -/
theorem overtaken_eq {t : Nat} {w : PoolRecord} (ht : w.passed.val < t ∨ t = 0) : overtaken t w =
    if t ≠ 0 ∧ w.passed.val + 1 = t then
      { w with passed := 0, effective := (if w.effective = 0 then 1 else if w.effective = 1 then 2 else 3) }
    else { w with passed := (if h : w.passed.val + 1 < 16 then ⟨w.passed.val + 1, h⟩ else 15) } := by
  unfold overtaken
  rw [passed_ceiling, effective_ceiling]
  by_cases h0 : t = 0
  · rw [if_pos h0, if_neg (fun h => h.1 h0)]
  · rw [if_neg h0]
    exact if_congr (by omega) rfl rfl

/-- Settles O50: record by record; one before the record granted that shares a resource and waits has no better key. -/
theorem overtakenRecordsArePromoted : Obligations.OvertakenRecordsArePromoted := by
  refine ⟨grantAt_length, fun recs g w i j hb hj _ hlt hx => ?_, fun th recs g w i j _ hj _ hp => ?_⟩
  · obtain ⟨-, able⟩ := bestGrantable_some hb
    obtain ⟨-, ordered⟩ := (grantable_iff_order recs g i).1 able
    obtain ⟨-, behind⟩ := ordered w j hj hx
    rcases lt_trichotomy w.effective g.effective with h | h | h
    · exact h
    · exact absurd (.inr ⟨h.symm, hlt⟩) behind
    · exact absurd (.inl h) behind
  · have overtakes : (w.isWaiting && shares w.set g.set && decide (j < i)) = true ↔
        w.standing = .waiting ∧ j < i ∧ ∃ x : Fin 16, w.set.getLsbD x.val = true ∧ g.set.getLsbD x.val = true := by
      simp only [PoolRecord.isWaiting, Bool.and_eq_true, decide_eq_true_eq, shares_iff, and_assoc, and_comm (a := j < i)]
    rw [grantAt_getElem?, hj, Option.map_some, afterGrant, overtaken_eq hp]
    simp only [overtakes]

end Sys2Proof.Machine
end

