-- ==== Sys2Proof/Proofs/Renewals.lean ====
section
/-! PROOFS. The renewal decision and the RENEW command, and the expiries of the slot timers (R55 to R62, R77, R80; O13, O35). -/

namespace Sys2Proof.Machine

/-! ### The renewal decision (R39, R40, R55) -/

/-- The station with the lease of a slot started again at a renewal count (R55). -/
def State.renewed (s : State) (c : Client) (k : Nat) : State :=
  s.setSlot c { s.slot c with leaseMs := (s.slot c).params.length * s.port.leaseUnit, renewals := k }

/-- A WAITING record contains a resource of the slot's set (R39). -/
def State.waiterFor (s : State) (c : Client) : Prop :=
  ∃ w ∈ s.pool.records, w.standing = .waiting ∧
    ∃ r : Fin 16, w.set.getLsbD r.val = true ∧ (s.slot c).set.getLsbD r.val = true

section
variable {s : State} {c : Client}

/-- The answer UNKNOWN denies in both modes. -/
theorem State.renewal_unknown {t : State} (hq : s.waiterQuery (s.slot c).set = (t, .unknown)) : s.renewal c = (t, false) := by
  rw [State.renewal, hq]
  dsimp only
  cases (t.slot c).params.mode <;> rfl

theorem State.renewal_frozen (hf : s.pool.frozen = true) : s.renewal c = (s, false) :=
  State.renewal_unknown (by rw [State.waiterQuery, if_pos hf])

theorem State.renewal_failing (hf : s.pool.frozen = false) (hr : ∃ r ∈ s.pool.records, r.sound = false) :
    s.renewal c = (s.freeze, false) :=
  State.renewal_unknown (by rw [State.waiterQuery, hf, s.poolFails_iff.2 hr]; rfl)

section
variable (hf : s.pool.frozen = false) (hr : ∀ r ∈ s.pool.records, r.sound = true)
include hf hr

theorem State.renewal_fixed (hm : (s.slot c).params.mode = .fixed) : s.renewal c = (s, false) := by
  rw [State.renewal, State.waiterQuery_sound hf hr]
  simp only [hm]

theorem State.renewal_noWaiter (hg : (s.slot c).state = .granted) (hm : (s.slot c).params.mode = .renewable) (hw : ¬ s.waiterFor c) :
    s.renewal c = (s.renewed c 0, true) := by
  have none : ¬ anyWaiter s.pool.records (s.slot c).set = true := mt (anyWaiter_iff _ _).1 hw
  rw [State.renewal, State.waiterQuery_sound hf hr, if_neg none]
  simp only [hm, State.leaseStart, State.renewed, ← hg]

theorem State.renewal_waiter (hg : (s.slot c).state = .granted) (hm : (s.slot c).params.mode = .renewable) (hw : s.waiterFor c) :
    s.renewal c = if (s.slot c).renewals < (s.slot c).params.limit then (s.renewed c ((s.slot c).renewals + 1), true) else (s, false) := by
  rw [State.renewal, State.waiterQuery_sound hf hr, if_pos ((anyWaiter_iff _ _).2 hw)]
  simp only [hm, State.leaseStart, State.renewed, ← hg]

end

/-! ### RENEW (R55, R57) -/

theorem softwareClient_none {b : Byte} (h : ¬ (8 ≤ b.toNat ∧ b.toNat ≤ 15)) : softwareClient b = none := by
  rw [softwareClient, dif_neg]
  omega

/-- A RENEW with no delivered notice left to handle. -/
theorem exec_renew {client : Byte} (h : s.resetHeld = false) (hd : s.bus.delivered = none) : exec (.renew client) s =
    .next ((s.decideRenew client).state.answered (s.decideRenew client).status (s.decideRenew client).data) := by
  have e : exec (.renew client) s = .next (s.frame (s.flush.decideRenew client)) := rfl
  rw [e, s.frame_eq _ h, State.flush_none hd]

/-- A RENEW of a GRANTED slot is answered as the renewal is decided. -/
theorem exec_renew_granted {t : State} {ok : Bool} (h : s.resetHeld = false) (hd : s.bus.delivered = none) (hc : 8 ≤ c.val)
    (hg : (s.slot c).state = .granted) (hn : s.renewal c = (t, ok)) :
    exec (.renew (BitVec.ofNat 8 c.val)) s = .next (t.answered (if ok then .ok else .denied) []) := by
  rw [exec_renew h hd, State.decideRenew, softwareClient_of hc]
  simp only [State.renewSlot, hg, hn, if_true]

end

/-- Settles O13: by the slot's state, the pool's soundness and the renewal decision. -/
theorem renewDecided : Obligations.RenewDecided := by
  rintro s client hr hd
  refine ⟨fun hb => ?_, ?_⟩
  · rw [exec_renew hr hd, State.decideRenew, softwareClient_none hb]
    rfl
  rintro c hc rfl
  refine ⟨fun hg => ?_, fun hg => ?_⟩
  · rw [exec_renew hr hd, State.decideRenew, softwareClient_of hc]
    simp only [State.renewSlot, if_neg hg]
    rfl
  have answer := fun {t : State} {ok : Bool} => exec_renew_granted (t := t) (ok := ok) hr hd hc hg
  refine ⟨fun hf => answer (State.renewal_frozen hf), fun hf hx => answer (State.renewal_failing hf hx), fun hf hx =>
    ⟨fun hm => answer (State.renewal_fixed hf hx hm), fun hm hw => answer (State.renewal_noWaiter hf hx hg hm hw),
      fun hm hw hk => answer ((State.renewal_waiter hf hx hg hm hw).trans (if_pos hk)),
      fun hm hw hk => answer ((State.renewal_waiter hf hx hg hm hw).trans (if_neg (Nat.not_lt.2 hk)))⟩⟩

/-! ### Slots under a storage upset (R63, R167) -/

section
variable (s : State) (c : Client)

/-- A queued LEAVE closes every slot, its owed notice dropped. -/
theorem State.queueLeave_slot (r : LeaveReason) :
    ∃ kept, (s.queueLeave r).slot c = Slot.closed { s.slot c with owed := .none } kept := by
  rw [State.queueLeave, State.enter_eq]
  simp [State.recordLeave, State.stopLoading, State.placeLeave, State.closeSlots_eq, State.purge, State.dropOwed_eq, State.slot,
    Vector.get_eq_getElem]

/-- An upset leaves the slots alone or closes them. -/
theorem State.upset_slot : s.upset.slot c = s.slot c ∨
    ∃ kept, s.upset.slot c = Slot.closed { s.slot c with owed := .none } kept := by
  unfold State.upset
  split
  · exact .inl rfl
  · split
    iterate 3 exact .inr (s.markUpset.queueLeave_slot c .resync)
    all_goals exact .inl rfl

/-- A slot that is GRANTED after an upset is as it was. -/
theorem State.upset_slot_granted (h : (s.upset.slot c).state = .granted) : s.upset.slot c = s.slot c := by
  rcases s.upset_slot c with e | ⟨kept, e⟩
  · exact e
  · exact absurd (e ▸ h) (Slot.closed_not_granted _ kept)

/-- A GRANTED slot of a station that resynchronises is RELEASING. -/
theorem State.upset_slot_releasing (hs : s.session.station.resyncs) (hp : s.checker.resyncPending = false)
    (hg : (s.slot c).state = .granted) : (s.upset.slot c).state = .releasing := by
  rw [s.upset_resyncs hs hp]
  obtain ⟨kept, e⟩ := s.markUpset.queueLeave_slot c .resync
  have marked : s.markUpset.slot c = s.slot c := rfl
  rw [e, marked, Slot.closed]
  simp only [hg]

theorem State.freeze_leaseUnit : s.freeze.port.leaseUnit = s.port.leaseUnit := by
  obtain ⟨-, ⟨image, -⟩, -⟩ := s.freeze_kept
  rw [Port.leaseUnit, image, Port.leaseUnit]

end

/-! ### Expiries (R46, R58, R60, R62) -/

section
variable {s : State}

theorem State.expire_stopped {runs : State → Bool} (h : runs s = false) (act : State → State) : s.expire runs act = s := by
  rw [State.expire, if_neg (by simp [h])]

theorem State.expire_running {runs : State → Bool} (h : runs s = true) (act : State → State) :
    s.expire runs act = if runs s.flush = true then act s.flush else s.flush := by
  rw [State.expire, if_pos h]

variable {c : Client}

/-- The station with a slot gone to YIELDING, CLAIM_YIELD posted (R58). -/
def State.yielded (s : State) (c : Client) : State :=
  (s.setSlot c { s.slot c with
    state := .yielding, leaseMs := 0, yieldMs := (s.slot c).params.window * s.port.leaseUnit }).post .claimYield c

/-- A slot whose lease has run out (R46). -/
def State.ranOut (s : State) (c : Client) : State := s.setSlot c { s.slot c with leaseMs := 0 }

theorem State.ranOut_slot : (s.ranOut c).slot c = { s.slot c with leaseMs := 0 } := by simp [State.ranOut]

theorem State.ranOut_req (n : LineNo) : ((s.ranOut c).line n).req = (s.line n).req := by
  rw [State.ranOut, State.setSlot_line]
  split <;> rfl

theorem State.ranOut_toYielding : (s.ranOut c).toYielding c = s.yielded c := by
  simp [State.toYielding, State.yielded, State.ranOut]

theorem State.ranOut_renewed (k : Nat) : (s.ranOut c).renewed c k = s.renewed c k := by
  simp [State.renewed, State.ranOut]

/-- A GRANTED slot's lease expires, with no delivered notice left to handle. -/
theorem exec_leaseExpiry (hg : (s.slot c).state = .granted) (hd : s.bus.delivered = none) :
    exec (.leaseExpiry c) s = .next ((s.ranOut c).leaseExpired c) := by
  have runs : State.leaseRuns c s = true := decide_eq_true hg
  have e : exec (.leaseExpiry c) s = .next (s.expire (State.leaseRuns c) (State.endLease c)) := rfl
  rw [e, State.expire_running runs, State.flush_none hd, if_pos runs]
  rfl

/-- With REQ low, and for a software client, the slot yields. -/
theorem State.leaseExpired_low (hl : ∀ n, c = clientOf n → (s.line n).req = false) : s.leaseExpired c = s.toYielding c := by
  unfold State.leaseExpired
  cases hn : lineOf c with
  | none => rfl
  | some n => simp [hl n (clientOf_of_lineOf hn).symm]

/-- With REQ high the renewal decides. -/
theorem State.leaseExpired_high {n : LineNo} {t : State} {ok : Bool} (hq : (s.line n).req = true) (hn : s.renewal (clientOf n) = (t, ok)) :
    s.leaseExpired (clientOf n) =
      if ok = true then t else if (t.slot (clientOf n)).state = .granted then t.toYielding (clientOf n) else t := by
  simp only [State.leaseExpired, lineOf_clientOf, hq, if_true, hn]

theorem State.ranOut_pool : (s.ranOut c).pool = s.pool := by simp [State.ranOut]

theorem State.ranOut_waiterFor : (s.ranOut c).waiterFor c ↔ s.waiterFor c := by
  rw [State.waiterFor, State.ranOut_pool, State.ranOut_slot, State.waiterFor]

section
variable {n : LineNo} (hg : (s.slot (clientOf n)).state = .granted) (hd : s.bus.delivered = none) (hq : (s.line n).req = true)
include hg hd hq

/-- The lease of a line slot with REQ high goes by the renewal decision. -/
theorem exec_leaseExpiry_high {t : State} {ok : Bool} (hn : (s.ranOut (clientOf n)).renewal (clientOf n) = (t, ok)) :
    exec (.leaseExpiry (clientOf n)) s = .next (
      if ok = true then t else if (t.slot (clientOf n)).state = .granted then t.toYielding (clientOf n) else t) := by
  rw [exec_leaseExpiry hg hd, State.leaseExpired_high ((State.ranOut_req n).trans hq) hn]

theorem exec_leaseExpiry_renewed {k : Nat}
    (hn : (s.ranOut (clientOf n)).renewal (clientOf n) = ((s.ranOut (clientOf n)).renewed (clientOf n) k, true)) :
    exec (.leaseExpiry (clientOf n)) s = .next (s.renewed (clientOf n) k) := by
  rw [exec_leaseExpiry_high hg hd hq hn, if_pos rfl, State.ranOut_renewed]

theorem exec_leaseExpiry_denied (hn : (s.ranOut (clientOf n)).renewal (clientOf n) = (s.ranOut (clientOf n), false)) :
    exec (.leaseExpiry (clientOf n)) s = .next (s.yielded (clientOf n)) := by
  have granted : ((s.ranOut (clientOf n)).slot (clientOf n)).state = .granted := by rw [State.ranOut_slot]; exact hg
  rw [exec_leaseExpiry_high hg hd hq hn, if_neg Bool.false_ne_true, if_pos granted, State.ranOut_toYielding]

/-- A query that meets a failing record freezes the pool; the slot yields where the upset leaves it GRANTED. -/
theorem exec_leaseExpiry_failing (hf : s.pool.frozen = false) (hr : ∃ r ∈ s.pool.records, r.sound = false) :
    exec (.leaseExpiry (clientOf n)) s = .next (
      let f := (s.ranOut (clientOf n)).freeze
      if (f.slot (clientOf n)).state = .granted then (f.setSlot (clientOf n) { f.slot (clientOf n) with
        state := .yielding, leaseMs := 0, yieldMs := (s.slot (clientOf n)).params.window * s.port.leaseUnit }).post .claimYield (clientOf n)
      else f) := by
  rw [← State.ranOut_pool (c := clientOf n)] at hf hr
  rw [exec_leaseExpiry_high hg hd hq (State.renewal_failing hf hr), if_neg Bool.false_ne_true]
  refine congrArg Host.Outcome.next (if_ctx_congr Iff.rfl (fun granted => ?_) fun _ => rfl)
  have kept : (s.ranOut (clientOf n)).freeze.slot (clientOf n) = (s.ranOut (clientOf n)).slot (clientOf n) :=
    State.upset_slot_granted _ _ granted
  have unit : (s.ranOut (clientOf n)).freeze.port.leaseUnit = s.port.leaseUnit := by
    rw [State.freeze_leaseUnit, State.ranOut, State.setSlot_port]
  rw [State.toYielding, unit, kept, State.ranOut_slot]

end

/-- An ACTIVE station whose lease query meets a failing record resynchronises: the slot does not yield, it is closed. -/
theorem State.ranOut_freeze (hs : s.session.station = .active) (hp : s.checker.resyncPending = false)
    (hg : (s.slot c).state = .granted) :
    (s.ranOut c).freeze.session.station = .leaving ∧ ((s.ranOut c).freeze.slot c).state = .releasing ∧
      (s.ranOut c).freeze.pool = ⟨s.pool.records, true⟩ := by
  have resyncs : (s.ranOut c).session.station.resyncs := .inl (by simpa [State.ranOut] using hs)
  have pending : (s.ranOut c).checker.resyncPending = false := by simpa [State.ranOut] using hp
  have granted : ((s.ranOut c).slot c).state = .granted := by rw [State.ranOut_slot]; exact hg
  obtain ⟨pool, -, session⟩ := State.freeze_parts (.inl ⟨resyncs, pending⟩)
  refine ⟨?_, State.upset_slot_releasing ((s.ranOut c).setPool _) c resyncs pending granted, by rw [pool, State.ranOut_pool]⟩
  rw [session, if_neg (by simp [pending])]
  rfl

/-! ### Yield and retry -/

theorem exec_yieldExpiry (s : State) (c : Client) : exec (.yieldExpiry c) s = .next (
    if (s.slot c).state = .yielding then
      if (s.flush.slot c).state = .yielding then
        (s.flush.setSlot c { s.flush.slot c with yieldMs := 0 }).released c .forced 1
      else s.flush
    else s) := by
  have e : exec (.yieldExpiry c) s = .next (s.expire (State.yieldRuns c) (State.endYield c)) := rfl
  rw [e]
  simp only [State.expire, State.yieldRuns, State.endYield, decide_eq_true_eq, State.submitRelease_eq, if_true]

theorem exec_retryExpiry (s : State) (n : LineNo) : exec (.retryExpiry n) s = .next (
    if (s.slot (clientOf n)).state = .retry then
      if (s.flush.slot (clientOf n)).state = .retry then s.flush.endRetry n else s.flush
    else s) := by
  have e : exec (.retryExpiry n) s = .next (s.expire (State.retryRuns n) (State.endRetry n)) := rfl
  rw [e]
  simp only [State.expire, State.retryRuns, decide_eq_true_eq]

theorem State.endRetry_high {n : LineNo} (hq : (s.line n).req = true) (hs : s.session.station = .active) :
    s.endRetry n = (s.freeSlot (clientOf n)).claimed (clientOf n) (s.port.lineSet n) (s.port.lineClass n) := by
  rw [State.endRetry, if_pos ⟨hq, hs⟩, State.lineClaim, State.startClaim_eq, State.freeSlot, State.setSlot_port]

/-- With REQ low the slot is FREE, and its line claims nothing. -/
theorem State.endRetry_low {n : LineNo} (hq : (s.line n).req = false) : s.endRetry n = s.freeSlot (clientOf n) := by
  have low : ((s.freeSlot (clientOf n)).line n).req = false := by simp [State.freeSlot, hq]
  rw [State.endRetry, if_neg (by simp [hq]), State.testClient_eq, State.retested_line, State.risen, if_neg (by simp [low])]

end

/-- Settles O35: a lease by REQ and the renewal decision, the yield window and the retry timer after the effects made. -/
theorem slotTimersExpire : Obligations.SlotTimersExpire := by
  refine ⟨fun s c => ⟨fun hg => ?stopped, fun hg hd => ⟨fun hl => ?low, ?high⟩⟩, fun s =>
    ⟨s.flush, exec_noticeEffectsMade_flush s, State.flush_none, fun c => ?yield, fun n => ?retry⟩⟩
  case stopped =>
    exact congrArg Host.Outcome.next (State.expire_stopped (decide_eq_false hg) _)
  case low =>
    rw [exec_leaseExpiry hg hd, State.leaseExpired_low fun n hn => (State.ranOut_req n).trans (hl n hn), State.ranOut_toYielding]
    rfl
  case high =>
    rintro n rfl hq
    have denied := exec_leaseExpiry_denied hg hd hq
    have renewed := fun {k : Nat} => exec_leaseExpiry_renewed (k := k) hg hd hq
    refine ⟨fun hf => denied (State.renewal_frozen (by rw [State.ranOut_pool]; exact hf)), fun hf hr =>
      ⟨exec_leaseExpiry_failing hg hd hq hf hr, fun hs hp => State.ranOut_freeze hs hp hg⟩, fun hf hr => ?sound⟩
    have slot : (s.ranOut (clientOf n)).slot (clientOf n) = { s.slot (clientOf n) with leaseMs := 0 } := State.ranOut_slot
    have granted : ((s.ranOut (clientOf n)).slot (clientOf n)).state = .granted := by rw [slot]; exact hg
    rw [← State.ranOut_pool (c := clientOf n)] at hf hr
    refine ⟨fun hm => denied (State.renewal_fixed hf hr (by rw [slot]; exact hm)),
      fun hm hw => renewed (State.renewal_noWaiter hf hr granted (by rw [slot]; exact hm) (mt State.ranOut_waiterFor.1 hw)),
      fun hm hw hk => ?below, fun hm hw hk => ?limit⟩
    all_goals
      have decided := State.renewal_waiter hf hr granted (by rw [slot]; exact hm) (State.ranOut_waiterFor.2 hw)
      rw [slot] at decided
    case below => exact renewed (decided.trans (if_pos hk))
    case limit => exact denied (decided.trans (if_neg (Nat.not_lt.2 hk)))
  case yield =>
    rw [exec_yieldExpiry]
    exact ⟨fun h => by rw [if_neg h], fun h => by rw [if_pos h]⟩
  case retry =>
    dsimp only
    rw [exec_retryExpiry]
    refine ⟨fun h => by rw [if_neg h], fun h => ?_⟩
    rw [if_pos h]
    refine ⟨fun hu => by rw [if_neg hu], fun hu hq hs => ?_, fun hu hq => ?_⟩
    · rw [if_pos hu, State.endRetry_high hq hs]; rfl
    · rw [if_pos hu, State.endRetry_low hq]; rfl

end Sys2Proof.Machine
end

