-- ==== Sys2Proof/Proofs/SlotForms.lean ====
section
/-! PROOFS. The form of the slots (R42, R43, R44, R51, R62, R63, R110, R111): every operation of the slots, of the Outbox and of the
answers keeps it (O60). -/

namespace Sys2Proof.Machine

/-! ### The form, slot by slot -/

/-- A slot that suits its client and the state of the station. -/
def Slot.fits (v : Slot) (st : StationState) (c : Client) : Prop :=
  v.form c ∧ (v.closing = true → st = .leaving) ∧ (st = .leaving → v.state = .free ∨ v.closing = true) ∧
    (st ≠ .active → st ≠ .leaving → v.state = .free)

/-- The Outbox and what is owed suit the station and its slots. -/
def OutboxFits (s : State) : Prop :=
  (s.outbox.hasLeave = true → s.session.station = .leaving) ∧ OwedApart s ∧
    ∀ b, s.sponsor.owedAnswer = some b → b.tier = 2 ∧ b.isBeacon = false

theorem slotsForm_iff (s : State) : SlotsForm s ↔ (∀ c, (s.slot c).fits s.session.station c) ∧ OutboxFits s := by
  constructor
  · rintro ⟨form, closing, leaving, outside, outbox⟩
    exact ⟨fun c => ⟨form c, closing c, fun h => leaving h c, fun h k => outside h k c⟩, outbox⟩
  · rintro ⟨fits, outbox⟩
    exact ⟨fun c => (fits c).1, fun c => (fits c).2.1, fun h c => (fits c).2.2.1 h, fun h k c => (fits c).2.2.2 h k, outbox⟩

theorem SlotsForm.fits {s : State} (h : SlotsForm s) (c : Client) : (s.slot c).fits s.session.station c := ((slotsForm_iff s).1 h).1 c

theorem SlotsForm.outboxFits {s : State} (h : SlotsForm s) : OutboxFits s := ((slotsForm_iff s).1 h).2

theorem SlotsForm.owedApart {s : State} (h : SlotsForm s) : OwedApart s := h.outboxFits.2.1

/-- A cleared slot suits every client and state. -/
theorem Slot.freeWith_fits (r : EndReason) (st : StationState) (c : Client) : (Slot.freeWith r).fits st c :=
  ⟨⟨rfl, nofun, nofun⟩, nofun, fun _ => .inl rfl, fun _ _ => rfl⟩

theorem Slot.fits.form {v : Slot} {st : StationState} {c : Client} (h : v.fits st c) : v.form c := h.1

/-- A FREE slot is cleared. -/
theorem Slot.form.cleared {c : Client} {v : Slot} (h : v.form c) (hf : v.state = .free) : v = .freeWith v.lastEnd := by
  have := h.1
  rw [hf] at this
  exact this

/-- A slot whose claim goes on and that is not closing: the station is ACTIVE. -/
theorem Slot.fits.active {v : Slot} {st : StationState} {c : Client} (h : v.fits st c) (hs : v.state ≠ .free) (hc : v.closing = false) :
    st = .active := by
  obtain ⟨-, -, leaving, outside⟩ := h
  by_contra ha
  by_cases hl : st = .leaving
  · rcases leaving hl with e | e
    · exact hs e
    · rw [hc] at e; cases e
  · exact hs (outside ha hl)

/-- Only a slot in RELEASING or WITHDRAWING is closing. -/
theorem Slot.form.not_closing {c : Client} {v : Slot} (h : v.form c) (h1 : v.state ≠ .releasing) (h2 : v.state ≠ .withdrawing) :
    v.closing = false := by
  obtain ⟨-, closing, -⟩ := h
  by_contra hc
  rcases (closing (by simpa using hc)).1 with e | e
  · exact h1 e
  · exact h2 e

/-- In ACTIVE a slot fits by its form where it is not closing. -/
theorem Slot.fits_active {v : Slot} {c : Client} (h : v.form c) (hc : v.closing = false) : v.fits .active c :=
  ⟨h, fun e => (by rw [hc] at e; cases e), nofun, fun e => absurd rfl e⟩

/-! ### One update -/

/-- An Outbox that holds nothing new but notices that are neither a claim's nor a LEAVE. -/
def Outbox.noMore (x o : Outbox) : Prop := ∀ e ∈ x.entries, (claimClient e.body = none ∧ e.body.isLeave = false) ∨
  ∃ d ∈ o.entries, d.body = e.body ∧ (e.removal = false → d.removal = false)

theorem Outbox.hasLeave_iff (o : Outbox) : o.hasLeave = true ↔ ∃ e ∈ o.entries, e.body.isLeave = true ∧ e.removal = false := by
  simp [Outbox.hasLeave]

theorem Outbox.noMore.hasLeave {x o : Outbox} (h : x.noMore o) (hx : x.hasLeave = true) : o.hasLeave = true := by
  obtain ⟨e, he, hb, hr⟩ := x.hasLeave_iff.1 hx
  rcases h e he with ⟨-, hn⟩ | ⟨d, hd, hbd, hrd⟩
  · rw [hb] at hn; cases hn
  · exact o.hasLeave_iff.2 ⟨d, hd, hbd ▸ hb, hrd hr⟩

theorem State.offer_noMore (s : State) {b : Body} (h1 : claimClient b = none) (h2 : b.isLeave = false) (w : Owner) :
    (s.offer b w).1.noMore s.outbox := fun e he => by
  rcases s.mem_offer he with h | h
  · exact .inl ⟨by rw [h]; exact h1, by rw [h]; exact h2⟩
  · exact .inr ⟨e, h, rfl, id⟩

theorem Outbox.noMore_refl (o : Outbox) : o.noMore o := fun e he => .inr ⟨e, he, rfl, id⟩

/-- Entries leave. -/
theorem Outbox.without_noMore (o : Outbox) (test : Entry → Bool) : (o.without test).noMore o := fun e he =>
  .inr ⟨e, List.mem_of_mem_filter he, rfl, id⟩

/-- Marks and void counts change; no removal is taken back. -/
theorem Outbox.map_noMore (o : Outbox) {f : Entry → Entry}
    (h : ∀ e, (f e).body = e.body ∧ ((f e).removal = false → e.removal = false)) : (o.map f).noMore o := fun e he => by
  obtain ⟨d, hd, rfl⟩ := List.mem_map.1 he
  exact .inr ⟨d, hd, (h d).1.symm, (h d).2⟩

theorem Outbox.noMore.trans {x y z : Outbox} (h : x.noMore y) (k : y.noMore z) : x.noMore z := fun e he => by
  rcases h e he with hn | ⟨d, hd, hb, hr⟩
  · exact .inl hn
  · rcases k d hd with hn | ⟨f, hf, hb', hr'⟩
    · exact .inl (by rw [← hb]; exact hn)
    · exact .inr ⟨f, hf, hb'.trans hb, hr' ∘ hr⟩

theorem Outbox.removeUnsent_noMore (o : Outbox) (test : Entry → Bool) : (o.removeUnsent test).noMore o :=
  (Outbox.without_noMore _ _).trans (o.map_noMore fun e => by split <;> simp)

theorem Outbox.keepOffered_noMore (o : Outbox) : o.keepOffered.noMore o :=
  (Outbox.map_noMore _ (f := fun e => { e with removal := true }) fun _ => ⟨rfl, nofun⟩).trans (o.without_noMore _)

section
variable {s : State}

theorem SlotsForm.setOutbox (h : SlotsForm s) {x : Outbox} (hx : x.noMore s.outbox) : SlotsForm (s.setOutbox x) := by
  obtain ⟨fits, leave, ⟨apart, tier⟩, answer⟩ := (slotsForm_iff s).1 h
  refine (slotsForm_iff _).2 ⟨fits, fun hl => leave (hx.hasLeave hl), ⟨fun c ho e he hc => ?_, tier⟩, answer⟩
  rcases hx e he with ⟨hn, -⟩ | ⟨d, hd, hb, -⟩
  · rw [hn] at hc; cases hc
  · exact apart c ho d hd (hb ▸ hc)

/-- A slot is written, with a notice of its client put into the Outbox where it owes none. -/
theorem SlotsForm.write (h : SlotsForm s) {x : Outbox} {c : Client} {v : Slot} (hv : v.fits s.session.station c)
    (hx : ∀ e ∈ x.entries, (claimClient e.body = some c ∧ e.body.isLeave = false) ∨ e ∈ s.outbox.entries)
    (ho : v.owed ≠ .none → ∀ e ∈ x.entries, claimClient e.body ≠ some c) : SlotsForm ((s.setOutbox x).setSlot c v) := by
  obtain ⟨fits, leave, ⟨apart, tier⟩, answer⟩ := (slotsForm_iff s).1 h
  refine (slotsForm_iff _).2 ⟨fun d => ?_, fun hl => ?_, ⟨fun d hd e he hc => ?_, by simpa using tier⟩, by simpa using answer⟩
  · rw [State.setSlot_slot, State.setSlot_session]
    split
    · rename_i e; rw [e]; exact hv
    · exact fits d
  · rw [State.setSlot_session]
    obtain ⟨e, he, hb, hr⟩ := (Outbox.hasLeave_iff _).1 hl
    rw [State.setSlot_outbox] at he
    rcases hx e he with ⟨-, hn⟩ | he
    · rw [hb] at hn; cases hn
    · exact leave ((Outbox.hasLeave_iff _).2 ⟨e, he, hb, hr⟩)
  · rw [State.setSlot_outbox] at he
    rw [State.setSlot_slot] at hd
    split at hd
    · rename_i hdc
      exact ho hd e he (hdc ▸ hc)
    · rename_i hdc
      rcases hx e he with ⟨hn, -⟩ | he
      · rw [hn] at hc; exact hdc (Option.some.inj hc).symm
      · exact apart d hd e he hc

/-- A slot is written that owes nothing, or owes what it owed. -/
theorem SlotsForm.setSlot (h : SlotsForm s) {c : Client} {v : Slot} (hv : v.fits s.session.station c)
    (ho : v.owed = .none ∨ (s.slot c).owed ≠ .none) : SlotsForm (s.setSlot c v) :=
  h.write (x := s.outbox) hv (fun _ he => .inr he) fun hn => (ho.elim (fun e => absurd e hn) (h.owedApart.1 c))

theorem SlotsForm.post (h : SlotsForm s) (k : EventKind) (w : Fin 16) : SlotsForm (s.post k w) := h

/-- What a block owes changes: an answer owed is an answer. -/
theorem SlotsForm.setSponsor (h : SlotsForm s) {p : Sponsor}
    (hp : ∀ b, p.owedAnswer = some b → s.sponsor.owedAnswer = some b ∨ (b.tier = 2 ∧ b.isBeacon = false)) : SlotsForm (s.setSponsor p) := by
  obtain ⟨fits, leave, ⟨apart, tier⟩, answer⟩ := (slotsForm_iff s).1 h
  have owed : ∀ b, p.owedAnswer = some b → b.tier = 2 ∧ b.isBeacon = false := fun b hb => (hp b hb).elim (answer b) id
  exact (slotsForm_iff _).2 ⟨fits, leave, ⟨apart, fun b hb => (owed b hb).1⟩, owed⟩

/-- The station state changes where every slot suits the new one. -/
theorem SlotsForm.setSession (h : SlotsForm s) {x : Session} (hs : x.station = s.session.station) : SlotsForm (s.setSession x) := by
  rw [slotsForm_iff] at h ⊢
  unfold OutboxFits at h ⊢
  rw [State.setSession_session, hs]
  exact h

/-! ### The queuing of a LEAVE and storage upsets -/

/-- A closed slot suits a station that leaves. -/
theorem Slot.fits.closed {v : Slot} {st : StationState} {c : Client} (h : v.fits st c) (b : Bool) :
    (Slot.closed { v with owed := .none } (if b then v.outboxEntry else .none)).fits .leaving c := by
  obtain ⟨⟨form, closing, removal⟩, -⟩ := h
  unfold Slot.closed
  cases hs : v.state <;> simp only [hs] at form
  case free => rw [form]; exact Slot.freeWith_fits _ _ _
  case retry => exact Slot.freeWith_fits _ _ _
  all_goals
    refine ⟨⟨?_, fun _ => ?_, fun hr => ?_⟩, fun _ => rfl, fun _ => .inr rfl, fun _ e => absurd rfl e⟩
    all_goals cases b <;> simp_all
  case releasing.refine_1.true => rcases form with e | ⟨-, e | e⟩ <;> simp [e]
  case withdrawing.refine_1.true => rcases form with e | ⟨-, e | ⟨e, -⟩ | e⟩ <;> simp [e]

/-- A queued LEAVE closes a slot, its owed notice dropped; its entry stays where the purge kept one. -/
theorem State.queueLeave_closed (s : State) (r : LeaveReason) (c : Client) : ∃ b : Bool, (s.queueLeave r).slot c =
    Slot.closed { s.slot c with owed := .none } (if b then (s.slot c).outboxEntry else .none) := by
  rw [State.queueLeave, State.enter_eq]
  refine ⟨s.outbox.keepOffered.holdsFor c, ?_⟩
  simp [State.recordLeave, State.stopLoading, State.placeLeave, State.closeSlots_eq, State.purge, State.dropOwed_eq, State.slot,
    Vector.get_eq_getElem]

theorem Slot.closed_owed (v : Slot) (k : SlotNotice) (h : v.owed = .none) : (v.closed k).owed = .none := by
  unfold Slot.closed
  cases v.state <;> first | exact h | rfl

theorem State.queueLeave_owedAnswer (s : State) (r : LeaveReason) : (s.queueLeave r).sponsor.owedAnswer = none := by
  rw [State.queueLeave, State.enter_eq]
  simp [State.recordLeave, State.stopLoading, State.placeLeave, State.closeSlots_eq, State.purge, State.dropOwed_eq]

/-- Queuing the LEAVE closes every slot and drops every owed notice. -/
theorem SlotsForm.queueLeave (h : SlotsForm s) (r : LeaveReason) : SlotsForm (s.queueLeave r) := by
  have leaving : (s.queueLeave r).session.station = .leaving := by rw [State.queueLeave_session]
  have answer := s.queueLeave_owedAnswer r
  refine (slotsForm_iff _).2 ⟨fun c => ?_, fun _ => leaving, ⟨fun c hc => ?_, fun b hb => ?_⟩, fun b hb => ?_⟩
  · obtain ⟨b, e⟩ := s.queueLeave_closed r c
    rw [leaving, e]
    exact (h.fits c).closed b
  · obtain ⟨b, e⟩ := s.queueLeave_closed r c
    rw [e] at hc
    exact absurd (Slot.closed_owed _ _ rfl) hc
  · rw [answer] at hb; cases hb
  · rw [answer] at hb; cases hb

theorem SlotsForm.upset (h : SlotsForm s) : SlotsForm s.upset := by
  have marked : SlotsForm s.markUpset := h
  unfold State.upset
  split
  · exact h
  · split
    iterate 3 exact marked.queueLeave _
    · exact marked
    all_goals exact h

theorem SlotsForm.freeze (h : SlotsForm s) : SlotsForm s.freeze :=
  (show SlotsForm (s.setPool { s.pool with frozen := true }) from h).upset

theorem SlotsForm.readMembers (h : SlotsForm s) (as : List Addr) : SlotsForm (s.readMembers as) := by
  unfold State.readMembers; split
  · exact h.upset
  · exact h

theorem SlotsForm.mismatch (h : SlotsForm s) : SlotsForm s.mismatch := by
  unfold State.mismatch
  cases s.session.station <;> first | exact h.upset | exact h

theorem SlotsForm.waiterQuery (h : SlotsForm s) (m : Mask) : SlotsForm (s.waiterQuery m).1 := by
  unfold State.waiterQuery
  split
  · exact h
  · split
    · exact h.freeze
    · exact h

/-! ### Submissions, answers and owed notices -/

/-- What the Session Controller submits, other than a LEAVE. -/
theorem SlotsForm.submit (h : SlotsForm s) {b : Body} (h1 : claimClient b = none) (h2 : b.isLeave = false) : SlotsForm (s.submit b).1 :=
  h.setOutbox (s.offer_noMore h1 h2 .session)

theorem SlotsForm.submitBeacon (h : SlotsForm s) : SlotsForm s.submitBeacon := by
  have submitted : SlotsForm (s.submit (.beacon 0#16 0#16 false)).1 := h.submit rfl rfl
  unfold State.submitBeacon; dsimp only; split
  · exact h
  · split
    · exact submitted.setSponsor fun _ => .inl
    all_goals exact submitted

theorem SlotsForm.submitEvict (h : SlotsForm s) (m : Addr) : SlotsForm (s.submitEvict m) := by
  have submitted : SlotsForm (s.submit (.evict m)).1 := h.submit rfl rfl
  unfold State.submitEvict; dsimp only; split
  · exact h
  · split
    · exact submitted.setSponsor fun _ => .inl
    all_goals exact submitted

/-- An answer or a snapshot notice: of tier 2, and no BEACON (R86, R148). -/
def IsAnswer (b : Body) : Prop := b.tier = 2 ∧ b.isBeacon = false

theorem SlotsForm.submitAnswer (h : SlotsForm s) {b : Body} (hb : IsAnswer b) : SlotsForm (s.submitAnswer b) := by
  obtain ⟨tier, beacon⟩ := hb
  have submitted : SlotsForm (s.submit b).1 := h.submit (claimClient_of_tier tier) (by cases b <;> first | rfl | cases tier)
  unfold State.submitAnswer; dsimp only; split
  · exact submitted.setSponsor fun _ e => .inr (by cases e; exact ⟨tier, beacon⟩)
  all_goals exact submitted

theorem Serving.make_isAnswer {v : Serving} {x : Body × NextItem} (h : v.make = some x) : IsAnswer x.1 := by
  unfold Serving.make at h
  split at h
  · cases h; exact ⟨rfl, rfl⟩
  · split at h
    · cases h; exact ⟨rfl, rfl⟩
    · cases h
  · cases h; exact ⟨rfl, rfl⟩
  · cases h

theorem State.answerBody_isAnswer (s : State) (a : Addr) (w : Answer) : IsAnswer (s.answerBody a w) := by
  unfold State.answerBody
  split
  · exact ⟨rfl, rfl⟩
  · exact ⟨rfl, rfl⟩
  · split <;> exact ⟨rfl, rfl⟩

theorem SlotsForm.makeSnap (h : SlotsForm s) : SlotsForm s.makeSnap := by
  unfold State.makeSnap
  split
  · exact h
  · split
    · split
      · exact h
      · rename_i body next hm
        refine SlotsForm.submitAnswer (SlotsForm.setSponsor h ?_) (Serving.make_isAnswer hm)
        exact fun _ => .inl
    · exact h

theorem SlotsForm.makeAnswer (h : SlotsForm s) (a : Addr) : SlotsForm (s.makeAnswer a) := by
  unfold State.makeAnswer
  split
  · split
    · exact h
    · rename_i w _
      have read := h.readMembers w.reads
      dsimp only
      split
      · refine SlotsForm.submitAnswer (SlotsForm.setSponsor read ?_) (State.answerBody_isAnswer _ _ _)
        exact fun _ => .inl
      · exact read
  · exact h

/-- A fold of operations that keep the form keeps it. -/
theorem SlotsForm.foldl {α : Type} {f : State → α → State} (hf : ∀ s a, SlotsForm s → SlotsForm (f s a)) (l : List α) (h : SlotsForm s) :
    SlotsForm (l.foldl f s) := by
  induction l generalizing s with
  | nil => exact h
  | cons a l ih => exact ih (hf s a h)

theorem SlotsForm.makeAnswers (h : SlotsForm s) : SlotsForm s.makeAnswers :=
  .foldl (fun _ a k => k.makeAnswer a) sixteen h.makeSnap.makeSnap

theorem SlotsForm.serveEvict (h : SlotsForm s) (t : Addr) : SlotsForm (s.serveEvict t) := by
  have submitted : SlotsForm (s.submit (.evict t)).1 := h.submit rfl rfl
  unfold State.serveEvict; dsimp only; split
  · split
    iterate 2 exact submitted.setSponsor fun _ => .inl
    all_goals exact h
  · exact h

theorem SlotsForm.serveBeacon (h : SlotsForm s) : SlotsForm s.serveBeacon := by
  have submitted : SlotsForm (s.submit (.beacon 0#16 0#16 false)).1 := h.submit rfl rfl
  unfold State.serveBeacon; dsimp only; split
  · split
    iterate 2 exact submitted.setSponsor fun _ => .inl
    all_goals exact h
  · exact h

theorem SlotsForm.serveAnswer (h : SlotsForm s) : SlotsForm s.serveAnswer := by
  unfold State.serveAnswer; dsimp only; split
  · exact h
  · rename_i b hb
    obtain ⟨tier, -⟩ := h.outboxFits.2.2 b hb
    have submitted : SlotsForm (s.submit b).1 := h.submit (claimClient_of_tier tier) (by cases b <;> first | rfl | cases tier)
    split
    · exact submitted.setSponsor nofun
    all_goals exact h

theorem isLeave_of_claims {b : Body} {c : Client} (h : claimClient b = some c) : b.isLeave = false := by
  cases b <;> first | rfl | cases h

/-- The entries after a slot's notice is submitted. -/
theorem State.mem_offer_claims {b : Body} {c : Client} (h : claimClient b = some c) {w : Owner} :
    ∀ e ∈ (s.offer b w).1.entries, (claimClient e.body = some c ∧ e.body.isLeave = false) ∨ e ∈ s.outbox.entries := fun e he =>
  (s.mem_offer he).imp (fun k => by rw [k]; exact ⟨h, isLeave_of_claims h⟩) id

/-- A slot that owed its notice and had it placed (R49, R112). -/
theorem Slot.fits.served {v : Slot} {st : StationState} {c : Client} (h : v.fits st c) {claims : Bool}
    (hc : decide (v.owed = .claim) = claims) (ho : v.owed ≠ .none) :
    ({ v with owed := .none, outboxEntry := v.owed, state := if claims then .queued else v.state } : Slot).fits st c := by
  obtain ⟨form, closing, removal⟩ := h.form
  have going : v.closing = false := by
    by_contra e
    exact ho (closing (by simpa using e)).2
  have kept : v.removalPending = false := by
    by_contra e
    exact ho (removal (by simpa using e)).2
  have live : v.state ≠ .free := fun e => ho (by rw [h.form.cleared e]; rfl)
  rw [h.active live going]
  refine Slot.fits_active ⟨?_, fun e => absurd (going.symm.trans e) Bool.false_ne_true,
    fun e => absurd (kept.symm.trans e) Bool.false_ne_true⟩ going
  subst hc
  cases hs : v.state <;> simp only [hs] at form
  case free => exact absurd hs live
  case pending => simp [form]
  case releasing => rcases form with e | e <;> simp_all
  case withdrawing => rcases form with e | e <;> simp_all
  all_goals simp_all

theorem SlotsForm.serveSlot (h : SlotsForm s) (claims : Bool) (c : Client) : SlotsForm (State.serveSlot claims s c) := by
  unfold State.serveSlot
  dsimp only
  split
  · rename_i hc
    split
    · exact h
    · rename_i body hbody
      obtain ⟨hb, ho⟩ := slotBody_claims hbody
      split
      · exact h.write ((h.fits c).served hc ho) (State.mem_offer_claims hb) fun e => absurd rfl e
      · exact h.mismatch
      all_goals exact h
  · exact h

theorem SlotsForm.serveOwed (h : SlotsForm s) : SlotsForm s.serveOwed := by
  have evicts := SlotsForm.foldl (f := State.serveEvict) (fun _ a k => k.serveEvict a) sixteen h
  have claims : ∀ (b : Bool) {t : State}, SlotsForm t → SlotsForm (sixteen.foldl (State.serveSlot b) t) := fun b _ k =>
    k.foldl (fun _ c k => k.serveSlot b c) sixteen
  have rest := SlotsForm.serveBeacon (SlotsForm.serveAnswer (claims false evicts))
  unfold State.serveOwed
  exact claims true rest

theorem SlotsForm.answersAfter (h : SlotsForm s) (before : State) (b : Bool) : SlotsForm (State.answersAfter before s b) := by
  unfold State.answersAfter; split
  · exact h.makeAnswers
  · exact h

theorem SlotsForm.roomEvent (h : SlotsForm s) : SlotsForm s.roomEvent := h.serveOwed.answersAfter s false

theorem SlotsForm.requestRemoval (h : SlotsForm s) (test : Entry → Bool) : SlotsForm (s.requestRemoval test) := by
  have removed := h.setOutbox (s.outbox.removeUnsent_noMore test)
  unfold State.requestRemoval; dsimp only; split
  · exact removed.roomEvent
  · exact removed

/-! ### Slots and lines -/

/-- A slot's notice handed in by an ACTIVE station: no LEAVE waits there, so the slot is as placed, as owed, or a mismatch. -/
theorem SlotsForm.handedIn (h : SlotsForm s) (hs : s.session.station = .active) {c : Client} {b : Body} (hb : claimClient b = some c)
    {purged placed owed : Slot} (hp : placed.form c) (hpc : placed.closing = false) (hpo : placed.owed = .none) (ho : owed.form c)
    (hoc : owed.closing = false) : SlotsForm (s.handedIn c b purged placed owed) := by
  have noLeave : ¬ (s.session.station = .leaving ∨ s.outbox.hasLeave = true) := by
    rintro (e | e)
    · rw [hs] at e; cases e
    · have := h.outboxFits.1 e
      rw [hs] at this; cases this
  unfold State.handedIn
  rw [if_neg noLeave]
  split
  · exact h.mismatch
  · rename_i hn
    have none : ∀ e ∈ s.outbox.entries, claimClient e.body ≠ some c := by simpa [Outbox.hasClaimNotice] using hn
    split
    · refine h.write (by rw [hs]; exact Slot.fits_active hp hpc) (fun e he => ?_) fun e => absurd hpo e
      rcases mem_insertEntry.1 he with rfl | he
      · exact .inl ⟨hb, isLeave_of_claims hb⟩
      · exact .inr he
    · exact h.write (x := s.outbox) (by rw [hs]; exact Slot.fits_active ho hoc) (fun _ => .inr) fun _ => none

theorem SlotsForm.startClaim (h : SlotsForm s) (hs : s.session.station = .active) (c : Client) (m : Mask) (k : Class) :
    SlotsForm (s.startClaim c m k) := by
  rw [State.startClaim_eq]
  exact h.handedIn hs rfl ⟨⟨rfl, rfl⟩, nofun, nofun⟩ rfl rfl ⟨⟨rfl, rfl⟩, nofun, nofun⟩ rfl

theorem SlotsForm.testLine (h : SlotsForm s) (n : LineNo) : SlotsForm (s.testLine n) := by
  unfold State.testLine; split
  · rename_i hr
    have active : s.session.station = .active := by
      rw [State.lineReady] at hr
      simp only [Bool.and_eq_true, decide_eq_true_eq] at hr
      exact hr.2
    exact h.startClaim active _ _ _
  · exact h

theorem SlotsForm.testLines (h : SlotsForm s) : SlotsForm s.testLines := .foldl (fun _ n k => k.testLine n) eight h

theorem SlotsForm.testClient (h : SlotsForm s) (c : Client) : SlotsForm (s.testClient c) := by
  unfold State.testClient; split
  · exact h.testLine _
  · exact h

theorem SlotsForm.rearmIfHigh (h : SlotsForm s) (c : Client) : SlotsForm (s.rearmIfHigh c) := by
  unfold State.rearmIfHigh; split
  · split <;> exact h
  · exact h

/-- A slot is cleared. -/
theorem SlotsForm.clearSlot (h : SlotsForm s) (c : Client) (r : EndReason) : SlotsForm (s.setSlot c (.freeWith r)) :=
  h.setSlot (Slot.freeWith_fits r _ c) (.inl rfl)

theorem SlotsForm.endSlot (h : SlotsForm s) (c : Client) (r : EndReason) : SlotsForm (s.endSlot c r) := h.clearSlot c r

theorem SlotsForm.freeSlot (h : SlotsForm s) (c : Client) : SlotsForm (s.freeSlot c) := h.clearSlot c _

theorem SlotsForm.teardownSlot (h : SlotsForm s) (r : Option EndReason) (c : Client) : SlotsForm (State.teardownSlot r s c) := by
  unfold State.teardownSlot
  split
  · exact h
  · exact h.freeSlot c
  · exact h.endSlot c _
  · exact h.freeSlot c

theorem SlotsForm.active (h : SlotsForm s) {c : Client} (hs : (s.slot c).state ≠ .free) (hc : (s.slot c).closing = false) :
    s.session.station = .active := (h.fits c).active hs hc

/-- A slot of a claim that goes on in an ACTIVE station is written. -/
theorem SlotsForm.setActive (h : SlotsForm s) (hs : s.session.station = .active) {c : Client} {v : Slot} (hv : v.form c)
    (hc : v.closing = false) (ho : v.owed = .none) : SlotsForm (s.setSlot c v) :=
  h.setSlot (by rw [hs]; exact Slot.fits_active hv hc) (.inl ho)

/-- A WITHDRAW is submitted for a slot in WAITING, or for one whose offered CLAIM has been taken (R50, R51). -/
theorem SlotsForm.submitWithdraw (h : SlotsForm s) {c : Client} (hs : (s.slot c).state ≠ .free) (hc : (s.slot c).closing = false)
    (ho : (s.slot c).owed = .none) : SlotsForm (s.submitWithdraw c) := by
  rw [State.submitWithdraw_eq]
  exact h.handedIn (h.active hs hc) rfl ⟨.inr ⟨ho, .inl rfl⟩, by simp [hc], nofun⟩ hc ho ⟨.inl ⟨rfl, rfl⟩, by simp [hc], nofun⟩ hc

/-- A RELEASE is submitted for a slot that holds (R59, R60). -/
theorem SlotsForm.submitRelease (h : SlotsForm s) {c : Client} (hs : (s.slot c).state = .granted ∨ (s.slot c).state = .yielding)
    (r : ReleaseReason) : SlotsForm (s.submitRelease c r) := by
  have form := (h.fits c).form
  have open_ : (s.slot c).closing = false := form.not_closing (by rcases hs with e | e <;> simp [e]) (by rcases hs with e | e <;> simp [e])
  have live : (s.slot c).state ≠ .free := by rcases hs with e | e <;> simp [e]
  obtain ⟨hf, -, removal⟩ := form
  have parts : (s.slot c).owed = .none ∧ (s.slot c).outboxEntry = .none := by rcases hs with e | e <;> simpa only [e] using hf
  have kept : (s.slot c).removalPending = false := by
    by_contra e
    have := (removal (by simpa using e)).1
    rcases hs with k | k <;> rw [k] at this <;> cases this
  rw [State.submitRelease_eq]
  exact h.handedIn (h.active live open_) rfl ⟨.inr ⟨parts.1, .inl rfl⟩, by simp [open_], by simp [kept]⟩ open_ parts.1
    ⟨.inl ⟨rfl, parts.2⟩, by simp [open_], by simp [kept]⟩ open_

end

end Sys2Proof.Machine
end

