-- ==== Sys2Proof/Proofs/SlotCommands.lean ====
section
/-! PROOFS. The form of the slots under withdrawals, leases, edges, the settling of a round, the indications and the Table Engine
(O60). -/

namespace Sys2Proof.Machine

section
variable {s : State}

/-! ### Withdrawals and leases -/

/-- A QUEUED, WAITING, GRANTED or YIELDING slot: its claim goes on, and it owes nothing. -/
theorem Slot.form.going {c : Client} {v : Slot} (h : v.form c)
    (hs : v.state = .queued ∨ v.state = .waiting ∨ v.state = .granted ∨ v.state = .yielding) :
    v.state ≠ .free ∧ v.closing = false ∧ v.removalPending = false ∧ v.owed = .none := by
  have removal : v.removalPending = false := by
    by_contra e
    have := (h.2.2 (by simpa using e)).1
    rcases hs with k | k | k | k <;> rw [k] at this <;> cases this
  have closing := h.not_closing (by rcases hs with k | k | k | k <;> rw [k] <;> nofun) (by rcases hs with k | k | k | k <;> rw [k] <;> nofun)
  obtain ⟨form, -, -⟩ := h
  rcases hs with k | k | k | k <;> rw [k] at form ⊢ <;> exact ⟨nofun, closing, removal, form.1⟩

/-- A slot written anew in another state in which it neither owes nor has anything in the Outbox. -/
theorem Slot.form.resting {c : Client} {v : Slot} (hs : v.state = .waiting ∨ v.state = .granted ∨ v.state = .yielding)
    (hc : v.closing = false) (hr : v.removalPending = false) (ho : v.owed = .none) (hn : v.outboxEntry = .none) : v.form c := by
  refine ⟨?_, fun e => absurd (hc.symm.trans e) Bool.false_ne_true, fun e => absurd (hr.symm.trans e) Bool.false_ne_true⟩
  rcases hs with k | k | k <;> rw [k] <;> exact ⟨ho, hn⟩

theorem Slot.form.noEntry {c : Client} {v : Slot} (h : v.form c) (hs : v.state = .waiting ∨ v.state = .granted ∨ v.state = .yielding) :
    v.outboxEntry = .none := by
  obtain ⟨form, -, -⟩ := h
  rcases hs with k | k | k <;> rw [k] at form <;> exact form.2

theorem SlotsForm.withdrawSlot (h : SlotsForm s) (c : Client) : SlotsForm (s.withdrawSlot c) := by
  have form := (h.fits c).form
  unfold State.withdrawSlot
  split
  · exact (h.endSlot c _).testClient c
  · rename_i hs
    have removed := h.requestRemoval fun e => decide (e.owner = .claimUnit c)
    dsimp only
    split
    · exact (removed.endSlot c _).testClient c
    · rename_i hn
      obtain ⟨live, going, -, owes⟩ := form.going (.inl hs)
      have entry : (s.slot c).outboxEntry = .claim := by
        have := form.1
        rw [hs] at this
        exact this.2
      have same : s.requestRemoval (fun e => decide (e.owner = .claimUnit c)) =
          s.setOutbox (s.outbox.removeUnsent fun e => decide (e.owner = .claimUnit c)) :=
        if_neg fun k => hn ((s.outbox.removeUnsent_shorter _).1 k)
      rw [same] at removed ⊢
      refine removed.setActive (h.active live going) ⟨?_, fun e => absurd (going.symm.trans e) Bool.false_ne_true, fun _ => ⟨rfl, owes⟩⟩
        going owes
      exact .inr ⟨owes, .inr (.inl ⟨entry, .inl rfl⟩)⟩
  · rename_i hs
    obtain ⟨live, going, -, owes⟩ := form.going (.inr (.inl hs))
    exact h.submitWithdraw live going owes
  all_goals exact h

/-- A slot is written in WAITING, GRANTED or YIELDING from one that owes nothing. -/
theorem SlotsForm.setResting (h : SlotsForm s) {c : Client} {v : Slot} (hs : (s.slot c).state = .queued ∨ (s.slot c).state = .waiting ∨
      (s.slot c).state = .granted ∨ (s.slot c).state = .yielding)
    (hv : v.state = .waiting ∨ v.state = .granted ∨ v.state = .yielding) (hc : v.closing = (s.slot c).closing)
    (hr : v.removalPending = (s.slot c).removalPending) (ho : v.owed = (s.slot c).owed) (hn : v.outboxEntry = .none) :
    SlotsForm (s.setSlot c v) := by
  obtain ⟨live, going, kept, owes⟩ := (h.fits c).form.going hs
  exact h.setActive (h.active live going) (.resting hv (hc.trans going) (hr.trans kept) (ho.trans owes) hn) (hc.trans going)
    (ho.trans owes)

/-- A GRANTED slot's lease starts again. -/
theorem SlotsForm.leaseStart (h : SlotsForm s) {c : Client} (hs : (s.slot c).state = .waiting ∨ (s.slot c).state = .granted) (k : Nat) :
    SlotsForm (s.setSlot c (s.leaseStart c k)) :=
  h.setResting (.inr (hs.imp id .inl)) (.inr (.inl rfl)) rfl rfl rfl ((h.fits c).form.noEntry (hs.imp id .inl))

theorem SlotsForm.toYielding (h : SlotsForm s) {c : Client} (hs : (s.slot c).state = .granted) : SlotsForm (s.toYielding c) :=
  SlotsForm.setResting h (.inr (.inr (.inl hs))) (.inr (.inr rfl)) rfl rfl rfl ((h.fits c).form.noEntry (.inr (.inl hs)))

/-- The waiter query closes a slot or leaves it; one that it leaves GRANTED is as before. -/
theorem State.waiterQuery_slot (s : State) (m : Mask) (c : Client) : (s.waiterQuery m).1.slot c = s.slot c ∨
    (s.waiterQuery m).2 = .unknown := by
  unfold State.waiterQuery
  split
  · exact .inl rfl
  · split
    · exact .inr rfl
    · exact .inl rfl

theorem SlotsForm.renewal (h : SlotsForm s) {c : Client} (hs : (s.slot c).state = .granted) : SlotsForm (s.renewal c).1 := by
  have query := h.waiterQuery (s.slot c).set
  have lease : ∀ k, (s.waiterQuery (s.slot c).set).2 ≠ .unknown →
      SlotsForm ((s.waiterQuery (s.slot c).set).1.setSlot c ((s.waiterQuery (s.slot c).set).1.leaseStart c k)) := fun k hk =>
    query.leaseStart (.inr (by rw [(s.waiterQuery_slot _ c).resolve_right hk]; exact hs)) k
  unfold State.renewal
  dsimp only
  split
  · exact query
  · exact query
  · rename_i e; exact lease _ (by rw [e]; nofun)
  · rename_i e
    split
    · exact lease _ (by rw [e]; nofun)
    · exact query

theorem SlotsForm.leaseExpired (h : SlotsForm s) {c : Client} (hs : (s.slot c).state = .granted) : SlotsForm (s.leaseExpired c) := by
  have renewed := h.renewal hs
  unfold State.leaseExpired
  dsimp only
  split
  · split
    · split
      · exact renewed
      · split
        · exact renewed.toYielding ‹_›
        · exact renewed
    · exact h.toYielding hs
  · exact h.toYielding hs

/-! ### Edges -/

theorem SlotsForm.fallSlot (h : SlotsForm s) (c : Client) : SlotsForm (s.fallSlot c) := by
  unfold State.fallSlot
  split
  iterate 3 exact h.withdrawSlot c
  · exact h.submitRelease (.inl ‹_›) _
  · exact h.submitRelease (.inr ‹_›) _
  · exact (h.freeSlot c).testClient c
  all_goals exact h

theorem SlotsForm.handEdge (h : SlotsForm s) (n : LineNo) (e : Edge) : SlotsForm (s.handEdge n e) := by
  cases e
  · exact h.testLine n
  · exact h.fallSlot _

theorem SlotsForm.handEdges (h : SlotsForm s) (n : LineNo) (es : List Edge) : SlotsForm (s.handEdges n es) := by
  induction es generalizing s with
  | nil => exact h
  | cons e es ih => exact ih (h.handEdge n e)

theorem SlotsForm.edge (h : SlotsForm s) (n : LineNo) (e : Edge) (t : Timing) : SlotsForm (s.edge n e t) := by
  cases t
  · exact SlotsForm.handEdges (s := s.setLine n { s.line n with edges := [] }) h n _
  · exact h

/-! ### The settling of a round -/

theorem SlotsForm.toldRemoved (h : SlotsForm s) (c : Client) : SlotsForm (s.toldRemoved c) := by
  unfold State.toldRemoved
  dsimp only
  split
  · rename_i hc
    obtain ⟨⟨form, closing, -⟩, leaving, -⟩ := h.fits c
    obtain ⟨states, owes⟩ := closing hc
    have here := leaving hc
    refine h.setSlot ⟨⟨?_, closing, nofun⟩, fun _ => here, fun _ => .inr hc, fun _ e => absurd here e⟩ (.inl owes)
    rcases states with e | e <;> simp [e, owes, hc]
  · split
    · exact h.endSlot c _
    · exact h

theorem SlotsForm.settle (h : SlotsForm s) (taken : Bool) : SlotsForm (s.settle taken).state := by
  have gone := h.setOutbox (s.outbox.without_noMore Entry.offered)
  unfold State.settle
  split
  · exact h
  · dsimp only
    split
    · exact gone
    · split
      · rename_i e _ _ _
        cases hw : e.owner with
        | claimUnit c => exact gone.toldRemoved c
        | session => exact gone
      · exact h.setOutbox (s.outbox.map_noMore (f := fun e => { e with offered := false }) fun _ => ⟨rfl, id⟩)

theorem SlotsForm.testEnded (h : SlotsForm s) (c : Option Client) : SlotsForm (s.testEnded c) := by
  cases c with
  | none => exact h
  | some c => exact h.testClient c

theorem SlotsForm.offerRoom (h : SlotsForm s) (room : Bool) (c : Option Client) : SlotsForm (s.offerRoom room c) := by
  unfold State.offerRoom; split
  · exact h.serveOwed.testEnded c
  · exact h.testEnded c

theorem SlotsForm.close {x : Settled} (h : SlotsForm x.state) (before : State) : SlotsForm (x.close before) :=
  (h.offerRoom x.room x.ended).answersAfter before x.snap

theorem SlotsForm.settleKept (h : SlotsForm s) : SlotsForm s.settleKept := (h.settle false).close s

theorem SlotsForm.countVoid (h : SlotsForm s) : SlotsForm s.countVoid :=
  h.setOutbox (s.outbox.map_noMore fun e => by split <;> exact ⟨rfl, id⟩)

/-! ### Indications and the Table Engine -/

theorem SlotsForm.refuseQueued (h : SlotsForm s) {c : Client} (hs : (s.slot c).state = .queued) (r : ClaimRefusal) :
    SlotsForm (s.refuseQueued c r) := by
  obtain ⟨live, going, kept, owes⟩ := (h.fits c).form.going (.inl hs)
  unfold State.refuseQueued
  dsimp only
  split
  · rename_i hr
    have line : c.val < 8 := by
      by_contra e
      rw [lineOf_software (Nat.not_lt.1 e)] at hr
      cases hr.1
    exact SlotsForm.setActive h (h.active live going) ⟨⟨line, owes, rfl⟩, fun e => absurd (going.symm.trans e) Bool.false_ne_true,
      fun e => absurd (kept.symm.trans e) Bool.false_ne_true⟩ going owes
  · split
    · exact (h.endSlot c _).testClient c
    · exact (h.endSlot c _).rearmIfHigh c |>.testClient c

/-- A taken CLAIM of a WITHDRAWING slot: a closing one notes that its entry is gone, one that waited for it hands in its WITHDRAW (R51, R63). -/
theorem SlotsForm.acceptedWithdrawing (h : SlotsForm s) {c : Client} (hs : (s.slot c).state = .withdrawing)
    (x : Option EndReason) : SlotsForm (s.indicate c .accepted x) := by
  obtain ⟨⟨-, closing, removal⟩, leaving, -⟩ := h.fits c
  simp only [State.indicate, hs]
  split
  · rename_i hc
    split
    · have here := leaving hc
      exact h.setSlot ⟨⟨.inr ⟨(closing hc).2, .inr (.inr ⟨hc, rfl⟩)⟩, fun _ => ⟨.inr rfl, (closing hc).2⟩, nofun⟩, fun _ => here, fun _ => .inr hc,
        fun _ e => absurd here e⟩ (.inl (closing hc).2)
    · exact h.mismatch
  · rename_i hc
    split
    · rename_i hr
      exact h.submitWithdraw (by rw [hs]; nofun) (by simpa using hc) (removal hr).2
    · exact h.mismatch

theorem SlotsForm.indicate (h : SlotsForm s) (c : Client) (i : Indication) (x : Option EndReason) : SlotsForm (s.indicate c i x) := by
  have ended : ∀ r, SlotsForm ((s.endSlot c r).testClient c) := fun r => (h.endSlot c r).testClient c
  unfold State.indicate
  dsimp only
  split
  · exact h.setResting (.inl ‹_›) (.inl rfl) rfl rfl rfl rfl
  · rename_i hs
    have := h.acceptedWithdrawing hs x
    simpa only [State.indicate, hs] using this
  · exact h.refuseQueued ‹_› _
  · split
    · exact ended _
    · exact h.mismatch
  · exact (h.leaseStart (.inl ‹_›) 0).post _ _
  · exact h
  · exact ended _
  · exact ended _
  · exact ((h.endSlot c _).rearmIfHigh c).testClient c
  · exact h.teardownSlot x c
  · exact h.mismatch

theorem SlotsForm.tellOwn (h : SlotsForm s) (tell : Bool) (a : Addr) (c : Client) (i : Indication) (x : Option EndReason) :
    SlotsForm (s.tellOwn tell a c i x) := by
  unfold State.tellOwn; split
  · exact h.indicate c i x
  · exact h

theorem SlotsForm.setPool (h : SlotsForm s) (p : Pool) : SlotsForm (s.setPool p) := h

theorem SlotsForm.runPass (h : SlotsForm s) (tell : Bool) : SlotsForm (s.runPass tell) := by
  have told := SlotsForm.foldl (f := State.tellGrants tell) (fun _ (r : PoolRecord) k => k.tellOwn tell r.station r.client .granted none)
    (grantPass s.port.threshold s.pool.records).granted
    (h.setPool { s.pool with records := (grantPass s.port.threshold s.pool.records).records })
  unfold State.runPass
  dsimp only
  split
  · exact told.freeze
  · exact told

theorem SlotsForm.withPool (h : SlotsForm s) {work : State → State} (hw : SlotsForm s → SlotsForm (work s)) : SlotsForm (s.withPool work) := by
  unfold State.withPool; split
  · exact h
  · exact hw h

theorem SlotsForm.takeClaim (h : SlotsForm s) (tell : Bool) (a : Addr) (c : Client) (k : Class) (m : Mask) :
    SlotsForm (s.takeClaim tell a c k m) := by
  refine h.withPool fun h => ?_
  split
  · exact h.tellOwn _ _ _ _ _
  · unfold State.admitClaim
    split
    · exact h.freeze
    · exact h.tellOwn _ _ _ _ _
    · split
      · exact h.tellOwn _ _ _ _ _
      · exact ((h.setPool _).tellOwn _ _ _ _ _).runPass _

theorem SlotsForm.dropRecord (h : SlotsForm s) (tell : Bool) (a : Addr) (c : Client) (i : Option Standing → Indication) :
    SlotsForm (State.dropRecord tell a c i s) := by
  unfold State.dropRecord
  dsimp only
  split
  · exact h.freeze
  · exact h.tellOwn _ _ _ _ _
  · exact ((h.setPool _).tellOwn _ _ _ _ _).runPass _

theorem SlotsForm.removeRecords (h : SlotsForm s) (tell : Bool) (k : RemovalCause) (x : Option EndReason) (as : List Addr) :
    SlotsForm (s.removeRecords tell k x as) := by
  unfold State.removeRecords
  split
  · exact h
  · refine h.withPool fun h => ?_
    unfold State.dropStations
    dsimp only
    split
    · exact h.freeze
    · split
      · exact h
      · exact (SlotsForm.foldl (f := State.tellRemoved tell k x) (fun _ (r : PoolRecord) g => g.tellOwn tell r.station r.client _ x) _
          (h.setPool _)).runPass _

theorem SlotsForm.poolEffect (h : SlotsForm s) (tell : Bool) (n : Notice) (x : Option EndReason) (as : List Addr) :
    SlotsForm (s.poolEffect tell n x as) := by
  unfold State.poolEffect
  split
  · exact h.takeClaim _ _ _ _ _
  · exact h.withPool fun h => h.dropRecord _ _ _ _
  · exact h.withPool fun h => h.dropRecord _ _ _ _
  · exact h.removeRecords _ _ _ _
  · exact h.removeRecords _ _ _ _
  all_goals exact h

end

end Sys2Proof.Machine
end

