-- ==== Sys2Proof/Proofs/Leavers.lean ====
section
/-! PROOFS. Steps 1 to 4 of R125 as a station makes them that leaves: storage upsets and mismatches change no station state and the
Outbox stays; and what the end of a membership leaves (R64 to R67, R117, R134, R138, R160). -/

namespace Sys2Proof.Machine

/-! ### Work of a station that leaves -/

/-- A slot that was FREE stays; one that comes to FREE is cleared. -/
def Slot.letsGo (v w : Slot) : Prop := w = v ∨ (v.state ≠ .free ∧ (w.state = .free → w = .freeWith w.lastEnd))

theorem Slot.letsGo.trans {v w x : Slot} (h : v.letsGo w) (k : w.letsGo x) : v.letsGo x := by
  rcases h with rfl | ⟨h1, h2⟩
  · exact k
  · rcases k with rfl | ⟨-, k2⟩
    · exact .inr ⟨h1, h2⟩
    · exact .inr ⟨h1, k2⟩

/-- In LEAVING: session scalars but the count, Outbox and profile check stay, and slots only let go. -/
def Leaves (s t : State) : Prop := s.session.station = .leaving →
  t.session = { s.session with members := t.session.members, count := t.session.count } ∧ t.outbox = s.outbox ∧
    t.checker.profileCheck = s.checker.profileCheck ∧ ∀ c, (s.slot c).letsGo (t.slot c)

theorem Leaves.refl (s : State) : Leaves s s := fun _ => ⟨rfl, rfl, rfl, fun _ => .inl rfl⟩

theorem Leaves.station {s t : State} (h : Leaves s t) (hs : s.session.station = .leaving) : t.session.station = .leaving := by
  rw [(h hs).1]; exact hs

theorem Leaves.trans {s t u : State} (h : Leaves s t) (k : Leaves t u) : Leaves s u := fun hs => by
  obtain ⟨h1, h2, h3, h4⟩ := h hs
  obtain ⟨k1, k2, k3, k4⟩ := k (h.station hs)
  exact ⟨by rw [k1, h1], k2.trans h2, k3.trans h3, fun c => (h4 c).trans (k4 c)⟩

theorem Leaves.foldl {α : Type} {f : State → α → State} (h : ∀ s a, Leaves s (f s a)) (l : List α) (s : State) : Leaves s (l.foldl f s) := by
  induction l generalizing s with
  | nil => exact .refl s
  | cons a l ih => exact (h s a).trans (ih _)

variable (s : State)

/-- A slot whose claim goes on is written. -/
theorem State.setSlot_leaves {c : Client} {v : Slot} (h : (s.slot c).letsGo v) : Leaves s (s.setSlot c v) := fun _ =>
  ⟨by simp, by simp, by simp, fun d => by
    rw [State.setSlot_slot]; split
    · rename_i e; rw [e]; exact h
    · exact .inl rfl⟩

theorem State.post_leaves (k : EventKind) (w : Fin 16) : Leaves s (s.post k w) := .refl s

theorem State.upset_leaves : Leaves s s.upset := fun hs => by
  have marked : Leaves s s.markUpset := .refl s
  unfold State.upset
  split
  · exact Leaves.refl s hs
  · rw [hs]; exact marked hs

theorem State.freeze_leaves : Leaves s s.freeze :=
  Leaves.trans (t := s.setPool { s.pool with frozen := true }) (.refl s) (State.upset_leaves _)

theorem State.readMembers_leaves (as : List Addr) : Leaves s (s.readMembers as) := by
  unfold State.readMembers; split
  · exact s.upset_leaves
  · exact .refl s

theorem State.mismatch_leaves : Leaves s s.mismatch := fun hs => by
  unfold State.mismatch
  rw [hs]
  exact Leaves.refl s hs

theorem State.teardownSlot_leaves (r : Option EndReason) (c : Client) : Leaves s (State.teardownSlot r s c) := by
  have clear : (s.slot c).state ≠ .free → ∀ r, Leaves s (s.setSlot c (.freeWith r)) := fun h _ => s.setSlot_leaves (.inr ⟨h, fun _ => rfl⟩)
  unfold State.teardownSlot
  split
  · exact .refl s
  · exact clear (by simp_all) _
  · exact (clear (by assumption) _).trans (State.post_leaves _ _ _)
  · exact clear (by assumption) _

/-- Of the indications, REMOVED and GRANTED alone come of a LEAVE or EVICT. -/
theorem State.tellRemoved_leaves (tell : Bool) (k : RemovalCause) (x : Option EndReason) (r : PoolRecord) :
    Leaves s (State.tellRemoved tell k x s r) := by
  unfold State.tellRemoved State.tellOwn
  split
  · exact s.teardownSlot_leaves x _
  · exact .refl s

theorem State.tellGrants_leaves (tell : Bool) (r : PoolRecord) : Leaves s (State.tellGrants tell s r) := by
  unfold State.tellGrants State.tellOwn
  split
  · cases hs : (s.slot r.client).state
    case waiting =>
      simp only [State.indicate, hs]
      exact (s.setSlot_leaves (v := s.leaseStart r.client 0) (.inr ⟨by rw [hs]; nofun, fun e => nomatch e⟩)).trans (State.post_leaves _ _ _)
    case withdrawing =>
      simp only [State.indicate, hs]
      exact .refl s
    all_goals
      simp only [State.indicate, hs]
      exact s.mismatch_leaves
  · exact .refl s

theorem State.runPass_leaves (tell : Bool) : Leaves s (s.runPass tell) := by
  have told := (Leaves.refl s).trans (t := s.setPool { s.pool with records := (grantPass s.port.threshold s.pool.records).records })
    (Leaves.foldl (f := State.tellGrants tell) (fun s r => s.tellGrants_leaves tell r) (grantPass s.port.threshold s.pool.records).granted _)
  unfold State.runPass
  dsimp only
  split
  · exact told.trans (State.freeze_leaves _)
  · exact told

theorem State.removeRecords_leaves (tell : Bool) (k : RemovalCause) (x : Option EndReason) (as : List Addr) :
    Leaves s (s.removeRecords tell k x as) := by
  unfold State.removeRecords State.withPool State.dropStations
  dsimp only
  split
  · exact .refl s
  · split
    · exact .refl s
    · split
      · exact s.freeze_leaves
      · split
        · exact .refl s
        · exact ((Leaves.refl s).trans (t := s.setPool { s.pool with records := s.pool.records.filter fun r => decide (r.station ∉ as) })
            (Leaves.foldl (f := State.tellRemoved tell k x) (fun s r => s.tellRemoved_leaves tell k x r) _ _)).trans (State.runPass_leaves _ _)

/-- The pool effect of a notice that is no claim's. -/
theorem State.poolEffect_leaves {n : Notice} (hn : claimClient n.body = none) (tell : Bool) (x : Option EndReason) (as : List Addr) :
    Leaves s (s.poolEffect tell n x as) := by
  unfold State.poolEffect
  cases hb : n.body <;> rw [hb] at hn
  case claim | withdraw | release => cases hn
  case leave | evict => exact s.removeRecords_leaves _ _ _ _
  all_goals exact .refl s

/-- Steps 1 to 4 of R125 for a notice that is no claim's, made as in LEAVING. -/
theorem State.fourSteps_leaves {h : Heard} (hn : claimClient h.notice.body = none) (e : TableChange) (x : Option EndReason) :
    Leaves s (s.fourSteps h e x) := by
  have count : Leaves s (s.countNotice h.notice.body) := by
    unfold State.countNotice; split
    · exact fun _ => ⟨rfl, rfl, rfl, fun _ => .inl rfl⟩
    · exact .refl s
  have clash : ∀ t : State, Leaves t (t.noteClash h) := fun t => by unfold State.noteClash; split <;> exact .refl t
  have absence : ∀ t : State, Leaves t (t.restartAbsence h.notice.sender) := fun t => by
    unfold State.restartAbsence; dsimp only; split <;> exact .refl t
  have members : ∀ t : State, Leaves t (t.liveMembers e) := fun t =>
    Leaves.trans (t := t.setMembers e.table) (fun _ => ⟨rfl, rfl, rfl, fun _ => .inl rfl⟩) (Leaves.foldl (f := State.memberChanged) (fun t _ => .refl t) _ _)
  exact ((((count.trans (clash _)).trans (State.readMembers_leaves _ _)).trans (absence _)).trans (members _)).trans
    (State.poolEffect_leaves _ hn true x _)

variable {s}

/-- A notice that ends a membership is no claim's. -/
theorem ending_no_claim {own : Addr} {st : StationState} {h : Heard} {t : Table} {y : Ending}
    (he : ending own st h (memberEffect t h.notice) = some y) : claimClient h.notice.body = none := by
  by_contra hn
  obtain ⟨c, hc⟩ := Option.ne_none_iff_exists'.1 hn
  rw [(claimNotice_effect hc t).1, ending_claim hc] at he
  cases he

/-! ### The end of a membership -/

/-- Every slot is cleared, no LEAVE waits, and an answer owed is an answer. -/
def Idle (s : State) : Prop :=
  (∀ c, s.slot c = .freeWith (s.slot c).lastEnd) ∧ s.outbox.hasLeave = false ∧ ∀ b, s.sponsor.owedAnswer = some b → IsAnswer b

/-- In every station state such slots have their form. -/
theorem Idle.slotsForm (h : Idle s) : SlotsForm s := by
  obtain ⟨slots, leave, answer⟩ := h
  refine (slotsForm_iff s).2 ⟨fun c => by rw [slots c]; exact Slot.freeWith_fits _ _ _, fun e => ?_, ⟨fun c hc => ?_, fun b hb => ?_⟩, answer⟩
  · rw [leave] at e; cases e
  · rw [slots c] at hc; exact absurd rfl hc
  · exact (answer b hb).1

/-- Outside ACTIVE and LEAVING the slots are idle. -/
theorem SlotsForm.idle (h : SlotsForm s) (h1 : s.session.station ≠ .active) (h2 : s.session.station ≠ .leaving) : Idle s := by
  refine ⟨fun c => ?_, ?_, h.outboxFits.2.2⟩
  · obtain ⟨form, -, -, outside⟩ := h.fits c
    exact form.cleared (outside h1 h2)
  · by_contra e
    exact h2 (h.outboxFits.1 (by simpa using e))

/-- What is not of slots, Outbox and owed answer is not looked at. -/
theorem Idle.of_same {t : State} (h : Idle s) (h1 : ∀ c, t.slot c = s.slot c) (h2 : t.outbox = s.outbox)
    (h3 : t.sponsor.owedAnswer = s.sponsor.owedAnswer) : Idle t := by
  obtain ⟨slots, leave, answer⟩ := h
  exact ⟨fun c => by rw [h1]; exact slots c, by rw [h2]; exact leave, by rw [h3]; exact answer⟩

theorem Idle.enter (h : Idle s) (st : StationState) (c : Cause) : Idle (s.enter st c) := by
  obtain ⟨slots, leave, answer⟩ := h
  rw [State.enter_eq]
  refine ⟨slots, leave, fun b hb => answer b ?_⟩
  dsimp only at hb
  split at hb <;> exact hb

theorem Idle.seek (h : Idle s) (c : Cause) : SlotsForm (s.seek c) := (h.enter .seeking c).slotsForm.submit rfl rfl

theorem Idle.setTag (h : Idle s) (t : Word) : Idle (s.setTag t) := h

theorem Idle.goOffline (h : Idle s) (c : Cause) : SlotsForm (s.goOffline c) := ((h.setTag 0#16).enter .offline c).slotsForm

theorem Idle.goListening (h : Idle s) (c : Cause) : SlotsForm (s.goListening c) :=
  (Idle.enter (s := (s.setTag 0#16).setTimers { s.timers with listen := some 0 }) h .listening c).slotsForm

/-- A cleared Outbox holds no LEAVE but for its round. -/
theorem Outbox.cleared_hasLeave (o : Outbox) : o.cleared.hasLeave = false := by
  simp [Outbox.hasLeave, Outbox.cleared, Outbox.keepOffered, Outbox.map, Outbox.without]

/-- The replica discarded and the Outbox cleared, with every slot ended. -/
theorem Idle.cleared (h : ∀ c, s.slot c = .freeWith (s.slot c).lastEnd) : Idle s.discard.clearOutbox := by
  obtain ⟨-, -, -, slots⟩ := State.cleared_after (s := s) fun c => by rw [h c]; rfl
  refine ⟨fun c => by rw [slots c]; exact h c, ?_, ?_⟩
  · simp only [State.clearOutbox, State.dropOwed_eq]
    exact Outbox.cleared_hasLeave _
  · simp only [State.clearOutbox, State.dropOwed_eq]
    exact nofun

theorem Slot.gone_cleared {v : Slot} (h : v.state = .free → v = .freeWith v.lastEnd) (x : Option EndReason) :
    v.gone x = .freeWith (v.gone x).lastEnd := by
  unfold Slot.gone
  split
  · rfl
  · split
    · exact h ‹_›
    · rfl

theorem Idle.tornDown (h : ∀ c, (s.slot c).state = .free → s.slot c = .freeWith (s.slot c).lastEnd) (x : Option EndReason) :
    Idle (s.teardown x).discard.clearOutbox := .cleared fun c => by
  rw [(s.teardown_ended x).slot c, if_pos (mem_sixteen c)]
  exact Slot.gone_cleared (h c) x

theorem Idle.giveUp (h : ∀ c, s.slot c = .freeWith (s.slot c).lastEnd) (c : Cause) : SlotsForm (s.giveUp c) := (Idle.cleared h).seek c

theorem Idle.ownLeave (h : ∀ c, (s.slot c).state = .free → s.slot c = .freeWith (s.slot c).lastEnd) : SlotsForm s.ownLeave := by
  have idle := Idle.tornDown h (s.session.leaveReason.bind LeaveReason.ends)
  unfold State.ownLeave
  dsimp only
  split
  · exact idle.goOffline _
  · split
    · exact idle.seek _
    · exact idle.goListening _

theorem Idle.evicted (h : ∀ c, (s.slot c).state = .free → s.slot c = .freeWith (s.slot c).lastEnd) (st : StationState) :
    SlotsForm (s.evicted st) := by
  have idle := Idle.tornDown h (some .evicted)
  unfold State.evicted
  dsimp only
  split
  iterate 2
    · split
      · exact idle.seek _
      · exact idle.goOffline _
  all_goals exact idle.seek _

end Sys2Proof.Machine
end

