-- ==== Sys2Proof/Proofs/SlotKeeping.lean ====
section
/-! PROOFS. The form of the slots under the handling of notices and under every command (O60), and the reset state (O54). -/

namespace Sys2Proof.Machine

section
variable {s : State}

/-! ### Notices taken outside the session (R127, R129, R143, R144, R154) -/

theorem Idle.hear (i : Idle s) (h : Heard) : SlotsForm (s.hear h) := by
  have session : SlotsForm (s.hearSession h.notice.tag) := Idle.seek (s := s.stopListen.setTag h.notice.tag) (i.of_same (fun _ => rfl) rfl rfl) _
  unfold State.hear
  split
  · split
    · exact Idle.goOffline (s := s.stopListen) (i.of_same (fun _ => rfl) rfl rfl) _
    · exact session
  all_goals exact session

/-- A change of station state at a station whose slots are idle. -/
theorem Idle.change (i : Idle s) (st : StationState) : Idle (s.change st) := by cases st <;> exact i.of_same (fun _ => rfl) rfl rfl

theorem Idle.found (i : Idle s) (tag : Word) : SlotsForm (s.found tag) := by
  unfold State.found
  dsimp only
  refine SlotsForm.testLines (Idle.change ?_ .active).slotsForm
  exact i.of_same (fun _ => rfl) rfl rfl

theorem Idle.takeFounding (i : Idle s) (h : Heard) : SlotsForm (s.takeFounding h) := by
  unfold State.takeFounding
  split
  · split
    · exact i.found _
    · exact i.slotsForm
  · exact i.hear h

theorem Idle.noteHeard (i : Idle s) (own : Bool) : SlotsForm (s.noteHeard own) := by cases own <;> exact i.slotsForm

theorem Idle.refused (i : Idle s) (r : Fin 16) (own : Bool) : SlotsForm (s.refused r own) := by
  unfold State.refused
  split
  · refine (Idle.enter ?_ _ _).slotsForm
    exact i.of_same (fun _ => rfl) rfl rfl
  · split
    · exact Idle.goOffline (s := s.stopAnswer) (i.of_same (fun _ => rfl) rfl rfl) _
    · split
      · exact Idle.goOffline (s := s.stopAnswer) (i.of_same (fun _ => rfl) rfl rfl) _
      · exact i.noteHeard own

theorem Idle.enterLoading (i : Idle s) (a : Addr) (n : Word) : SlotsForm (s.enterLoading a n) := by
  unfold State.enterLoading
  dsimp only
  refine (Idle.enter ?_ _ _).slotsForm
  exact i.of_same (fun _ => rfl) rfl rfl

theorem Idle.takeSeeking (i : Idle s) (h : Heard) : SlotsForm (s.takeSeeking h) := by
  have heard := i.noteHeard h.own
  unfold State.takeSeeking
  split
  · exact i.slotsForm
  · split
    · exact i.slotsForm
    · split
      · exact i.slotsForm
      · exact heard
    · split
      · exact i.enterLoading _ _
      · exact heard
    · split
      · exact i.refused _ _
      · exact heard
    all_goals exact heard

/-! ### Notices of the session -/

theorem SlotsForm.stepOne (k : SlotsForm s) (h : Heard) : SlotsForm (s.stepOne h) := by
  have count : SlotsForm (s.countNotice h.notice.body) := by
    unfold State.countNotice; split
    · exact k.setSession rfl
    · exact k
  have clash : SlotsForm ((s.countNotice h.notice.body).noteClash h) := by
    unfold State.noteClash; split <;> exact count
  exact clash.readMembers _

theorem SlotsForm.fourSteps (k : SlotsForm s) (h : Heard) (e : TableChange) (x : Option EndReason) : SlotsForm (s.fourSteps h e x) := by
  have absence : SlotsForm ((s.stepOne h).restartAbsence h.notice.sender) := by
    unfold State.restartAbsence; dsimp only; split <;> exact k.stepOne h
  exact SlotsForm.poolEffect (SlotsForm.foldl (f := State.memberChanged) (fun _ _ g => g) e.changes
    (absence.setSession (x := { ((s.stepOne h).restartAbsence h.notice.sender).session with members := e.table }) rfl)) true _ x _

theorem SlotsForm.startServing (k : SlotsForm s) (a : Addr) : SlotsForm (s.startServing a) := by
  unfold State.startServing
  split
  · exact k.freeze
  · split
    · exact k.upset
    · exact k.setSponsor fun _ => .inl

theorem SlotsForm.setAnswer (k : SlotsForm s) (a : Addr) (x : Answer) : SlotsForm (s.setAnswer a x) := k.setSponsor fun _ => .inl

theorem SlotsForm.listJoin (k : SlotsForm s) (a : Addr) (c : Word) : SlotsForm (s.listJoin a c) := by
  unfold State.listJoin
  split
  · split
    · exact k.setAnswer _ _
    · exact k
  iterate 2
    · split
      · exact k.setAnswer _ _
      · exact k
  · exact k

theorem SlotsForm.ownAdmit (k : SlotsForm s) (a : Addr) (b : Bool) : SlotsForm (s.ownAdmit a b) := by
  unfold State.ownAdmit
  split
  · exact k.startServing a
  · split
    · exact k.setAnswer _ _
    · exact k

theorem SlotsForm.compared (k : SlotsForm s) (a : Addr) (b : Bool) : SlotsForm (s.compared a b) := by
  unfold State.compared
  split
  · exact k
  · split
    · exact k
    · exact SlotsForm.queueLeave (s := State.post (s.setChecker { s.checker with suspect := none, resyncPending := true }) _ _) k _
  all_goals exact k

theorem SlotsForm.takeBeacon (k : SlotsForm s) (h : Heard) (p : Bool) (c n : Word) (b : Bool) : SlotsForm (s.takeBeacon h p c n b) := by
  unfold State.takeBeacon
  split
  · rename_i hs
    split
    · exact ((k.idle (by rw [hs]; nofun) (by rw [hs]; nofun)).change .active).slotsForm.testLines
    · exact k
  · split
    · exact k.compared _ _
    · exact k
  all_goals exact k

theorem SlotsForm.kindEffects (k : SlotsForm s) (h : Heard) (e : TableChange) : SlotsForm (s.kindEffects h e) := by
  unfold State.kindEffects
  split
  · split
    · exact k.listJoin _ _
    · exact k
  · split
    · exact k.ownAdmit _ _
    · exact k
  · exact k.takeBeacon h _ _ _ _
  all_goals exact k

theorem SlotsForm.localEffects (k : SlotsForm s) (h : Heard) (e : TableChange) : SlotsForm (s.localEffects h e) := by
  have pruned : SlotsForm s.pruneAnswers := by
    unfold State.pruneAnswers
    refine SlotsForm.setSponsor k ?_
    exact fun _ => .inl
  have suspect : ∀ {t : State}, SlotsForm t → SlotsForm t.clearSuspect := fun {t} g => by
    unfold State.clearSuspect; split
    · split <;> exact g
    · exact g
  have serving : ∀ {t : State}, SlotsForm t → SlotsForm (t.checkServing h) := fun {t} g => by
    unfold State.checkServing; split
    · refine SlotsForm.setSponsor g ?_
      exact fun _ => .inl
    · exact g
  exact (serving (suspect pruned)).kindEffects h e

/-- A notice that ends the membership: its steps are made as in LEAVING, and then every slot has ended. -/
theorem SlotsForm.endMembership (k : SlotsForm s) {h : Heard} {y : Ending}
    (he : ending s.own s.session.station h (memberEffect s.session.members h.notice) = some y) (x : Option EndReason) :
    SlotsForm (((s.change .leaving).fourSteps h (memberEffect s.session.members h.notice) x).endMembership s.session.station y) := by
  have leaving : (s.change .leaving).session.station = .leaving := rfl
  obtain ⟨-, -, -, slots⟩ := (s.change .leaving).fourSteps_leaves (ending_no_claim he) (memberEffect s.session.members h.notice) x leaving
  generalize (s.change .leaving).fourSteps h (memberEffect s.session.members h.notice) x = t at slots
  have cleared : ∀ c, (t.slot c).state = .free → t.slot c = .freeWith (t.slot c).lastEnd := fun c hc => by
    rcases slots c with e | ⟨-, e⟩
    · rw [e] at hc ⊢
      exact (k.fits c).form.cleared hc
    · exact e hc
  cases y with
  | left => exact Idle.ownLeave cleared
  | evicted => exact Idle.evicted cleared s.session.station
  | sponsorLost =>
    have announcing : s.session.station = .announcing := by
      by_contra hn
      unfold ending at he
      split at he
      · cases he
      · split at he
        · cases he
        · rw [if_neg fun e => hn e.1] at he; cases he
    have idle := (k.idle (by rw [announcing]; nofun) (by rw [announcing]; nofun)).1
    refine Idle.giveUp (fun c => ?_) _
    rcases slots c with e | ⟨e, -⟩
    · rw [e]; exact idle c
    · exact absurd (by rw [show (s.change .leaving).slot c = s.slot c from rfl, idle c]; rfl) e

theorem SlotsForm.yieldTo (k : SlotsForm s) (tag : Word) : SlotsForm (s.yieldTo tag) := by
  have idle := Idle.tornDown (fun c => (k.fits c).form.cleared) (some .sessionLost)
  unfold State.yieldTo
  generalize (s.teardown (some .sessionLost)).discard.clearOutbox = t at idle
  refine Idle.seek ?_ _
  exact idle.of_same (fun _ => rfl) rfl rfl

theorem SlotsForm.otherTag (k : SlotsForm s) (n : Notice) : SlotsForm (s.otherTag n) := by
  unfold State.otherTag
  split
  · exact k
  · split
    · exact k
    · exact k.yieldTo _

theorem SlotsForm.takeMember (k : SlotsForm s) (h : Heard) : SlotsForm (s.takeMember h) := by
  unfold State.takeMember
  split
  · exact k
  · split
    · unfold State.applyNotice
      dsimp only
      split
      · exact k.endMembership ‹_› _
      · exact (k.fourSteps h _ _).localEffects h _
    · exact k.otherTag _

/-! ### Loading (R155 to R160) -/

theorem SlotsForm.setMembers (k : SlotsForm s) (t : Table) : SlotsForm (s.setMembers t) := k.setSession rfl

theorem SlotsForm.buildMembers (k : SlotsForm s) (v : Vector Byte 16) : SlotsForm (s.buildMembers v) := by
  unfold State.buildMembers
  split
  · dsimp only
    split
    · exact k.setMembers _
    · exact (k.setMembers _).queueLeave _
  · exact k

theorem SlotsForm.replay (k : SlotsForm s) (h : Heard) : SlotsForm (s.replay h) := by
  unfold State.replay
  split
  · exact ((k.stepOne h).setMembers _).poolEffect _ _ _ _
  · exact k

theorem SlotsForm.announce (k : SlotsForm s) (hs : s.session.station = .loading) : SlotsForm s.announce := by
  have idle := k.idle (by rw [hs]; nofun) (by rw [hs]; nofun)
  unfold State.announce
  dsimp only
  refine SlotsForm.submitBeacon (Idle.enter ?_ .announcing .snapshotDone).slotsForm
  exact idle.of_same (fun _ => rfl) rfl rfl

theorem SlotsForm.complete (k : SlotsForm s) : SlotsForm s.complete := by
  have replayed := SlotsForm.foldl (f := State.replay) (fun _ h g => g.replay h) s.joiner.catchUp k
  have passed := replayed.withPool (work := fun t => t.runPass false) fun g => g.runPass false
  unfold State.complete
  dsimp only
  split
  · split
    · exact passed.announce ‹_›
    · exact passed
  · exact replayed

theorem SlotsForm.endSnapshot (k : SlotsForm s) (c : Word) (n : Byte) : SlotsForm (s.endSnapshot c n) := by
  have read : SlotsForm (if s.poolFails then s.freeze else s.readMembers sixteen) := by
    split
    · exact k.freeze
    · exact k.readMembers _
  unfold State.endSnapshot
  revert read
  generalize (if s.poolFails then s.freeze else s.readMembers sixteen) = t
  intro read
  dsimp only
  split
  · split
    · exact read.complete
    · exact read.queueLeave _
  · exact read

theorem SlotsForm.buffer (k : SlotsForm s) (h : Heard) : SlotsForm (s.buffer h) := by
  unfold State.buffer
  split
  · exact k
  · exact k.queueLeave _

theorem SlotsForm.load (k : SlotsForm s) (hs : s.session.station = .loading) (h : Heard) : SlotsForm (s.load h) := by
  have buffered := k.buffer h
  have gives : ∀ c, SlotsForm (s.giveUp c) := Idle.giveUp (k.idle (by rw [hs]; nofun) (by rw [hs]; nofun)).1
  unfold State.load
  dsimp only
  split
  · exact k
  · split
    · exact k.buildMembers _
    · exact buffered
  · split
    · rw [State.buildClaim_eq]; exact k
    · exact buffered
  · split
    · exact k.endSnapshot _ _
    · exact buffered
  · split
    · exact gives _
    · exact buffered
  · split
    · exact gives _
    · split
      · exact gives _
      · exact buffered
  all_goals exact buffered

theorem SlotsForm.takeLoading (k : SlotsForm s) (hs : s.session.station = .loading) (h : Heard) : SlotsForm (s.takeLoading h) := by
  unfold State.takeLoading
  split
  · exact k
  · split
    · exact k.load hs h
    · exact k.otherTag _

/-! ### The whole event -/

theorem SlotsForm.handle (k : SlotsForm s) (h : Heard) : SlotsForm (s.handle h) := by
  unfold State.handle
  split
  iterate 3 exact k
  · rename_i hs; exact (k.idle (by rw [hs]; nofun) (by rw [hs]; nofun)).hear h
  · rename_i hs; exact (k.idle (by rw [hs]; nofun) (by rw [hs]; nofun)).takeFounding h
  · rename_i hs; exact (k.idle (by rw [hs]; nofun) (by rw [hs]; nofun)).takeSeeking h
  · exact k.takeLoading ‹_› h
  all_goals exact k.takeMember h

theorem SlotsForm.askBack (k : SlotsForm s) (test : Entry → Bool) : SlotsForm (s.askBack test) := k.setOutbox (s.outbox.removeUnsent_noMore test)

theorem SlotsForm.recallEvict (k : SlotsForm s) (n : Notice) : SlotsForm (s.recallEvict n) := by
  unfold State.recallEvict; split
  · refine SlotsForm.askBack (SlotsForm.setSponsor k ?_) _
    exact fun _ => .inl
  · exact k

theorem SlotsForm.dropOwedSnap (k : SlotsForm s) : SlotsForm s.dropOwedSnap := by
  unfold State.dropOwedSnap; split
  · split
    · exact k.setSponsor nofun
    · exact k
  · exact k

theorem SlotsForm.recallSnaps (k : SlotsForm s) (n : Notice) : SlotsForm (s.recallSnaps n) := by
  unfold State.recallSnaps; split
  · exact k
  · split
    · refine (SlotsForm.dropOwedSnap (SlotsForm.setSponsor k ?_)).askBack _
      exact fun _ => .inl
    · exact k

theorem SlotsForm.recall (k : SlotsForm s) (h : Heard) : SlotsForm (s.recall h) := by
  unfold State.recall
  split
  · exact k.askBack _
  · split
    · exact k
    · exact k.askBack _
  · split
    · exact k.askBack _
    · exact k
  iterate 3
    · split
      · exact (k.recallEvict _).recallSnaps _
      · exact k
  all_goals exact k

theorem SlotsForm.setCount (k : SlotsForm s) (n : Word) : SlotsForm (s.setCount n) := k.setSession rfl

theorem SlotsForm.dated (k : SlotsForm s) (n : Notice) {work : State → State} (hw : ∀ {t}, SlotsForm t → SlotsForm (work t)) :
    SlotsForm (s.dated n work) := (hw (k.setCount _)).setCount _

theorem SlotsForm.makeRoom (k : SlotsForm s) (h : Heard) (r : Bool) (c : Option Client) : SlotsForm (s.makeRoom h r c) :=
  (k.recall h).dated h.notice fun g => g.offerRoom _ c

theorem SlotsForm.recheck (k : SlotsForm s) (before : State) : SlotsForm (State.recheck before s) := by
  unfold State.recheck
  dsimp only
  split
  · exact k
  · split
    · exact SlotsForm.freeze (s := s.setChecker { s.checker with tableCheck := tableCheckOf s.session.members s.pool.records }) k
    · exact SlotsForm.readMembers (s := s.setChecker { s.checker with tableCheck := tableCheckOf s.session.members s.pool.records }) k _

theorem SlotsForm.postActive (k : SlotsForm s) (st : StationState) : SlotsForm (State.postActive st s) := by
  unfold State.postActive; split <;> exact k

theorem SlotsForm.takeNotice (k : SlotsForm s) (h : Heard) (r : Bool) (c : Option Client) : SlotsForm (s.takeNotice h r c) :=
  ((((k.makeRoom h r c).handle h).recheck s).makeAnswers).postActive _

theorem SlotsForm.flush (k : SlotsForm s) : SlotsForm s.flush := by
  rcases s.flush_cases with e | ⟨h, -, e⟩
  · rw [e]; exact k
  · rw [e]; exact SlotsForm.takeNotice (s := s.taking) k h false none

/-! ### Rounds (R84 to R105) -/

theorem SlotsForm.setBus (k : SlotsForm s) (b : Bus) : SlotsForm (s.setBus b) := k

theorem SlotsForm.takeRound (k : SlotsForm s) (h : Heard) : SlotsForm (s.takeRound h).state :=
  (((k.setCount (s.countAfter h.notice)).settle h.own).setCount s.session.count).setBus _

theorem SlotsForm.deliver {x : Settled} (k : SlotsForm x.state) (h : Heard) (t : Timing) : SlotsForm (x.deliver h t) := by
  unfold Settled.deliver
  split
  · cases t with
    | atOnce => exact k.takeNotice h _ _
    | later => exact SlotsForm.setBus (k.dated h.notice fun g => g.offerRoom x.room x.ended) _
  · exact k.offerRoom _ _

theorem SlotsForm.endUntaken (k : SlotsForm s) : SlotsForm s.endUntaken := k.settleKept.setBus _

theorem SlotsForm.roundStart (k : SlotsForm s) : SlotsForm s.roundStart := by
  unfold State.roundStart
  split
  · exact k
  · split
    · exact k
    · rename_i e es he
      split
      · exact k
      · refine SlotsForm.setBus (k.setOutbox fun d hd => ?_) _
        rw [Outbox.offerFirst, he] at hd
        rcases List.mem_cons.1 hd with rfl | hd
        · exact .inr ⟨e, by rw [he]; exact List.mem_cons_self, rfl, id⟩
        · exact .inr ⟨d, by rw [he]; exact List.mem_cons_of_mem _ hd, rfl, id⟩

theorem SlotsForm.roundTaken (k : SlotsForm s) (w : Hearing) (t : Timing) : SlotsForm (s.roundTaken w t) := by
  have ends : ∀ h, SlotsForm (s.flush.endTaken h t) := fun h => (k.flush.takeRound h).deliver h t
  unfold State.roundTaken
  split
  · exact k
  · cases w with
    | own =>
      dsimp only
      split
      · unfold State.takeOwn; split
        · exact k.flush
        · exact ends _
      · exact k
    | other w bs =>
      dsimp only
      split
      · exact k
      · unfold State.takeOther; split
        · exact ends _
        · split
          · exact k.flush
          · exact k.flush.endUntaken

/-- The fall to FAULTED clears every slot. -/
theorem SlotsForm.fallen (k : SlotsForm s) (c : Cause) : SlotsForm (s.fallen c) := by
  refine Idle.slotsForm ⟨fun d => ?_, rfl, nofun⟩
  have slot : (s.fallen c).slot d = (s.slot d).afterTeardown .fault := Vector.get_ofFn _ d
  have form := (k.fits d).form
  rw [slot]
  unfold Slot.afterTeardown
  cases hs : (s.slot d).state <;> try rfl
  case free => rw [form.cleared hs]; rfl

theorem SlotsForm.roundVoided (k : SlotsForm s) (w : Bool) (f : Option ReceptionFault) : SlotsForm (s.roundVoided w f) := by
  have ends : SlotsForm (s.flush.endVoided w f) := by
    have counted : SlotsForm (if w then s.flush.countVoid else s.flush) := by
      split
      · exact k.flush.countVoid
      · exact k.flush
    have settled : SlotsForm (s.flush.voidRound w f).state := (counted.settle false).setBus _
    unfold State.endVoided
    dsimp only
    split
    · rw [State.enterFaulted_eq]; exact settled.fallen _
    · split
      · rw [State.enterFaulted_eq]; exact settled.fallen _
      · exact settled.close _
  unfold State.roundVoided
  split
  · exact k
  · split
    · exact k
    · exact ends

theorem SlotsForm.roundMissed (k : SlotsForm s) : SlotsForm s.roundMissed := by
  unfold State.roundMissed
  split
  · exact k
  · split
    · exact k
    · exact k.flush.endUntaken

theorem SlotsForm.busStuck (k : SlotsForm s) : SlotsForm s.busStuck := by
  unfold State.busStuck
  split
  · exact k
  · exact ((k.flush.setBus _).post _ _).endUntaken

theorem SlotsForm.busRecovered (k : SlotsForm s) : SlotsForm s.busRecovered := by
  unfold State.busRecovered
  split <;> exact k

/-! ### Lines and expiries -/

theorem SlotsForm.setLine (k : SlotsForm s) (n : LineNo) (l : Line) : SlotsForm (s.setLine n l) := k

theorem SlotsForm.meet (k : SlotsForm s) (t : Timing) : SlotsForm (s.meet t) := by
  cases t
  · exact k.flush
  · exact k

theorem SlotsForm.reqRise (k : SlotsForm s) (n : LineNo) (t : Timing) : SlotsForm (s.reqRise n t) := by
  unfold State.reqRise
  split
  · exact k
  · split
    · exact ((k.meet t).setLine n _).edge n .rise t
    · exact k

theorem SlotsForm.reqFall (k : SlotsForm s) (n : LineNo) (t : Timing) : SlotsForm (s.reqFall n t) := by
  unfold State.reqFall
  split
  · exact k
  · split
    · exact ((k.meet t).setLine n _).edge n .fall t
    · exact k

theorem SlotsForm.edgeHandedOn (k : SlotsForm s) (n : LineNo) : SlotsForm (s.edgeHandedOn n) := by
  unfold State.edgeHandedOn
  split
  · exact k
  · exact (k.flush.setLine n _).handEdge n _

theorem SlotsForm.expire (k : SlotsForm s) {runs : State → Bool} {act : State → State}
    (ha : ∀ {t}, SlotsForm t → runs t = true → SlotsForm (act t)) : SlotsForm (s.expire runs act) := by
  unfold State.expire
  split
  · split
    · exact ha k.flush ‹_›
    · exact k.flush
  · exact k

theorem SlotsForm.setTimers (k : SlotsForm s) (x : Timers) : SlotsForm (s.setTimers x) := k

theorem Idle.setTimers (i : Idle s) (x : Timers) : Idle (s.setTimers x) := i

theorem SlotsForm.listenWindowExpiry (k : SlotsForm s) : SlotsForm s.listenWindowExpiry := k.expire fun {t} g hr => by
  have hs : t.session.station = .listening := by
    simp only [State.listenRuns, Bool.and_eq_true, decide_eq_true_eq] at hr
    exact hr.1.2
  have idle : Idle t.stopListen.nextTag.zeroPointer := (g.idle (by rw [hs]; nofun) (by rw [hs]; nofun)).of_same (fun _ => rfl) rfl rfl
  have placed : SlotsForm t.stopListen.nextTag.zeroPointer.placeFound := idle.slotsForm.submit rfl rfl
  have listening : t.stopListen.nextTag.zeroPointer.placeFound.session.station = .listening := hs
  exact ((placed.idle (by rw [listening]; nofun) (by rw [listening]; nofun)).enter _ _).slotsForm

theorem SlotsForm.answerLimitExpiry (k : SlotsForm s) : SlotsForm s.answerLimitExpiry := k.expire fun {t} g hr => by
  have hs : t.session.station = .seeking := by
    simp only [State.answerRuns, Bool.and_eq_true, decide_eq_true_eq] at hr
    exact hr.1.2
  unfold State.endSeeking
  split
  · exact (show SlotsForm t.stopAnswer from g).submit rfl rfl
  · exact Idle.goListening (s := t.stopAnswer) ((g.idle (by rw [hs]; nofun) (by rw [hs]; nofun)).setTimers _) _

theorem SlotsForm.backoffEnd (k : SlotsForm s) : SlotsForm s.backoffEnd := k.expire fun {t} g hr => by
  have hs : t.session.station = .backoff := by
    simp only [State.backoffRuns, Bool.and_eq_true, decide_eq_true_eq] at hr
    exact hr.2
  exact ((g.idle (by rw [hs]; nofun) (by rw [hs]; nofun)).setTimers _).seek _

theorem SlotsForm.snapshotLimitExpiry (k : SlotsForm s) : SlotsForm s.snapshotLimitExpiry := k.expire fun g _ => g.queueLeave _

theorem SlotsForm.beaconTimerExpiry (k : SlotsForm s) : SlotsForm s.beaconTimerExpiry := by
  unfold State.beaconTimerExpiry
  split
  · exact (k.setTimers _).submitBeacon
  · exact k

theorem SlotsForm.absenceTimerExpiry (k : SlotsForm s) (m : Addr) : SlotsForm (s.absenceTimerExpiry m) := by
  unfold State.absenceTimerExpiry
  split
  · exact (k.setTimers _).submitEvict m
  · exact k

theorem SlotsForm.leaseExpiry (k : SlotsForm s) (c : Client) : SlotsForm (s.leaseExpiry c) := k.expire fun {t} g hr => by
  have hs : (t.slot c).state = .granted := of_decide_eq_true hr
  have ran : SlotsForm (t.setSlot c { t.slot c with leaseMs := 0 }) :=
    g.setResting (.inr (.inr (.inl hs))) (.inr (.inl hs)) rfl rfl rfl ((g.fits c).form.noEntry (.inr (.inl hs)))
  exact ran.leaseExpired (by rw [State.setSlot_slot, if_pos rfl]; exact hs)

theorem SlotsForm.yieldExpiry (k : SlotsForm s) (c : Client) : SlotsForm (s.yieldExpiry c) := k.expire fun {t} g hr => by
  have hs : (t.slot c).state = .yielding := of_decide_eq_true hr
  have ran : SlotsForm (t.setSlot c { t.slot c with yieldMs := 0 }) :=
    g.setResting (.inr (.inr (.inr hs))) (.inr (.inr hs)) rfl rfl rfl ((g.fits c).form.noEntry (.inr (.inr hs)))
  exact ran.submitRelease (.inr (by rw [State.setSlot_slot, if_pos rfl]; exact hs)) _

theorem SlotsForm.retryExpiry (k : SlotsForm s) (n : LineNo) : SlotsForm (s.retryExpiry n) := k.expire fun {t} g _ => by
  unfold State.endRetry
  split
  · rename_i h
    exact (g.freeSlot _).startClaim (by rw [State.freeSlot, State.setSlot_session]; exact h.2) _ _ _
  · exact (g.freeSlot _).testClient _

/-! ### The Card Port -/

theorem SlotsForm.setPort (k : SlotsForm s) (p : Port) : SlotsForm (s.setPort p) := k

theorem SlotsForm.frame (k : SlotsForm s) {d : Decided} (hd : SlotsForm d.state) : SlotsForm (s.frame d) := by
  unfold State.frame
  split
  · exact k
  · exact hd

theorem SlotsForm.loadTests (k : SlotsForm s) {o : Byte} {d : List Byte} {l : Nat} {t : State} (ht : SlotsForm t) :
    SlotsForm (s.loadTests o d l t).state := by
  unfold State.loadTests
  split
  · exact k
  · split
    · exact k
    · split
      · exact k
      · exact ht

theorem SlotsForm.decideStart (k : SlotsForm s) : SlotsForm s.decideStart.state := by
  unfold State.decideStart
  split
  · rename_i hs
    split
    · have idle := k.idle (by rw [hs]; nofun) (by rw [hs]; nofun)
      show SlotsForm s.startUp
      unfold State.startUp
      refine Idle.slotsForm (Idle.enter ?_ _ _)
      exact idle.of_same (fun _ => rfl) rfl rfl
    · exact k
  · exact k

/-- A removal asked outside ACTIVE and LEAVING leaves the slots idle. -/
theorem SlotsForm.removed_idle (k : SlotsForm s) (test : Entry → Bool)
    (hs : s.session.station = .founding ∨ s.session.station = .seeking ∨ s.session.station = .backoff) : Idle (s.requestRemoval test) := by
  have station : (s.requestRemoval test).session.station = s.session.station := by
    rcases (s.requestRemoval_kept test).session with ⟨e, -⟩ | ⟨e, -⟩
    · rw [e]
    · rcases hs with h | h | h <;> rw [h] at e <;> rcases e with e | e | e <;> cases e
  refine (k.requestRemoval test).idle ?_ ?_ <;> rw [station] <;> rcases hs with h | h | h <;> rw [h] <;> nofun

theorem SlotsForm.decideStop (k : SlotsForm s) : SlotsForm s.decideStop.state := by
  unfold State.decideStop
  cases hs : s.session.station
  case listening =>
    exact Idle.goOffline (s := s.stopListen) ((k.idle (by rw [hs]; nofun) (by rw [hs]; nofun)).setTimers _) _
  case founding => exact (k.removed_idle _ (.inl hs)).goOffline _
  case seeking => exact Idle.goOffline (s := s.removeJoin.stopAnswer) ((k.removed_idle _ (.inr (.inl hs))).setTimers _) _
  case backoff => exact ((k.removed_idle _ (.inr (.inr hs))).setTimers _).goOffline _
  case loading | announcing | active => exact k.queueLeave _
  case leaving => exact k.setSession rfl
  all_goals exact k

theorem SlotsForm.decideResync (k : SlotsForm s) : SlotsForm s.decideResync.state := by
  unfold State.decideResync
  split
  · exact k.queueLeave _
  · exact k

theorem SlotsForm.decideClearFault (k : SlotsForm s) : SlotsForm s.decideClearFault.state := by
  unfold State.decideClearFault
  split
  · rename_i hs
    exact ((k.idle (by rw [hs]; nofun) (by rw [hs]; nofun)).enter _ _).slotsForm
  · exact k

theorem SlotsForm.decideClaim (k : SlotsForm s) (c : Byte) (m : Mask) (w : Byte) : SlotsForm (s.decideClaim c m w).state := by
  unfold State.decideClaim
  split
  · exact k
  · rename_i hs
    split
    · exact k
    · split
      · exact k
      · split
        · exact k
        · exact k.startClaim (not_not.1 hs) _ _ _

theorem SlotsForm.decideCancel (k : SlotsForm s) (b : Byte) : SlotsForm (s.decideCancel b).state := by
  unfold State.decideCancel
  split
  · exact k
  · unfold State.cancelSlot
    split
    iterate 3 exact k.withdrawSlot _
    all_goals exact k

theorem SlotsForm.decideRelease (k : SlotsForm s) (b : Byte) : SlotsForm (s.decideRelease b).state := by
  unfold State.decideRelease
  split
  · exact k
  · unfold State.releaseSlot
    split
    · exact k.submitRelease (.inl ‹_›) _
    · exact k.submitRelease (.inr ‹_›) _
    all_goals exact k

theorem SlotsForm.decideRenew (k : SlotsForm s) (b : Byte) : SlotsForm (s.decideRenew b).state := by
  unfold State.decideRenew
  split
  · exact k
  · unfold State.renewSlot
    split
    · exact k.renewal ‹_›
    · exact k

theorem SlotsForm.decideReadResource (k : SlotsForm s) (b : Byte) : SlotsForm (s.decideReadResource b).state := by
  unfold State.decideReadResource
  split
  · dsimp only
    split
    · exact k.freeze
    · exact k
  · exact k

theorem SlotsForm.decideReadMember (k : SlotsForm s) (b : Byte) : SlotsForm (s.decideReadMember b).state := by
  unfold State.decideReadMember
  split
  · exact k
  · exact k.readMembers _

theorem SlotsForm.frameAborted (k : SlotsForm s) (bs : List Byte) : SlotsForm (s.frameAborted bs) := by
  unfold State.frameAborted
  split <;> exact k

theorem SlotsForm.badFrame (k : SlotsForm s) (i : Byte) (ps : List Byte) : SlotsForm (s.badFrame i ps) := by
  unfold State.badFrame
  split
  · exact k
  · exact k.frame k

theorem SlotsForm.reading (k : SlotsForm s) : SlotsForm s.reading := by
  unfold State.reading
  split <;> exact k

theorem SlotsForm.eventRemoval (k : SlotsForm s) : SlotsForm s.eventRemoval := by
  unfold State.eventRemoval
  split <;> exact k

/-! ### Every step -/

/-- The reset state holds no claim. -/
theorem Idle.reset (pending : List Instr) : Idle { State.reset with pending := pending } := by
  refine ⟨fun c => ?_, rfl, nofun⟩
  have slot : ({ State.reset with pending := pending } : State).slot c = .freeWith .none := by
    simp [State.slot, State.reset, Vector.get_eq_getElem]
  rw [slot]; rfl

/-- Every command keeps the form of the slots. -/
theorem SlotsForm.exec (k : SlotsForm s) {i : Instr} {t : State} (h : exec i s = .next t) : SlotsForm t := by
  cases i <;> cases h
  case loadProfile => exact k.frame (k.flush.loadTests (k.flush.setPort _))
  case loadLocal => exact k.frame (k.flush.loadTests (k.flush.setPort _))
  case readConfig => exact k.frame (by rw [State.decideReadConfig_state]; exact k)
  case start => exact k.frame k.flush.decideStart
  case stop => exact k.frame k.flush.decideStop
  case resync => exact k.frame k.flush.decideResync
  case clearFault => exact k.frame k.flush.decideClearFault
  case claim => exact k.frame (k.flush.decideClaim _ _ _)
  case cancel => exact k.frame (k.flush.decideCancel _)
  case release => exact k.frame (k.flush.decideRelease _)
  case renew => exact k.frame (k.flush.decideRenew _)
  case readEvent => exact (k.frame (by rw [State.decideReadEvent_state]; exact k.flush)).reading
  case readStatus => exact k.frame k.flush
  case readSlot => exact k.frame (by rw [State.decideReadSlot_state]; exact k.flush)
  case readResource => exact k.frame (k.flush.decideReadResource _)
  case readMember => exact k.frame (k.flush.decideReadMember _)
  case badFrame => exact k.badFrame _ _
  case frameAborted => exact k.frameAborted _
  case eventRemoval => exact k.eventRemoval
  case hardwareReset => exact (Idle.reset _).slotsForm
  case resetRelease => unfold State.resetRelease; split <;> exact k
  case reqRise => exact k.reqRise _ _
  case reqFall => exact k.reqFall _ _
  case roundStart => exact k.roundStart
  case roundTaken => exact k.roundTaken _ _
  case roundVoided => exact k.roundVoided _ _
  case roundMissed => exact k.roundMissed
  case busStuck => exact k.busStuck
  case busRecovered => exact k.busRecovered
  case listenWindowExpiry => exact k.listenWindowExpiry
  case answerLimitExpiry => exact k.answerLimitExpiry
  case backoffEnd => exact k.backoffEnd
  case snapshotLimitExpiry => exact k.snapshotLimitExpiry
  case beaconTimerExpiry => exact k.beaconTimerExpiry
  case absenceTimerExpiry => exact k.absenceTimerExpiry _
  case leaseExpiry => exact k.leaseExpiry _
  case yieldExpiry => exact k.yieldExpiry _
  case retryExpiry => exact k.retryExpiry _
  case owedNoticePlaced => exact k.flush.roomEvent
  case edgeHandedOn => exact k.edgeHandedOn _
  case noticeEffectsMade => exact k.flush

/-- A slot's timers are not of its form. -/
theorem Slot.fits.tick {v : Slot} {st : StationState} {c : Client} (h : v.fits st c) : v.tick.fits st c := by
  unfold Slot.tick
  cases hs : v.state
  case granted | yielding | retry => simpa only [Slot.fits, Slot.form, hs] using h
  all_goals exact h

theorem SlotsForm.tick (k : SlotsForm s) : SlotsForm s.tick := by
  obtain ⟨fits, leave, ⟨apart, tier⟩, answer⟩ := (slotsForm_iff s).1 k
  unfold State.tick
  split
  · exact k
  · have slot : ∀ c, ({ s with timers := s.tickTimers, slots := s.slots.map Slot.tick, pending := s.pending ++ s.expiries } : State).slot c =
        (s.slot c).tick := fun c => by simp [State.slot, Vector.get_eq_getElem]
    have owed : ∀ v : Slot, v.tick.owed = v.owed := fun v => by unfold Slot.tick; split <;> rfl
    exact (slotsForm_iff _).2 ⟨fun c => by rw [slot c]; exact (fits c).tick, leave,
      ⟨fun c hc => apart c (by rw [slot c, owed] at hc; exact hc), tier⟩, answer⟩

end

/-- Settles O60: every operation, and so every command and every millisecond, keeps the form. -/
theorem stepKeepsSlotsForm : Obligations.StepKeepsSlotsForm := by
  intro s t k h
  unfold step at h
  split at h
  · cases h; exact k.tick
  · rename_i i rest _
    exact SlotsForm.exec (s := { s with pending := rest }) k h

/-- Settles O54: each invariant of the reset values; an empty list and a vector of equal entries have every form asked for. -/
theorem invariantsHoldAtReset : Obligations.InvariantsHoldAtReset := by
  have members : ∀ a : Addr, State.reset.session.members.get a = Member.absent := Table.empty_get
  refine ⟨?gnt, rfl, ⟨Nat.zero_le _, nofun, nofun⟩, rfl, ⟨Nat.zero_le _, Nat.zero_le _, .nil⟩, ⟨Nat.zero_le _, fun _ => rfl⟩,
    ⟨Nat.zero_le _, Nat.zero_le _⟩, ?check, (replicaForm_iff _).2 ⟨rfl, fun _ => ⟨rfl, rfl, rfl⟩⟩, fun _ => ⟨rfl, noAnswers, rfl⟩,
    fun _ => rfl, ⟨.nil, .nil, nofun⟩, (Idle.reset []).slotsForm, fun a => by simp [members, Member.absent], nofun⟩
  case gnt =>
    intro n
    simp [State.line, State.slot, State.reset, Line.reset, Slot.freeWith, Vector.get_eq_getElem]
  case check =>
    have current : State.reset.checker.tableCheck = tableCheckOf State.reset.session.members State.reset.pool.records := by
      simp only [State.reset, tableCheckOf_empty]
    rw [CheckCurrent, if_neg (by simp [State.reset])]
    exact .inl current

end Sys2Proof.Machine
end

