-- ==== Sys2Proof/Proofs/ClaimCommands.lean ====
section
/-! PROOFS. The claim commands of the Card Port (O11, O12) and the edges of REQ (O20, O21). -/

namespace Sys2Proof.Machine

section
variable {s : State}

/-- A frame that is denied. -/
theorem State.frame_deny (hr : s.resetHeld = false) (u : State) (x : Status) : s.frame (u.deny x) = u.answered x [] := s.frame_eq _ hr

/-- A frame that is accepted with no response data. -/
theorem State.frame_accept (hr : s.resetHeld = false) (u : State) : s.frame u.accept = u.answered .ok [] := s.frame_eq _ hr

/-! ### CLAIM (R47) -/

theorem exec_claim_decided (client : Byte) (m : Mask) (k : Byte) :
    exec (.claim client m k) s = .next (s.frame (s.flush.decideClaim client m k)) := rfl

theorem State.decideClaim_outside {u : State} (hs : u.session.station ≠ .active) (client : Byte) (m : Mask) (k : Byte) :
    u.decideClaim client m k = u.deny .wrongState := if_pos hs

theorem State.decideClaim_hardware {u : State} (hs : u.session.station = .active) {client : Byte}
    (hb : ¬ (8 ≤ client.toNat ∧ client.toNat ≤ 15)) (m : Mask) (k : Byte) : u.decideClaim client m k = u.deny .badParameter := by
  rw [State.decideClaim, if_neg (not_not.2 hs), softwareClient_none hb]

/-- The tests of R47 for a software client of an ACTIVE station: set and class, then the slot. -/
theorem State.decideClaim_software {u : State} (hs : u.session.station = .active) {c : Client} (hc : 8 ≤ c.val) (m : Mask) (k : Byte) :
    u.decideClaim (BitVec.ofNat 8 c.val) m k =
      if setValid u.port.n m = false ∨ 3 < k.toNat then u.deny .badParameter
      else if (u.slot c).state ≠ .free then u.deny .slotBusy else (u.claimed c m (Fin.ofNat 4 k.toNat)).accept := by
  rw [State.decideClaim, if_neg (not_not.2 hs), softwareClient_of hc]
  dsimp only
  rw [State.startClaim_eq]

/-- A class is the byte that names it. -/
theorem class_of_byte (k : Sys2Proof.Class) : (BitVec.ofNat 8 k.val).toNat = k.val ∧ Fin.ofNat 4 (BitVec.ofNat 8 k.val).toNat = k := by
  revert k; decide

end

/-- Settles O11: the tests of R47 in their order. -/
theorem claimCommandDecided : Obligations.ClaimCommandDecided := by
  intro s client m k hr
  refine ⟨s.flush, exec_noticeEffectsMade_flush s, State.flush_none, fun hs => ?outside, fun hs => ⟨fun hb => ?hardware, ?software⟩⟩
  case outside => rw [exec_claim_decided, State.decideClaim_outside hs, State.frame_deny hr]
  case hardware => rw [exec_claim_decided, State.decideClaim_hardware hs hb, State.frame_deny hr]
  case software =>
    rintro c hc rfl
    refine ⟨fun hn => ?_, fun h1 h2 h3 j hj => ?_⟩ <;> rw [exec_claim_decided, State.decideClaim_software hs hc]
    · have bad : setValid s.flush.port.n m = false ∨ 3 < k.toNat := by
        by_contra h
        obtain ⟨hv, hk⟩ := not_or.1 h
        obtain ⟨h1, h2, h3⟩ := (setValid_iff _ _).1 (by simpa using hv)
        exact hn ⟨h1, h2, h3, Nat.not_lt.1 hk⟩
      rw [if_pos bad, State.frame_deny hr]
    · obtain ⟨value, name⟩ := class_of_byte j
      have good : ¬ (setValid s.flush.port.n m = false ∨ 3 < k.toNat) := by
        rw [(setValid_iff _ _).2 ⟨h1, h2, h3⟩, hj, value]
        simpa using Nat.le_of_lt_succ j.isLt
      rw [if_neg good, hj, name]
      by_cases hf : (s.flush.slot c).state = .free
      · rw [if_neg (not_not.2 hf), if_pos hf, State.frame_accept hr]
      · rw [if_pos hf, if_neg hf, State.frame_deny hr]

section
variable {s : State}

/-! ### CANCEL and RELEASE (R50, R59, R61) -/

theorem exec_cancel_decided (client : Byte) : exec (.cancel client) s = .next (s.frame (s.flush.decideCancel client)) := rfl

theorem exec_release_decided (client : Byte) : exec (.release client) s = .next (s.frame (s.flush.decideRelease client)) := rfl

theorem State.decideCancel_software {u : State} {c : Client} (hc : 8 ≤ c.val) :
    u.decideCancel (BitVec.ofNat 8 c.val) = u.cancelSlot c := by rw [State.decideCancel, softwareClient_of hc]

theorem State.decideRelease_software {u : State} {c : Client} (hc : 8 ≤ c.val) :
    u.decideRelease (BitVec.ofNat 8 c.val) = u.releaseSlot c := by rw [State.decideRelease, softwareClient_of hc]

/-- A CANCEL that lets a claim go, as a withdrawal does. -/
theorem State.cancelSlot_waits {u : State} {c : Client}
    (hs : (u.slot c).state = .pending ∨ (u.slot c).state = .queued ∨ (u.slot c).state = .waiting) :
    u.cancelSlot c = (u.withdrawSlot c).accept := by
  rw [State.cancelSlot]
  rcases hs with h | h | h <;> rw [h]

/-- A QUEUED claim asked back that is not offered in the round; a software client has no line to test. -/
theorem State.askedBack_unsent {u : State} {c : Client} (hc : 8 ≤ c.val)
    (he : ∃ e ∈ u.outbox.entries, decide (e.owner = .claimUnit c) = true ∧ e.offered = false) : u.askedBack c =
      (u.setOutbox (u.outbox.removeUnsent fun e => decide (e.owner = .claimUnit c))).roomEvent.ended c .withdrawn := by
  have unsent : (u.outbox.entries.any fun e => decide (e.owner = .claimUnit c) && !e.offered) = true := by
    obtain ⟨e, he, ho, hf⟩ := he
    exact List.any_eq_true.2 ⟨e, he, by rw [ho, hf]; rfl⟩
  rw [State.askedBack]
  dsimp only
  rw [if_pos unsent, State.retested_software _ hc]

/-- A QUEUED claim asked back that is offered, or taken already. -/
theorem State.askedBack_offered {u : State} {c : Client}
    (he : ∀ e ∈ u.outbox.entries, decide (e.owner = .claimUnit c) = true → e.offered = true) : u.askedBack c =
      (u.setOutbox (u.outbox.removeUnsent fun e => decide (e.owner = .claimUnit c))).setSlot c
        { u.slot c with state := .withdrawing, removalPending := true } := by
  have offered : ¬ (u.outbox.entries.any fun e => decide (e.owner = .claimUnit c) && !e.offered) = true := by
    intro h
    obtain ⟨e, hm, ho⟩ := List.any_eq_true.1 h
    obtain ⟨ho, hf⟩ := Bool.and_eq_true_iff.1 ho
    rw [he e hm ho] at hf
    cases hf
  rw [State.askedBack]
  dsimp only
  rw [if_neg offered]

end

/-- Settles O12: CANCEL and RELEASE by the state of the slot. -/
theorem cancelAndReleaseDecided : Obligations.CancelAndReleaseDecided := by
  refine ⟨fun s client hr => ⟨s.flush, exec_noticeEffectsMade_flush s, State.flush_none, fun hb => ?noCancel, ?cancel⟩,
    fun s client hr => ⟨s.flush, exec_noticeEffectsMade_flush s, State.flush_none, fun hb => ?noRelease, ?release⟩⟩
  case noCancel => rw [exec_cancel_decided, State.decideCancel, softwareClient_none hb, State.frame_deny hr]
  case noRelease => rw [exec_release_decided, State.decideRelease, softwareClient_none hb, State.frame_deny hr]
  case cancel =>
    rintro c hc rfl
    dsimp only
    rw [exec_cancel_decided, State.decideCancel_software hc]
    refine ⟨fun h => ?_, fun h => ?_, fun h he => ?_, fun h he => ?_, fun h => ?_, fun h => ?_⟩
    · rw [State.cancelSlot_waits (.inl h), State.withdrawSlot_eq, h, State.frame_accept hr]
      dsimp only
      rw [State.retested_software _ hc]
    · rw [State.cancelSlot_waits (.inr (.inr h)), State.withdrawSlot_eq, h, State.frame_accept hr]
    · rw [State.cancelSlot_waits (.inr (.inl h)), State.withdrawSlot_eq, h, State.frame_accept hr]
      dsimp only
      rw [State.askedBack_unsent hc he]
    · rw [State.cancelSlot_waits (.inr (.inl h)), State.withdrawSlot_eq, h, State.frame_accept hr]
      dsimp only
      rw [State.askedBack_offered he]
    · rw [State.cancelSlot]
      rcases h with h | h <;> rw [h, State.frame_deny hr]
    · rw [State.cancelSlot]
      rcases h with h | h | h | h <;> rw [h, State.frame_deny hr]
  case release =>
    rintro c hc rfl
    rw [exec_release_decided, State.decideRelease_software hc, State.releaseSlot, State.submitRelease_eq]
    cases (s.flush.slot c).state
    case granted | yielding => exact congrArg Host.Outcome.next (State.frame_accept hr _)
    all_goals exact congrArg Host.Outcome.next (State.frame_deny hr _ _)

section
variable {s : State}

/-! ### Edges of REQ (R71, R72, R75) -/

theorem State.reqRise_high (h : (s.line n).req = true) (t : Timing) : s.reqRise n t = s := by
  rw [State.reqRise, h, Bool.or_true, if_pos rfl]

theorem State.reqFall_low (h : (s.line n).req = false) (t : Timing) : s.reqFall n t = s := by
  rw [State.reqFall, h, Bool.not_false, Bool.or_true, if_pos rfl]

variable {n : LineNo} (hr : s.resetHeld = false)
include hr

/-- A rise of a line that is low. -/
theorem State.reqRise_low (hq : (s.line n).req = false) (t : Timing) : s.reqRise n t =
    if s.port.lineEnabled n then ((s.meet t).setLine n { (s.meet t).line n with req := true }).edge n .rise t
    else s.setLine n { s.line n with req := true } := by
  rw [State.reqRise, hr, hq, Bool.or_false, if_neg Bool.false_ne_true]

/-- A fall of a line that is high. -/
theorem State.reqFall_high (hq : (s.line n).req = true) (t : Timing) : s.reqFall n t =
    if s.port.lineEnabled n then ((s.meet t).setLine n { (s.meet t).line n with req := false, rearm := false }).edge n .fall t
    else s.setLine n { s.line n with req := false } := by
  rw [State.reqFall, hr, hq, Bool.not_true, Bool.or_false, if_neg Bool.false_ne_true]

omit hr in
/-- An edge that waits, on a line whose level has just been sampled. -/
theorem State.edge_later (l : Line) (e : Edge) : (s.setLine n l).edge n e .later = s.setLine n { l with edges := l.edges ++ [e] } := by
  simp only [State.edge, State.setLine_line, if_true, State.setLine_setLine]

omit hr in
/-- An edge handed on at once, after those that still wait. -/
theorem State.edge_atOnce (l : Line) (e : Edge) :
    (s.setLine n l).edge n e .atOnce = (s.setLine n { l with edges := [] }).handedOn n (l.edges ++ [e]) := by
  simp only [State.edge, State.setLine_line, if_true, State.setLine_setLine, State.handEdges_eq]

omit hr in
/-- An edge handed on by its row. -/
theorem State.handEdge_eq (e : Edge) : s.handEdge n e = s.handedOn n [e] := by
  rw [← State.handEdges_eq]; rfl

omit hr in
/-- With no delivered notice left an edge meets the station as it stands. -/
theorem State.meet_none (hd : s.bus.delivered = none) (t : Timing) : s.meet t = s := by
  cases t
  · exact State.flush_none hd
  · rfl

omit hr in
/-- EDGE_HANDED_ON of the one edge that waits. -/
theorem State.edgeHandedOn_one (hd : s.bus.delivered = none) {l : Line} {e : Edge} (he : l.edges = [e]) :
    (s.setLine n l).edgeHandedOn n = (s.setLine n { l with edges := [] }).handedOn n [e] := by
  have flush : (s.setLine n l).flush = s.setLine n l := State.flush_none hd
  have line : (s.setLine n l).line n = l := by rw [State.setLine_line, if_pos rfl]
  rw [State.edgeHandedOn, line, he, flush]
  dsimp only
  rw [line, State.setLine_setLine, State.handEdge_eq]

omit hr in
/-- A line with no edge that waits. -/
theorem Line.edges_none {l : Line} (h : l.edges = []) (q r : Bool) :
    ({ l with req := q, rearm := r, edges := [] } : Line) = { l with req := q, rearm := r } := by rw [← h]

end

/-- Settles O20: the rise of an enabled line, at once and later. -/
theorem reqRiseStartsLineClaim : Obligations.ReqRiseStartsLineClaim := by
  intro s n hr
  refine ⟨s.flush, exec_noticeEffectsMade_flush s, State.flush_none, fun t hq => ?high, fun hq => ?low⟩
  case high => exact congrArg Host.Outcome.next (State.reqRise_high hq t)
  case low =>
    have rise : ∀ t, exec (.reqRise n t) s = .next (s.reqRise n t) := fun _ => rfl
    simp only [rise, State.reqRise_low hr hq]
    have once : ((s.meet .atOnce).setLine n { (s.meet .atOnce).line n with req := true }).edge n .rise .atOnce =
      (s.flush.setLine n { s.flush.line n with req := true, edges := [] }).handedOn n ((s.flush.line n).edges ++ [.rise]) :=
      State.edge_atOnce _ _
    refine ⟨fun t he => by rw [he, if_neg Bool.false_ne_true], fun he => ?_, fun he => by rw [if_pos he, once], fun he hn => ?_⟩
    · rw [if_pos he]
      exact congrArg Host.Outcome.next (State.edge_later _ _)
    · have enabled : s.flush.port.lineEnabled n = true := (s.flush_line n).1.trans he
      have same := Line.edges_none hn true (s.flush.line n).rearm
      rw [if_pos he, once, hn, List.nil_append, same]
      show Host.Outcome.next (State.risen _ n) = _
      simp [State.risen, enabled]

/-- Settles O21: the fall of an enabled line, at once, later and by EDGE_HANDED_ON. -/
theorem reqFallLetsTheClaimGo : Obligations.ReqFallLetsTheClaimGo := by
  refine ⟨fun s n hr => ⟨s.flush, exec_noticeEffectsMade_flush s, State.flush_none, fun t hq => ?low, fun hq => ?high⟩,
    fun s n => ⟨s.flush, exec_noticeEffectsMade_flush s, State.flush_none, ?handed⟩, fun s t n hr hd hn he => ⟨?rise, ?fall⟩⟩
  case low => exact congrArg Host.Outcome.next (State.reqFall_low hq t)
  case high =>
    have fall : ∀ t, exec (.reqFall n t) s = .next (s.reqFall n t) := fun _ => rfl
    simp only [fall, State.reqFall_high hr hq]
    have once : ((s.meet .atOnce).setLine n { (s.meet .atOnce).line n with req := false, rearm := false }).edge n .fall .atOnce =
      (s.flush.setLine n { s.flush.line n with req := false, rearm := false, edges := [] }).handedOn n ((s.flush.line n).edges ++ [.fall]) :=
      State.edge_atOnce _ _
    refine ⟨fun t he => by rw [he, if_neg Bool.false_ne_true], fun he => ?_, fun he => by rw [if_pos he, once], fun he hn => ?_⟩
    · rw [if_pos he]
      exact congrArg Host.Outcome.next (State.edge_later _ _)
    · rw [if_pos he, once, hn, List.nil_append, Line.edges_none hn false false]
      rfl
  case handed =>
    have handed : exec (.edgeHandedOn n) s = .next (s.edgeHandedOn n) := rfl
    rw [handed, State.edgeHandedOn]
    refine ⟨fun h => by rw [h], fun es h => ?_, fun es h => ?_⟩ <;> rw [h] <;> dsimp only <;> rw [State.handEdge_eq] <;> rfl
  case rise =>
    intro hq ht
    have later := (State.reqRise_low hr hq .later).trans ((if_pos he).trans (State.edge_later _ _))
    have once := (State.reqRise_low hr hq .atOnce).trans ((if_pos he).trans (State.edge_atOnce _ _))
    rw [State.meet_none hd] at once
    rw [← Host.Outcome.next.inj ht, later]
    refine congrArg Host.Outcome.next ((State.edgeHandedOn_one hd (by rw [State.meet, hn]; rfl)).trans ?_)
    rw [once, hn]
    rfl
  case fall =>
    intro hq ht
    have later := (State.reqFall_high hr hq .later).trans ((if_pos he).trans (State.edge_later _ _))
    have once := (State.reqFall_high hr hq .atOnce).trans ((if_pos he).trans (State.edge_atOnce _ _))
    rw [State.meet_none hd] at once
    rw [← Host.Outcome.next.inj ht, later]
    refine congrArg Host.Outcome.next ((State.edgeHandedOn_one hd (by rw [State.meet, hn]; rfl)).trans ?_)
    rw [once, hn]
    rfl

end Sys2Proof.Machine
end

