-- ==== Sys2Proof/Proofs/Timebase.lean ====
section
/-! PROOFS. One millisecond of the timebase: what the timers become and which expiries are queued (O2; R46, R104). -/

namespace Sys2Proof.Machine

/-! ### Session timers -/

theorem advance_eq (limit : Nat) (v : Option Nat) : advance limit v = v.map fun k => min (k + 1) limit := by cases v <;> rfl

theorem advanceAbsence_eq (limit : Nat) (v : Option Nat) :
    advanceAbsence limit v = v.map fun k => if k + 1 < limit then k + 1 else k := by cases v <;> rfl

theorem due_iff {limit : Nat} {v : Option Nat} : due limit v = true ↔ ∃ k, v = some k ∧ limit ≤ k + 1 := by
  cases v <;> simp [due]

theorem reaches_iff {limit : Nat} {v : Option Nat} : reaches limit v = true ↔ ∃ k, v = some k ∧ k < limit ∧ limit ≤ k + 1 := by
  cases v <;> simp [reaches]

/-! ### Slot timers -/

theorem Slot.tick_eq (v : Slot) : v.tick =
    if v.state = .granted then { v with leaseMs := v.leaseMs - 1 }
    else if v.state = .yielding then { v with yieldMs := v.yieldMs - 1 }
    else if v.state = .retry then { v with retryMs := v.retryMs - 1 }
    else v := by
  rw [Slot.tick]
  cases h : v.state <;> simp

variable {v : Slot} {c : Client} {x : Instr}

theorem Slot.mem_expiry : x ∈ v.expiry c ↔ (v.state = .granted ∧ v.leaseMs ≤ 1 ∧ x = .leaseExpiry c) ∨
    (v.state = .yielding ∧ v.yieldMs ≤ 1 ∧ x = .yieldExpiry c) ∨
    (v.state = .retry ∧ v.retryMs ≤ 1 ∧ ∃ n, c = clientOf n ∧ x = .retryExpiry n) := by
  rw [Slot.expiry]
  cases v.state <;> simp
  case retry =>
    cases h : lineOf c with
    | none =>
      have : ∀ n, c ≠ clientOf n := by rintro n rfl; simp at h
      simp [this]
    | some m =>
      have := clientOf_of_lineOf h
      subst this
      simp

/-- A slot's expiries, whatever its timers say. -/
def slotExpiries (c : Client) : List Instr := [.leaseExpiry c, .yieldExpiry c] ++ (lineOf c).toList.map .retryExpiry

theorem Slot.expiry_sublist : (v.expiry c).Sublist (slotExpiries c) := by
  rw [Slot.expiry, slotExpiries]
  cases v.state <;> dsimp only
  case granted => split <;> simp
  case yielding => split <;> simp
  case retry => cases lineOf c <;> dsimp only <;> simp; split <;> simp
  all_goals simp

/-! ### The queued expiries -/

/-- The expiries of the session timers that a stuck bus pauses, whatever the timers say. -/
def pausedExpiries : List Instr :=
  [Instr.listenWindowExpiry] ++ [Instr.answerLimitExpiry] ++ [Instr.snapshotLimitExpiry] ++ [Instr.beaconTimerExpiry] ++
    sixteen.flatMap fun m => [Instr.absenceTimerExpiry m]

/-- Every expiry there is, in the order of the tick. -/
def allExpiries : List Instr := [Instr.backoffEnd] ++ pausedExpiries ++ sixteen.flatMap slotExpiries

theorem allExpiries_nodup : allExpiries.Nodup := by decide

theorem mem_allExpiries {x : Instr} (h : x ∈ allExpiries) :
    (∃ c : Client, x = .leaseExpiry c ∨ x = .yieldExpiry c) ∨ (∃ n : LineNo, x = .retryExpiry n) ∨
      (∃ m : Addr, x = .absenceTimerExpiry m) ∨
      x ∈ [Instr.backoffEnd, .listenWindowExpiry, .answerLimitExpiry, .snapshotLimitExpiry, .beaconTimerExpiry] := by
  simp only [allExpiries, pausedExpiries, slotExpiries, List.mem_append, List.mem_flatMap, List.mem_map, List.mem_cons, List.not_mem_nil, or_false] at h ⊢
  grind

theorem ite_sublist (p : Prop) [Decidable p] (x : Instr) : (if p then [x] else []).Sublist [x] := by split <;> simp

theorem flatMap_sublist {α β : Type} {f g : α → List β} (h : ∀ a, (f a).Sublist (g a)) (l : List α) : (l.flatMap f).Sublist (l.flatMap g) := by
  induction l with
  | nil => exact .refl _
  | cons a l ih => exact (h a).append ih

variable (s : State)

theorem State.sessionExpiries_sublist : s.sessionExpiries.Sublist pausedExpiries :=
  ((((ite_sublist ..).append (ite_sublist ..)).append (ite_sublist ..)).append (ite_sublist ..)).append
    (flatMap_sublist (fun _ => ite_sublist ..) _)

theorem State.expiries_sublist : s.expiries.Sublist allExpiries := by
  refine ((ite_sublist ..).append ?_).append (flatMap_sublist (fun _ => Slot.expiry_sublist) _)
  split
  · exact List.nil_sublist _
  · exact s.sessionExpiries_sublist

theorem State.mem_expiries {x : Instr} : x ∈ s.expiries ↔
    (x = .backoffEnd ∧ due (s.port.backoffLimit s.own) s.timers.backoff = true) ∨
    (s.bus.stuck = false ∧
      ((x = .listenWindowExpiry ∧ due s.port.listenLimit s.timers.listen = true) ∨
       (x = .answerLimitExpiry ∧ due s.port.absenceMs s.timers.answer = true) ∨
       (x = .snapshotLimitExpiry ∧ due s.port.absenceMs s.timers.snapshot = true) ∨
       (x = .beaconTimerExpiry ∧ due s.port.beaconInterval s.timers.beacon = true) ∨
       ∃ m, x = .absenceTimerExpiry m ∧ reaches s.port.absenceMs (s.timers.absence.get m) = true)) ∨
    ∃ c, x ∈ (s.slot c).expiry c := by
  simp only [State.expiries, State.sessionExpiries, List.mem_append, List.mem_flatMap, mem_sixteen, true_and, List.mem_ite_nil_right,
    List.mem_ite_nil_left, List.mem_singleton, Bool.not_eq_true, or_assoc, and_comm]

theorem State.tick_running (hr : s.resetHeld = false) : s.tick =
    { s with timers := s.tickTimers, slots := s.slots.map Slot.tick, pending := s.pending ++ s.expiries } := by
  rw [State.tick, hr, if_neg Bool.false_ne_true]

variable {s}

theorem State.tickTimers_stuck (hb : s.bus.stuck = true) :
    s.tickTimers = { s.timers with backoff := advance (s.port.backoffLimit s.own) s.timers.backoff } := if_pos hb

theorem State.tickTimers_runs (hb : s.bus.stuck = false) : s.tickTimers = { s.timers with
    listen := advance s.port.listenLimit s.timers.listen
    answer := advance s.port.absenceMs s.timers.answer
    backoff := advance (s.port.backoffLimit s.own) s.timers.backoff
    snapshot := advance s.port.absenceMs s.timers.snapshot
    beacon := advance s.port.beaconInterval s.timers.beacon
    absence := s.timers.absence.map (advanceAbsence s.port.absenceMs) } := if_neg (by rw [hb]; exact Bool.false_ne_true)

theorem State.tickTimers_backoff : s.tickTimers.backoff = advance (s.port.backoffLimit s.own) s.timers.backoff := by
  cases hb : s.bus.stuck
  · rw [State.tickTimers_runs hb]
  · rw [State.tickTimers_stuck hb]

/-- Settles O2: the tick is `tickTimers`, `Slot.tick` and the queued `expiries`, each described above. -/
theorem emptyQueueTicksTheTimers : Obligations.EmptyQueueTicksTheTimers := by
  intro s hp
  have tick : step s = .next s.tick := by rw [step, hp]
  rw [tick]
  refine ⟨fun hr => by rw [State.tick, hr, if_pos rfl], fun hr => ⟨_, rfl, ?_⟩⟩
  rw [State.tick_running s hr, hp, List.nil_append]
  refine ⟨rfl, s.expiries_sublist.nodup allExpiries_nodup, fun x h => mem_allExpiries (s.expiries_sublist.subset h), fun c => ?_,
    fun c => ?_, fun c => ?_, fun n => ?_, ?_, ?_, fun hb => ?stuck, fun hb => ?runs⟩
  · exact (Vector.getElem_map ..).trans (Slot.tick_eq _)
  · simp [State.mem_expiries, Slot.mem_expiry]
  · simp [State.mem_expiries, Slot.mem_expiry]
  · simp [State.mem_expiries, Slot.mem_expiry, and_comm, and_left_comm]
  · exact State.tickTimers_backoff.trans (advance_eq ..)
  · simp [State.mem_expiries, Slot.mem_expiry, due_iff]
  case stuck =>
    refine ⟨?_, by simp [State.mem_expiries, Slot.mem_expiry, hb]⟩
    show s.tickTimers = { s.timers with backoff := s.tickTimers.backoff }
    rw [State.tickTimers_stuck hb]
  case runs =>
    simp only [State.tickTimers_runs hb, advance_eq, true_and]
    exact ⟨fun m => (Vector.getElem_map ..).trans (advanceAbsence_eq ..),
      by simp [State.mem_expiries, Slot.mem_expiry, hb, due_iff, reaches_iff]⟩

end Sys2Proof.Machine
end

