-- ==== Sys2Proof/Proofs/QueuedLeave.lean ====
section
/-! PROOFS. The station queues its LEAVE, and what that leaves (O9; R63, R116, R132, R159). -/

namespace Sys2Proof.Machine

section
variable {s : State}

/-- The states whose BEACON carries the sync flag (R135, R139). -/
theorem State.syncFlag_eq : s.syncFlag = decide (s.session.station = .announcing ∨ s.session.station = .active ∨
    (s.session.station = .leaving ∧ s.session.leftSynced = true)) := by
  rw [State.syncFlag, State.runsAbsence]
  cases s.session.station <;> simp

/-- Only STOP leaves for OFFLINE (R132). -/
theorem LeaveReason.dest_eq (r : LeaveReason) : r.dest = if r = .stop then LeaveDest.offline else .seeking := by
  cases r <;> rfl

theorem exec_stop_decided : exec .stop s = .next (s.frame s.flush.decideStop) := rfl

theorem exec_resync_decided : exec .resync s = .next (s.frame s.flush.decideResync) := rfl

theorem State.decideStop_session (hs : s.session.station = .loading ∨ s.session.station = .announcing ∨ s.session.station = .active) :
    s.decideStop = (s.queueLeave .stop).accept := by
  rw [State.decideStop]
  rcases hs with h | h | h <;> rw [h]

theorem State.decideResync_active (hs : s.session.station = .active) : s.decideResync = (s.queueLeave .resync).accept := if_pos hs

theorem State.snapshotRuns_iff : s.snapshotRuns = true ↔
    s.session.station = .loading ∧ s.timers.snapshot ≠ none ∧ s.bus.stuck = false := by
  simp [State.snapshotRuns, Option.isSome_iff_ne_none, and_assoc, and_left_comm]

/-- A snapshot limit that expires with no delivered notice left (R159). -/
theorem State.snapshotLimitExpiry_eq (hd : s.bus.delivered = none) : s.snapshotLimitExpiry =
    if s.session.station = .loading ∧ s.timers.snapshot ≠ none ∧ s.bus.stuck = false then s.queueLeave .abandon else s := by
  rw [State.snapshotLimitExpiry, State.expire, State.flush_none hd]
  simp only [State.snapshotRuns_iff]
  split <;> rfl

end

/-- Settles O9: the three ways to queue a LEAVE, and `State.queueLeave_eq` read block by block. -/
theorem leaveIsQueued : Obligations.LeaveIsQueued := by
  refine ⟨fun s hr hd => ⟨fun hs => ?stop, fun hs => ?resync⟩, fun s hd => ?limit, fun s r h1 => ?queued⟩
  case stop => rw [exec_stop_decided, State.flush_none hd, State.decideStop_session hs, State.frame_accept hr]
  case resync => rw [exec_resync_decided, State.flush_none hd, State.decideResync_active hs, State.frame_accept hr]
  case limit => exact congrArg Host.Outcome.next (State.snapshotLimitExpiry_eq hd)
  case queued =>
    dsimp only
    rw [State.queueLeave_eq s r h1, State.enter_eq]
    refine ⟨?_, ?_, rfl, rfl, rfl, rfl, fun k => Vector.getElem_ofFn .., fun n => Vector.getElem_ofFn .., rfl, rfl, rfl, rfl, rfl, rfl⟩
    · rw [LeaveReason.dest_eq, State.syncFlag_eq]
    · simp [Outbox.place]

end Sys2Proof.Machine
end

