-- ==== Sys2Proof/Proofs/MembershipEnds.lean ====
section
/-! PROOFS. Notices that end the membership of the station that takes them: a greater tag (O41; R169, R171). -/

namespace Sys2Proof.Machine

section
variable {s : State} {h : Heard}

/-- The end of the event leaves a station without a replica as the handling left it (R148, R163, R173). -/
theorem State.takeNotice_empties {r : Bool} {c : Option Client} (e : Emptied ((s.makeRoom h r c).handle h)) :
    s.takeNotice h r c = (s.makeRoom h r c).handle h := by
  rw [State.takeNotice]
  generalize (s.makeRoom h r c).handle h = z at e ⊢
  have rechecked : State.recheck s z = z := by
    cases k : z.keepsCheck s with
    | true => rw [State.recheck, k, if_pos rfl]
    | false =>
      rw [State.recheck_new k (by simp [State.poolFails, e.pool]) (by simp [State.membersFail, e.members, Table.empty_get, Member.absent]),
        e.members, e.pool, tableCheckOf_empty, ← e.check]
      rfl
  have outside : z.session.station ≠ .active := fun hz => by
    have := e.outside
    rw [hz] at this
    cases this
  rw [rechecked, State.makeAnswers_none (.inr outside), State.postActive_none (.inl outside)]

/-- A notice of a greater tag in a state of a session (R169). -/
theorem State.handle_greater (hs : s.session.station.inSession = true) (ht : s.session.tag < h.notice.tag)
    (hf : h.notice.body.isFound = false) (hj : h.notice.body.isJoin = false) : s.handle h = s.yieldTo h.notice.tag := by
  have other : s.otherTag h.notice = s.yieldTo h.notice.tag := by
    rw [State.otherTag, if_neg (by bv_omega), hf, hj, Bool.or_false, if_neg Bool.false_ne_true]
  have differs : h.notice.tag ≠ s.session.tag := by bv_omega
  cases st : s.session.station <;> simp only [st, StationState.inSession, Bool.false_eq_true] at hs
  case loading => simp only [State.handle, st, State.takeLoading, hf, Bool.false_eq_true, if_false, if_neg differs, other]
  all_goals simp only [State.handle, st, State.takeMember, hf, Bool.false_eq_true, if_false, if_neg differs, other]

/-- A notice of another tag asks nothing back in a session (R113). -/
theorem State.recall_otherTag (hs : s.session.station.inSession = true) (ht : h.notice.tag ≠ s.session.tag) : s.recall h = s := by
  rw [State.recall]
  cases st : s.session.station <;> simp only [st, StationState.inSession, Bool.false_eq_true] at hs
  case loading => rfl
  all_goals exact if_neg fun e => ht e.1

/-- A notice of a greater tag is the yield, and nothing else. -/
theorem State.takeNotice_greater (hs : s.session.station.inSession = true) (ht : s.session.tag < h.notice.tag)
    (hf : h.notice.body.isFound = false) (hj : h.notice.body.isJoin = false) : s.takeNotice h false none = s.yieldTo h.notice.tag := by
  have room : s.makeRoom h false none = s := State.makeRoom_same (State.recall_otherTag hs (by bv_omega))
  have yields := State.handle_greater hs ht hf hj
  rw [State.takeNotice_empties (by rw [room, yields]; exact s.yieldTo_emptied _), room, yields]

end

/-- Settles O41: the notice is `State.yieldTo` and nothing else. -/
theorem sessionYieldsToGreaterTag : Obligations.SessionYieldsToGreaterTag := by
  intro s h hs hf hd ht hb hj
  have inSession : s.session.station.inSession = true := by rcases hs with e | e | e | e <;> rw [e] <;> rfl
  have count : s.taking.postCount = s.session.count := if_pos hf
  dsimp only
  rw [exec_noticeEffectsMade hd, State.takeNotice_greater (s := s.taking) inSession ht hb hj, State.yieldTo_eq, count, List.foldl_append]
  rfl

end Sys2Proof.Machine
end

