-- ==== Sys2Proof/Proofs/RoomOfEndings.lean ====
section
/-! PROOFS. The room of a taken notice at a station that meets no slot-busy refusal: replica, events and the round's entries stay
(R112, R113). -/

namespace Sys2Proof.Machine

/-- What is owed is refused because the station leaves, or never slot busy. -/
def Placeable (s : State) : Prop := s.session.station = .leaving ∨ OwedApart s

/-- Session, pool, checker, events and the entries that wait for the round stay. -/
def Roomed (s t : State) : Prop :=
  Placeable s → (t.session = s.session ∧ t.pool = s.pool ∧ t.checker = s.checker ∧ t.port = s.port ∧ t.straps = s.straps) ∧
    t.outbox.waitsForRound = s.outbox.waitsForRound ∧ Placeable t

theorem Roomed.refl (s : State) : Roomed s s := fun h => ⟨⟨rfl, rfl, rfl, rfl, rfl⟩, rfl, h⟩

theorem Roomed.trans {s t u : State} (h : Roomed s t) (k : Roomed t u) : Roomed s u := fun a => by
  obtain ⟨⟨h1, h2, h3, h4, h5⟩, hw, ha⟩ := h a
  obtain ⟨⟨k1, k2, k3, k4, k5⟩, kw, ka⟩ := k ha
  exact ⟨⟨k1.trans h1, k2.trans h2, k3.trans h3, k4.trans h4, k5.trans h5⟩, kw.trans hw, ka⟩

theorem Roomed.foldl {α : Type} {f : State → α → State} (h : ∀ s a, Roomed s (f s a)) (l : List α) (s : State) : Roomed s (l.foldl f s) := by
  induction l generalizing s with
  | nil => exact .refl s
  | cons a l ih => exact (h s a).trans (ih _)

/-! ### The entries that wait for the round -/

theorem insertEntry_offered {e : Entry} (he : e.offered = false) (l : List Entry) :
    (insertEntry e l).filter Entry.offered = l.filter Entry.offered := by
  induction l with
  | nil => simp [insertEntry, he]
  | cons x l ih =>
    rw [insertEntry]
    split
    · rw [List.filter_cons_of_neg (by simp [he])]
    · simp only [List.filter_cons, ih]

theorem Outbox.submit_waits (o : Outbox) (b : Body) (tag : Word) (w : Owner) : (o.submit b tag w).1.waitsForRound = o.waitsForRound := by
  rw [Outbox.submit]
  split
  · rfl
  · split
    · exact congrArg (List.map _) (insertEntry_offered rfl _)
    · rfl

theorem Outbox.removeUnsent_waits (o : Outbox) (test : Entry → Bool) : (o.removeUnsent test).waitsForRound = o.waitsForRound := by
  simp only [Outbox.waitsForRound, Outbox.removeUnsent, Outbox.without, Outbox.map]
  induction o.entries with
  | nil => rfl
  | cons e l ih =>
    cases ho : e.offered
    · cases ht : test e <;> simpa [ho, ht] using ih
    · cases ht : test e <;> simpa [ho, ht] using ih

section
variable (s : State)

theorem State.offer_waits (b : Body) (w : Owner) : (s.offer b w).1.waitsForRound = s.outbox.waitsForRound := by
  rw [State.offer]
  split
  · rfl
  · exact Outbox.submit_waits _ _ _ _

/-! ### Operations -/

/-- Entries of no claim, or fewer entries, and fewer answers owed. -/
theorem Roomed.outbox {x : Outbox} {p : Sponsor} (hw : x.waitsForRound = s.outbox.waitsForRound)
    (hx : ∀ e ∈ x.entries, claimClient e.body = none ∨ ∃ d ∈ s.outbox.entries, d.body = e.body)
    (hp : p.owedAnswer = s.sponsor.owedAnswer ∨ p.owedAnswer = none) : Roomed s ((s.setOutbox x).setSponsor p) := fun h => by
  refine ⟨⟨rfl, rfl, rfl, rfl, rfl⟩, hw, h.imp id fun ⟨ho, ha⟩ => ⟨fun c hc e he => ?_, fun b hb => ?_⟩⟩
  · rcases hx e he with h | ⟨d, hd, h⟩
    · rw [h]; nofun
    · rw [← h]; exact ho c hc d hd
  · rcases hp with h | h
    · exact ha b (by rw [← h]; exact hb)
    · have hb : b ∈ p.owedAnswer := hb
      rw [h] at hb; cases hb

theorem Roomed.sponsor {p : Sponsor} (hp : p.owedAnswer = s.sponsor.owedAnswer ∨ p.owedAnswer = none) : Roomed s (s.setSponsor p) :=
  Roomed.outbox s (x := s.outbox) rfl (fun e he => .inr ⟨e, he, rfl⟩) hp

/-- A notice of no claim submitted. -/
theorem State.submit_roomed {b : Body} (hb : claimClient b = none) {p : Sponsor}
    (hp : p.owedAnswer = s.sponsor.owedAnswer ∨ p.owedAnswer = none) : Roomed s ((s.submit b).1.setSponsor p) :=
  .outbox s (x := (s.offer b .session).1) (s.offer_waits _ _)
    (fun e he => (s.mem_offer he).elim (fun h => .inl (by rw [h]; exact hb)) fun h => .inr ⟨e, h, rfl⟩) hp

theorem State.serveEvict_roomed (t : Addr) : Roomed s (s.serveEvict t) := by
  unfold State.serveEvict; dsimp only; split
  · split
    iterate 2 exact s.submit_roomed rfl (.inl rfl)
    all_goals exact .refl s
  · exact .refl s

theorem State.serveBeacon_roomed : Roomed s s.serveBeacon := by
  unfold State.serveBeacon; dsimp only; split
  · split
    iterate 2 exact s.submit_roomed rfl (.inl rfl)
    all_goals exact .refl s
  · exact .refl s

/-- A station that leaves places nothing. -/
theorem State.offer_leaving (hs : s.session.station = .leaving) (b : Body) (w : Owner) : s.offer b w = (s.outbox, .leaving) :=
  if_pos (by simp [State.refuses, hs])

theorem State.serveAnswer_roomed : Roomed s s.serveAnswer := fun ha => by
  refine (?_ : Roomed s s.serveAnswer) ha
  unfold State.serveAnswer
  split
  · exact .refl s
  · rename_i b hb
    rcases ha with hs | ho
    · have refused : (s.submit b).2 = .leaving := congrArg Prod.snd (s.offer_leaving hs b .session)
      dsimp only
      rw [refused]
      exact .refl s
    · dsimp only
      split
      · exact s.submit_roomed (claimClient_of_tier (ho.2 b hb)) (.inr rfl)
      all_goals exact .refl s

theorem State.serveSlot_roomed (claims : Bool) (c : Client) : Roomed s (State.serveSlot claims s c) := fun ha => by
  refine (?_ : Roomed s (State.serveSlot claims s c)) ha
  unfold State.serveSlot
  dsimp only
  split
  · split
    · exact .refl s
    · rename_i body hbody
      obtain ⟨hc, hw⟩ := slotBody_claims hbody
      rcases ha with hs | ⟨ho, hb⟩
      · rw [s.offer_leaving hs]
        exact .refl s
      · have fits : (s.offer body (.claimUnit c)).2 ≠ .slotBusy := by
          unfold State.offer
          split
          · nofun
          · rcases Outbox.submit_fits hc (ho c hw) s.session.tag (.claimUnit c) with e | e <;> rw [e] <;> nofun
        split
        · refine fun _ => ⟨by simp, by simpa using s.offer_waits _ _, .inr ⟨fun d hd e he => ?_, fun b h => hb b (by simpa using h)⟩⟩
          simp only [State.setSlot_slot, State.setOutbox_slot, State.setSlot_outbox, State.setOutbox_outbox] at hd he
          split at hd
          · exact absurd rfl hd
          · rename_i hne
            rcases s.mem_offer he with h | h
            · rw [h, hc]; exact fun e => hne (Option.some.inj e).symm
            · exact ho d hd e h
        · exact absurd ‹_› fits
        all_goals exact .refl s
  · exact .refl s

theorem State.serveOwed_roomed : Roomed s s.serveOwed :=
  ((((Roomed.foldl (fun s t => s.serveEvict_roomed t) sixteen s).trans
    (Roomed.foldl (fun s c => s.serveSlot_roomed false c) sixteen _)).trans (State.serveAnswer_roomed _)).trans
      (State.serveBeacon_roomed _)).trans (Roomed.foldl (fun s c => s.serveSlot_roomed true c) sixteen _)

theorem State.askBack_roomed (test : Entry → Bool) : Roomed s (s.askBack test) :=
  Roomed.outbox s (x := s.outbox.removeUnsent test) (p := s.sponsor) (Outbox.removeUnsent_waits _ _) (fun _ he => .inr (mem_removeUnsent he))
    (.inl rfl)

theorem State.recallEvict_roomed (n : Notice) : Roomed s (s.recallEvict n) := by
  unfold State.recallEvict; split
  · exact (Roomed.sponsor s (.inl rfl)).trans (State.askBack_roomed _ _)
  · exact .refl s

theorem State.recallSnaps_roomed (n : Notice) : Roomed s (s.recallSnaps n) := by
  have owed : ∀ t : State, Roomed t t.dropOwedSnap := fun t => by
    unfold State.dropOwedSnap; split
    · split
      · exact Roomed.sponsor t (.inr rfl)
      · exact .refl t
    · exact .refl t
  have stop : Roomed s (s.setSponsor { s.sponsor with serving := none }) := Roomed.sponsor s (.inl rfl)
  unfold State.recallSnaps; split
  · exact .refl s
  · split
    · exact (stop.trans (owed _)).trans (State.askBack_roomed _ _)
    · exact .refl s

theorem State.recall_roomed (h : Heard) : Roomed s (s.recall h) := by
  unfold State.recall
  cases s.session.station
  case announcing | active | leaving =>
    dsimp only; split
    · exact (s.recallEvict_roomed _).trans (State.recallSnaps_roomed _ _)
    · exact .refl s
  case listening => exact s.askBack_roomed _
  case founding =>
    dsimp only; split
    · exact .refl s
    · exact s.askBack_roomed _
  case seeking =>
    dsimp only; split
    · exact s.askBack_roomed _
    · exact .refl s
  all_goals exact .refl s

/-- Dated work of this sort is of this sort. -/
theorem State.dated_roomed (n : Notice) {work : State → State} (k : ∀ s : State, Roomed s (work s)) : Roomed s (s.dated n work) := fun ha => by
  obtain ⟨⟨e1, e2, e3, e4, e5⟩, hw, hp⟩ := k (s.setCount (s.countAfter n)) ha
  refine ⟨⟨?_, e2, e3, e4, e5⟩, hw, hp⟩
  simp only [State.dated, State.setCount, State.setSession] at e1 ⊢
  rw [e1]

/-- The room of a taken notice, where no slot ended with its round. -/
theorem State.makeRoom_roomed (h : Heard) (r : Bool) : Roomed s (s.makeRoom h r none) := by
  have room : ∀ (b : Bool) (t : State), Roomed t (t.offerRoom b none) := fun b t => by
    unfold State.offerRoom State.testEnded
    dsimp only
    split
    · exact t.serveOwed_roomed
    · exact .refl t
  exact (s.recall_roomed h).trans (State.dated_roomed _ _ (room _))

end

end Sys2Proof.Machine
end

