-- ==== Sys2Proof/Proofs/Departures.lean ====
section
/-! PROOFS. What a station holds that gives up, leaves or is evicted: no replica, nothing owed, and the entries of the round (R117,
R134, R138, R160). -/

namespace Sys2Proof.Machine

section
variable {s : State}

/-- The replica discarded and the Outbox cleared, as a whole state (R7, R117). -/
theorem State.cleared_eq : s.discard.clearOutbox = { s with
    outbox := ⟨s.outbox.waitsForRound, 1⟩
    session := ⟨s.session.station, .empty, false, s.session.tag, 0#16, s.session.counter, none, false, none⟩
    timers := { s.timers with beacon := none, snapshot := none, absence := Vector.replicate 16 none }
    joiner := .none
    sponsor := .none
    pool := ⟨[], false⟩
    slots := Vector.ofFn fun c => { s.slot c with owed := .none }
    lines := driven s.lines s.slot
    checker := ⟨emptyCheck, s.checker.profileCheck, none, false⟩ } := by
  have cleared : s.outbox.cleared = ⟨s.outbox.waitsForRound, 1⟩ := by rw [Outbox.cleared, Outbox.keepOffered_eq]
  simp only [State.clearOutbox, State.dropOwed_eq, State.discard_eq, State.setOutbox, cleared]
  rfl

/-- A station that enters SEEKING offers its JOIN (R143). -/
theorem State.seek_eq (c : Cause) : s.seek c =
    { s.enter .seeking c with outbox := s.outbox.offeredTo (.join s.checker.profileCheck) s.session.tag } := by
  have offers := State.offer_offeredTo (s := s.enter .seeking c) (b := .join s.checker.profileCheck) rfl nofun
  exact congrArg (State.setOutbox (s.enter .seeking c)) offers

/-- A give-up as a whole state (R160). -/
theorem State.giveUp_eq (c : Cause) : s.giveUp c = { s with
    outbox := (⟨s.outbox.waitsForRound, 1⟩ : Outbox).offeredTo (.join s.checker.profileCheck) s.session.tag
    session := ⟨.seeking, .empty, false, s.session.tag, 0#16, s.session.counter, none, false, none⟩
    timers := { s.timers with beacon := none, snapshot := none, absence := Vector.replicate 16 none }
    joiner := .none
    sponsor := .none
    pool := ⟨[], false⟩
    slots := Vector.ofFn fun c => { s.slot c with owed := .none }
    lines := driven s.lines s.slot
    port := { s.port with
      locked := true, attn := true, events := enqueue s.own s.port.events ⟨.stationState .seeking c, s.own, 0#16⟩ }
    checker := ⟨emptyCheck, s.checker.profileCheck, none, false⟩ } := by
  rw [State.giveUp, State.cleared_eq, State.seek_eq, State.enter_eq]
  simp only [State.postCount, Bool.false_eq_true, reduceCtorEq, if_false]
  rfl

/-- Lines that follow their slots are driven as they are. -/
theorem GntFollows.driven (hg : GntFollows s) : driven s.lines s.slot = s.lines := by
  ext n hn
  have follows : s.lines[n].gnt = decide ((s.slot (clientOf ⟨n, hn⟩)).state = .granted) := hg ⟨n, hn⟩
  rw [Machine.driven, Vector.getElem_ofFn, ← follows]
  rfl

end

/-- In a station state, with a tag and an Outbox, without replica or owed notice: as it departed from `s`. -/
structure Departed (s t : State) (st : StationState) (tag : Word) (o : Outbox) : Prop where
  session : t.session = ⟨st, .empty, false, tag, 0#16, s.session.counter, none, false, none⟩
  outbox : t.outbox = o
  joiner : t.joiner = .none
  sponsor : t.sponsor = .none
  pool : t.pool = ⟨[], false⟩
  checker : t.checker = ⟨emptyCheck, s.checker.profileCheck, none, false⟩
  beacon : t.timers.beacon = none
  snapshot : t.timers.snapshot = none
  absence : ∀ a, t.timers.absence.get a = none
  owed : ∀ c, (t.slot c).owed = .none

/-- No claim is held, and no line is granted. -/
def Vacant (s : State) : Prop := (∀ c, (s.slot c).state = .free) ∧ ∀ n, (s.line n).gnt = false

section
variable {s t : State} {st : StationState} {tag : Word} {o : Outbox}

theorem Departed.cleared : Departed s s.discard.clearOutbox s.session.station s.session.tag ⟨s.outbox.waitsForRound, 1⟩ := by
  rw [State.cleared_eq]
  exact ⟨rfl, rfl, rfl, rfl, rfl, rfl, rfl, rfl, fun _ => Vector.getElem_replicate .., fun c => by simp [State.slot, Vector.get_eq_getElem]⟩

theorem Departed.enter (d : Departed s t st tag o) {new : StationState} (hn : new ≠ .active) (c : Cause) :
    Departed s (t.enter new c) new tag o := by
  rw [State.enter_eq, if_neg hn, if_neg hn]
  exact ⟨by rw [d.session], d.outbox, d.joiner, by rw [d.sponsor]; rfl, d.pool, by rw [d.checker], d.beacon, d.snapshot, d.absence, d.owed⟩

theorem Departed.seek (d : Departed s t st tag o) (c : Cause) :
    Departed s (t.seek c) .seeking tag (o.offeredTo (.join s.checker.profileCheck) tag) := by
  have e := d.enter (new := .seeking) nofun c
  rw [State.seek_eq, d.outbox, d.checker, d.session]
  exact ⟨e.session, rfl, e.joiner, e.sponsor, e.pool, e.checker, e.beacon, e.snapshot, e.absence, e.owed⟩

theorem Departed.setTag (d : Departed s t st tag o) (new : Word) : Departed s (t.setTag new) st new o :=
  ⟨by rw [State.setTag, State.setSession, d.session], d.outbox, d.joiner, d.sponsor, d.pool, d.checker, d.beacon, d.snapshot, d.absence, d.owed⟩

theorem Departed.goOffline (d : Departed s t st tag o) (c : Cause) : Departed s (t.goOffline c) .offline 0#16 o :=
  (d.setTag 0#16).enter (new := .offline) nofun c

theorem Departed.goListening (d : Departed s t st tag o) (c : Cause) : Departed s (t.goListening c) .listening 0#16 o := by
  have e := d.setTag 0#16
  exact Departed.enter (t := (t.setTag 0#16).setTimers { t.timers with listen := some 0 }) (st := st)
    ⟨e.session, e.outbox, e.joiner, e.sponsor, e.pool, e.checker, e.beacon, e.snapshot, e.absence, e.owed⟩ (new := .listening) nofun c

theorem Departed.nothingOwed (d : Departed s t st tag o) : NothingOwed t :=
  ⟨d.owed, by rw [d.sponsor]; rfl, by rw [d.sponsor]; rfl, fun a => by rw [d.sponsor]; exact Vector.getElem_replicate ..⟩

/-- What a departing station did before it let go of the replica does not show. -/
theorem Departed.of_leaves {l : State} (k : Leaves l s) (hl : l.session.station = .leaving) (d : Departed s t st tag o) :
    Departed l t st tag o := by
  obtain ⟨session, -, check, -⟩ := k hl
  exact { d with
    session := by rw [d.session, session]
    checker := by rw [d.checker, check] }

/-- A station that clears out after its slots have ended has them FREE. -/
theorem Vacant.cleared (x : Option EndReason) : Vacant (s.teardown x).discard.clearOutbox := by
  have free : ∀ c, ((s.teardown x).slot c).state = .free := fun c => by
    rw [(s.teardown_ended x).slot c, if_pos (mem_sixteen c), Slot.gone]
    split
    · rfl
    · split
      · assumption
      · rfl
  rw [State.cleared_eq]
  refine ⟨fun c => ?_, fun n => ?_⟩
  · simpa [State.slot, Vector.get_eq_getElem] using free c
  · simpa [State.line, driven, Vector.get_eq_getElem] using by rw [free]; nofun

theorem Vacant.enter (v : Vacant s) (new : StationState) (c : Cause) : Vacant (s.enter new c) := by
  rw [State.enter_eq]; exact v

theorem Vacant.seek (v : Vacant s) (c : Cause) : Vacant (s.seek c) := by
  rw [State.seek_eq]; exact v.enter .seeking c

theorem Vacant.goOffline (v : Vacant s) (c : Cause) : Vacant (s.goOffline c) := Vacant.enter (s := s.setTag 0#16) v .offline c

theorem Vacant.goListening (v : Vacant s) (c : Cause) : Vacant (s.goListening c) :=
  Vacant.enter (s := (s.setTag 0#16).setTimers { s.timers with listen := some 0 }) v .listening c

theorem State.goListening_listen (c : Cause) : (s.goListening c).timers.listen = some 0 := by
  rw [State.goListening, State.enter_eq]; rfl

/-- The slots end, and the station clears out: what a departing LEAVING station then holds. -/
theorem Departed.tornDown (hs : s.session.station = .leaving) (x : Option EndReason) :
    Departed s (s.teardown x).discard.clearOutbox .leaving s.session.tag ⟨s.outbox.waitsForRound, 1⟩ := by
  have torn : Leaves s (s.teardown x) := Leaves.foldl (f := State.teardownSlot x) (fun t c => t.teardownSlot_leaves x c) sixteen s
  obtain ⟨session, outbox, -, -⟩ := torn hs
  have cleared := Departed.of_leaves torn hs (Departed.cleared (s := s.teardown x))
  rw [torn.station hs, session, outbox] at cleared
  exact cleared

end

end Sys2Proof.Machine
end

