-- ==== Sys2Proof/Proofs/MembershipLost.lean ====
section
/-! PROOFS. The own LEAVE, the eviction, and the loss of the sponsor in ANNOUNCING, as a taken notice ends a membership (O40; R134,
R138, R141, R160). -/

namespace Sys2Proof.Machine

/-! ### The straps -/

theorem Quiet.straps {s t : State} (h : Quiet s t) : t.straps = s.straps := by
  cases h <;> simp [State.post, State.atStation]

theorem Move.straps {s t : State} (h : Move s t) : t.straps = s.straps := by
  cases h
  case quiet h => exact h.straps
  all_goals simp [State.atStation]

/-- No chain of updates samples the straps. -/
theorem Moves.straps {s t : State} (h : Moves s t) : t.straps = s.straps := by
  induction h with
  | refl => rfl
  | tail _ h ih => rw [h.straps, ih]

section
variable {s : State} {h : Heard} {x : Ending}

/-! ### The notice that ends the membership -/

/-- Its four steps, made as in LEAVING. -/
def State.lastSteps (s : State) (h : Heard) (x : Ending) : State :=
  (s.change .leaving).fourSteps h (memberEffect s.session.members h.notice) (removalReason s.session.leaveReason (some x))

theorem State.lastSteps_leaves (hn : claimClient h.notice.body = none) : Leaves (s.change .leaving) (s.lastSteps h x) :=
  State.fourSteps_leaves _ hn _ _

theorem State.lastSteps_members : (s.lastSteps h x).session.members = (memberEffect s.session.members h.notice).table :=
  (State.fourSteps_cases (s := s.change .leaving) h (removalReason s.session.leaveReason (some x))).2.2.1

theorem State.lastSteps_own : (s.lastSteps h x).own = s.own :=
  congrArg Straps.address (State.fourSteps_moves (s := s.change .leaving) h _ _).straps

theorem State.lastSteps_autoRejoin : (s.lastSteps h x).port.autoRejoin = s.port.autoRejoin := by
  have image := (State.fourSteps_wired (s := s.change .leaving) h (memberEffect s.session.members h.notice)
    (removalReason s.session.leaveReason (some x))).1.2
  exact congrArg (fun v : Vector Byte 25 => v[24].getLsbD 0) image

theorem State.applyNotice_ending (he : ending s.own s.session.station h (memberEffect s.session.members h.notice) = some x) :
    s.applyNotice h = (s.lastSteps h x).endMembership s.session.station x := by
  simp only [State.applyNotice, he]
  rfl

theorem State.lastSteps_station (hn : claimClient h.notice.body = none) : (s.lastSteps h x).session.station = .leaving :=
  (State.lastSteps_leaves hn).station rfl

/-- A departure after these steps is one from the station that took the notice. -/
theorem Departed.lastSteps {t : State} {st : StationState} {tag : Word} {o : Outbox} (hn : claimClient h.notice.body = none)
    (d : Departed (s.lastSteps h x) t st tag o) : Departed s t st tag o := by
  obtain ⟨h1, h2, h3, h4, h5, h6, h7, h8, h9, h10⟩ := d.of_leaves (State.lastSteps_leaves hn) rfl
  exact ⟨h1, h2, h3, h4, h5, h6, h7, h8, h9, h10⟩

/-- A taken notice that ends the membership: the room it makes, its four steps, and the end. -/
theorem State.takeNotice_ending (hs : s.session.station.member) (ht : h.notice.tag = s.session.tag) (hf : h.notice.body.isFound = false)
    (hp : Placeable s) (he : ending s.own s.session.station h (memberEffect s.session.members h.notice) = some x) :
    s.takeNotice h false none = ((s.makeRoom h false none).lastSteps h x).endMembership s.session.station x := by
  obtain ⟨⟨ms, -, -, -, mo⟩, -, -⟩ := s.makeRoom_roomed h false hp
  have own : (s.makeRoom h false none).own = s.own := congrArg Straps.address mo
  have handled : (s.makeRoom h false none).handle h = ((s.makeRoom h false none).lastSteps h x).endMembership s.session.station x := by
    rw [State.handle_member (by rw [ms]; exact hs) (by rw [ms]; exact ht) hf, State.applyNotice_ending (by rw [own, ms]; exact he), ms]
  rw [State.takeNotice_empties (by rw [handled]; exact State.endMembership_emptied _ _ _), handled]

/-! ### The two ends of a LEAVING station -/

/-- A station that left, or was evicted, goes on in SEEKING or OFFLINE. -/
theorem State.evicted_eq {st : StationState} (hs : st.member) : s.evicted st =
    if st = .announcing ∨ (st = .active ∧ s.port.autoRejoin = true) ∨ (st = .leaving ∧ s.session.leaveDest = some .seeking)
    then (s.teardown (some .evicted)).discard.clearOutbox.seek .evicted
    else (s.teardown (some .evicted)).discard.clearOutbox.goOffline .evicted := by
  rcases hs with rfl | rfl | rfl <;> simp [State.evicted]

theorem State.ownLeave_eq : s.ownLeave =
    (let t := (s.teardown (s.session.leaveReason.bind LeaveReason.ends)).discard.clearOutbox
    if s.session.leaveDest = some .offline then t.goOffline .left
    else if ∃ a, a ≠ s.own ∧ (s.session.members.get a).state = .present then t.seek .left
    else t.goListening .left) := by
  have others : 0 < s.session.members.othersPresent s.own ↔ ∃ a, a ≠ s.own ∧ (s.session.members.get a).state = .present := by
    simp only [Table.othersPresent, List.length_pos_iff_exists_mem, List.mem_filter, mem_sixteen, true_and, Bool.and_eq_true,
      decide_eq_true_eq]
    rfl
  simp only [State.ownLeave, others]

/-! ### The notice with its room -/

/-- What the departing station's work before its end does not change. -/
structure Departing (s w : State) : Prop where
  own : w.own = s.own
  station : w.session.station = .leaving
  dest : w.session.leaveDest = s.session.leaveDest
  autoRejoin : w.port.autoRejoin = s.port.autoRejoin
  cleared : ∀ r, Departed s (w.teardown r).discard.clearOutbox .leaving s.session.tag ⟨s.outbox.waitsForRound, 1⟩
  clearedAtOnce : Departed s w.discard.clearOutbox .leaving s.session.tag ⟨s.outbox.waitsForRound, 1⟩

theorem State.lastSteps_departing (hn : claimClient h.notice.body = none) (hp : Placeable s) :
    Departing s ((s.makeRoom h false none).lastSteps h x) ∧
      ((s.makeRoom h false none).lastSteps h x).session.members = (memberEffect s.session.members h.notice).table := by
  obtain ⟨⟨ms, -, mc, mp, mo⟩, mw, -⟩ := s.makeRoom_roomed h false hp
  generalize s.makeRoom h false none = m at ms mc mp mo mw
  obtain ⟨session, outbox, -, -⟩ := State.lastSteps_leaves (s := m) (x := x) hn rfl
  have station := State.lastSteps_station (s := m) (x := x) hn
  have room : (⟨(m.lastSteps h x).outbox.waitsForRound, 1⟩ : Outbox) = ⟨s.outbox.waitsForRound, 1⟩ := by
    rw [outbox]; exact congrArg (Outbox.mk · 1) mw
  have tag : (m.lastSteps h x).session.tag = s.session.tag := by rw [session, ← ms]; rfl
  have departs : ∀ {t : State}, Departed (m.lastSteps h x) t .leaving (m.lastSteps h x).session.tag ⟨(m.lastSteps h x).outbox.waitsForRound, 1⟩ →
      Departed s t .leaving s.session.tag ⟨s.outbox.waitsForRound, 1⟩ := fun d => by
    rw [room, tag] at d
    have e := d.lastSteps hn
    exact { e with session := by rw [e.session, ms], checker := by rw [e.checker, mc] }
  refine ⟨⟨State.lastSteps_own.trans (congrArg Straps.address mo), station, by rw [session, ← ms]; rfl,
    State.lastSteps_autoRejoin.trans (congrArg Port.autoRejoin mp), fun r => departs (Departed.tornDown station r), departs ?_⟩,
    by rw [State.lastSteps_members, ms]⟩
  have d := Departed.cleared (s := m.lastSteps h x)
  rw [station] at d
  exact d

/-! ### The member records of the others -/

/-- The records a removal makes ABSENT: the member's, and those JOINING or SYNCING under it. -/
theorem Table.remove_changes_iff {t : Table} {a b : Addr} : b ∈ (t.remove a).changes.map Prod.fst ↔
    b = a ∨ (b ≠ a ∧ ((t.get b).state = .joining ∨ (t.get b).state = .syncing) ∧ (t.get b).sponsor = some a) := by
  by_cases e : b = a
  · simp [Table.remove, e]
  · simp [Table.remove, Table.sponsoredBy, mem_sixteen, Table.stateOf, Table.get_write, e, Function.comp_def]

/-- A LEAVE takes no PRESENT record but the sender's. -/
theorem leave_keeps_present {t : Table} {n : Notice} {r : Byte} (hb : n.body = .leave r) {a : Addr} (ha : a ≠ n.sender) :
    ((memberEffect t n).table.get a).state = .present ↔ (t.get a).state = .present := by
  simp only [memberEffect, hb]
  split
  · rfl
  · rw [Table.get_remove]
    split
    · rename_i _ gone
      rcases Table.remove_changes_iff.1 gone with e | ⟨-, e | e, -⟩
      · exact absurd e ha
      all_goals simp [e, Member.absent]
    · rfl

end

/-! ### The two notices, taken -/

section
variable {s : State} {h : Heard}

theorem Departing.of_taking {w : State} (d : Departing s.taking w) : Departing s w :=
  have departs : ∀ {t : State} {tag : Word} {o : Outbox}, Departed s.taking t .leaving tag o → Departed s t .leaving tag o := fun d => { d with }
  ⟨d.own, d.station, d.dest, d.autoRejoin, fun r => departs (d.cleared r), departs d.clearedAtOnce⟩

/-- The own LEAVE of a LEAVING station, as it is taken (R134). -/
theorem exec_ownLeave {r : Byte} (hs : s.session.station = .leaving)
    (hd : s.bus.delivered = some ⟨⟨s.session.tag, s.own, .leave r⟩, true⟩) :
    ∃ w, Departing s w ∧ (∀ a, a ≠ s.own → ((w.session.members.get a).state = .present ↔ (s.session.members.get a).state = .present)) ∧
      exec .noticeEffectsMade s = .next w.ownLeave := by
  obtain ⟨departing, members⟩ :=
    State.lastSteps_departing (s := s.taking) (h := ⟨⟨s.session.tag, s.own, .leave r⟩, true⟩) (x := .left) rfl (.inl hs)
  refine ⟨_, departing.of_taking, fun a ha => by rw [members]; exact leave_keeps_present rfl ha, ?_⟩
  rw [exec_noticeEffectsMade hd]
  exact congrArg Host.Outcome.next
    (State.takeNotice_ending (s := s.taking) (.inr (.inr hs)) rfl rfl (.inl hs) (TakesPlace.left hs rfl rfl rfl).ending)

/-- An eviction, as it is taken (R138, R141, R160). -/
theorem exec_eviction (hs : s.session.station.member) (hd : s.bus.delivered = some h) (ht : h.notice.tag = s.session.tag) (hp : OwedApart s)
    (hk : h.notice.body = .evict s.own ∨ ((∃ r, h.notice.body = .leave r) ∧ h.notice.sender = s.own ∧ h.own = false)) :
    ∃ w, Departing s w ∧ exec .noticeEffectsMade s = .next (w.evicted s.session.station) := by
  have evicts : h.notice.body.isFound = false ∧ claimClient h.notice.body = none ∧
      ending s.own s.session.station h (memberEffect s.session.members h.notice) = some .evicted := by
    rcases hk with hb | ⟨⟨r, hb⟩, hm, ho⟩
    · refine ⟨by rw [hb]; rfl, by rw [hb]; rfl, ?_⟩
      unfold ending
      split
      · rename_i e; rw [hb] at e; cases e
      · simp [losesPlace, namedTarget, hb]
    · exact ⟨by rw [hb]; rfl, by rw [hb]; rfl, (TakesPlace.clash hs ho hm hb).ending⟩
  obtain ⟨hf, hn, he⟩ := evicts
  refine ⟨_, (State.lastSteps_departing (s := s.taking) (x := .evicted) hn (.inr hp)).1.of_taking, ?_⟩
  rw [exec_noticeEffectsMade hd]
  exact congrArg Host.Outcome.next (State.takeNotice_ending (s := s.taking) hs ht hf (.inr hp) he)

/-- Where the own LEAVE takes the station (R134 step 5). -/
theorem Departing.ownLeave {w : State} (departing : Departing s w)
    (others : ∀ a, a ≠ s.own → ((w.session.members.get a).state = .present ↔ (s.session.members.get a).state = .present)) :
    (let offline := s.session.leaveDest = some .offline;
    let present := ∃ a, a ≠ s.own ∧ (s.session.members.get a).state = .present;
    let left : Outbox := ⟨s.outbox.waitsForRound, 1⟩;
    Departed s w.ownLeave (if offline then .offline else if present then .seeking else .listening)
      (if ¬ offline ∧ present then s.session.tag else 0#16)
      (if ¬ offline ∧ present then left.offeredTo (.join s.checker.profileCheck) s.session.tag else left) ∧
    Vacant w.ownLeave ∧ (¬ offline → ¬ present → w.ownLeave.timers.listen = some 0)) := by
  have left := departing.cleared (w.session.leaveReason.bind LeaveReason.ends)
  have vacant := Vacant.cleared (s := w) (w.session.leaveReason.bind LeaveReason.ends)
  have present : (∃ a, a ≠ w.own ∧ (w.session.members.get a).state = .present) ↔
      ∃ a, a ≠ s.own ∧ (s.session.members.get a).state = .present := by
    rw [departing.own]
    exact exists_congr fun a => and_congr_right (others a)
  rw [State.ownLeave_eq, departing.dest]
  simp only [present]
  generalize (w.teardown (w.session.leaveReason.bind LeaveReason.ends)).discard.clearOutbox = c at left vacant
  by_cases off : s.session.leaveDest = some .offline
  · simp only [off, if_true, not_true, false_and, if_false]
    exact ⟨left.goOffline _, vacant.goOffline _, nofun⟩
  · by_cases some : ∃ a, a ≠ s.own ∧ (s.session.members.get a).state = .present
    · simp only [off, some, if_true, if_false, not_true, not_false_eq_true, true_and]
      exact ⟨left.seek _, vacant.seek _, nofun⟩
    · simp only [off, some, if_false, and_false]
      exact ⟨left.goListening _, vacant.goListening _, fun _ _ => State.goListening_listen _⟩

end

/-- Settles O40: the end of the membership after the room and the four steps, which keep what it rests on. -/
theorem ownLeaveAndEvictionEndMembership : Obligations.OwnLeaveAndEvictionEndMembership := by
  refine ⟨fun s r hs hd hg => ?left, fun s h hs hd ht hk ha hp => ?evicted⟩
  case left =>
    obtain ⟨w, departing, others, taken⟩ := exec_ownLeave hs hd
    refine ⟨w.ownLeave, taken, ?_⟩
    obtain ⟨d, vacant, listen⟩ := departing.ownLeave others
    have owed := d.nothingOwed
    have check : w.ownLeave.checker.tableCheck = cyclicCheck (List.replicate 16 0#8) := by rw [d.checker, emptyCheck]
    rw [d.session, d.outbox, d.pool, check, d.checker]
    exact ⟨rfl, rfl, rfl, rfl, rfl, rfl, rfl, rfl, vacant.1, vacant.2, d.beacon, d.snapshot, d.absence, listen, rfl, rfl, rfl, owed, rfl⟩
  case evicted =>
    obtain ⟨w, departing, taken⟩ := exec_eviction hs hd ht hp hk
    refine ⟨_, taken, ?_⟩
    have left := departing.cleared (some .evicted)
    have vacant := Vacant.cleared (s := w) (some .evicted)
    rw [State.evicted_eq hs, departing.dest, departing.autoRejoin]
    generalize (w.teardown (some .evicted)).discard.clearOutbox = c at left vacant
    dsimp only
    split
    · have d := left.seek .evicted
      obtain ⟨free, low⟩ := vacant.seek .evicted
      exact ⟨d.session, d.pool, d.joiner, d.sponsor, free, low, d.outbox⟩
    · have d := left.goOffline .evicted
      obtain ⟨free, low⟩ := vacant.goOffline .evicted
      exact ⟨d.session, d.pool, d.joiner, d.sponsor, free, low, d.outbox⟩

end Sys2Proof.Machine
end

