-- ==== Sys2Proof/Proofs/GivingUp.lean ====
section
/-! PROOFS. A joiner that gives up: in LOADING, and in ANNOUNCING by the loss of its sponsor (O48; R160). -/

namespace Sys2Proof.Machine

section
variable {s : State} {h : Heard}

/-! ### LOADING -/

/-- The notices on which a LOADING station gives up, and the cause. -/
theorem State.load_givesUp {cause : Cause}
    (hk : ((∃ r, h.notice.body = .leave r) ∧ some h.notice.sender = s.joiner.sponsor ∧ cause = .sponsorLost) ∨
      (∃ m, h.notice.body = .evict m ∧
        ((m = s.own ∧ cause = .evicted) ∨ (m ≠ s.own ∧ some m = s.joiner.sponsor ∧ cause = .sponsorLost)))) :
    s.load h = s.giveUp cause ∧ h.notice.body.isFound = false := by
  rcases hk with ⟨⟨r, hb⟩, hp, rfl⟩ | ⟨m, hb, ⟨hm, rfl⟩ | ⟨hm, hp, rfl⟩⟩
  · exact ⟨by simp only [State.load, hb, hp, decide_true, if_true], by rw [hb]; rfl⟩
  · exact ⟨by simp only [State.load, hb, hm, if_true], by rw [hb]; rfl⟩
  · exact ⟨by simp only [State.load, hb, hm, hp, if_true, if_false], by rw [hb]; rfl⟩

theorem exec_load_givesUp {cause : Cause} (hs : s.session.station = .loading) (hd : s.bus.delivered = some h)
    (ht : h.notice.tag = s.session.tag)
    (hk : ((∃ r, h.notice.body = .leave r) ∧ some h.notice.sender = s.joiner.sponsor ∧ cause = .sponsorLost) ∨
      (∃ m, h.notice.body = .evict m ∧
        ((m = s.own ∧ cause = .evicted) ∨ (m ≠ s.own ∧ some m = s.joiner.sponsor ∧ cause = .sponsorLost)))) :
    exec .noticeEffectsMade s = .next (s.taking.giveUp cause) := by
  obtain ⟨gives, found⟩ := State.load_givesUp (s := s.taking) hk
  have station : (s.taking.giveUp cause).session.station = .seeking := by rw [State.giveUp_eq]
  exact exec_loads hs hd ht found gives (by rw [station]; nofun) (by rw [station]; nofun)

/-! ### ANNOUNCING -/

/-- A LEAVE or EVICT with an effect is the removal of the member it names. -/
theorem memberEffect_of_target {t : Table} {n : Notice} {p : Addr} (hn : namedTarget n = some p) (hc : (memberEffect t n).changes ≠ []) :
    memberEffect t n = t.remove p := by
  cases hb : n.body <;> simp only [namedTarget, hb, reduceCtorEq, Option.some.injEq] at hn
  case leave r =>
    subst hn
    simp only [memberEffect, hb] at hc ⊢
    split at hc
    · exact absurd rfl hc
    · rw [if_neg ‹_›]
  case evict e =>
    subst hn
    simp only [memberEffect, hb] at hc ⊢
    split at hc
    · rw [if_pos ‹_›]
    · exact absurd rfl hc

/-- A removal makes records ABSENT, and nothing else. -/
theorem Table.remove_change {t : Table} {a b : Addr} (hb : b ∈ (t.remove a).changes.map Prod.fst) : (b, .absent) ∈ (t.remove a).changes := by
  simpa [Table.remove, Prod.ext_iff, eq_comm] using hb

/-- The removed stations are those with a change, and a leaver. -/
theorem mem_removedStations_of_change {t : Table} {n : Notice} {p a : Addr} (hn : namedTarget n = some p) (ha : a ≠ p)
    (hc : a ∈ (memberEffect t n).changes.map Prod.fst) : a ∈ removedStations n (memberEffect t n).changes := by
  cases hb : n.body <;> simp only [namedTarget, hb, reduceCtorEq, Option.some.injEq] at hn
  case leave r =>
    subst hn
    rw [removedStations, hb]
    exact List.mem_cons_of_mem _ (List.mem_filter.2 ⟨hc, decide_eq_true ha⟩)
  case evict e =>
    rw [removedStations, hb]
    exact hc

/-- The sponsor of an ANNOUNCING station goes: its own record reverts, and the membership ends. -/
theorem ending_sponsorLost {own p : Addr} {t : Table} (hn : namedTarget h.notice = some p) (hp : p ≠ own) (ho : (t.get own).sponsor = some p)
    (hs : (t.get own).state = .syncing) (hc : (memberEffect t h.notice).changes ≠ []) :
    ending own .announcing h (memberEffect t h.notice) = some .sponsorLost ∧
      own ∈ removedStations h.notice (memberEffect t h.notice).changes := by
  have removal := memberEffect_of_target hn hc
  have reverts : own ∈ (memberEffect t h.notice).changes.map Prod.fst := by
    rw [removal]
    exact Table.remove_changes_iff.2 (.inr ⟨hp.symm, .inr hs, ho⟩)
  refine ⟨?_, mem_removedStations_of_change hn hp.symm reverts⟩
  have change : (memberEffect t h.notice).changes.any (fun c => decide (c = (own, MemberState.absent))) = true := by
    rw [removal] at reverts ⊢
    exact List.any_eq_true.2 ⟨_, Table.remove_change reverts, decide_eq_true rfl⟩
  have stays : losesPlace own h.notice = false := by simp [losesPlace, hn, hp]
  simp [ending, stays, change]

/-- The events of the four steps where the removal takes no record of this station (R121, R125). -/
theorem State.lastSteps_events {x : Ending} (hn : namedTarget h.notice ≠ none)
    (ho : s.own ∈ removedStations h.notice (memberEffect s.session.members h.notice).changes) (ha : AllSound s)
    (hf : s.session.founded = true) (hr : ∀ r ∈ s.pool.records, r.station ≠ s.own) :
    (s.lastSteps h x).port.events = (clashEvents s.own h (s.session.count + 1#16) ++
      memberEvents (memberEffect s.session.members h.notice).changes (s.session.count + 1#16)).foldl (enqueue s.own) s.port.events := by
  obtain ⟨hc, -⟩ := counted_of_claim_or_target (.inr hn)
  rw [State.lastSteps]
  generalize removalReason s.session.leaveReason (some x) = y
  have stepped := State.stepped_reports (s := s.change .leaving) (h := h) hf hc ha.2
  have session := (State.stepped_parts (s := s.change .leaving) (h := h) fun a _ => ha.2 a).1
  have four : (s.change .leaving).fourSteps h (memberEffect s.session.members h.notice) y =
      (((s.change .leaving).stepped h).liveMembers (memberEffect s.session.members h.notice)).poolEffect true h.notice y
        (removedStations h.notice (memberEffect s.session.members h.notice).changes) := rfl
  have counts : ((s.change .leaving).countNotice h.notice.body).session =
      { (s.change .leaving).session with count := s.session.count + 1#16 } := congrArg State.session (if_pos hc)
  rw [four]
  rw [counts] at session
  generalize (s.change .leaving).stepped h = u at stepped session
  obtain ⟨members, -⟩ := State.liveMembers_reports (s := u) (by rw [session]; exact hf) (memberEffect s.session.members h.notice)
  generalize u.liveMembers (memberEffect s.session.members h.notice) = v at members
  have reports := stepped.trans members
  rw [session] at reports
  have pool : v.pool = s.pool := reports.pool
  have own : v.own = s.own := reports.own
  have removal : ∃ k, v.poolEffect true h.notice y (removedStations h.notice (memberEffect s.session.members h.notice).changes) =
      v.removeRecords true k y (removedStations h.notice (memberEffect s.session.members h.notice).changes) := by
    cases hb : h.notice.body <;> simp [namedTarget, hb] at hn <;> exact ⟨_, by rw [State.poolEffect, hb]⟩
  obtain ⟨k, removal⟩ := removal
  have ended := State.removeRecords_ended (s := v) (by rw [pool]; exact ha.1) k y (by rw [own]; exact ho)
  have none : v.removedClients = [] := by
    rw [State.removedClients, pool, own, List.filter_eq_nil_iff.2 fun r hm => by simpa using hr r hm]
    exact ite_self _
  have silent : endEvents y v.postCount [] = [] := by cases y <;> rfl
  rw [removal, ended.events, none, List.eraseDups_nil, List.filter_nil, silent]
  exact reports.events

/-- The loss of the sponsor in ANNOUNCING, as it is taken. -/
theorem exec_sponsorLost {p : Addr} (hs : s.session.station = .announcing) (hd : s.bus.delivered = some h) (ht : h.notice.tag = s.session.tag)
    (ho : (s.session.members.get s.own).sponsor = some p) (hn : namedTarget h.notice = some p) (hp : p ≠ s.own)
    (hy : (s.session.members.get s.own).state = .syncing) (hc : (memberEffect s.session.members h.notice).changes ≠ []) (ha : AllSound s)
    (hw : OwedApart s) (hf : s.session.founded = true) :
    ∃ w, Departing s w ∧ exec .noticeEffectsMade s = .next (w.giveUp .sponsorLost) ∧
      ((∀ r ∈ s.pool.records, r.station ≠ s.own) → (h.notice.sender = s.own → h.own = true) → w.port.events =
        (memberEvents (memberEffect s.session.members h.notice).changes (s.session.count + 1#16)).foldl (enqueue s.own) s.port.events) := by
  obtain ⟨ends, own⟩ := ending_sponsorLost hn hp ho hy hc
  obtain ⟨-, found⟩ := counted_of_claim_or_target (.inr (by rw [hn]; nofun : namedTarget h.notice ≠ none))
  have he : ending s.own s.session.station h (memberEffect s.session.members h.notice) = some .sponsorLost := by rw [hs]; exact ends
  have taken := State.takeNotice_ending (s := s.taking) (.inl hs) ht found (.inr hw) he
  have departing := (State.lastSteps_departing (s := s.taking) (x := .sponsorLost) (ending_no_claim he) (.inr hw)).1.of_taking
  obtain ⟨⟨ms, mp, -, mq, mo⟩, -, -⟩ := s.taking.makeRoom_roomed h false (.inr hw)
  have me : (s.taking.makeRoom h false none).own = s.own := congrArg Straps.address mo
  refine ⟨_, departing, by rw [exec_noticeEffectsMade hd, taken]; rfl, fun hr hclash => ?_⟩
  have clash : ∀ n, clashEvents s.own h n = [] := fun _ => if_neg fun ⟨e, k⟩ => by rw [hclash e] at k; cases k
  generalize s.taking.makeRoom h false none = m at ms mp mq me
  have events := State.lastSteps_events (s := m) (h := h) (x := .sponsorLost) (by rw [hn]; nofun) (by rw [me, ms]; exact own)
    ⟨by rw [mp]; exact ha.1, by rw [ms]; exact ha.2⟩ (by rw [ms]; exact hf) (by rw [mp, me]; exact hr)
  rw [me, ms, mq] at events
  rw [events, clash, List.nil_append]
  rfl

end

/-- Settles O48: in both states the notice ends in `State.giveUp`. -/
theorem joinerGivesUp : Obligations.JoinerGivesUp := by
  refine ⟨fun s h cause hs hd ht hf hg hk => ?loading, fun s h p hs hd ht ho hn hp hy hc ha hw hf => ?announcing⟩
  case loading =>
    have owed : (Vector.ofFn fun c => { s.slot c with owed := .none }) = s.slots.map fun v => { v with owed := .none } := by
      ext c hc : 1
      simp [State.slot, Vector.get_eq_getElem]
    dsimp only
    rw [exec_load_givesUp hs hd ht hk, State.giveUp_eq, ← owed, ← emptyCheck]
    refine congrArg Host.Outcome.next ?_
    rw [show driven s.taking.lines s.taking.slot = s.lines from hg.driven]
    rfl
  case announcing =>
    obtain ⟨w, departing, taken, events⟩ := exec_sponsorLost hs hd ht ho hn hp hy hc ha hw hf
    have d : Departed s (w.giveUp .sponsorLost) .seeking _ _ := departing.clearedAtOnce.seek .sponsorLost
    refine ⟨_, taken, d.session, d.outbox, d.pool, d.joiner, d.sponsor, d.beacon, d.absence, fun hr hclash => ?_⟩
    rw [List.foldl_append, State.giveUp_eq]
    show enqueue w.own w.port.events ⟨.stationState .seeking .sponsorLost, w.own, 0#16⟩ = _
    rw [departing.own, events hr hclash]
    rfl

end Sys2Proof.Machine
end

