-- ==== Sys2Proof/Proofs/RoomWork.lean ====
section
/-! PROOFS. What the room of a round's end leads to neither looks at the bus nor gives a station something to answer (R72, R112). -/

namespace Sys2Proof.Machine

/-- Work that leaves the bus out, and a station with nothing to answer with nothing to answer. -/
structure RoomWork (f : State → State) : Prop where
  bus : ∀ s b, f (s.setBus b) = (f s).setBus b
  silent : ∀ s, NothingToAnswer s → NothingToAnswer (f s)

theorem RoomWork.comp {f g : State → State} (hg : RoomWork g) (hf : RoomWork f) : RoomWork fun s => g (f s) :=
  ⟨fun s b => by rw [hf.bus, hg.bus], fun s h => hg.silent _ (hf.silent _ h)⟩

theorem RoomWork.foldl {α : Type} {f : State → α → State} (h : ∀ a, RoomWork fun s => f s a) (l : List α) : RoomWork fun s => l.foldl f s := by
  induction l with
  | nil => exact ⟨fun _ _ => rfl, fun _ => id⟩
  | cons a l ih => exact ih.comp (h a)

section
variable (s : State) (b : Bus)

theorem State.setBus_setSlot (c : Client) (v : Slot) : (s.setBus b).setSlot c v = (s.setSlot c v).setBus b := by
  simp only [State.setSlot, State.driveGnt]
  cases lineOf c <;> rfl

theorem State.setBus_queueLeave (r : LeaveReason) : (s.setBus b).queueLeave r = (s.queueLeave r).setBus b := by
  simp only [State.queueLeave, State.purge, State.dropOwed_eq, State.closeSlots_eq]
  rfl

theorem State.setBus_upset : (s.setBus b).upset = s.upset.setBus b := by
  have leave : (s.setBus b).markUpset.queueLeave .resync = (s.markUpset.queueLeave .resync).setBus b := s.markUpset.setBus_queueLeave b _
  simp only [State.upset, State.setBus_checker, State.setBus_session, leave]
  split
  · rfl
  · cases s.session.station <;> rfl

variable {s}

/-- A station that leaves has nothing to answer (R153). -/
theorem State.queueLeave_nothingToAnswer (r : LeaveReason) : NothingToAnswer (s.queueLeave r) := by
  rw [State.queueLeave, State.enter_eq]
  exact ⟨fun _ => Vector.getElem_replicate .., rfl⟩

theorem State.upset_nothingToAnswer (h : NothingToAnswer s) : NothingToAnswer s.upset := by
  unfold State.upset
  split
  · exact h
  · split
    iterate 3 exact State.queueLeave_nothingToAnswer _
    all_goals exact h

theorem State.setSlot_nothingToAnswer (h : NothingToAnswer s) (c : Client) (v : Slot) : NothingToAnswer (s.setSlot c v) := by
  rw [NothingToAnswer, State.setSlot_sponsor]; exact h

end

theorem State.mismatch_roomWork : RoomWork State.mismatch where
  bus s b := by
    simp only [State.mismatch, State.setBus_session, State.setBus_upset]
    cases s.session.station <;> rfl
  silent s h := by
    unfold State.mismatch
    split
    iterate 2 exact State.upset_nothingToAnswer h
    all_goals exact h

/-! ### The owed notices (R112) -/

theorem State.serveEvict_roomWork (t : Addr) : RoomWork fun s => s.serveEvict t where
  bus s b := by
    have offer : (s.setBus b).submit (.evict t) = ((s.submit (.evict t)).1.setBus b, (s.submit (.evict t)).2) := rfl
    simp only [State.serveEvict, offer, State.setBus_sponsor]
    split
    · split <;> rfl
    · rfl
  silent s h := by
    dsimp only [State.serveEvict]
    split
    · split <;> exact h
    · exact h

theorem State.serveSlot_roomWork (claims : Bool) (c : Client) : RoomWork fun s => State.serveSlot claims s c where
  bus s b := by
    have offer : ∀ x, (s.setBus b).offer x (.claimUnit c) = s.offer x (.claimUnit c) := fun _ => rfl
    have place : ∀ o v, ((s.setBus b).setOutbox o).setSlot c v = ((s.setOutbox o).setSlot c v).setBus b := fun o v =>
      (s.setOutbox o).setBus_setSlot b c v
    unfold State.serveSlot
    dsimp only
    by_cases hc : decide ((s.slot c).owed = .claim) = claims
    · have hb : decide (((s.setBus b).slot c).owed = .claim) = claims := hc
      rw [if_pos hb, if_pos hc]
      simp only [State.setBus_slot, offer, place, State.mismatch_roomWork.bus]
      split
      · rfl
      · split <;> rfl
    · have hb : ¬ decide (((s.setBus b).slot c).owed = .claim) = claims := hc
      rw [if_neg hb, if_neg hc]
  silent s h := by
    dsimp only [State.serveSlot]
    split
    · split
      · exact h
      · split
        · refine State.setSlot_nothingToAnswer ?_ _ _
          exact h
        · exact State.mismatch_roomWork.silent s h
        all_goals exact h
    · exact h

theorem State.serveAnswer_roomWork : RoomWork State.serveAnswer where
  bus s b := by
    have offer : ∀ x, (s.setBus b).submit x = ((s.submit x).1.setBus b, (s.submit x).2) := fun _ => rfl
    simp only [State.serveAnswer, offer, State.setBus_sponsor]
    split
    · rfl
    · split <;> rfl
  silent s h := by
    unfold State.serveAnswer
    dsimp only
    split
    · exact h
    · split <;> exact h

theorem State.serveBeacon_roomWork : RoomWork State.serveBeacon where
  bus s b := by
    have offer : ∀ x, (s.setBus b).submit x = ((s.submit x).1.setBus b, (s.submit x).2) := fun _ => rfl
    simp only [State.serveBeacon, offer, State.setBus_sponsor]
    split
    · split <;> rfl
    · rfl
  silent s h := by
    unfold State.serveBeacon
    dsimp only
    split
    · split <;> exact h
    · exact h

theorem State.serveOwed_roomWork : RoomWork State.serveOwed := by
  have evicts := RoomWork.foldl State.serveEvict_roomWork sixteen
  have others := RoomWork.foldl (State.serveSlot_roomWork false) sixteen
  have answer := State.serveBeacon_roomWork.comp State.serveAnswer_roomWork
  have claims := RoomWork.foldl (State.serveSlot_roomWork true) sixteen
  constructor
  · intro s b
    simp only [State.serveOwed, evicts.bus, others.bus, State.serveAnswer_roomWork.bus, State.serveBeacon_roomWork.bus, claims.bus]
  · intro s h
    unfold State.serveOwed
    dsimp only
    exact claims.silent _ (answer.silent _ (others.silent _ (evicts.silent s h)))

/-! ### The line of a slot that ended (R72) -/

theorem State.handedIn_roomWork (c : Client) (body : Body) (v w x : State → Slot) (hv : ∀ s b, v (s.setBus b) = v s)
    (hw : ∀ s b, w (s.setBus b) = w s) (hx : ∀ s b, x (s.setBus b) = x s) :
    RoomWork fun s => s.handedIn c body (v s) (w s) (x s) where
  bus s b := by
    have place : ∀ o v, ((s.setBus b).setOutbox o).setSlot c v = ((s.setOutbox o).setSlot c v).setBus b := fun o v =>
      (s.setOutbox o).setBus_setSlot b c v
    simp only [State.handedIn, hv, hw, hx, State.setBus_session, State.setBus_outbox, State.setBus_setSlot, State.mismatch_roomWork.bus, place]
    split_ifs <;> rfl
  silent s h := by
    unfold State.handedIn
    split_ifs
    · exact State.setSlot_nothingToAnswer h _ _
    · exact State.mismatch_roomWork.silent s h
    · refine State.setSlot_nothingToAnswer ?_ _ _
      exact h
    · exact State.setSlot_nothingToAnswer h _ _

theorem State.retested_roomWork (c : Client) : RoomWork fun s => s.retested c := by
  have claims : ∀ n : LineNo, ∀ m k, RoomWork fun s => s.claimed (clientOf n) m k := fun n m k =>
    State.handedIn_roomWork (clientOf n) (.claim (clientOf n) k m) _ _ _ (fun _ _ => rfl) (fun _ _ => rfl) fun _ _ => rfl
  constructor
  · intro s b
    simp only [State.retested]
    cases lineOf c with
    | none => rfl
    | some n =>
      simp only [State.risen, State.setBus_port, State.setBus_line, State.setBus_slot, State.setBus_session, (claims n _ _).bus]
      split <;> rfl
  · intro s h
    simp only [State.retested]
    cases lineOf c with
    | none => exact h
    | some n =>
      simp only [State.risen]
      split
      · exact (claims n _ _).silent s h
      · exact h

/-- R72 tested for the slot that ended with its offered entry. -/
theorem State.offerTested_roomWork (s : State) (w : Owner) : RoomWork (s.offerTested w) := by
  cases w with
  | session => exact ⟨fun _ _ => rfl, fun _ => id⟩
  | claimUnit c =>
    by_cases hc : (s.slot c).closing = false ∧ (s.slot c).state = .withdrawing ∧ (s.slot c).removalPending = true
    · rw [show s.offerTested (.claimUnit c) = fun t => t.retested c from funext fun _ => if_pos hc]
      exact State.retested_roomWork c
    · rw [show s.offerTested (.claimUnit c) = id from funext fun _ => if_neg hc]
      exact ⟨fun _ _ => rfl, fun _ => id⟩

end Sys2Proof.Machine
end

