-- ==== Sys2Proof/Proofs/LostOffers.lean ====
section
/-! PROOFS. An offered entry whose removal was asked leaves at the end of a round that does not take it (O24; R51, R63, R112, R114). -/

namespace Sys2Proof.Machine

section
variable {s : State} {e : Entry}

/-- Room work leaves the bus as it is. -/
theorem RoomWork.bus_same {f : State → State} (hf : RoomWork f) (s : State) : (f s).bus = s.bus :=
  show (f (s.setBus s.bus)).bus = s.bus by rw [hf.bus]; rfl

/-- The owner told. -/
theorem State.offerTold_roomWork (w : Owner) : RoomWork fun s => s.offerTold w where
  bus s b := by
    cases w with
    | session => rfl
    | claimUnit c =>
      have place : ∀ o v, ((s.setBus b).setOutbox o).setSlot c v = ((s.setOutbox o).setSlot c v).setBus b := fun o v =>
        (s.setOutbox o).setBus_setSlot b c v
      simp only [State.offerTold, State.ended, State.setBus_slot, State.setBus_outbox, place]
      split_ifs <;> rfl
  silent s h := by
    cases w with
    | session => exact h
    | claimUnit c =>
      simp only [State.offerTold, State.ended]
      split_ifs
      · refine State.setSlot_nothingToAnswer ?_ _ _
        exact h
      · refine State.setSlot_nothingToAnswer (s := s.setOutbox { s.outbox with entries := s.outbox.entries.filter fun x => !x.offered }) ?_ _ _
        exact h
      · exact h

theorem exec_owedNoticePlaced_room : exec .owedNoticePlaced s = .next s.flush.roomEvent := rfl

/-- OWED_NOTICE_PLACED with nothing delivered and nothing to answer. -/
theorem exec_owedNoticePlaced_silent (hd : s.bus.delivered = none) (ha : NothingToAnswer s) {t : State}
    (ht : exec .owedNoticePlaced s = .next t) : t = s.serveOwed := by
  have room := State.roomEvent_eq (.inr (State.serveOwed_roomWork.silent s ha))
  rw [exec_owedNoticePlaced_room, State.flush_none hd, room] at ht
  exact (Host.Outcome.next.inj ht).symm

/-- The room of the entry that left, with the test of R72 for the slot that ended. -/
theorem State.offerRoom_removed (t : State) (w : Owner) : t.offerRoom true (s.endedBy w) = s.offerTested w t.serveOwed := by
  rw [State.offerRoom, if_pos rfl, State.testEnded_eq]

/-- The end of the event of a round that did not take the entry. -/
theorem Settled.close_removed {x : State} (ha : NothingToAnswer x) (before : State) (p : Bool) (w : Owner) :
    Settled.close before ⟨x, true, p, s.endedBy w⟩ = s.offerTested w x.serveOwed := by
  have silent := (s.offerTested_roomWork w).silent _ (State.serveOwed_roomWork.silent x ha)
  simp only [Settled.close, State.offerRoom_removed, State.answersAfter, State.makeAnswers_none (.inl silent), ite_self]

/-- Told, served and tested, with another bus. -/
theorem State.served_setBus (x : State) (b : Bus) (w : Owner) :
    s.offerTested w (x.setBus b).serveOwed = (s.offerTested w x.serveOwed).setBus b := by
  rw [State.serveOwed_roomWork.bus, (s.offerTested_roomWork w).bus]

variable (ho : s.outbox.offered = some e) (hr : e.removal = true) (ha : NothingToAnswer s)
include ho hr ha

/-- A round that is missed, or cut short. -/
theorem State.endUntaken_removed : s.endUntaken =
    (s.offerTested e.owner (s.offerTold e.owner).serveOwed).setBus { s.bus with round := none } := by
  have told := (State.offerTold_roomWork e.owner).silent s ha
  have bus : (s.offerTested e.owner (s.offerTold e.owner).serveOwed).bus = s.bus := by
    rw [(s.offerTested_roomWork e.owner).bus_same, State.serveOwed_roomWork.bus_same, (State.offerTold_roomWork e.owner).bus_same]
  rw [State.endUntaken, State.settleKept, State.settle_removed s ho hr, Settled.close_removed told, State.endRound, bus]

omit ha in
/-- The void counted for the entry leaves with it (R99). -/
theorem State.settle_countVoid :
    s.countVoid.settle false = ⟨s.offerTold e.owner, true, e.body.isSnap, s.endedBy e.owner⟩ := by
  have still : s.countVoid.outbox.offered = some { e with voids := e.voids + 1 } := by
    have marks : (Entry.offered ∘ fun e => if e.offered then { e with voids := e.voids + 1 } else e) = Entry.offered := by
      funext x
      cases hx : x.offered <;> simp [hx]
    rw [Outbox.offered] at ho
    simp only [State.countVoid, Outbox.map, Outbox.offered, State.setOutbox_outbox, List.find?_map, marks, ho, Option.map_some]
    rw [if_pos (by simpa using List.find?_some ho)]
  have leaves : s.countVoid.outbox.entries.filter (fun x => !x.offered) = s.outbox.entries.filter fun x => !x.offered := by
    simp only [State.countVoid, Outbox.map, State.setOutbox_outbox]
    induction s.outbox.entries with
    | nil => rfl
    | cons x l ih => cases hx : x.offered <;> simpa [hx] using ih
  have gone : s.countVoid.setOutbox { s.countVoid.outbox with entries := s.countVoid.outbox.entries.filter fun x => !x.offered } =
      s.setOutbox { s.outbox with entries := s.outbox.entries.filter fun x => !x.offered } := by
    rw [leaves]; rfl
  have told : s.countVoid.offerTold e.owner = s.offerTold e.owner := by
    cases e.owner with
    | session => exact gone
    | claimUnit c => simp only [State.offerTold, gone]; rfl
  rw [State.settle_removed s.countVoid still hr, told]
  rfl

/-- A voided round. -/
theorem State.endVoided_removed (carried : Bool) (fault : Option ReceptionFault) : s.endVoided carried fault =
    (let b := { s.bus with voidRun := s.runAfter carried fault, round := none }
    if carried = true ∧ 16 ≤ e.voids + 1 then ((s.offerTold e.owner).setBus b).fallen .voidLimit
    else if 4 ≤ s.runAfter carried fault then ((s.offerTold e.owner).setBus b).fallen .receiveLimit
    else (s.offerTested e.owner (s.offerTold e.owner).serveOwed).setBus b) := by
  have told := (State.offerTold_roomWork e.owner).silent s ha
  have bus := (State.offerTold_roomWork e.owner).bus_same s
  have settled : (if carried then s.countVoid else s).settle false = ⟨s.offerTold e.owner, true, e.body.isSnap, s.endedBy e.owner⟩ := by
    cases carried
    · exact State.settle_removed s ho hr
    · exact State.settle_countVoid ho hr
  have limit : s.voidLimitReached carried = true ↔ carried = true ∧ 16 ≤ e.voids + 1 := by
    simp [State.voidLimitReached, ho, Config.voidLimit]
  have closes : ∀ b, Settled.close s ⟨(s.offerTold e.owner).setBus b, true, e.body.isSnap, s.endedBy e.owner⟩ =
      (s.offerTested e.owner (s.offerTold e.owner).serveOwed).setBus b := fun b => by
    rw [Settled.close_removed (x := (s.offerTold e.owner).setBus b) told, State.served_setBus]
  simp only [State.endVoided, State.voidRound, settled, bus, limit, State.enterFaulted_eq, Config.voidRunLimit]
  rw [closes]

/-! ### The round another station carried -/

omit ha in
/-- The settling, dated with the notice (R96, R183). -/
theorem State.takeRound_removed (n : Notice) (k : Word) (hk : s.countAfter n = k) : s.takeRound ⟨n, false⟩ =
    ⟨(((s.setCount k).offerTold e.owner).setCount s.session.count).setBus
      { s.bus with voidRun := 0, pointer := n.sender + 1, round := none }, true, e.body.isSnap, s.endedBy e.owner⟩ := by
  have bus := (State.offerTold_roomWork e.owner).bus_same (s.setCount k)
  have settled := State.settle_removed (s.setCount k) ho hr
  simp only [State.takeRound, hk, settled, State.setCount_bus, bus, pointerAfter]
  rfl

omit ho hr ha in
/-- The owner told, dated with a count. -/
theorem State.offerTold_dated (k : Word) (w : Owner) : ((s.setCount k).offerTold w).session = { s.session with count := k } := by
  cases w with
  | session => rfl
  | claimUnit c =>
    simp only [State.offerTold, State.ended]
    split_ifs <;> simp [State.post]

omit ho hr ha in
/-- Outside a session no notice is applied, and the count held dates what is posted (R123, R183). -/
theorem State.countWith_undelivered (hs : ¬ (s.session.station ≠ .offline ∧ s.session.station ≠ .faulted)) (n : Notice) :
    s.countWith n = s.session.count := by
  refine if_neg fun ⟨h, _⟩ => hs ?_
  rcases h with h | h | h <;> rw [h] <;> exact ⟨nofun, nofun⟩

omit ha in
/-- The end of a round another station carried, its effects still to be made (R96, R97, R112). -/
theorem State.endTaken_removed (n : Notice) : s.endTaken ⟨n, false⟩ .later =
    ((s.offerTested e.owner ((s.setCount (s.countWith n)).offerTold e.owner).serveOwed).setCount s.session.count).setBus
      { s.bus with
        pointer := n.sender + 1, voidRun := 0, round := none,
        delivered := (if s.session.station ≠ .offline ∧ s.session.station ≠ .faulted then some ⟨n, false⟩ else s.bus.delivered) } := by
  have session := s.offerTold_dated (s.countWith n) e.owner
  have undelivered := s.countWith_undelivered (n := n)
  have after := s.countAfter_eq n
  rw [State.endTaken, State.takeRound_removed ho hr n (s.countWith n) after]
  generalize s.countWith n = k at session undelivered after
  generalize hb : ({ s.bus with voidRun := 0, pointer := n.sender + 1, round := none } : Bus) = b
  generalize (s.setCount k).offerTold e.owner = told at session
  have held : told.setCount k = told := by rw [← State.setCount_same told, session]; rfl
  have served : (told.setBus b).offerRoom true (s.endedBy e.owner) = (s.offerTested e.owner told.serveOwed).setBus b := by
    rw [State.offerRoom_removed, State.served_setBus]
  have before : ((told.setCount s.session.count).setBus b).session = s.session := by
    rw [State.setBus_session, State.setCount_session, session]
  simp only [Settled.deliver, before, StationState.delivers_iff, decide_eq_true_eq]
  split_ifs with hd
  · have dates : ((told.setCount s.session.count).setBus b).countAfter n = k := by
      rw [← after]; simp only [State.countAfter, before]
    have dated : ((told.setCount s.session.count).setBus b).setCount k = told.setBus b := congrArg (State.setBus · b) held
    simp only [State.dated, dates, dated, served, before]
    rw [← hb]
    rfl
  · have kept : told.setCount s.session.count = told := by rw [← undelivered hd]; exact held
    have mild : ((s.offerTested e.owner told.serveOwed).setBus b).session = told.session := by
      obtain ⟨-, -, ⟨stays, -⟩ | ⟨member, -, -⟩⟩ := (told.setBus b).offerRoom_mild true (s.endedBy e.owner)
      · rw [← served]; exact stays
      · rw [State.setBus_session, session] at member
        exact absurd (by rcases member with h | h <;> rw [h] <;> exact ⟨nofun, nofun⟩) hd
    have count : (s.offerTested e.owner told.serveOwed).setCount s.session.count = s.offerTested e.owner told.serveOwed := by
      rw [← State.setCount_same (s.offerTested e.owner told.serveOwed), show (s.offerTested e.owner told.serveOwed).session = _ from mild,
        session, undelivered hd]
      rfl
    rw [kept, served, count, ← hb]

end

section
variable {s : State}

/-- The states of a session. -/
theorem StationState.inSession_iff (st : StationState) :
    st.inSession = true ↔ st = .loading ∨ st = .announcing ∨ st = .active ∨ st = .leaving := by cases st <;> decide

/-- A listener of a session counts the void it pulled (R98, R100). -/
theorem State.runAfter_listener (fault : Option ReceptionFault) : s.runAfter false fault =
    if fault ≠ none ∧ (s.session.station = .loading ∨ s.session.station = .announcing ∨ s.session.station = .active ∨
      s.session.station = .leaving) then s.bus.voidRun + 1 else s.bus.voidRun := by
  simp [State.runAfter, StationState.inSession_iff, Option.isSome_iff_ne_none]

theorem State.runAfter_carrier (fault : Option ReceptionFault) : s.runAfter true fault = s.bus.voidRun := by simp [State.runAfter]

variable (hd : s.bus.delivered = none)
include hd

theorem exec_roundTaken_other {r : Round} {w : Byte} {bs : List Byte} {n : Notice} (hn : s.bus.round = some r)
    (hw : ∀ k, r.number = some k → k < w) (hc : receive w bs = .notice n) (t : Timing) :
    exec (.roundTaken (.other w bs) t) s = .next (s.endTaken ⟨n, false⟩ t) := by
  have taken : exec (.roundTaken (.other w bs) t) s = .next (s.roundTaken (.other w bs) t) := rfl
  simp only [taken, State.roundTaken, hn, Round.wouldWin_false r w hw, State.flush_none hd, hc, State.takeOther, Bool.false_eq_true, if_false]

theorem exec_roundVoided_ends (hn : s.bus.round ≠ none) {won : Bool} (hw : won = true → s.outbox.offered ≠ none)
    (fault : Option ReceptionFault) : exec (.roundVoided won fault) s = .next (s.endVoided won fault) := by
  have voided : exec (.roundVoided won fault) s = .next (s.roundVoided won fault) := rfl
  obtain ⟨r, hr⟩ := Option.ne_none_iff_exists'.1 hn
  have carries : ¬ (won && !s.carries) = true := by
    cases won
    · nofun
    · simpa [State.carries, Option.isSome_iff_ne_none] using hw rfl
  simp only [voided, State.roundVoided, hr, if_neg carries, State.flush_none hd]

theorem exec_roundMissed_ends (hn : s.bus.round ≠ none) (hs : s.session.station.inSession = false) (fault : ReceptionFault) :
    exec (.roundMissed fault) s = .next s.endUntaken := by
  have missed : exec (.roundMissed fault) s = .next s.roundMissed := rfl
  obtain ⟨r, hr⟩ := Option.ne_none_iff_exists'.1 hn
  simp only [missed, State.roundMissed, hr, State.flush_none hd, hs, Bool.false_eq_true, if_false]

theorem exec_busStuck_ends (hr : s.resetHeld = false) (hs : s.bus.stuck = false) :
    exec .busStuck s = .next ((s.post .busStuck s.own).setBus { s.bus with stuck := true }).endUntaken := by
  have stuck : exec .busStuck s = .next s.busStuck := rfl
  simp only [stuck, State.busStuck, hr, hs, Bool.or_self, Bool.false_eq_true, if_false, State.flush_none hd]
  rfl

end

/-- Settles O24: each end of a round is the entry's owner told, the room served and R72 tested, or the fall to FAULTED. -/
theorem lostOfferIsRemoved : Obligations.LostOfferIsRemoved := by
  intro s e ho hr ha hd
  have serves : ∀ {u t : State}, u.bus = s.bus → NothingToAnswer u → exec .owedNoticePlaced (u.offerTold e.owner) = .next t →
      t = (u.offerTold e.owner).serveOwed := fun hb hu ht => by
    refine exec_owedNoticePlaced_silent ?_ ((State.offerTold_roomWork e.owner).silent _ hu) ht
    rw [(State.offerTold_roomWork e.owner).bus_same, hb]
    exact hd
  refine ⟨fun r w bs n hn hw hc t ht => ?taken, fun fault hn => ?voided, fun fault hn => ?won, fun fault hn h1 h2 h3 h4 t ht => ?missed,
    fun hh hs t ht => ?stuck⟩
  case taken =>
    rw [exec_roundTaken_other hd hn hw hc, State.endTaken_removed ho hr, serves (u := s.setCount (s.countWith n)) rfl ha ht, hd]
    rfl
  case voided =>
    dsimp only
    rw [exec_roundVoided_ends hd hn (won := false) (fun h => absurd h Bool.false_ne_true), State.endVoided_removed ho hr ha, State.runAfter_listener]
    refine ⟨fun h4 => ?_, fun h4 t ht => ?_⟩
    · rw [if_neg fun h => Bool.false_ne_true h.1, if_pos h4]; rfl
    · rw [if_neg fun h => Bool.false_ne_true h.1, if_neg (Nat.not_le.2 h4), serves rfl ha ht]; rfl
  case won =>
    dsimp only
    rw [exec_roundVoided_ends hd hn fun _ => by rw [ho]; nofun, State.endVoided_removed ho hr ha, State.runAfter_carrier]
    refine ⟨fun h16 => ?_, fun h16 h4 => ?_, fun h16 h4 t ht => ?_⟩
    · rw [if_pos ⟨rfl, h16⟩]; rfl
    · rw [if_neg fun h => Nat.not_le.2 h16 h.2, if_pos h4]; rfl
    · rw [if_neg fun h => Nat.not_le.2 h16 h.2, if_neg (Nat.not_le.2 h4), serves rfl ha ht]; rfl
  case missed =>
    have outside : s.session.station.inSession = false := by
      rw [← Bool.not_eq_true, StationState.inSession_iff]
      simp [h1, h2, h3, h4]
    rw [exec_roundMissed_ends hd hn outside, State.endUntaken_removed ho hr ha, serves rfl ha ht]
    rfl
  case stuck =>
    have posted : exec .busStuck s = .next ((s.post .busStuck s.own).setBus { s.bus with stuck := true }).endUntaken :=
      exec_busStuck_ends hd hh hs
    rw [posted, State.endUntaken_removed (s := (s.post .busStuck s.own).setBus { s.bus with stuck := true }) ho hr ha,
      (State.offerTold_roomWork e.owner).bus, State.served_setBus,
      serves (u := s.post .busStuck s.own) rfl ha ht]
    rfl

end Sys2Proof.Machine
end

