-- ==== Sys2Proof/Proofs/GntAndLock.lean ====
section
/-! PROOFS. What every step keeps: GNT follows the slots, the lock the station state, ATTN the Event Queue, and a station in reset its reset
values (O55). -/

namespace Sys2Proof.Machine

/-! ### GNT (R76) -/

theorem GntFollows.setSlot {s : State} (h : GntFollows s) (c : Client) (v : Slot) : GntFollows (s.setSlot c v) := fun n => by
  rw [State.setSlot_line, State.setSlot_slot]
  split
  · rfl
  · exact h n

theorem GntFollows.setLine {s : State} (h : GntFollows s) (n : LineNo) {l : Line} (hl : l.gnt = (s.line n).gnt) :
    GntFollows (s.setLine n l) := fun m => by
  rw [State.setLine_line, State.setLine_slot]
  split
  · rename_i e
    rw [e, hl]
    exact h n
  · exact h m

theorem GntFollows.move {s t : State} (k : Move s t) (h : GntFollows s) : GntFollows t := by
  cases k with
  | quiet q =>
    cases q with
    | slot c v => exact h.setSlot c v
    | line n l hl => exact h.setLine n hl
    | _ => exact h
  | _ => exact h

/-- A millisecond takes no slot to another state. -/
theorem Slot.tick_state (v : Slot) : v.tick.state = v.state := by
  unfold Slot.tick
  split <;> rfl

theorem State.tick_slot_state (s : State) (c : Client) : (s.tick.slot c).state = (s.slot c).state := by
  unfold State.tick
  split
  · rfl
  · simp [State.slot, Vector.get_eq_getElem, Slot.tick_state]

theorem GntFollows.tick {s : State} (h : GntFollows s) : GntFollows s.tick := fun n => by
  rw [State.tick_slot_state]
  obtain ⟨_, _, _, e⟩ := s.tick_eq
  rw [e]
  exact h n

theorem GntFollows.reset (rest : List Instr) : GntFollows { State.reset with pending := rest } := by
  obtain ⟨gnt, -⟩ := invariantsHoldAtReset
  exact gnt

theorem step_keeps_gntFollows {s t : State} (h : step s = .next t) (p : GntFollows s) : GntFollows t := by
  refine step_keeps_moves (P := GntFollows) (fun _ _ p => p) (fun _ => .tick) .reset (fun s a f p => ?_) (fun _ _ => .move)
    (fun _ _ p => p) (fun _ p => p) h p
  obtain ⟨_, _, e⟩ := s.resetRelease_eq a f
  rw [e]; exact p

/-! ### The lock (R177, R178) -/

/-- The lock goes with the station state it is replaced with. -/
theorem LockFollows.atStation (s : State) (st : StationState) : LockFollows (s.atStation st) := by
  show st.locked = decide (st ≠ .offline ∧ st ≠ .faulted)
  cases st <;> rfl

/-- Where lock and station state stay, the one follows the other. -/
theorem LockFollows.of_same {s t : State} (h : LockFollows s) (hl : t.port.locked = s.port.locked)
    (hs : t.session.station = s.session.station) : LockFollows t := by
  rw [LockFollows, hl, hs]
  exact h

theorem LockFollows.move {s t : State} (k : Move s t) (h : LockFollows s) : LockFollows t := by
  cases k with
  | quiet q =>
    cases q with
    | session x hx => exact h.of_same rfl hx.1
    | slot c v => exact h.of_same (by simp) (by simp)
    | station st => exact .atStation s st
    | _ => exact h
  | session x hx => exact h.of_same rfl hx.1
  | station st => exact .atStation s st
  | _ => exact h

theorem step_keeps_lockFollows {s t : State} (h : step s = .next t) (p : LockFollows s) : LockFollows t := by
  refine step_keeps_moves (fun _ _ p => p) (fun s p => ?_) (fun _ => rfl) (fun s a f p => ?_) (fun _ _ => LockFollows.move)
    (fun _ _ p => p) (fun _ p => p) h p
  · obtain ⟨_, _, _, e⟩ := s.tick_eq
    rw [e]; exact p
  · obtain ⟨_, _, e⟩ := s.resetRelease_eq a f
    rw [e]; exact p

/-! ### ATTN and the Event Queue (R183 to R186) -/

/-- ATTN is asserted exactly while the queue holds an entry, and the queue has its form. -/
def EventsFollow (s : State) : Prop := AttnFollows s ∧ EventForm s.port.events

theorem enqueue_ne_nil (own : Addr) (q : List Event) (e : Event) : enqueue own q e ≠ [] := by
  unfold enqueue
  split
  · exact List.append_ne_nil_of_right_ne_nil _ (List.cons_ne_nil _ _)
  · split <;> exact List.append_ne_nil_of_right_ne_nil _ (List.cons_ne_nil _ _)

/-- The queue without its head: no entry but the last is an EVENTS_LOST, and it no longer holds 32. -/
theorem EventForm.tail {e : Event} {es : List Event} (h : EventForm (e :: es)) : EventForm es := by
  obtain ⟨bound, inner, -⟩ := h
  rw [List.length_cons] at bound
  refine ⟨by omega, fun x hx => inner x ?_, fun full => by omega⟩
  have held : es ≠ [] := by rintro rfl; cases hx
  rw [List.dropLast_cons_of_ne_nil held]
  exact List.mem_cons_of_mem e hx

theorem EventsFollow.post {s : State} (h : EventsFollow s) (k : EventKind) (w : Fin 16) : EventsFollow (s.post k w) := by
  obtain ⟨-, form⟩ := h
  refine ⟨?_, form.enqueue⟩
  have held := enqueue_ne_nil s.own s.port.events ⟨k, w, s.postCount⟩
  show true = !(enqueue s.own s.port.events ⟨k, w, s.postCount⟩).isEmpty
  rw [List.isEmpty_eq_false_iff.2 held]
  rfl

theorem EventsFollow.of_port {s t : State} (h : EventsFollow s) (e : t.port = s.port) : EventsFollow t := by
  rw [EventsFollow, AttnFollows, e]
  exact h

theorem EventsFollow.move {s t : State} (k : Move s t) (h : EventsFollow s) : EventsFollow t := by
  cases k with
  | quiet q =>
    cases q with
    | slot c v => exact h.of_port (by simp)
    | post k w => exact h.post k w
    | removal e es he =>
      obtain ⟨-, form⟩ := h
      rw [he] at form
      exact ⟨rfl, form.tail⟩
    | _ => exact h
  | _ => exact h

theorem EventsFollow.reset (rest : List Instr) : EventsFollow { State.reset with pending := rest } := by
  obtain ⟨-, attn, form, -⟩ := invariantsHoldAtReset
  exact ⟨attn, form⟩

theorem step_keeps_eventsFollow {s t : State} (h : step s = .next t) (p : EventsFollow s) : EventsFollow t := by
  refine step_keeps_moves (fun _ _ p => p) (fun s p => ?_) EventsFollow.reset (fun s a f p => ?_) (fun _ _ => EventsFollow.move)
    (fun _ _ p => p) (fun _ p => p) h p
  · obtain ⟨_, _, _, e⟩ := s.tick_eq
    rw [e]; exact p
  · obtain ⟨_, _, e⟩ := s.resetRelease_eq a f
    rw [e]; exact p

/-! ### RESETN asserted (R106, R192) -/

/-- The reset state with commands waiting. -/
def State.heldInReset (p : List Instr) : State := { State.reset with pending := p }

section
variable (p : List Instr)

theorem State.heldInReset_slot (c : Client) : (State.heldInReset p).slot c = .freeWith .none := by
  simp [State.slot, State.heldInReset, State.reset, Vector.get_eq_getElem]

theorem State.heldInReset_line (n : LineNo) : (State.heldInReset p).line n = .reset := by
  simp [State.line, State.heldInReset, State.reset, Vector.get_eq_getElem]

theorem State.heldInReset_owed : NothingOwed (State.heldInReset p) :=
  ⟨fun c => by rw [State.heldInReset_slot]; rfl, rfl, rfl, fun _ => Vector.getElem_replicate ..⟩

/-- An expiry of a timer that does not run is none. -/
theorem State.expire_idle {s : State} {runs : State → Bool} (h : runs s = false) (act : State → State) : s.expire runs act = s := by
  rw [State.expire, h]; rfl

/-- While RESETN is asserted no command but RESET_RELEASE acts: the port is silent, no round goes on, no timer runs, nothing is owed and
no edge waits. -/
theorem exec_heldInReset {i : Instr} (h : ∀ a f, i ≠ .resetRelease a f) : exec i (.heldInReset p) = .next (.heldInReset p) := by
  have idle : ∀ c, ((State.heldInReset p).slot c).state = .free := fun c => by rw [State.heldInReset_slot]; rfl
  cases i with
  | resetRelease a f => exact absurd rfl (h a f)
  | badFrame ident ps => exact congrArg Host.Outcome.next (ite_self _)
  | absenceTimerExpiry m =>
    have stopped : (State.heldInReset p).timers.absence.get m = none := Vector.getElem_replicate ..
    refine congrArg Host.Outcome.next (if_neg ?_)
    rw [State.absenceRuns, stopped]
    nofun
  | leaseExpiry c => exact congrArg Host.Outcome.next (State.expire_idle (by rw [State.leaseRuns, idle]; rfl) _)
  | yieldExpiry c => exact congrArg Host.Outcome.next (State.expire_idle (by rw [State.yieldRuns, idle]; rfl) _)
  | retryExpiry n => exact congrArg Host.Outcome.next (State.expire_idle (by rw [State.retryRuns, idle]; rfl) _)
  | owedNoticePlaced => exact congrArg Host.Outcome.next (State.roomEvent_none (State.heldInReset_owed p))
  | edgeHandedOn n =>
    refine congrArg Host.Outcome.next ?_
    rw [State.edgeHandedOn, State.heldInReset_line]
    rfl
  | _ => rfl

end

/-- A station in reset stays at its reset values until the release. -/
theorem step_heldInReset {p : List Instr} {t : State} (h : step (.heldInReset p) = .next t) : ResetForm t := by
  cases p with
  | nil => cases h; exact fun _ => rfl
  | cons i rest =>
    by_cases release : ∃ a f, i = .resetRelease a f
    · obtain ⟨a, f, rfl⟩ := release
      cases h
      exact nofun
    · have held : exec i (.heldInReset rest) = .next t := h
      rw [exec_heldInReset rest fun a f e => release ⟨a, f, e⟩] at held
      cases held
      exact fun _ => rfl

/-- RESETN is asserted by HARDWARE_RESET alone, which gives the reset values. -/
theorem step_released {s t : State} (h : step s = .next t) (hr : s.resetHeld = false) : ResetForm t := by
  have released : t.resetHeld = s.resetHeld → ResetForm t := fun e held => by
    rw [e, hr] at held; cases held
  rcases step_cases h with rfl | ⟨rest, rfl⟩ | ⟨rest, a, f, rfl⟩ | ⟨rest, -, k⟩
  · obtain ⟨_, _, _, e⟩ := s.tick_eq
    exact released (by rw [e])
  · exact fun _ => rfl
  · refine released ?_
    rw [State.resetRelease, if_neg (by simp [hr])]
  · obtain ⟨-, held, -⟩ := k.kept
    exact released held

theorem step_keeps_resetForm {s t : State} (h : step s = .next t) (p : ResetForm s) : ResetForm t := by
  cases hr : s.resetHeld with
  | true =>
    have held : s = .heldInReset s.pending := p hr
    rw [held] at h
    exact step_heldInReset h
  | false => exact step_released h hr

/-- Settles O55: GNT, lock, ATTN and queue are kept by every elementary update, and in reset no command but the release acts. -/
theorem stepKeepsGntAndLock : Obligations.StepKeepsGntAndLock := fun _ _ h =>
  ⟨step_keeps_gntFollows h, step_keeps_lockFollows h, fun attn form => step_keeps_eventsFollow h ⟨attn, form⟩, step_keeps_resetForm h⟩

end Sys2Proof.Machine
end


-- ==== Sys2Proof/Proofs/EntryToActive.lean ====
section
/-! PROOFS. The entry to ACTIVE by the own FOUND and by the own BEACON: the lines are tested ahead of the table check, which they do not look
at (O27, O28). -/

namespace Sys2Proof.Machine

/-! ### The lines at the entry to ACTIVE (R72, R73) -/

theorem testLine_blind (n : LineNo) : Blind fun s => s.testLine n := by
  have h := testClient_blind (clientOf n)
  simp only [State.testClient, lineOf_clientOf] at h
  exact h

theorem testLines_blind : Blind State.testLines := Blind.foldl testLine_blind eight

theorem State.testLines_risen (s : State) : s.testLines = eight.foldl State.risen s := by
  rw [State.testLines, funext fun s => funext (State.testLine_eq s)]

theorem State.testLines_roomWork : RoomWork State.testLines := by
  have lines := RoomWork.foldl (fun n => State.retested_roomWork (clientOf n)) eight
  simp only [State.retested_line, ← State.testLine_eq] at lines
  exact lines

/-- The Outbox holds no claim notice of these lines' clients. -/
def State.unclaimed (s : State) (l : List LineNo) : Prop := ∀ n ∈ l, s.outbox.hasClaimNotice (clientOf n) = false

/-- A claim notice of another client is placed. -/
theorem Outbox.hasClaimNotice_place {o : Outbox} {b : Body} {c d : Client} (hb : claimClient b = some c) (hd : d ≠ c) (tag : Word) (w : Owner) :
    (o.place b tag w).hasClaimNotice d = o.hasClaimNotice d := by
  have other : ¬ claimClient b = some d := fun e => hd (Option.some.inj (e.symm.trans hb))
  rw [Bool.eq_iff_iff]
  simp [Outbox.hasClaimNotice, Outbox.place, mem_insertEntry, other]

/-- A line claim is placed or owed and finds no mismatch: the session stays, and so do the claim notices of the other lines. -/
theorem State.testLine_unclaimed {s : State} {n : LineNo} {l : List LineNo} (hn : s.outbox.hasClaimNotice (clientOf n) = false) (hl : n ∉ l)
    (h : s.unclaimed l) : (s.testLine n).session = s.session ∧ (s.testLine n).unclaimed l := by
  have written : ∀ v, (s.setSlot (clientOf n) v).session = s.session ∧ (s.setSlot (clientOf n) v).unclaimed l := fun v =>
    ⟨s.setSlot_session _ v, by rw [State.unclaimed, State.setSlot_outbox]; exact h⟩
  simp only [State.testLine_eq, State.risen, State.claimed, State.handedIn, hn, Bool.false_eq_true, if_false]
  split_ifs
  · exact written _
  · refine ⟨by simp, fun m hm => ?_⟩
    have other : clientOf m ≠ clientOf n := fun e => hl (clientOf_inj.1 e ▸ hm)
    rw [State.setSlot_outbox, State.setOutbox_outbox, Outbox.hasClaimNotice_place rfl other]
    exact h m hm
  · exact written _
  · exact ⟨rfl, h⟩

theorem State.testEach_session {s : State} {l : List LineNo} (hl : l.Nodup) (h : s.unclaimed l) :
    (l.foldl State.testLine s).session = s.session := by
  induction l generalizing s with
  | nil => rfl
  | cons n l ih =>
    obtain ⟨fresh, rest⟩ := List.nodup_cons.1 hl
    obtain ⟨hn, others⟩ := List.forall_mem_cons.1 h
    obtain ⟨same, next⟩ := State.testLine_unclaimed hn fresh others
    exact (ih rest next).trans same

/-- No claim notice waits: every line is tested without a mismatch. -/
theorem State.testLines_session {s : State} (h : ∀ e ∈ s.outbox.entries, claimClient e.body = none) : s.testLines.session = s.session := by
  refine State.testEach_session (by decide) fun n _ => ?_
  simp only [Outbox.hasClaimNotice, List.any_eq_false]
  intro e he
  simp [h e he]

/-! ### The event of a notice that makes the station ACTIVE (R120, R163) -/

/-- The station with its current table check worked out. -/
def State.checked (s : State) : State := s.setChecker { s.checker with tableCheck := tableCheckOf s.session.members s.pool.records }

theorem Clean.checked {s : State} (h : Clean s) : s.checked = s.held s.pool (tableCheckOf s.session.members s.pool.records) := by
  rw [h.held]
  rfl

/-- A notice whose handling makes the station ACTIVE and tests its lines. -/
structure Activates (s : State) (h : Heard) (a : State) : Prop where
  room : s.makeRoom h false none = s
  handled : s.handle h = a.testLines
  clean : Clean a
  active : a.session.station = .active
  sound : AllSound a
  unclaimed : ∀ e ∈ a.outbox.entries, claimClient e.body = none
  notLoading : s.session.station ≠ .loading
  changed : a.session.members ≠ s.session.members

section
variable {s a : State} {h : Heard}

/-- The check of the changed table is worked out after the lines are tested, which do not look at it. -/
theorem Activates.recheck (k : Activates s h a) : State.recheck s a.testLines = a.checked.testLines := by
  have quiet := a.testLines_quiet
  obtain ⟨members, -, -, records, -⟩ := quiet.replica
  obtain ⟨recordsSound, membersSound⟩ := k.sound
  have pool : a.testLines.pool = a.pool := quiet.pool_same (State.poolFails_sound recordsSound)
  have clean : Clean a.testLines := testLines_blind.clean k.clean
  have afresh : a.testLines.keepsCheck s = false := by
    rw [State.keepsCheck_other k.notLoading, members]
    simp [k.changed]
  have pass : a.testLines.poolFails = false := State.poolFails_sound (by rw [pool]; exact recordsSound)
  have read : a.testLines.membersFail sixteen = false := by simp [State.membersFail, members, membersSound]
  have blind := testLines_blind a a.pool (tableCheckOf a.session.members a.pool.records)
  rw [State.recheck_new afresh pass read, k.clean.checked, blind, ← pool, clean.held, members]
  rfl

/-- The whole event: the lines are tested, and the entry to ACTIVE is posted last. -/
theorem Activates.takeNotice (k : Activates s h a) :
    s.takeNotice h false none = State.postActive s.session.station (eight.foldl State.risen a.checked) := by
  have silent : NothingToAnswer a.checked.testLines := State.testLines_roomWork.silent _ k.clean.1
  rw [State.takeNotice, k.room, k.handled, k.recheck, State.makeAnswers_none (.inl silent), State.testLines_risen]

/-- The station that tested its lines is ACTIVE still. -/
theorem Activates.ends (k : Activates s h a) :
    (eight.foldl State.risen a.checked).session.station = .active ∧ (eight.foldl State.risen a.checked).own = a.own := by
  rw [← State.testLines_risen]
  obtain ⟨-, -, straps, -⟩ := a.checked.testLines_quiet.moves.kept
  refine ⟨?_, congrArg Straps.address straps⟩
  rw [State.testLines_session (s := a.checked) k.unclaimed]
  exact k.active

theorem State.postActive_founding {t : State} (h : t.session.station = .active) :
    State.postActive .founding t = t.post (.stationState .active .founded) t.own := by
  simp only [State.postActive, h]

theorem State.postActive_announcing {t : State} (h : t.session.station = .active) :
    State.postActive .announcing t = t.post (.stationState .active .synced) t.own := by
  simp only [State.postActive, h]

end

/-- A record written, read off for every address. -/
theorem Table.write_ofFn (t : Table) (a : Addr) : t.write a .present none =
    Vector.ofFn fun b : Addr => if b = a then ⟨.present, none, true⟩ else t.get b := by
  refine Vector.ext fun i hi => ?_
  have wrote := Table.get_write t a ⟨i, hi⟩ .present none
  rw [Vector.get_eq_getElem] at wrote
  simpa using wrote

/-! ### The own FOUND (R129) -/

/-- The station of a session of its own, before the lines are tested. -/
def State.ownSession (s : State) (tag : Word) : State := { s with
  session := { s.session with
    station := .active, members := founderTable s.own, founded := true, tag := tag, count := 0#16, leaveDest := none }
  timers := { s.timers with beacon := some 0, absence := Vector.replicate 16 none }
  pool := ⟨[], false⟩
  port := { s.port with locked := true }
  checker := { s.checker with suspect := none, resyncPending := false } }

theorem State.found_eq (s : State) (tag : Word) : s.found tag = (s.ownSession tag).testLines := rfl

theorem founderTable_ne (own : Addr) : founderTable own ≠ .empty := fun e => by
  have own_present := Table.get_write .empty own own .present none
  rw [show Table.empty.write own .present none = .empty from e, Table.empty_get] at own_present
  simp [Member.absent] at own_present

theorem founderTable_sound (own a : Addr) : ((founderTable own).get a).sound = true := by
  rw [founderTable, Table.get_write, Table.empty_get]
  split <;> rfl

section
variable {s : State} {tag k : Word} (hs : s.session.station = .founding) (hm : s.session.members = .empty) (ha : NothingToAnswer s)
    (hc : ∀ e ∈ s.outbox.entries, claimClient e.body = none)
include hs hm ha hc

/-- A FOUNDING station takes its own FOUND. -/
theorem State.ownFound_activates : Activates s ⟨⟨tag, s.own, .found k⟩, true⟩ (s.ownSession tag) where
  room := State.makeRoom_same (by rw [State.recall, hs]; rfl)
  handled := by rw [State.handle, hs]; exact s.found_eq tag
  clean := ⟨ha, rfl⟩
  active := rfl
  sound := ⟨nofun, founderTable_sound s.own⟩
  unclaimed := hc
  notLoading := by rw [hs]; nofun
  changed := by rw [hm]; exact founderTable_ne s.own

/-- Its lines are tested, and the entry to ACTIVE is posted. -/
theorem State.takeNotice_ownFound : s.takeNotice ⟨⟨tag, s.own, .found k⟩, true⟩ false none =
    (eight.foldl State.risen (s.ownSession tag).checked).post (.stationState .active .founded) s.own := by
  have enters := State.ownFound_activates (tag := tag) (k := k) hs hm ha hc
  obtain ⟨active, own⟩ := enters.ends
  rw [enters.takeNotice, hs, State.postActive_founding active, own]
  rfl

end

/-- Settles O27: the FOUND makes the station ACTIVE, and the lines claim whatever the table check is. -/
theorem founderFoundsTheSession : Obligations.FounderFoundsTheSession := by
  intro s tag k hs hd hm hp ha hc
  have table : founderTable s.own = Vector.ofFn fun a : Addr => if a = s.own then ⟨.present, none, true⟩ else ⟨.absent, none, true⟩ := by
    simp only [founderTable, Table.write_ofFn, Table.empty_get, Member.absent]
  have founds := State.takeNotice_ownFound (s := s.taking) (tag := tag) (k := k) hs hm ha hc
  have station : (s.taking.ownSession tag).checked = { s.taking with
      session := { s.session with
        station := .active, members := founderTable s.own, founded := true, tag := tag, count := 0#16, leaveDest := none }
      timers := { s.timers with beacon := some 0, absence := Vector.replicate 16 none }
      port := { s.port with locked := true }
      checker := ⟨tableCheckOf (founderTable s.own) [], s.checker.profileCheck, none, false⟩ } := by
    simp only [State.taking, hp]; rfl
  rw [station, table] at founds
  exact (exec_noticeEffectsMade hd).trans (congrArg Host.Outcome.next founds)

/-! ### The own BEACON (R140) -/

/-- The station with its record PRESENT and MEMBER_STATE posted, ACTIVE, before the lines are tested. -/
def State.ownPresent (s : State) : State := { s with
  session := { s.session with station := .active, members := s.session.members.write s.own .present none }
  port := { s.port with
    locked := true, attn := true, events := enqueue s.own s.port.events (s.event (.memberState .present) s.own) } }

section
variable {s : State} {check n : Word}

/-- The synchronized BEACON of a SYNCING member makes its record PRESENT (R133, R140). -/
theorem memberEffect_beacon {t : Table} {tag : Word} {a : Addr} (h : (t.get a).state = .syncing) :
    memberEffect t ⟨tag, a, .beacon check n true⟩ = ⟨t.write a .present none, [(a, .present)]⟩ := by
  simp [memberEffect, Table.stateOf, h]

/-- Writing an absence timer as it stands changes nothing. -/
theorem absence_set_get (v : Vector (Option Nat) 16) (a : Addr) : v.set a.val (v.get a) a.isLt = v := by
  simp [Vector.get_eq_getElem]

/-- Steps 1 to 4 of the own BEACON: its record is PRESENT, and MEMBER_STATE is posted. -/
theorem State.fourSteps_beacon (hr : AllSound s) (x : Option EndReason) (t : Table) :
    s.fourSteps ⟨⟨s.session.tag, s.own, .beacon check n true⟩, true⟩ ⟨t, [(s.own, .present)]⟩ x =
      (s.setMembers t).post (.memberState .present) s.own := by
  obtain ⟨-, sound⟩ := hr
  have one : s.stepOne ⟨⟨s.session.tag, s.own, .beacon check n true⟩, true⟩ = s := by
    have clash : (s.countNotice (.beacon check n true)).noteClash ⟨⟨s.session.tag, s.own, .beacon check n true⟩, true⟩ = s := by
      simp [State.countNotice, counted, State.noteClash]
    rw [State.stepOne, clash]
    exact State.readMembers_sound fun a _ => sound a
  have two : s.restartAbsence s.own = s := by simp [State.restartAbsence]
  simp only [State.fourSteps, one, two, State.poolEffect, State.liveMembers, List.foldl_cons, List.foldl_nil, State.memberChanged,
    State.changedTimer]
  have timer : (s.setMembers t).timers.absence.set s.own.val ((s.setMembers t).timers.absence.get s.own) s.own.isLt =
      (s.setMembers t).timers.absence := absence_set_get _ _
  rw [timer]
  rfl

/-- The station that made its own record PRESENT is ACTIVE, and its lines are tested (R73, R140). -/
theorem State.localEffects_beacon {a : Addr} (ho : s.own = a) (hc : Clean s) (hs : s.session.station = .announcing) (tag : Word) (t : Table) :
    s.localEffects ⟨⟨tag, a, .beacon check n true⟩, true⟩ ⟨t, [(a, .present)]⟩ = (s.change .active).testLines := by
  rw [State.localEffects, hc.pruneAnswers, hc.clearSuspect]
  simp [State.checkServing, State.kindEffects, State.takeBeacon, hs, ho]

theorem Table.write_sound {t : Table} (h : ∀ a, (t.get a).sound = true) (a b : Addr) (st : MemberState) (p : Option Addr) :
    ((t.write a st p).get b).sound = true := by
  rw [Table.get_write]
  split
  · rfl
  · exact h b

variable (hs : s.session.station = .announcing) (hm : (s.session.members.get s.own).state = .syncing)
    (hr : AllSound s) (ha : NothingToAnswer s) (hx : s.checker.suspect = none)
    (hc : ∀ e ∈ s.outbox.entries, claimClient e.body = none)
include hs hm hr ha hx hc

/-- An ANNOUNCING station that takes its own synchronized BEACON while its record is SYNCING. -/
theorem State.ownBeacon_activates :
    Activates s ⟨⟨s.session.tag, s.own, .beacon check n true⟩, true⟩ s.ownPresent where
  room := by
    obtain ⟨-, serving⟩ := ha
    refine State.makeRoom_same (State.recall_same (.inr (.inr (.inr (.inr ⟨.inl hs, rfl, fun v hv => ?_⟩)))))
    rw [serving] at hv
    cases hv
  handled := by
    have effect := memberEffect_beacon (check := check) (n := n) (tag := s.session.tag) hm
    have stays : ending s.own s.session.station ⟨⟨s.session.tag, s.own, .beacon check n true⟩, true⟩
        ⟨s.session.members.write s.own .present none, [(s.own, .present)]⟩ = none := by
      simp [ending, hs, losesPlace, namedTarget]
    have synced : ((s.setMembers (s.session.members.write s.own .present none)).post (.memberState .present) s.own).change .active =
        s.ownPresent := rfl
    rw [State.handle_member (.inl hs) rfl rfl, State.applyNotice_stays effect stays, State.fourSteps_beacon hr, ← synced]
    refine State.localEffects_beacon ?_ ?_ ?_ _ _
    · rfl
    · exact ⟨ha, hx⟩
    · exact hs
  clean := ⟨ha, hx⟩
  active := rfl
  sound := by
    obtain ⟨records, members⟩ := hr
    exact ⟨records, fun a => Table.write_sound members s.own a .present none⟩
  unclaimed := hc
  notLoading := by rw [hs]; nofun
  changed := fun e => by
    have present := Table.get_write s.session.members s.own s.own .present none
    rw [show s.session.members.write s.own .present none = s.session.members from e, if_pos rfl] at present
    rw [present] at hm
    cases hm

/-- Its lines are tested, and the entry to ACTIVE is posted. -/
theorem State.takeNotice_ownBeacon :
    s.takeNotice ⟨⟨s.session.tag, s.own, .beacon check n true⟩, true⟩ false none =
      (eight.foldl State.risen s.ownPresent.checked).post (.stationState .active .synced) s.own := by
  have enters := State.ownBeacon_activates (check := check) (n := n) hs hm hr ha hx hc
  obtain ⟨active, own⟩ := enters.ends
  rw [enters.takeNotice, hs, State.postActive_announcing active, own]
  rfl

end

/-- Settles O28: the BEACON makes the record PRESENT and the station ACTIVE, and the lines claim whatever the table check is. -/
theorem ownBeaconMakesActive : Obligations.OwnBeaconMakesActive := by
  intro s check n hs hd hm hr ha hx hc
  have synced := State.takeNotice_ownBeacon (s := s.taking) (check := check) (n := n) hs hm hr ha hx hc
  rw [State.ownPresent, Table.write_ofFn] at synced
  exact (exec_noticeEffectsMade hd).trans (congrArg Host.Outcome.next synced)

end Sys2Proof.Machine
end

