-- ==== Sys2Proof/Proofs/OutboxForms.lean ====
section
/-! PROOFS. What every step keeps of the Outbox: its bounds, its order, and the one offer of a round (O56). -/

namespace Sys2Proof.Machine

/-! ### The order of entries (R108) -/

/-- Tier, then class, higher first, then placement number, lower first. -/
theorem Entry.before_iff (a b : Entry) : a.before b = true ↔ b.body.tier < a.body.tier ∨
    b.body.tier = a.body.tier ∧ (b.body.cls.val < a.body.cls.val ∨ b.body.cls.val = a.body.cls.val ∧ a.number < b.number) := by
  have classes : a.body.cls = b.body.cls ↔ b.body.cls.val = a.body.cls.val := by rw [Fin.ext_iff, eq_comm]
  simp only [Entry.before, Bool.or_eq_true, Bool.and_eq_true, decide_eq_true_eq, classes, ← Fin.val_fin_lt, eq_comm (a := a.body.tier)]

/-- Of two entries at most one goes before the other. -/
theorem Entry.before_asymm {a b : Entry} (h : a.before b = true) : b.before a = false := by
  rw [Entry.before_iff] at h
  rw [← Bool.not_eq_true, Entry.before_iff]
  omega

/-- An entry that goes before one goes before all that stand behind that one. -/
theorem Entry.before_behind {e x y : Entry} (h : e.before x = true) (hxy : y.before x = false) : y.before e = false := by
  rw [← Bool.not_eq_true, Entry.before_iff] at hxy ⊢
  rw [Entry.before_iff] at h
  omega

/-- A placed entry is one more. -/
theorem insertEntry_perm (e : Entry) (l : List Entry) : (insertEntry e l).Perm (e :: l) := by
  induction l with
  | nil => exact .refl _
  | cons x l ih =>
    rw [insertEntry]
    split
    · exact .refl _
    · exact (ih.cons x).trans (.swap e x l)

/-- A placed entry takes the place its order gives it (R108). -/
theorem insertEntry_ordered (e : Entry) {l : List Entry} (h : l.Pairwise fun a b => b.before a = false) :
    (insertEntry e l).Pairwise fun a b => b.before a = false := by
  induction l with
  | nil => exact List.pairwise_singleton ..
  | cons x l ih =>
    obtain ⟨behind, rest⟩ := List.pairwise_cons.1 h
    rw [insertEntry]
    split
    · rename_i ahead
      refine List.pairwise_cons.2 ⟨fun y hy => ?_, h⟩
      rcases List.mem_cons.1 hy with rfl | hy
      · exact Entry.before_asymm ahead
      · exact Entry.before_behind ahead (behind y hy)
    · rename_i stays
      refine List.pairwise_cons.2 ⟨fun y hy => ?_, ih rest⟩
      rcases mem_insertEntry.1 hy with rfl | hy
      · exact Bool.not_eq_true _ ▸ stays
      · exact behind y hy

/-! ### The form of the Outbox (R107 to R109) -/

/-- Room for a tier (R109). -/
theorem Outbox.room_iff (o : Outbox) (tier : Nat) : o.room tier = true ↔
    o.entries.length < 8 ∧ (tier = 3 ∨ lowTier o.entries < 6) := by
  simp only [Outbox.room, Bool.and_eq_true, Bool.or_eq_true, decide_eq_true_eq]
  rfl

/-- An entry that finds room is placed. -/
theorem OutboxForm.insert {o : Outbox} (h : OutboxForm o) {e : Entry} (room : o.room e.body.tier = true) (n : Nat) :
    OutboxForm ⟨insertEntry e o.entries, n⟩ := by
  obtain ⟨-, low, ordered⟩ := h
  obtain ⟨place, lowPlace⟩ := (o.room_iff _).1 room
  have placed := insertEntry_perm e o.entries
  refine ⟨?_, ?_, insertEntry_ordered e ordered⟩
  · rw [placed.length_eq]
    exact place
  · rw [(placed.filter _).length_eq, List.filter_cons]
    split
    · rename_i below
      exact lowPlace.resolve_left fun top => by simp [top] at below
    · exact low

/-- A submission is placed where there is room for it, and else changes nothing. -/
theorem OutboxForm.submit {o : Outbox} (h : OutboxForm o) (b : Body) (tag : Word) (w : Owner) : OutboxForm (o.submit b tag w).1 := by
  rw [Outbox.submit]
  split
  · exact h
  · split
    · rename_i room
      exact h.insert room _
    · exact h

theorem OutboxForm.without {o : Outbox} (h : OutboxForm o) (test : Entry → Bool) : OutboxForm (o.without test) := by
  obtain ⟨full, low, ordered⟩ := h
  have fewer : (o.without test).entries.Sublist o.entries := List.filter_sublist
  exact ⟨fewer.length_le.trans full, (fewer.filter _).length_le.trans low, ordered.sublist fewer⟩

/-- The form is one of bodies and placement numbers: changing other fields of the entries neither makes nor breaks it. -/
theorem outboxForm_map {f : Entry → Entry} (hf : ∀ e, (f e).body = e.body ∧ (f e).number = e.number) (o : Outbox) :
    OutboxForm (o.map f) ↔ OutboxForm o := by
  have order : ∀ a b, (f b).before (f a) = b.before a := fun a b => by
    obtain ⟨ha, na⟩ := hf a
    obtain ⟨hb, nb⟩ := hf b
    simp only [Entry.before, ha, na, hb, nb]
  have tiers : ((fun e => decide (e.body.tier < 3)) ∘ f) = fun e : Entry => decide (e.body.tier < 3) := by
    funext e
    rw [Function.comp, (hf e).1]
  simp only [OutboxForm, Outbox.map, List.length_map, List.filter_map, tiers, List.pairwise_map, order]

/-- An entry with its offer out of sight. -/
def Entry.unoffered (e : Entry) : Entry := { e with offered := false }

theorem OutboxForm.offerFirst {o : Outbox} (h : OutboxForm o) : OutboxForm o.offerFirst := by
  have same : o.offerFirst.map Entry.unoffered = o.map Entry.unoffered := by
    rw [Outbox.offerFirst]
    split
    · rfl
    · rename_i e es he
      simp only [Outbox.map, he]
      rfl
  rw [← outboxForm_map (f := Entry.unoffered) fun _ => ⟨rfl, rfl⟩, same]
  exact (outboxForm_map (f := Entry.unoffered) (fun _ => ⟨rfl, rfl⟩) o).2 h

theorem OutboxForm.quiet {s t : State} (k : Quiet s t) (h : OutboxForm s.outbox) : OutboxForm t.outbox := by
  cases k with
  | submit b tag w => exact h.submit b tag w
  | drop test => exact h.without test
  | mark f hf => exact (outboxForm_map (fun e => ⟨(hf e).1, (hf e).2.1⟩) _).2 h
  | slot c v => rw [State.setSlot_outbox]; exact h
  | _ => exact h

theorem OutboxForm.move {s t : State} (k : Move s t) (h : OutboxForm s.outbox) : OutboxForm t.outbox := by
  cases k with
  | quiet q => exact h.quiet q
  | offer => exact h.offerFirst
  | _ => exact h

/-! ### The offer (R84, R108, R114) -/

/-- How many entries are offered. -/
def Outbox.offers (o : Outbox) : Nat := (o.entries.filter Entry.offered).length

theorem offerForm_iff (s : State) : OfferForm s ↔ s.outbox.offers ≤ 1 ∧ (s.bus.round = none → s.outbox.offers = 0) := by
  simp only [OfferForm, Outbox.offers, List.length_eq_zero_iff]

/-- No entry is offered. -/
theorem Outbox.offers_zero {o : Outbox} (h : o.offered = none) : o.offers = 0 := by
  rw [Outbox.offers, List.length_eq_zero_iff, List.filter_eq_nil_iff]
  exact List.find?_eq_none.1 h

theorem Outbox.offers_submit (o : Outbox) (b : Body) (tag : Word) (w : Owner) : (o.submit b tag w).1.offers = o.offers := by
  rw [Outbox.submit]
  split
  · rfl
  · split
    · rw [Outbox.offers, Outbox.place, insertEntry_offered rfl]
      rfl
    · rfl

theorem Outbox.offers_without (o : Outbox) (test : Entry → Bool) : (o.without test).offers ≤ o.offers :=
  ((List.filter_sublist (l := o.entries)).filter Entry.offered).length_le

/-- A change that offers no entry anew. -/
theorem Outbox.offers_map {f : Entry → Entry} (hf : ∀ e, (f e).offered = true → e.offered = true) (o : Outbox) :
    (o.map f).offers ≤ o.offers := by
  simp only [Outbox.offers, Outbox.map, List.filter_map, List.length_map]
  exact (List.monotone_filter_right o.entries fun e he => hf e he).length_le

/-- The first entry is offered where none was. -/
theorem Outbox.offers_offerFirst {o : Outbox} (h : o.offers = 0) : o.offerFirst.offers ≤ 1 := by
  rw [Outbox.offerFirst]
  split
  · omega
  · rename_i e es he
    rw [Outbox.offers, he, List.length_eq_zero_iff, List.filter_eq_nil_iff] at h
    have rest : es.filter Entry.offered = [] := List.filter_eq_nil_iff.2 fun x hx => h x (List.mem_cons_of_mem e hx)
    simp [Outbox.offers, rest]

/-- A quiet update offers no entry anew. -/
theorem Quiet.offers {s t : State} (k : Quiet s t) : t.outbox.offers ≤ s.outbox.offers := by
  cases k with
  | submit b tag w => exact (Outbox.offers_submit ..).le
  | drop test => exact Outbox.offers_without ..
  | mark f hf => exact Outbox.offers_map (fun e => (hf e).2.2) _
  | slot c v => rw [State.setSlot_outbox]
  | _ => exact le_refl _

theorem OfferForm.move {s t : State} (k : Move s t) (h : OfferForm s) : OfferForm t := by
  rw [offerForm_iff] at h ⊢
  obtain ⟨one, outside⟩ := h
  cases k with
  | quiet q =>
    have fewer := q.offers
    refine ⟨fewer.trans one, fun idle => ?_⟩
    have before := outside (q.bus ▸ idle)
    omega
  | offer x idle => exact ⟨Outbox.offers_offerFirst (outside idle), nofun⟩
  | bus x ends => exact ⟨one, fun idle => (ends idle).elim outside Outbox.offers_zero⟩
  | _ => exact ⟨one, outside⟩

/-! ### Every step -/

/-- The Outbox is in order, and offers within a round alone. -/
def OutboxInForm (s : State) : Prop := OutboxForm s.outbox ∧ OfferForm s

theorem OutboxInForm.moves {s t : State} (k : Moves s t) (h : OutboxInForm s) : OutboxInForm t := by
  induction k with
  | refl => exact h
  | tail _ k ih => exact ⟨ih.1.move k, ih.2.move k⟩

/-- The end of a taken round comes with no entry offered; pointer and tag are no part of the form. -/
theorem OutboxInForm.turn {s t : State} (k : Turn s t) (h : OutboxInForm s) : OutboxInForm t := by
  cases k with
  | moves k => exact h.moves k
  | round x none =>
    have zero := Outbox.offers_zero none
    exact ⟨h.1, (offerForm_iff _).2 ⟨zero.le.trans zero_le_one, fun _ => zero⟩⟩
  | pointer => exact h
  | newTag => exact h

theorem OutboxInForm.turns {s t : State} (k : Turns s t) (h : OutboxInForm s) : OutboxInForm t := by
  induction k with
  | refl => exact h
  | tail _ k ih => exact ih.turn k

theorem OutboxInForm.reset (rest : List Instr) : OutboxInForm { State.reset with pending := rest } := by
  obtain ⟨-, -, -, -, outbox, offer, -⟩ := invariantsHoldAtReset
  exact ⟨outbox, offer⟩

theorem step_keeps_outboxInForm {s t : State} (h : step s = .next t) (p : OutboxInForm s) : OutboxInForm t := by
  rcases step_cases h with rfl | ⟨rest, rfl⟩ | ⟨rest, a, f, rfl⟩ | ⟨rest, -, k⟩
  · obtain ⟨_, _, _, e⟩ := s.tick_eq
    rw [e]; exact p
  · exact .reset rest
  · obtain ⟨_, _, e⟩ := ({ s with pending := rest } : State).resetRelease_eq a f
    rw [e]; exact p
  · exact OutboxInForm.turns k p

/-- Settles O56: bounds, order and offer are kept by every elementary update, so by every step. -/
theorem stepKeepsOutboxForm : Obligations.StepKeepsOutboxForm := fun _ _ form offer h => step_keeps_outboxInForm h ⟨form, offer⟩

end Sys2Proof.Machine
end

