-- ==== Sys2Proof/Proofs/StationCommands.lean ====
section
/-! PROOFS. STOP, RESYNC and CLEAR_FAULT outside a session, by station state (O8; R131, R181). -/

namespace Sys2Proof.Machine

section
variable {s : State} (hr : s.resetHeld = false) (hd : s.bus.delivered = none)
include hr hd

theorem exec_stop_answered : exec .stop s = .next (s.decideStop.state.answered s.decideStop.status s.decideStop.data) := by
  rw [exec_stop_decided, State.flush_none hd, s.frame_eq _ hr]

theorem exec_resync_answered : exec .resync s = .next (s.decideResync.state.answered s.decideResync.status s.decideResync.data) := by
  rw [exec_resync_decided, State.flush_none hd, s.frame_eq _ hr]

theorem exec_clearFault_answered :
    exec .clearFault s = .next (s.decideClearFault.state.answered s.decideClearFault.status s.decideClearFault.data) := by
  have clear : exec .clearFault s = .next (s.frame s.flush.decideClearFault) := rfl
  rw [clear, State.flush_none hd, s.frame_eq _ hr]

end

section
variable {s : State}

/-- STOP before a session: what was asked is recalled, the timer stops, the tag is discarded (R131). -/
theorem State.decideStop_listening (hs : s.session.station = .listening) : s.decideStop = (s.stopListen.goOffline .stop).accept := by
  rw [State.decideStop, hs]

theorem State.decideStop_founding (hs : s.session.station = .founding) (hn : NothingOwed s) :
    s.decideStop = ((s.askBack fun e => e.body.isFound).goOffline .stop).accept := by
  rw [State.decideStop, hs, State.removeFound, State.requestRemoval_none hn]
  rfl

theorem State.decideStop_seeking (hs : s.session.station = .seeking) (hn : NothingOwed s) :
    s.decideStop = ((s.askBack fun e => e.body.isJoin).stopAnswer.goOffline .stop).accept := by
  rw [State.decideStop, hs, State.removeJoin, State.requestRemoval_none hn]
  rfl

theorem State.decideStop_backoff (hs : s.session.station = .backoff) (hn : NothingOwed s) :
    s.decideStop =
      (((s.askBack fun e => e.body.isJoin).setTimers { s.timers with backoff := none }).goOffline .stop).accept := by
  rw [State.decideStop, hs, State.removeJoin, State.requestRemoval_none hn]
  rfl

theorem State.decideStop_leaving (hs : s.session.station = .leaving) :
    s.decideStop = (s.setSession { s.session with leaveDest := some .offline }).accept := by rw [State.decideStop, hs]

theorem State.decideStop_outside (hs : s.session.station = .offline ∨ s.session.station = .faulted) :
    s.decideStop = s.deny .wrongState := by rcases hs with hs | hs <;> rw [State.decideStop, hs]

end

/-- Settles O8: each command by the state it meets, with nothing owed that an entry asked back could make room for. -/
theorem stationCommandsByState : Obligations.StationCommandsByState := by
  refine ⟨fun s hr hd hn => ?_, fun s hr hd => ?_⟩
  · rw [exec_stop_answered hr hd]
    refine ⟨fun hs => ?_, fun hs => ?_, fun hs => ?_, fun hs => ?_⟩
    · rw [State.decideStop_listening hs]; rfl
    · rw [State.decideStop_founding hs hn]; rfl
    · rw [State.decideStop_seeking hs hn]; rfl
    · rw [State.decideStop_backoff hs hn]; rfl
  · rw [exec_stop_answered hr hd, exec_resync_answered hr hd, exec_clearFault_answered hr hd]
    refine ⟨fun hs => ?_, fun hs => ?_, fun hs => ?_, fun hs => ?_, fun hs => ?_⟩
    · rw [State.decideStop_leaving hs]; rfl
    · rw [State.decideStop_outside hs]; rfl
    · rw [State.decideResync, if_neg hs]; rfl
    · rw [State.decideClearFault, if_neg hs]; rfl
    · rw [State.decideClearFault, if_pos hs]; rfl

end Sys2Proof.Machine
end

