-- ==== Sys2Proof/Proofs/KeptOffers.lean ====
section
/-! PROOFS. The ends of a round that leave the offer in the Outbox: voided, missed, cut short by a stuck bus (O26; R98 to R105). -/

namespace Sys2Proof.Machine

section
variable {s : State} (hk : NoRemoval s)

/-- A settling that freed nothing leads to nothing more in its event. -/
theorem Settled.close_idle {x before : State} (h : x.sponsor = before.sponsor) :
    Settled.close before ⟨x, false, false, none⟩ = x := by
  have served : (before.sponsor.owedAnswer.isSome && x.sponsor.owedAnswer.isNone) = false := by
    rw [h]; cases before.sponsor.owedAnswer <;> rfl
  simp only [Settled.close, State.offerRoom, State.testEnded, State.answersAfter, Bool.false_eq_true, if_false, served, Bool.or_self]

/-- The station with its offer kept, at the end of a round with this own-void run. -/
def State.offerKept (s : State) (run : Nat) : State := { s with outbox := s.outbox.kept, bus := { s.bus with voidRun := run, round := none } }

include hk in
/-- A round that is voided without this station having carried: only the limit of the run leads to FAULTED (R98, R100). -/
theorem State.endVoided_heard (fault : Option ReceptionFault) : s.endVoided false fault =
    if 4 ≤ s.runAfter false fault then (s.offerKept (s.runAfter false fault)).fallen .receiveLimit
    else s.offerKept (s.runAfter false fault) := by
  have carried : s.voidLimitReached false = false := by
    rw [State.voidLimitReached]
    split <;> rfl
  have settled : s.voidRound false fault = ⟨s.offerKept (s.runAfter false fault), false, false, none⟩ := by
    rw [State.voidRound, if_neg Bool.false_ne_true, s.settle_kept hk]
    rfl
  have closes : Settled.close s ⟨s.offerKept (s.runAfter false fault), false, false, none⟩ = s.offerKept (s.runAfter false fault) :=
    Settled.close_idle rfl
  simp only [State.endVoided, settled, carried, closes, State.enterFaulted_eq, Config.voidRunLimit, Bool.false_eq_true, if_false]

/-- The station with the void counted for its offer. -/
def State.offerVoided (s : State) : State := { s with
  outbox := { s.outbox with entries := s.outbox.entries.map fun x =>
    if x.offered = true then { x with voids := x.voids + 1, offered := false } else x }
  bus := { s.bus with round := none } }

include hk in
/-- No removal was asked of the entry whose void is counted. -/
theorem State.countVoid_noRemoval : NoRemoval s.countVoid := by
  intro e he
  obtain ⟨x, hx, rfl⟩ := List.mem_map.1 he
  split <;> exact hk x hx

/-- The void counted and the offer back in its place (R99, R114). -/
theorem Outbox.kept_counted (o : Outbox) : (o.map fun e => if e.offered then { e with voids := e.voids + 1 } else e).kept =
    { o with entries := o.entries.map fun x => if x.offered = true then { x with voids := x.voids + 1, offered := false } else x } := by
  simp only [Outbox.kept, Outbox.map, List.map_map, Outbox.mk.injEq, and_true]
  refine List.map_congr_left fun x _ => ?_
  obtain ⟨_, _, _, _, _, offered, _⟩ := x
  cases offered <;> rfl

include hk in
/-- A round that is voided with this station as its carrier (R98 to R100). -/
theorem State.endVoided_carried {e : Entry} (ho : s.outbox.offered = some e) (fault : Option ReceptionFault) :
    s.endVoided true fault =
      if 16 ≤ e.voids + 1 then s.offerVoided.fallen .voidLimit
      else if 4 ≤ s.bus.voidRun then s.offerVoided.fallen .receiveLimit
      else s.offerVoided := by
  have limit : s.voidLimitReached true = decide (16 ≤ e.voids + 1) := by
    simp [State.voidLimitReached, ho, Config.voidLimit]
  have settled : s.voidRound true fault = ⟨s.offerVoided, false, false, none⟩ := by
    rw [State.voidRound, if_pos rfl, s.countVoid.settle_kept (State.countVoid_noRemoval hk), State.countVoid, State.setOutbox_outbox,
      Outbox.kept_counted, State.runAfter_carrier]
    rfl
  have closes : Settled.close s ⟨s.offerVoided, false, false, none⟩ = s.offerVoided := Settled.close_idle rfl
  simp only [State.endVoided, settled, limit, closes, State.runAfter_carrier, State.enterFaulted_eq, Config.voidRunLimit, decide_eq_true_eq]

include hk in
/-- A round that is missed or cut short. -/
theorem State.endUntaken_kept : s.endUntaken = { s with outbox := s.outbox.kept, bus := { s.bus with round := none } } := by
  rw [State.endUntaken, s.settleKept_eq hk]
  rfl

/-- A voting station misses no round (R95). -/
theorem exec_roundMissed_voting (hd : s.bus.delivered = none) (hs : s.session.station.inSession = true) (fault : ReceptionFault) :
    exec (.roundMissed fault) s = .next s := by
  have missed : exec (.roundMissed fault) s = .next s.roundMissed := rfl
  rw [missed, State.roundMissed]
  split
  · rfl
  · rw [State.flush_none hd, if_pos hs]

/-- A stuck bus does not get stuck again. -/
theorem exec_busStuck_again (hs : s.bus.stuck = true) : exec .busStuck s = .next s := by
  have stuck : exec .busStuck s = .next s.busStuck := rfl
  rw [stuck, State.busStuck, if_pos (by simp [hs])]

/-- The running absence timers start again (R105). -/
theorem exec_busRecovered_stuck (hr : s.resetHeld = false) (hs : s.bus.stuck = true) :
    exec .busRecovered s = .next { s with
      bus := { s.bus with stuck := false }
      timers := { s.timers with absence := Vector.ofFn fun a : Addr => (s.timers.absence.get a).map fun _ => 0 }
      port := { s.port with events := enqueue s.own s.port.events (s.event .busRecovered s.own), attn := true } } := by
  have recovered : exec .busRecovered s = .next s.busRecovered := rfl
  have restart : s.timers.absence.map (fun t => t.map fun _ => 0) =
      Vector.ofFn fun a : Addr => (s.timers.absence.get a).map fun _ => 0 := by
    refine Vector.ext fun i hi => ?_
    rw [Vector.getElem_map, Vector.getElem_ofFn]
    rfl
  rw [recovered, State.busRecovered, if_neg (by simp [hr, hs]), restart]
  rfl

end

/-- Settles O26: the settling keeps the offer, and what the counts reach decides. -/
theorem voidedMissedAndStuckRounds : Obligations.VoidedMissedAndStuckRounds := by
  refine ⟨fun s hn hd hk => ⟨fun fault => ?heard, fun e fault ho => ?carried⟩,
    fun s hk => ⟨fun fault hn hd => ?missed, fun hr hs hd => ?stuck, fun hr hs => ⟨exec_busStuck_again hs, exec_busRecovered_stuck hr hs⟩⟩⟩
  case heard =>
    dsimp only
    rw [exec_roundVoided_ends hd hn (won := false) (fun h => absurd h Bool.false_ne_true), State.endVoided_heard hk, State.runAfter_listener]
    rfl
  case carried =>
    rw [exec_roundVoided_ends hd hn fun _ => by rw [ho]; nofun, State.endVoided_carried hk ho]
    rfl
  case missed =>
    simp only [← StationState.inSession_iff]
    split
    · rename_i votes
      exact exec_roundMissed_voting hd votes fault
    · rename_i silent
      rw [exec_roundMissed_ends hd hn (Bool.not_eq_true _ ▸ silent), State.endUntaken_kept hk]
  case stuck =>
    have kept : NoRemoval ((s.post .busStuck s.own).setBus { s.bus with stuck := true }) := hk
    rw [exec_busStuck_ends hd hr hs, State.endUntaken_kept kept]
    rfl

end Sys2Proof.Machine
end

