-- ==== Sys2Proof/Proofs/TakenRounds.lean ====
section
/-! PROOFS. The end of a taken round: what is carried, the settling, the room of the entry taken, the delivery (O23; R90, R96, R112,
R139, R148, R183). -/

namespace Sys2Proof.Machine

/-! ### What is carried (R91, R139, R148) -/

section
variable (s : State) (e : Entry)

theorem State.filled_tag : (s.filled e).tag = e.tag := by
  rw [State.filled]; cases e.body <;> rfl

/-- A BEACON shows the replica as the station holds it (R139). -/
theorem State.filled_beacon {k n : Word} {f : Bool} (h : e.body = .beacon k n f) :
    (s.filled e).body = .beacon s.checker.tableCheck s.session.count (decide (s.session.station = .announcing ∨
      s.session.station = .active ∨ (s.session.station = .leaving ∧ s.session.leftSynced = true))) := by
  rw [State.filled, h, ← State.syncFlag_eq]

/-- An ADMIT tells the count that it leads to (R148). -/
theorem State.filled_admit {j : Addr} {n : Word} (h : e.body = .admitJoiner j n) :
    (s.filled e).body = .admitJoiner j (if s.session.founded then s.session.count + 1#16 else 0#16) := by
  rw [State.filled, h]

/-- Every other kind is carried with the fields of its entry. -/
theorem State.filled_other (hb : e.body.isBeacon = false) (ha : e.body.isAdmit = false) : (s.filled e).body = e.body := by
  rw [State.filled]
  split
  · rename_i h
    rw [h] at hb; cases hb
  · rename_i h
    rw [h] at ha; cases ha
  all_goals rfl

end

/-! ### The settling (R90, R96, R100) -/

section
variable {s : State}

/-- The station after a round with this sender: the Outbox as settled, the pointer next to the sender, no void run, no round. -/
def State.afterRound (s : State) (o : Outbox) (sender : Addr) : State :=
  { s with outbox := o, bus := { s.bus with pointer := sender + 1, voidRun := 0, round := none } }

/-- The notice of a round is delivered unless the station is OFFLINE or FAULTED (R96). -/
def State.deliverable (s : State) (h : Heard) : Option Heard :=
  if s.session.station ≠ .offline ∧ s.session.station ≠ .faulted then some h else none

/-- Delivery where the room leads to nothing: the round freed none, or the station owes nothing. -/
theorem Settled.deliver_idle {x : State} {h : Heard} {room snap : Bool} (hd : x.bus.delivered = none)
    (idle : ∀ k, (x.setCount k).offerRoom room none = x.setCount k) :
    Settled.deliver ⟨x, room, snap, none⟩ h .later = x.setBus { x.bus with delivered := x.deliverable h } := by
  simp only [Settled.deliver, StationState.delivers_iff, decide_eq_true_eq, State.deliverable]
  split
  · rw [State.dated_same (idle _)]
  · exact (idle x.session.count).trans (by rw [← hd]; rfl)

theorem exec_roundTaken_own {e : Entry} (hn : s.bus.round ≠ none) (hd : s.bus.delivered = none) (ho : s.outbox.offered = some e)
    (t : Timing) : exec (.roundTaken .own t) s = .next (s.endTaken ⟨s.filled e, true⟩ t) := by
  have taken : exec (.roundTaken .own t) s = .next (s.roundTaken .own t) := rfl
  obtain ⟨r, hr⟩ := Option.ne_none_iff_exists'.1 hn
  have carries : s.carries = true := by rw [State.carries, ho]; rfl
  simp only [taken, State.roundTaken, hr, carries, if_true, State.flush_none hd, State.takeOwn, ho]

/-- The own round: the entry taken leaves, and its room is to be offered. -/
theorem State.takeRound_carried {e : Entry} (ho : s.outbox.offered = some e) : s.takeRound ⟨s.filled e, true⟩ =
    ⟨s.afterRound (s.outbox.without Entry.offered) s.own, true, e.body.isSnap, none⟩ := by
  rw [s.takeRound_own _ rfl ho, State.filled_sender]
  rfl

/-- Another station's round: the offer stays. -/
theorem State.takeRound_heard (n : Notice) (hk : NoRemoval s) :
    s.takeRound ⟨n, false⟩ = ⟨s.afterRound s.outbox.kept n.sender, false, false, none⟩ := s.takeRound_kept _ rfl hk

/-- The own round of a station that owes nothing. -/
theorem State.endTaken_carried {e : Entry} (hd : s.bus.delivered = none) (ho : s.outbox.offered = some e) (hn : NothingOwed s) :
    s.endTaken ⟨s.filled e, true⟩ .later = (s.afterRound (s.outbox.without Entry.offered) s.own).setBus
      { s.bus with pointer := s.own + 1, voidRun := 0, round := none, delivered := s.deliverable ⟨s.filled e, true⟩ } := by
  rw [State.endTaken, State.takeRound_carried ho, Settled.deliver_idle (by exact hd)]
  · rfl
  · intro k
    have owed : NothingOwed ((s.afterRound (s.outbox.without Entry.offered) s.own).setCount k) := hn
    exact State.offerRoom_nothingOwed owed true

/-- The round of another station whose offer stays. -/
theorem State.endTaken_heard (n : Notice) (hd : s.bus.delivered = none) (hk : NoRemoval s) :
    s.endTaken ⟨n, false⟩ .later = (s.afterRound s.outbox.kept n.sender).setBus
      { s.bus with pointer := n.sender + 1, voidRun := 0, round := none, delivered := s.deliverable ⟨n, false⟩ } := by
  rw [State.endTaken, State.takeRound_heard n hk, Settled.deliver_idle (by exact hd) fun _ => rfl]
  rfl

/-! ### The room of the entry taken (R112, R183) -/

/-- OWED_NOTICE_PLACED where no answer is owed or none is to be made. -/
theorem exec_owedNoticePlaced_serves (hd : s.bus.delivered = none) (ha : s.sponsor.owedAnswer = none ∨ NothingToAnswer s) :
    exec .owedNoticePlaced s = .next s.serveOwed := by
  rw [exec_owedNoticePlaced_room, State.flush_none hd, State.roomEvent_eq (ha.imp_right (State.serveOwed_roomWork.silent s))]

/-- Room where no slot ended: what is owed is served, and no line is tested. -/
theorem State.offerRoom_serves (u : State) : u.offerRoom true none = u.serveOwed := rfl

/-- A count replaced by itself. -/
theorem State.setCount_held {u : State} {k : Word} (h : u.session.count = k) : u.setCount k = u := by rw [← h]; rfl

/-- A delivery replaced by itself. -/
theorem State.setDelivered_held {u : State} {d : Option Heard} (h : u.bus.delivered = d) :
    u.setBus { u.bus with delivered := d } = u := by rw [← h]; rfl

/-- The owed notices are offered the room with the count of the notice, ahead of its effects. -/
theorem State.endTaken_serves {e : Entry} (hd : s.bus.delivered = none) (ho : s.outbox.offered = some e) :
    s.endTaken ⟨s.filled e, true⟩ .later =
      (let t := ((s.afterRound (s.outbox.without Entry.offered) s.own).setCount (s.countWith (s.filled e))).serveOwed
      (t.setCount s.session.count).setBus { t.bus with delivered := s.deliverable ⟨s.filled e, true⟩ }) := by
  rw [State.endTaken, State.takeRound_carried ho]
  generalize hx : s.afterRound (s.outbox.without Entry.offered) s.own = x
  have session : x.session = s.session := by rw [← hx]; rfl
  have idle : x.bus.delivered = none := by rw [← hx]; exact hd
  have after : x.countAfter (s.filled e) = s.countWith (s.filled e) := by
    rw [← s.countAfter_eq]; simp only [State.countAfter, session]
  have delivers : x.session.station.delivers = decide (s.session.station ≠ .offline ∧ s.session.station ≠ .faulted) := by
    rw [session, StationState.delivers_iff]
  simp only [Settled.deliver, delivers, decide_eq_true_eq, State.deliverable, State.offerRoom_serves]
  split
  · rw [State.dated, after, session]
    generalize (x.setCount (s.countWith (s.filled e))).serveOwed = served
    rfl
  · rename_i silent
    have quiet := x.serveOwed_quiet
    obtain ⟨-, -, count, -⟩ := quiet.replica
    rw [s.countWith_undelivered silent, State.setCount_held (u := x) (by rw [session]),
      State.setCount_held (u := x.serveOwed) (by rw [count, session]),
      State.setDelivered_held (by rw [quiet.bus, idle])]

end

/-- Settles O23: the settled station, its room offered to what is owed, and the notice delivered. -/
theorem takenRoundSettlesAndDelivers : Obligations.TakenRoundSettlesAndDelivers := by
  refine ⟨fun s e hn hd ho owed => ?carried, fun s t e hn hd ho ha ht => ?serves, fun s r w bs n hr hd hw hc hk => ?heard,
    fun s e => ⟨s.filled_tag e, s.filled_sender e, fun k n f h => s.filled_beacon e h, fun j n h => s.filled_admit e h, s.filled_other e⟩⟩
  case carried =>
    rw [exec_roundTaken_own hn hd ho, State.endTaken_carried hd ho owed]
    rfl
  case serves =>
    have serves := exec_owedNoticePlaced_serves
      (s := (s.afterRound (s.outbox.without Entry.offered) s.own).setCount (s.countWith (s.filled e))) hd ha
    have made : ((s.afterRound (s.outbox.without Entry.offered) s.own).setCount (s.countWith (s.filled e))).serveOwed = t :=
      Host.Outcome.next.inj (serves.symm.trans ht)
    rw [exec_roundTaken_own hn hd ho, State.endTaken_serves hd ho]
    dsimp only
    rw [made]
    rfl
  case heard =>
    rw [exec_roundTaken_other hd hr hw hc, State.endTaken_heard n hd hk]
    rfl

end Sys2Proof.Machine
end

