-- ==== Sys2Proof/Proofs/Contention.lean ====
section
/-! PROOFS. The start of a round and its contention: the start bit, the numbers, and the line bit by bit (O22; R84 to R88). -/

namespace Sys2Proof.Machine

/-! ### The start of a round (R84, R86, R104) -/

section
variable {s : State}

theorem exec_roundStart_eq : exec .roundStart s = .next s.roundStart := rfl

/-- No round starts in one, on a stuck bus, or while RESETN is asserted. -/
theorem State.roundStart_none (h : s.resetHeld = true ∨ s.bus.stuck = true ∨ s.bus.round ≠ none) : s.roundStart = s := by
  refine if_pos ?_
  rw [← Option.isSome_iff_ne_none] at h
  rcases h with h | h | h <;> simp [h]

variable (hr : s.resetHeld = false) (hs : s.bus.stuck = false) (hn : s.bus.round = none)
include hr hs hn

/-- A station with nothing to send, or in FAULTED, listens. -/
theorem State.roundStart_listens (h : s.outbox.entries = [] ∨ s.session.station = .faulted) :
    s.roundStart = s.setBus { s.bus with round := some ⟨none⟩ } := by
  rw [State.roundStart, if_neg (by simp [hr, hs, hn])]
  split
  · rfl
  · rename_i he
    rw [if_pos (h.resolve_left (by rw [he]; nofun))]

/-- Any other station contends with its first entry. -/
theorem State.roundStart_contends {e : Entry} {es : List Entry} (he : s.outbox.entries = e :: es) (hf : s.session.station ≠ .faulted) :
    s.roundStart = (s.setOutbox { s.outbox with entries := { e with offered := true } :: es }).setBus
      { s.bus with round := some ⟨some (s.numberOf e)⟩ } := by
  rw [State.roundStart, if_neg (by simp [hr, hs, hn])]
  simp only [he, if_neg hf, Outbox.offerFirst]

/-- A station contends exactly where it may drive a start bit. -/
theorem State.roundStart_offers (ho : s.outbox.offered = none) :
    s.roundStart.outbox.offered ≠ none ↔ s.outbox.entries ≠ [] ∧ s.session.station ≠ .faulted := by
  by_cases may : s.outbox.entries ≠ [] ∧ s.session.station ≠ .faulted
  · obtain ⟨e, es, he⟩ := List.exists_cons_of_ne_nil may.1
    rw [State.roundStart_contends hr hs hn he may.2]
    exact iff_of_true nofun may
  · rw [State.roundStart_listens hr hs hn (by tauto)]
    exact iff_of_false (not_not_intro ho) may

end

/-! ### Contention numbers (R86) -/

/-- A contention number of a tier below 4 fits its byte. -/
theorem contentionNumber_toNat {t : Nat} (ht : t < 4) (k : Sys2Proof.Class) (r : Fin 16) :
    (contentionNumber t k r).toNat = t * 64 + k.val * 16 + r.val := by
  rw [contentionNumber, BitVec.toNat_ofNat]
  omega

/-- Tier, then class, then rank. -/
theorem contentionNumber_lt {t1 t2 : Nat} (h1 : t1 < 4) (h2 : t2 < 4) (k1 k2 : Sys2Proof.Class) (r1 r2 : Fin 16) :
    contentionNumber t1 k1 r1 < contentionNumber t2 k2 r2 ↔ t1 < t2 ∨ t1 = t2 ∧ (k1 < k2 ∨ k1 = k2 ∧ r1 < r2) := by
  rw [BitVec.lt_def, contentionNumber_toNat h1, contentionNumber_toNat h2, Fin.lt_def, Fin.lt_def, Fin.ext_iff]
  omega

/-- Two stations with one pointer have different ranks. -/
theorem rotationRank_inj {a b p : Addr} (h : rotationRank a p = rotationRank b p) : a = b := by
  have val := congrArg Fin.val h
  rw [rotationRank_val a, rotationRank_val b] at val
  exact Fin.ext (by omega)

/-- A station hears no other win with a number that is not above its own. -/
theorem exec_roundTaken_above {s : State} {k w : Byte} (hr : s.bus.round = some ⟨some k⟩) (hw : w ≤ k) (bs : List Byte) (t : Timing) :
    exec (.roundTaken (.other w bs) t) s = .next s := by
  have taken : exec (.roundTaken (.other w bs) t) s = .next (s.roundTaken (.other w bs) t) := rfl
  have wins : (⟨some k⟩ : Round).wouldWin w = true := decide_eq_true hw
  simp only [taken, State.roundTaken, hr, wins, if_true]

/-! ### The line bit by bit (R88) -/

/-- A bit time before the next one is the first, or one after it. -/
theorem any_range_succ (n : Nat) (f : Nat → Bool) : (List.range (n + 1)).any f = (f 0 || (List.range n).any fun j => f (j + 1)) := by
  rw [List.range_succ_eq_map, List.any_cons, List.any_map]
  rfl

/-- A bit is driven as long as every bit before it that was released was sampled released (R88). -/
theorem drivenUntilMismatch_get {ls xs : List Bool} (h : ls.length ≤ xs.length) {i : Nat} (hi : i < ls.length) :
    (drivenUntilMismatch ls xs)[i]? =
      some (ls.getD i false && !(List.range i).any fun j => !ls.getD j false && xs.getD j false) := by
  induction ls generalizing xs i with
  | nil => cases hi
  | cons l ls ih =>
    obtain _ | ⟨x, xs⟩ := xs
    · cases h
    rw [drivenUntilMismatch]
    cases i with
    | zero => simp
    | succ i =>
      rw [List.getElem?_cons_succ, any_range_succ]
      have hi := Nat.lt_of_succ_lt_succ hi
      cases lost : !l && x
      · simp only [Bool.false_eq_true, if_false, ih (Nat.le_of_succ_le_succ h) hi, List.getD_cons_succ, List.getD_cons_zero, lost,
          Bool.false_or]
      · simp [hi, lost]

/-- The stations of a list of levels that have not lost after a bit time, with the levels they have still to drive. -/
def survivors (ds : List (List Bool)) : List (List Bool) :=
  (ds.filter fun d => d.headD false || !ds.any fun d => d.headD false).map List.tail

theorem contentionLine_succ (n : Nat) (ds : List (List Bool)) :
    contentionLine (n + 1) ds = (ds.any fun d => d.headD false) :: contentionLine n (survivors ds) := rfl

section
variable {n : Nat} {ds : List (List Bool)}

/-- A station survives exactly where it drove the level of the line. -/
theorem mem_survivors (hl : ∀ d ∈ ds, d.length = n + 1) (d : List Bool) :
    d ∈ survivors ds ↔ (ds.any fun d => d.headD false) :: d ∈ ds := by
  rw [survivors, List.mem_map]
  constructor
  · rintro ⟨x, hx, rfl⟩
    obtain ⟨mem, stays⟩ := List.mem_filter.1 hx
    obtain ⟨b, l, rfl⟩ := List.exists_cons_of_ne_nil (List.ne_nil_of_length_eq_add_one (hl x mem))
    have head : b = ds.any fun d => d.headD false := by
      cases b
      · simpa using stays
      · exact (List.any_eq_true.2 ⟨_, mem, rfl⟩).symm
    rw [← head]
    exact mem
  · intro mem
    refine ⟨_, List.mem_filter.2 ⟨mem, ?_⟩, rfl⟩
    simp

theorem survivors_length (hl : ∀ d ∈ ds, d.length = n + 1) : ∀ d ∈ survivors ds, d.length = n := fun d hd =>
  Nat.succ.inj (hl _ ((mem_survivors hl d).1 hd))

/-- Some station drives the level of the line, so some station survives. -/
theorem survivors_ne_nil (hl : ∀ d ∈ ds, d.length = n + 1) (hne : ds ≠ []) : survivors ds ≠ [] := by
  have drives : ∃ d ∈ ds, d.headD false = ds.any fun d => d.headD false := by
    cases level : ds.any fun d => d.headD false
    · obtain ⟨d, hd⟩ := List.exists_mem_of_ne_nil ds hne
      exact ⟨d, hd, Bool.not_eq_true _ ▸ List.any_eq_false.1 level d hd⟩
    · exact List.any_eq_true.1 level
  obtain ⟨d, hd, level⟩ := drives
  obtain ⟨b, l, rfl⟩ := List.exists_cons_of_ne_nil (List.ne_nil_of_length_eq_add_one (hl d hd))
  have head : b = ds.any fun d => d.headD false := level
  exact List.ne_nil_of_mem ((mem_survivors hl l).2 (head ▸ hd))

end

/-- The line reads what one of the stations drives. -/
theorem contentionLine_mem {n : Nat} {ds : List (List Bool)} (hl : ∀ d ∈ ds, d.length = n) (hne : ds ≠ []) :
    contentionLine n ds ∈ ds := by
  induction n generalizing ds with
  | zero =>
    obtain ⟨d, hd⟩ := List.exists_mem_of_ne_nil ds hne
    rw [List.length_eq_zero_iff.1 (hl d hd)] at hd
    exact hd
  | succ n ih =>
    rw [contentionLine_succ]
    exact (mem_survivors hl _).1 (ih (survivors_length hl) (survivors_ne_nil hl hne))

/-- Levels as a number, the first the most significant. -/
def levelsValue : List Bool → Nat
  | [] => 0
  | b :: bs => b.toNat * 2 ^ bs.length + levelsValue bs

theorem levelsValue_lt (bs : List Bool) : levelsValue bs < 2 ^ bs.length := by
  induction bs with
  | nil => exact Nat.one_pos
  | cons b bs ih =>
    rw [levelsValue, List.length_cons, Nat.pow_succ]
    have := Nat.mul_le_mul_right (2 ^ bs.length) b.toNat_le
    omega

/-- A contention number is the value of its levels. -/
theorem levelsValue_numberLevels (k : Byte) : levelsValue (numberLevels k) = k.toNat := by revert k; decide +kernel

theorem readBackMismatch_cons (l x : Bool) (ls xs : List Bool) :
    readBackMismatch (l :: ls) (x :: xs) = (!l && x || readBackMismatch ls xs) := rfl

/-- Every station drives at most what the line reads, and has lost exactly where it drives less (R88). -/
theorem contentionLine_greatest {n : Nat} {ds : List (List Bool)} (hl : ∀ d ∈ ds, d.length = n) {d : List Bool} (hd : d ∈ ds) :
    levelsValue d ≤ levelsValue (contentionLine n ds) ∧
      (readBackMismatch d (contentionLine n ds) = true ↔ levelsValue d < levelsValue (contentionLine n ds)) := by
  induction n generalizing ds d with
  | zero =>
    rw [List.length_eq_zero_iff.1 (hl d hd)]
    exact ⟨le_refl _, iff_of_false nofun (Nat.lt_irrefl _)⟩
  | succ n ih =>
    obtain ⟨b, l, rfl⟩ := List.exists_cons_of_ne_nil (List.ne_nil_of_length_eq_add_one (hl d hd))
    have length : l.length = n := Nat.succ.inj (hl _ hd)
    have small := levelsValue_lt l
    rw [contentionLine_succ, readBackMismatch_cons, levelsValue, levelsValue, contentionLine_length, length]
    rw [length] at small
    by_cases head : b = ds.any fun d => d.headD false
    · obtain ⟨most, lost⟩ := ih (survivors_length hl) ((mem_survivors hl l).2 (head ▸ hd))
      rw [← head, Bool.not_and_self, Bool.false_or, lost]
      omega
    · have released : b = false ∧ (ds.any fun d => d.headD false) = true := by
        cases b
        · exact ⟨rfl, Bool.not_eq_false _ ▸ fun e => head e.symm⟩
        · exact absurd (List.any_eq_true.2 ⟨_, hd, rfl⟩).symm head
      rw [released.1, released.2]
      simp only [Bool.toNat_false, Bool.toNat_true, Bool.not_false, Bool.and_self, Bool.true_or, true_iff]
      omega

/-- A station drives the bit time after one whose level it drove as it drives it with what is left; after another it drives nothing. -/
theorem drivenUntilMismatch_tail (b x : Bool) (l xs : List Bool) (i : Nat) :
    (drivenUntilMismatch (b :: l) (x :: xs)).getD (i + 1) false =
      (!(!b && x) && (drivenUntilMismatch l xs).getD i false) := by
  rw [drivenUntilMismatch, List.getD_cons_succ]
  cases !b && x
  · rfl
  · simp [List.getD_eq_getElem?_getD]

/-- The line is dominant in a bit time exactly where a station drives it. -/
theorem contentionLine_get {n : Nat} {ds : List (List Bool)} (hl : ∀ d ∈ ds, d.length = n) {i : Nat} (hi : i < n) :
    (contentionLine n ds).getD i false = ds.any fun d => (drivenUntilMismatch d (contentionLine n ds)).getD i false := by
  induction n generalizing ds i with
  | zero => cases hi
  | succ n ih =>
    have split : ∀ d ∈ ds, ∃ b l, d = b :: l := fun d hd =>
      List.exists_cons_of_ne_nil (List.ne_nil_of_length_eq_add_one (hl d hd))
    rw [contentionLine_succ, Bool.eq_iff_iff, List.any_eq_true]
    cases i with
    | zero =>
      rw [List.getD_cons_zero, List.any_eq_true]
      refine exists_congr fun d => and_congr_right fun hd => ?_
      obtain ⟨b, l, rfl⟩ := split d hd
      rw [drivenUntilMismatch, List.headD_cons, List.getD_cons_zero]
    | succ i =>
      rw [List.getD_cons_succ, ih (survivors_length hl) (Nat.lt_of_succ_lt_succ hi), List.any_eq_true]
      constructor
      · rintro ⟨l, hs, drives⟩
        refine ⟨_, (mem_survivors hl l).1 hs, ?_⟩
        rw [drivenUntilMismatch_tail, Bool.not_and_self, drives]
        rfl
      · rintro ⟨d, hd, drives⟩
        obtain ⟨b, l, rfl⟩ := split d hd
        rw [drivenUntilMismatch_tail, Bool.and_eq_true] at drives
        obtain ⟨kept, drives⟩ := drives
        have head : b = ds.any fun d => d.headD false := by
          cases b
          · simpa using kept
          · exact (List.any_eq_true.2 ⟨_, hd, rfl⟩).symm
        exact ⟨l, (mem_survivors hl l).2 (head ▸ hd), drives⟩

/-! ### Levels of numbers -/

theorem numberLevels_get (k : Byte) {i : Nat} (hi : i < 8) : (numberLevels k).getD i false = k.getLsbD (7 - i) := by
  interval_cases i <;> rfl

/-- What a contending station drives in a bit time. -/
theorem driven_number {line : List Bool} (hl : line.length = 8) (k : Byte) {i : Nat} (hi : i < 8) :
    (drivenUntilMismatch (numberLevels k) line)[i]? = some (k.getLsbD (7 - i) &&
      !(List.range i).any fun j => !k.getLsbD (7 - j) && line.getD j false) := by
  have released : ((List.range i).any fun j => !(numberLevels k).getD j false && line.getD j false) =
      (List.range i).any fun j => !k.getLsbD (7 - j) && line.getD j false := by
    rw [Bool.eq_iff_iff, List.any_eq_true, List.any_eq_true]
    refine exists_congr fun j => and_congr_right fun hj => ?_
    rw [numberLevels_get k ((List.mem_range.1 hj).trans hi)]
  rw [drivenUntilMismatch_get (by simp [hl]) hi, numberLevels_get k hi, released]

/-- The contention of some stations on the line. -/
theorem contention_of_numbers {ks : List Byte} (hne : ks ≠ []) :
    (let line := contentionLine 8 (ks.map numberLevels);
    let drives := fun k : Byte => drivenUntilMismatch (numberLevels k) line;
    line.length = 8 ∧
    (∀ i : Nat, i < 8 →
      (∀ k : Byte, (drives k)[i]? = some (k.getLsbD (7 - i) &&
        !(List.range i).any fun j => !k.getLsbD (7 - j) && line.getD j false)) ∧
      line.getD i false = ks.any fun k => (drives k).getD i false) ∧
    numberRead line ∈ ks ∧ ∀ k ∈ ks, k ≤ numberRead line ∧ (lostContention k line = true ↔ k < numberRead line)) := by
  have eight : ∀ d ∈ ks.map numberLevels, d.length = 8 := fun d hd => by
    obtain ⟨k, -, rfl⟩ := List.mem_map.1 hd
    rfl
  have greatest := fun k (hk : k ∈ ks) => contentionLine_greatest eight (List.mem_map_of_mem (f := numberLevels) hk)
  obtain ⟨won, mem, reads⟩ := List.mem_map.1 (contentionLine_mem eight (by simpa using hne))
  refine ⟨contentionLine_length .., fun i hi => ⟨fun k => driven_number (contentionLine_length ..) k hi, ?_⟩, ?_, fun k hk => ?_⟩
  · rw [contentionLine_get eight hi, List.any_map]
    rfl
  · rw [← reads, numberRead_numberLevels]
    exact mem
  · have most := greatest k hk
    rw [← reads, levelsValue_numberLevels, levelsValue_numberLevels, ← BitVec.le_def, ← BitVec.lt_def] at most
    rw [← reads, numberRead_numberLevels]
    exact most

/-- Settles O22: the start bit and ROUND_START by their conditions, the numbers by their arithmetic, and the line by induction on its bit
times: a station survives a bit time exactly where it drives the level of the line. -/
theorem roundStartAndContention : Obligations.RoundStartAndContention := by
  refine ⟨fun s cbd cbv => ⟨?starts, fun level => ?bit, fun hn ho hs hr => ?contends⟩,
    fun s => ⟨fun h => ?none, fun hr hs hn => ⟨fun h => ?listens, fun e es he hf => ?offers⟩⟩,
    ⟨fun t1 t2 k1 k2 r1 r2 h1 h2 => contentionNumber_lt h1 h2 k1 k2 r1 r2, fun a b p => rotationRank_inj,
      fun s k w bs t hr hw => exec_roundTaken_above hr hw bs t⟩, fun ks hne => contention_of_numbers hne⟩
  case starts => rw [State.drivesStart_iff, busIdle_iff, recessiveGap_iff, recessiveGap_iff, and_assoc]
  case bit => rw [startBit, Bool.and_eq_true, busIdle_iff, recessiveGap_iff, recessiveGap_iff, and_assoc]
  case contends =>
    refine ⟨_, exec_roundStart_eq, ?_⟩
    rw [State.roundStart_offers hr hs hn ho]
    simp [hs, hr]
  case none => rw [exec_roundStart_eq, State.roundStart_none h]
  case listens => rw [exec_roundStart_eq, State.roundStart_listens hr hs hn h]; rfl
  case offers =>
    rw [exec_roundStart_eq, State.roundStart_contends hr hs hn he hf, State.numberOf, contentionNumber, rotationRank_val]
    rfl

end Sys2Proof.Machine
end

