-- ==== Sys2Proof/Proofs/Carriages.lean ====
section
/-! PROOFS. The carriage of a notice and its reception byte by byte: a notice is received as it was carried, and no notice from fewer bytes
than its carriage has (O52; 11.1, 11.2, R92, R193, R194). -/

namespace Sys2Proof

/-! ### Nibbles, words and bits -/

@[simp] theorem hiNibble_nibbles (hi lo : Fin 16) : hiNibble (nibbles hi lo) = hi := by
  refine Fin.ext ?_
  show (BitVec.ofNat 8 (hi.val * 16 + lo.val)).toNat / 16 = hi.val
  rw [BitVec.toNat_ofNat]
  omega

@[simp] theorem loNibble_nibbles (hi lo : Fin 16) : loNibble (nibbles hi lo) = lo := by
  refine Fin.ext ?_
  show (BitVec.ofNat 8 (hi.val * 16 + lo.val)).toNat % 16 = lo.val
  rw [BitVec.toNat_ofNat]
  omega

@[simp] theorem wordOf_bytes (w : Word) : wordOf (hiByte w) (loByte w) = w := by
  refine BitVec.eq_of_getLsbD_eq fun i hi => ?_
  rw [wordOf, BitVec.getLsbD_append, hiByte, loByte, BitVec.getLsbD_extractLsb', BitVec.getLsbD_extractLsb']
  split
  · simp [*]
  · have high : i - 8 < 8 := by omega
    have back : 8 + (i - 8) = i := by omega
    simp [high, back]

theorem classByte_toNat (rq ef : Class) (ps : Fin 16) : (classByte rq ef ps).toNat = rq.val * 64 + ef.val * 16 + ps.val := by
  rw [classByte, BitVec.toNat_ofNat]
  omega

/-- A byte is read back from its bits. -/
theorem byteOfBits_bits (b : Byte) : byteOfBits (b.getLsbD 7) (b.getLsbD 6) (b.getLsbD 5) (b.getLsbD 4) (b.getLsbD 3) (b.getLsbD 2)
    (b.getLsbD 1) (b.getLsbD 0) = b := Machine.numberRead_numberLevels b

/-! ### Bodies (11.2) -/

theorem Body.bytes_length (b : Body) : b.bytes.length = bodyLength b.code := by
  cases b with
  | snapMembers v => exact v.size_toArray
  | _ => rfl

theorem tierOfCode_code (b : Body) : tierOfCode b.code = some b.tier := by cases b <;> rfl

theorem Body.tier_lt (b : Body) : b.tier < 4 := by cases b <;> simp [Body.tier]

/-- A body is decoded as it was encoded. -/
theorem decodeBody_bytes (b : Body) : decodeBody b.code b.bytes = some b := by
  cases b with
  | snapMembers v =>
    obtain ⟨⟨l⟩, hl⟩ := v
    match l, hl with
    | [_, _, _, _, _, _, _, _, _, _, _, _, _, _, _, _], _ => rfl
  | snapClaim p st c m rq ef ps sd =>
    have fields := classByte_toNat rq ef ps
    have requested : (classByte rq ef ps).toNat / 64 = rq.val := by omega
    have effective : (classByte rq ef ps).toNat / 16 % 4 = ef.val := by omega
    have passed : loNibble (classByte rq ef ps) = ps := Fin.ext (by rw [loNibble]; dsimp only; omega)
    simp [decodeBody, Body.code, Body.bytes, wordBytes, requested, effective, passed]
  | claim c k m =>
    have low : k.val % 4 = k.val := Nat.mod_eq_of_lt k.isLt
    simp [decodeBody, Body.code, Body.bytes, wordBytes, low]
  | beacon k n f => cases f <;> simp [decodeBody, Body.code, Body.bytes, wordBytes]
  | _ => simp [decodeBody, Body.code, Body.bytes, wordBytes]

/-- What is decoded is of the kind whose code it was decoded for. -/
theorem code_of_decodeBody {code : Fin 16} {bytes : List Byte} {b : Body} (h : decodeBody code bytes = some b) : b.code = code := by
  unfold decodeBody at h
  split at h
  all_goals
    cases h <;> exact Fin.ext (Eq.symm ‹_›)

/-! ### The number won with (R86, R92) -/

section
variable {t : Nat} (ht : t < 4) (k : Class) (r : Fin 16)
include ht

theorem numberTier_contentionNumber : numberTier (contentionNumber t k r) = t := by
  rw [numberTier, Machine.contentionNumber_toNat ht]
  omega

theorem numberClass_contentionNumber : numberClass (contentionNumber t k r) = k.val := by
  rw [numberClass, Machine.contentionNumber_toNat ht]
  omega

end

/-- The class of a notice won with its own number is no fault (R92). -/
theorem classFault_own (b : Body) (r : Fin 16) (rest : List Byte) :
    classFault (contentionNumber b.tier b.cls r) b.code (b.bytes ++ rest) = false := by
  have cls := numberClass_contentionNumber b.tier_lt b.cls r
  cases b with
  | claim c k m =>
    have low : k.val % 4 = k.val := Nat.mod_eq_of_lt k.isLt
    have cls : numberClass (contentionNumber 1 k r) = k.val := cls
    simp [classFault, Body.code, Body.bytes, Body.tier, Body.cls, cls, low]
  | _ => exact decide_eq_false (not_not_intro cls)

/-! ### The whole carriage (11.1, R92, R193) -/

theorem Notice.carriage_eq (n : Notice) : n.carriage = hiByte n.tag :: loByte n.tag :: nibbles n.sender n.body.code ::
    (n.body.bytes ++ wordBytes (cyclicCheck n.content)) := by
  rw [Notice.carriage, Notice.content]
  rfl

theorem Notice.carriage_length (n : Notice) : n.carriage.length = 5 + bodyLength n.body.code := by
  rw [n.carriage_eq, ← n.body.bytes_length]
  simp [wordBytes]
  omega

theorem kindOf_carriage (n : Notice) : kindOf n.carriage = n.body.code := by
  rw [n.carriage_eq]
  exact loNibble_nibbles _ _

/-- A notice is received as it was carried, where contention was won with its tier and class. -/
theorem receive_carriage (n : Notice) (r : Fin 16) : receive (contentionNumber n.body.tier n.body.cls r) n.carriage = .notice n := by
  have check : cyclicCheck (hiByte n.tag :: loByte n.tag :: nibbles n.sender n.body.code :: n.body.bytes) = cyclicCheck n.content := rfl
  have body := n.body.bytes_length
  rw [n.carriage_eq, receive, loNibble_nibbles, tierOfCode_code]
  simp only [numberTier_contentionNumber n.body.tier_lt, classFault_own, ← body, List.drop_left, List.take_left, wordBytes, wordOf_bytes,
    check, decodeBody_bytes, hiNibble_nibbles, ne_eq, not_true, Bool.false_eq_true, if_false]

/-- A notice is received from no fewer bytes than its carriage has. -/
theorem carriage_length_of_receive {w : Byte} {bs : List Byte} {n : Notice} (h : receive w bs = .notice n) :
    n.carriage.length ≤ bs.length := by
  rw [n.carriage_length]
  unfold receive at h
  split at h
  · rename_i rest
    split at h
    · cases h
    · split_ifs at h
      split at h
      · rename_i checked
        split_ifs at h
        split at h
        · rename_i decoded
          cases h
          have length := congrArg List.length checked
          rw [List.length_drop, List.length_cons, List.length_cons] at length
          rw [code_of_decodeBody decoded, List.length_cons, List.length_cons, List.length_cons]
          omega
        · cases h
      · cases h
  · cases h

end Sys2Proof
end

