-- ==== Sys2Proof/Proofs/BusLevelRuns.lean ====
section
/-! PROOFS. Levels bit time by bit time: the idle gap that stops a carriage, what a carrier and a voter drive, and the levels of a carriage
(O52; R84, R91 to R94, R193). -/

namespace Sys2Proof.Machine

/-! ### Recessive runs (R84, R94) -/

/-- The recessive bit times at the end of some samples. -/
def recessiveRun (ls : List Bool) : Nat := (ls.reverse.takeWhile (!·)).length

theorem recessiveRun_dominant (ls : List Bool) : recessiveRun (ls ++ [true]) = 0 := by simp [recessiveRun]

theorem recessiveRun_recessive (ls : List Bool) : recessiveRun (ls ++ [false]) = recessiveRun ls + 1 := by simp [recessiveRun]

theorem recessiveRun_le (ls : List Bool) : recessiveRun ls ≤ ls.length := by
  rw [recessiveRun, ← List.length_reverse (as := ls)]
  exact (List.takeWhile_sublist _).length_le

/-- A run is at least so long where the last samples are all recessive. -/
theorem le_recessiveRun_iff (n : Nat) (ls : List Bool) : n ≤ recessiveRun ls ↔ ls.reverse.take n = List.replicate n false := by
  rw [recessiveRun]
  generalize ls.reverse = l
  induction l generalizing n with
  | nil => cases n <;> simp [List.replicate_succ]
  | cons b l ih =>
    cases n with
    | zero => simp
    | succ n => cases b <;> simp [List.replicate_succ, ih]

/-- Two recessive bit times in sequence. -/
theorem two_le_recessiveRun_iff (ls : List Bool) {i : Nat} (hi : i ≤ ls.length) : 2 ≤ recessiveRun (ls.take i) ↔
    ∃ j, i = j + 2 ∧ ls[j]? = some false ∧ ls[j + 1]? = some false := by
  match i, hi with
  | 0, _ => simp [recessiveRun]
  | 1, _ =>
    have short := recessiveRun_le (ls.take 1)
    rw [List.length_take] at short
    exact iff_of_false (by omega) (by rintro ⟨j, h, -⟩; omega)
  | j + 2, hi =>
    have first : j < ls.length := by omega
    have second : j + 1 < ls.length := by omega
    have ends : ls.take (j + 2) = ls.take j ++ [ls[j]] ++ [ls[j + 1]] := by
      rw [← List.take_append_getElem second, ← List.take_append_getElem first]
    have step : ∀ a b, 2 ≤ recessiveRun (ls.take j ++ [a] ++ [b]) ↔ a = false ∧ b = false := fun a b => by
      cases b
      · rw [recessiveRun_recessive]
        cases a
        · rw [recessiveRun_recessive]; simp
        · rw [recessiveRun_dominant]; simp
      · rw [recessiveRun_dominant]; simp
    rw [ends, step]
    simp [List.getElem?_eq_getElem first, List.getElem?_eq_getElem second]

/-! ### The stop of a carriage (R92) -/

/-- The first bit time at which the run reaches the idle gap. -/
theorem stoppedAt_eq_some {p ls : List Bool} (hp : recessiveRun p < 11) (k : Nat) : stoppedAt (recessiveRun p) ls = some k ↔
    k ≤ ls.length ∧ 11 ≤ recessiveRun (p ++ ls.take k) ∧ ∀ j, j < k → ¬ 11 ≤ recessiveRun (p ++ ls.take j) := by
  induction ls generalizing p k with
  | nil => simp [stoppedAt, hp]
  | cons b ls ih =>
    have next : ∀ j, p ++ (b :: ls).take (j + 1) = p ++ [b] ++ ls.take j := fun j => by simp
    have now : p ++ (b :: ls).take 0 = p := by simp
    have later : recessiveRun (p ++ [b]) < 11 → ((stoppedAt (recessiveRun (p ++ [b])) ls).map (· + 1) = some k ↔
        k ≤ (b :: ls).length ∧ 11 ≤ recessiveRun (p ++ (b :: ls).take k) ∧
          ∀ j, j < k → ¬ 11 ≤ recessiveRun (p ++ (b :: ls).take j)) := fun short => by
      cases k with
      | zero => simp [hp]
      | succ k =>
        rw [Option.map_eq_some_iff]
        simp only [Nat.add_right_cancel_iff, exists_eq_right, ih short, List.length_cons, Nat.add_le_add_iff_right, next]
        refine and_congr_right fun _ => and_congr_right fun _ => ⟨fun h j hj => ?_, fun h j hj => ?_⟩
        · cases j with
          | zero => rw [now]; omega
          | succ j => rw [next]; exact h j (by omega)
        · rw [← next]; exact h (j + 1) (by omega)
    cases b with
    | true =>
      rw [recessiveRun_dominant] at later
      rw [stoppedAt]
      exact later (by omega)
    | false =>
      rw [recessiveRun_recessive] at later
      rw [stoppedAt, Config.idleGap]
      split
      · rename_i full
        have first : 11 ≤ recessiveRun (p ++ (false :: ls).take 1) := by
          rw [next, List.take_zero, List.append_nil, recessiveRun_recessive]
          exact full
        rw [Option.some.injEq]
        constructor
        · rintro rfl
          refine ⟨by simp, first, fun j hj => ?_⟩
          have j0 : j = 0 := by omega
          rw [j0, now]; omega
        · rintro ⟨-, stops, before⟩
          have positive : k ≠ 0 := by rintro rfl; rw [now] at stops; omega
          have early : ¬ 1 < k := fun h => before 1 h first
          omega
      · rename_i short
        exact later (by omega)


/-- The lines have been recessive for the idle gap in the last bit times of contention and carriage, `j` of the carriage among them. -/
def quietAt (w : Byte) (ls : List Bool) (j : Nat) : Prop :=
  3 ≤ j ∧ ((numberLevels w ++ ls).drop (j - 3)).take 11 = List.replicate 11 false

theorem quietAt_iff (w : Byte) (ls : List Bool) (j : Nat) :
    quietAt w ls j ↔ j ≤ ls.length ∧ 11 ≤ recessiveRun (numberLevels w ++ ls.take j) := by
  have run := recessiveRun_le (numberLevels w ++ ls.take j)
  rw [List.length_append, List.length_take, numberLevels_length] at run
  by_cases within : 3 ≤ j ∧ j ≤ ls.length
  · obtain ⟨enough, inside⟩ := within
    have length : (numberLevels w ++ ls.take j).length = 8 + j := by
      rw [List.length_append, List.length_take, numberLevels_length]
      omega
    have samples : numberLevels w ++ ls.take j = (numberLevels w ++ ls).take (8 + j) := by
      have all : (numberLevels w).take (8 + j) = numberLevels w := List.take_of_length_le (by rw [numberLevels_length]; omega)
      rw [List.take_append, numberLevels_length, all, Nat.add_sub_cancel_left]
    have start : 8 + j - 11 = j - 3 := by omega
    have window : 8 + j - (j - 3) = 11 := by omega
    rw [quietAt, le_recessiveRun_iff, List.take_reverse, length, start, samples, List.drop_take, window, List.reverse_eq_iff,
      List.reverse_replicate]
    simp [enough, inside]
  · refine iff_of_false (fun ⟨enough, all⟩ => ?_) (fun ⟨inside, full⟩ => by omega)
    have length := congrArg List.length all
    rw [List.length_take, List.length_drop, List.length_append, numberLevels_length, List.length_replicate] at length
    omega

/-- A carriage stops at the first such bit time (R92). -/
theorem carriageStop_eq_some (w : Byte) (ls : List Bool) (k : Nat) :
    carriageStop w ls = some k ↔ quietAt w ls k ∧ ∀ j, j < k → ¬ quietAt w ls j := by
  have short : recessiveRun (numberLevels w) < 11 := (recessiveRun_le _).trans_lt (by rw [numberLevels_length]; decide)
  have stop : carriageStop w ls = stoppedAt (recessiveRun (numberLevels w)) ls := rfl
  rw [stop, stoppedAt_eq_some short]
  simp only [quietAt_iff, and_assoc]
  refine and_congr_right fun inside => and_congr_right fun _ => forall₂_congr fun j hj => ?_
  simp [(Nat.le_of_lt hj).trans inside]

/-! ### Votes (R94) -/

/-- A voter holds the line until the run of two has been sampled. -/
theorem held_get {p ls : List Bool} {i : Nat} (hi : i < ls.length) :
    (held (recessiveRun p) ls)[i]? = some true ↔ ∀ j, j ≤ i → ¬ 2 ≤ recessiveRun (p ++ ls.take j) := by
  induction ls generalizing p i with
  | nil => cases hi
  | cons b ls ih =>
    have next : (if b then 0 else recessiveRun p + 1) = recessiveRun (p ++ [b]) := by
      cases b
      · exact (recessiveRun_recessive p).symm
      · exact (recessiveRun_dominant p).symm
    have now : p ++ (b :: ls).take 0 = p := by simp
    have later : ∀ j, p ++ (b :: ls).take (j + 1) = p ++ [b] ++ ls.take j := fun j => by simp
    rw [held, next]
    split
    · rename_i full
      refine iff_of_false (fun drives => ?_) fun h => h 0 (Nat.zero_le _) (by rw [now]; exact full)
      have level := List.mem_of_getElem? drives
      simp at level
    · rename_i holds
      cases i with
      | zero =>
        refine iff_of_true rfl fun j hj => ?_
        rw [Nat.le_zero.1 hj, now]
        exact holds
      | succ i =>
        rw [List.getElem?_cons_succ, ih (Nat.lt_of_succ_lt_succ hi)]
        refine ⟨fun h j hj => ?_, fun h j hj => ?_⟩
        · cases j with
          | zero => rw [now]; exact holds
          | succ j => rw [later]; exact h j (Nat.le_of_succ_le_succ hj)
        · rw [← later]; exact h (j + 1) (Nat.succ_le_succ hj)

/-- A voter pulls from its fault on until CBD has been recessive for two bit times. -/
theorem votePull_get (k : Nat) {cbd : List Bool} {i : Nat} (hi : i < cbd.length) : (votePull k cbd)[i]? = some true ↔
    k ≤ i ∧ ¬ ∃ j, k ≤ j ∧ j + 1 < i ∧ cbd[j]? = some false ∧ cbd[j + 1]? = some false := by
  rw [votePull]
  by_cases found : k ≤ i
  · have length : ((cbd.take k).map fun _ => false).length = k := by
      rw [List.length_map, List.length_take]; omega
    have inside : i - k < (cbd.drop k).length := by rw [List.length_drop]; omega
    have holds := held_get (p := []) inside
    rw [List.getElem?_append_right (by omega), length]
    refine holds.trans ?_
    simp only [List.nil_append, found, true_and, not_exists, not_and]
    refine ⟨fun h j hj below first second => ?_, fun h j hj two => ?_⟩
    · refine h (j - k + 2) (by omega) ((two_le_recessiveRun_iff _ (by omega)).2 ⟨j - k, rfl, ?_, ?_⟩)
      · rw [List.getElem?_drop, Nat.add_sub_cancel' hj]
        exact first
      · rw [List.getElem?_drop, ← Nat.add_assoc, Nat.add_sub_cancel' hj]
        exact second
    · obtain ⟨m, rfl, first, second⟩ := (two_le_recessiveRun_iff _ (by omega)).1 two
      rw [List.getElem?_drop] at first second
      exact h (k + m) (by omega) (by omega) first second
  · refine iff_of_false (fun drives => ?_) fun h => found h.1
    rw [List.getElem?_append_left (by rw [List.length_map, List.length_take]; omega)] at drives
    have level := List.mem_of_getElem? drives
    simp at level

/-! ### What a carrier drives and reads back (R91, R94) -/

/-- A mismatch is a bit released and sampled dominant. -/
theorem readBackMismatch_iff (driven sampled : List Bool) : readBackMismatch driven sampled = true ↔
    ∃ i : Nat, driven[i]? = some false ∧ sampled[i]? = some true := by
  simp only [readBackMismatch, List.any_eq_true, List.mem_iff_getElem?, List.getElem?_zip_eq_some, Bool.and_eq_true, Bool.not_eq_true']
  constructor
  · rintro ⟨⟨a, b⟩, ⟨i, ha, hb⟩, rfl, rfl⟩
    exact ⟨i, ha, hb⟩
  · rintro ⟨i, ha, hb⟩
    exact ⟨(false, true), ⟨i, ha, hb⟩, rfl, rfl⟩

/-- A carrier drives a bit as long as every bit before it was read back and CBV recessive. -/
theorem carrierDrives_get {ls cs vs : List Bool} (hc : ls.length ≤ cs.length) (hv : ls.length ≤ vs.length) {i : Nat} (hi : i < ls.length) :
    (carrierDrives ls cs vs)[i]? = some (ls.getD i false &&
      !(List.range i).any fun j => (!ls.getD j false && cs.getD j false) || vs.getD j false) := by
  induction ls generalizing cs vs i with
  | nil => cases hi
  | cons l ls ih =>
    obtain _ | ⟨c, cs⟩ := cs
    · cases hc
    obtain _ | ⟨v, vs⟩ := vs
    · cases hv
    rw [carrierDrives]
    cases i with
    | zero => simp
    | succ i =>
      rw [List.getElem?_cons_succ, any_range_succ]
      have hi := Nat.lt_of_succ_lt_succ hi
      cases stops : (!l && c) || v
      · simp only [Bool.false_eq_true, if_false, ih (Nat.le_of_succ_le_succ hc) (Nat.le_of_succ_le_succ hv) hi, List.getD_cons_succ,
          List.getD_cons_zero, stops, Bool.false_or]
      · simp only [List.getD_cons_zero, stops, if_true, Bool.true_or, Bool.not_true, Bool.and_false]
        simp [hi]

/-! ### The levels of a carriage (R193) -/

theorem byteLevels_length (b : Byte) : (byteLevels b).length = 10 := rfl

theorem byteLevels_data (b : Byte) {k : Nat} (hk : k < 8) : (byteLevels b)[2 + k]? = some (!b.getLsbD (7 - k)) := by
  interval_cases k <;> rfl

theorem flatMap_levels_length (bs : List Byte) : (bs.flatMap byteLevels).length = 10 * bs.length := by
  induction bs with
  | nil => rfl
  | cons b bs ih =>
    rw [List.flatMap_cons, List.length_append, ih, byteLevels_length, List.length_cons]
    omega

/-- Each byte is ten bit times. -/
theorem flatMap_levels_get {bs : List Byte} {i : Nat} {b : Byte} (h : bs[i]? = some b) {j : Nat} (hj : j < 10) :
    (bs.flatMap byteLevels)[10 * i + j]? = (byteLevels b)[j]? := by
  induction bs generalizing i with
  | nil => cases h
  | cons x bs ih =>
    rw [List.flatMap_cons]
    cases i with
    | zero =>
      cases h
      rw [Nat.mul_zero, Nat.zero_add, List.getElem?_append_left (by rw [byteLevels_length]; exact hj)]
    | succ i =>
      have past : 10 * (i + 1) + j - 10 = 10 * i + j := by omega
      rw [List.getElem?_append_right (by rw [byteLevels_length]; omega), byteLevels_length, past, ih h]

/-- A byte read off its data bits. -/
theorem bytesOfLevels_cons {ls : List Bool} (h : 10 ≤ ls.length) : bytesOfLevels ls =
    byteOfBits (!ls.getD 2 false) (!ls.getD 3 false) (!ls.getD 4 false) (!ls.getD 5 false) (!ls.getD 6 false) (!ls.getD 7 false)
      (!ls.getD 8 false) (!ls.getD 9 false) :: bytesOfLevels (ls.drop 10) := by
  iterate 10
    obtain _ | ⟨_, ls⟩ := ls
    · simp at h
  rfl

theorem bytesOfLevels_short {ls : List Bool} (h : ls.length < 10) : bytesOfLevels ls = [] := by
  unfold bytesOfLevels
  split
  · simp only [List.length_cons] at h
    omega
  · rfl

/-- A listener has a byte for ten bit times. -/
theorem bytesOfLevels_length (ls : List Bool) : 10 * (bytesOfLevels ls).length ≤ ls.length := by
  by_cases short : ls.length < 10
  · rw [bytesOfLevels_short short]
    exact Nat.zero_le _
  · have rest := bytesOfLevels_length (ls.drop 10)
    rw [List.length_drop] at rest
    rw [bytesOfLevels_cons (Nat.le_of_not_lt short), List.length_cons]
    omega
termination_by ls.length
decreasing_by rw [List.length_drop]; omega

/-- The bytes are those of the carriage, whatever the frame bits' levels and the bit times past the last whole byte. -/
theorem bytesOfLevels_eq {bs : List Byte} {ls : List Bool} (whole : 10 * bs.length ≤ ls.length) (rest : ls.length < 10 * bs.length + 10)
    (data : ∀ i, i < 10 * bs.length → 2 ≤ i % 10 → ls[i]? = (bs.flatMap byteLevels)[i]?) : bytesOfLevels ls = bs := by
  induction bs generalizing ls with
  | nil => exact bytesOfLevels_short (by simpa using rest)
  | cons b bs ih =>
    rw [List.length_cons] at whole rest data
    have bit : ∀ k, k < 8 → (!ls.getD (2 + k) false) = b.getLsbD (7 - k) := fun k hk => by
      have level := data (2 + k) (by omega) (by omega)
      rw [List.flatMap_cons, List.getElem?_append_left (by rw [byteLevels_length]; omega), byteLevels_data b hk] at level
      rw [List.getD_eq_getElem?_getD, level, Option.getD_some, Bool.not_not]
    have byte := byteOfBits_bits b
    rw [← bit 0 (by omega), ← bit 1 (by omega), ← bit 2 (by omega), ← bit 3 (by omega), ← bit 4 (by omega), ← bit 5 (by omega),
      ← bit 6 (by omega), ← bit 7 (by omega)] at byte
    rw [bytesOfLevels_cons (by omega), byte]
    refine congrArg (b :: ·) (ih ?_ ?_ fun i hi frame => ?_)
    · rw [List.length_drop]; omega
    · rw [List.length_drop]; omega
    · have level := data (10 + i) (by omega) (by omega)
      rw [List.flatMap_cons, List.getElem?_append_right (by rw [byteLevels_length]; omega), byteLevels_length,
        Nat.add_sub_cancel_left] at level
      rw [List.getElem?_drop, level]

/-! ### No carriage stops (R92, R193) -/

/-- Fewer bit times than the idle gap do not complete it, and leave a run no longer than they are. -/
theorem stoppedAt_append (ls rest : List Bool) {run : Nat} (h : run + ls.length < 11) :
    ∃ left, left ≤ run + ls.length ∧ stoppedAt run (ls ++ rest) = (stoppedAt left rest).map (· + ls.length) := by
  induction ls generalizing run with
  | nil => exact ⟨run, le_refl _, by simp⟩
  | cons b ls ih =>
    rw [List.length_cons] at h
    have step : ∀ next, next ≤ run + 1 → ∃ left, left ≤ run + (ls.length + 1) ∧
        (stoppedAt next (ls ++ rest)).map (· + 1) = (stoppedAt left rest).map (· + (ls.length + 1)) := fun next hn => by
      obtain ⟨left, short, same⟩ := ih (run := next) (by omega)
      refine ⟨left, by omega, ?_⟩
      rw [same, Option.map_map]
      rfl
    cases b with
    | true => exact step 0 (by omega)
    | false =>
      rw [List.cons_append, stoppedAt, if_neg (by rw [Config.idleGap]; omega)]
      exact step (run + 1) (le_refl _)

/-- The second frame bit of every byte ends a run of at most nine. -/
theorem stoppedAt_levels (bs : List Byte) {run : Nat} (h : run ≤ 8) : stoppedAt run (bs.flatMap byteLevels ++ [false, false]) = none := by
  induction bs generalizing run with
  | nil =>
    obtain ⟨left, -, same⟩ := stoppedAt_append [false, false] [] (run := run)
      (by rw [List.length_cons, List.length_cons, List.length_nil]; omega)
    exact same
  | cons b bs ih =>
    have byte : (b :: bs).flatMap byteLevels ++ [false, false] =
        false :: true :: ((bitsOf b).map (fun x => !x) ++ (bs.flatMap byteLevels ++ [false, false])) := by
      rw [List.flatMap_cons, List.append_assoc]
      rfl
    have data : ((bitsOf b).map fun x => !x).length = 8 := rfl
    obtain ⟨left, short, same⟩ := stoppedAt_append ((bitsOf b).map fun x => !x) (bs.flatMap byteLevels ++ [false, false]) (run := 0)
      (by rw [data]; decide)
    rw [data] at short
    rw [byte, stoppedAt, if_neg (by rw [Config.idleGap]; omega), stoppedAt, same, ih (by omega)]
    rfl

end Sys2Proof.Machine
end

