-- ==== Sys2Proof/Proofs/Receptions.lean ====
section
/-! PROOFS. A notice on the line: its levels are received, a vote voids its round, and the round's end is the command that says so (O52;
11.2, R91 to R95, R193, R194). -/

namespace Sys2Proof

open Machine

/-! ### The carriage on the line -/

theorem Notice.levels_length (n : Notice) : n.levels.length = 10 * n.carriage.length := flatMap_levels_length n.carriage

/-- Ten bit times a byte: a released frame bit, a dominant one, the data bits with a 0 dominant. -/
theorem Notice.levels_get {n : Notice} {i : Nat} {b : Byte} (h : n.carriage[i]? = some b) :
    n.levels[10 * i]? = some false ∧ n.levels[10 * i + 1]? = some true ∧
      ∀ k : Nat, k < 8 → n.levels[10 * i + 2 + k]? = some (!b.getLsbD (7 - k)) := by
  have bit : ∀ j, j < 10 → n.levels[10 * i + j]? = (byteLevels b)[j]? := fun j hj => flatMap_levels_get h hj
  refine ⟨bit 0 (by decide), bit 1 (by decide), fun k hk => ?_⟩
  rw [Nat.add_assoc, bit (2 + k) (by omega), byteLevels_data b hk]

/-- The number won with a notice of this station's, at this rank (R86). -/
def Notice.wonWith (n : Notice) (rank : Fin 16) : Byte := contentionNumber n.body.tier n.body.cls rank

section
variable (n : Notice) (rank : Fin 16)

/-- No carriage is recessive for the idle gap. -/
theorem Notice.carriageStop_levels : carriageStop (n.wonWith rank) (n.levels ++ [false, false]) = none :=
  stoppedAt_levels n.carriage (recessiveRun_le (numberLevels _))

variable {n}

/-- Levels whose data bits are those of a notice are received as that notice, whatever comes past its last whole byte. -/
theorem Notice.receiveLevels_eq {ls : List Bool} (whole : n.levels.length ≤ ls.length) (rest : ls.length < n.levels.length + 10)
    (data : ∀ i, i < n.levels.length → 2 ≤ i % 10 → ls[i]? = n.levels[i]?) (going : carriageStop (n.wonWith rank) ls = none) :
    bytesOfLevels ls = n.carriage ∧ receiveLevels (n.wonWith rank) ls = .notice n ∧
      receptionEnd (n.wonWith rank) ls = some n.levels.length := by
  have length := Notice.levels_length n
  rw [length] at whole rest data
  have bytes : bytesOfLevels ls = n.carriage := bytesOfLevels_eq whole rest data
  have received : receiveLevels (n.wonWith rank) ls = .notice n := by
    rw [receiveLevels, beforeStop_of_none going, bytes]
    exact receive_carriage n rank
  refine ⟨bytes, received, ?_⟩
  rw [length, n.carriage_length]
  simp only [receptionEnd, received, bytes, kindOf_carriage]

/-- The listener's end of a round that no one voided (R95). -/
theorem Notice.listenedRound_levels {cbv : List Bool} (h : voided cbv = false) (t : Timing) :
    listenedRound (n.wonWith rank) (n.levels ++ [false, false]) cbv t = some (.roundTaken (.other (n.wonWith rank) n.carriage) t) := by
  have going := n.carriageStop_levels rank
  obtain ⟨bytes, received, ended⟩ := Notice.receiveLevels_eq rank (ls := n.levels ++ [false, false]) (by simp) (by simp)
    (fun i hi _ => List.getElem?_append_left hi) going
  simp only [listenedRound, h, Bool.false_eq_true, if_false, received, ended, beforeStop_of_none going, bytes]

end

end Sys2Proof

namespace Sys2Proof.Machine

/-- No notice is received past the stop of its carriage. -/
theorem carriage_before_stop {w : Byte} {ls : List Bool} {k : Nat} (h : carriageStop w ls = some k) {n : Notice}
    (hn : receiveLevels w ls = .notice n) : 10 * n.carriage.length ≤ k := by
  rw [receiveLevels, beforeStop_of_some h] at hn
  have bytes := carriage_length_of_receive hn
  have levels := bytesOfLevels_length (ls.take k)
  rw [List.length_take] at levels
  omega

/-! ### Votes (R93, R94) -/

section
variable (s : State) (w : Byte) {cbd : List Bool}

/-- A station that found no fault leaves CBV alone. -/
theorem silent_get {i : Nat} (hi : i < cbd.length) : (cbd.map fun _ => false)[i]? = some false := by
  rw [List.getElem?_map, List.getElem?_eq_getElem hi]
  rfl

theorem State.votes_mismatch {driven : List Bool} {k : Nat} (h : mismatchFound driven cbd = some k) :
    s.votes w (some driven) cbd = votePull k cbd := by simp only [State.votes, h]

theorem State.votes_readBack {driven : List Bool} (h : mismatchFound driven cbd = none) :
    s.votes w (some driven) cbd = cbd.map fun _ => false := by simp only [State.votes, h]

variable {w}

theorem faultFound_eq_some {f : ReceptionFault} {k : Nat} (hf : receiveLevels w cbd = .fault f) (hk : receptionEnd w cbd = some k) :
    faultFound w cbd = some (k, f) := by simp only [faultFound, hf, hk]

theorem State.votes_fault {f : ReceptionFault} {k : Nat} (hf : receiveLevels w cbd = .fault f) (hk : receptionEnd w cbd = some k) :
    s.votes w none cbd = if s.session.station.inSession then votePull k cbd else cbd.map fun _ => false := by
  simp only [State.votes, faultFound_eq_some hf hk]
  split_ifs <;> rfl

end

/-! ### The end of a round (R94, R95) -/

theorem voided_iff_get (cbv : List Bool) : voided cbv = true ↔ ∃ i : Nat, cbv[i]? = some true := by
  rw [voided_iff, List.mem_iff_getElem?]

/-- The fault a listener finds is the one its reception ended with. -/
theorem faultFound_fault (w : Byte) (cbd : List Bool) (x : ReceptionFault) :
    (faultFound w cbd).map Prod.snd = some x ↔ receiveLevels w cbd = .fault x ∧ receptionEnd w cbd ≠ none := by
  rw [faultFound]
  split
  · rename_i f k hf hk
    simp [hf, hk]
  · rename_i other
    refine iff_of_false nofun fun ⟨hf, hk⟩ => ?_
    obtain ⟨k, hk⟩ := Option.ne_none_iff_exists'.1 hk
    exact other x k hf hk

theorem listenedRound_missed {w : Byte} {cbd cbv : List Bool} (h : voided cbv = false) {x : ReceptionFault}
    (hf : receiveLevels w cbd = .fault x) (he : receptionEnd w cbd ≠ none) (t : Timing) :
    listenedRound w cbd cbv t = some (.roundMissed x) := by
  obtain ⟨k, hk⟩ := Option.ne_none_iff_exists'.1 he
  simp only [listenedRound, h, Bool.false_eq_true, if_false, hf, hk]

/-- The first bit time of a level. -/
theorem findIdx?_level {f : Bool → Bool} {b : Bool} (hf : ∀ x, f x = true ↔ x = b) (ls : List Bool) (i : Nat) :
    ls.findIdx? f = some i ↔ ls[i]? = some b ∧ ∀ m, m < i → ls[m]? = some (!b) := by
  rw [List.findIdx?_eq_some_iff_getElem]
  simp only [hf]
  constructor
  · rintro ⟨hi, level, before⟩
    refine ⟨by rw [List.getElem?_eq_getElem hi, level], fun m hm => ?_⟩
    rw [List.getElem?_eq_getElem (hm.trans hi), Bool.eq_not.2 (before m hm)]
  · rintro ⟨level, before⟩
    obtain ⟨hi, level⟩ := List.getElem?_eq_some_iff.1 level
    refine ⟨hi, level, fun m hm same => ?_⟩
    obtain ⟨_, other⟩ := List.getElem?_eq_some_iff.1 (before m hm)
    rw [same] at other
    cases b <;> cases other

/-- A voided round ends with the first recessive bit time of CBV after its first dominant one. -/
theorem voidEnd_eq_some (cbv : List Bool) (k : Nat) : voidEnd cbv = some k ↔
    ∃ i j : Nat, i ≤ j ∧ k = j + 1 ∧ cbv[i]? = some true ∧ (∀ m, m < i → cbv[m]? = some false) ∧
      cbv[j]? = some false ∧ ∀ m, i ≤ m → m < j → cbv[m]? = some true := by
  simp only [voidEnd, Option.bind_eq_some_iff, Option.map_eq_some_iff, findIdx?_level (f := id) (b := true) fun _ => Iff.rfl,
    findIdx?_level (f := (!·)) (b := false) fun x => by cases x <;> decide, Bool.not_true, Bool.not_false, List.getElem?_drop]
  constructor
  · rintro ⟨i, ⟨first, before⟩, j, ⟨released, between⟩, rfl⟩
    refine ⟨i, i + j, by omega, rfl, first, before, released, fun m hi hj => ?_⟩
    have level := between (m - i) (by omega)
    rwa [Nat.add_sub_cancel' hi] at level
  · rintro ⟨i, j, hij, rfl, first, before, released, between⟩
    refine ⟨i, ⟨first, before⟩, j - i, ⟨?_, fun m hm => between (i + m) (by omega) (by omega)⟩, by omega⟩
    rwa [Nat.add_sub_cancel' hij]

/-- Settles O52: encoder and decoder byte by byte, ten bit times a byte; the runs of recessive bit times decide stops and votes. -/
theorem noticeIsReceivedAsCarried : Obligations.NoticeIsReceivedAsCarried := by
  refine ⟨fun n rank => ⟨receive_carriage n rank, Notice.levels_length n, fun i b h => Notice.levels_get h,
      n.carriageStop_levels rank, fun ls length data going => ?received,
      fun t cbv h => ⟨Notice.listenedRound_levels rank h t, carriedRound_taken h t⟩⟩,
    fun w ls k => ⟨carriageStop_eq_some w ls k, fun h n hn => carriage_before_stop h hn⟩, readBackMismatch_iff,
    fun driven cbd cbv i hc hv hi => carrierDrives_get hc hv hi,
    fun s w cbd k i hi => ⟨fun driven h => ?mismatch, fun driven h => ?readBack, fun f hf hk => ?fault⟩,
    fun w cbd cbv t => ⟨voided_iff_get cbv,
      fun h => ⟨carriedRound_voided h t, _, listenedRound_voided h w cbd t, faultFound_fault w cbd⟩,
      fun h x hf he => listenedRound_missed h hf he t, voidEnd_eq_some cbv⟩⟩
  case received =>
    obtain ⟨-, received, ended⟩ := Notice.receiveLevels_eq (n := n) rank length.ge (by omega) (fun i _ => data i) going
    exact ⟨received, length ▸ ended⟩
  case mismatch =>
    rw [s.votes_mismatch w h]
    exact ⟨votePull_length .., votePull_get k hi⟩
  case readBack =>
    rw [s.votes_readBack w h]
    exact silent_get hi
  case fault =>
    simp only [← StationState.inSession_iff, s.votes_fault hf hk]
    split_ifs
    · exact ⟨votePull_length .., votePull_get k hi⟩
    · exact silent_get hi

end Sys2Proof.Machine
end

