-- ==== Sys2Proof/Proofs/HeardSessions.lean ====
section
/-! PROOFS. A session is heard by a LISTENING or a FOUNDING station (R127; O29). -/

namespace Sys2Proof.Machine

section
variable {s : State} {h : Heard}

/-- The notices by which R127 is followed: any in LISTENING, and in FOUNDING one that the station did not carry. -/
theorem State.handle_hears (hs : s.session.station = .listening ∨ (s.session.station = .founding ∧ h.own = false)) :
    s.handle h = s.hear h := by
  rcases hs with hs | ⟨hs, ho⟩
  · rw [State.handle, hs]
  · rw [State.handle, hs]
    exact if_neg (by rw [ho]; nofun)

/-- Its FOUND is recalled with the taking of such a notice (R113). -/
theorem State.recall_hears (hs : s.session.station = .listening ∨ (s.session.station = .founding ∧ h.own = false)) :
    s.recall h = s.askBack fun e => e.body.isFound := by
  rcases hs with hs | ⟨hs, ho⟩
  · rw [State.recall, hs]
  · rw [State.recall, hs]
    exact if_neg (by rw [ho]; nofun)

/-- The table check stands, nothing is answered and no entry to ACTIVE is posted. -/
theorem State.takeNotice_hears (hs : s.session.station = .listening ∨ (s.session.station = .founding ∧ h.own = false))
    (ho : NothingOwed s) : s.takeNotice h false none = (s.askBack fun e => e.body.isFound).hear h := by
  have outside : s.session.station.inSession = false := by rcases hs with hs | ⟨hs, -⟩ <;> rw [hs] <;> rfl
  have heard : Quiets s ((s.askBack fun e => e.body.isFound).hear h) :=
    (s.askBack_quiet _).comp (State.hear_quiet (s := s.askBack fun e => e.body.isFound) outside h)
  have after : ((s.askBack fun e => e.body.isFound).hear h).session.station ≠ .active := fun e => by
    have still := heard.inSession
    rw [e, outside] at still
    cases still
  obtain ⟨members, -, -, records, check⟩ := heard.replica
  rw [State.takeNotice, State.makeRoom_none h false ho, State.recall_hears hs, State.handle_hears (by exact hs),
    State.recheck_same (fun e => by rw [e] at outside; cases outside) members records check,
    State.makeAnswers_none (.inr after), State.postActive_none (.inl after)]

/-- A notice of a session is one by which the station seeks it: any but a FOUND of another profile check that it did not carry. -/
theorem State.hear_seeks (hk : h.own = false → ∀ k, h.notice.body = .found k → k = s.checker.profileCheck) :
    s.hear h = s.hearSession h.notice.tag := by
  rw [State.hear]
  cases hb : h.notice.body
  case found k => exact if_neg fun ⟨ho, hn⟩ => hn (hk ho k hb)
  all_goals rfl

end

/-- Settles O29: the FOUND is recalled, and the notice is that of a founder of another profile or of a session to seek. -/
theorem sessionIsHeard : Obligations.SessionIsHeard := by
  intro s n own hs hd ho
  have taken : exec .noticeEffectsMade s = .next ((s.taking.askBack fun e => e.body.isFound).hear ⟨n, own⟩) := by
    rw [exec_noticeEffectsMade hd, State.takeNotice_hears (s := s.taking) (h := ⟨n, own⟩) hs ho]
  refine ⟨fun ⟨hw, k, hb, hk⟩ => ?refused, fun hk => ?seeks⟩
  case refused =>
    have refused : (s.taking.askBack fun e => e.body.isFound).hear ⟨n, own⟩ =
        (s.taking.askBack fun e => e.body.isFound).refuseFounder := by
      rw [State.hear, hb]
      exact if_pos ⟨hw, hk⟩
    rw [taken, refused]
    rfl
  case seeks =>
    rw [taken, State.hear_seeks (s := s.taking.askBack fun e => e.body.isFound) (h := ⟨n, own⟩) hk, State.hearSession, State.seek_eq]
    rfl

end Sys2Proof.Machine
end

