-- ==== Sys2Proof/Proofs/SessionExpiries.lean ====
section
/-! PROOFS. The expiries of the beacon timer and of the absence timers (R136, R139; O34). -/

namespace Sys2Proof.Machine

section
variable (s : State)

/-- A notice of which one is placed or owed at most is submitted: told no room, it is owed (R109, R110, R116). -/
theorem State.submit_single {b : Body} {found : Prop} [Decidable found]
    (limit : s.outbox.limit b = if found then some .standing else none) (owed : Bool) (owe : State → State) :
    (if owed = true then s
      else match (s.submit b).2 with
        | .noRoom => owe (s.submit b).1
        | .placed | .standing | .slotBusy | .leaving => (s.submit b).1) =
    if owed = true ∨ (s.session.station = .leaving ∨ s.outbox.hasLeave = true) ∨ found then s
    else if s.outbox.room b.tier = true then s.setOutbox (s.outbox.place b s.session.tag .session) else owe s := by
  by_cases ho : owed = true
  · rw [if_pos ho, if_pos (.inl ho)]
  rw [if_neg ho]
  unfold State.submit State.offer Outbox.submit
  rw [limit]
  by_cases hr : s.refuses = true
  · rw [if_pos hr, if_pos (.inr (.inl (s.refuses_iff.1 hr)))]
    rfl
  rw [if_neg hr]
  by_cases hf : found
  · have none : owed = true ∨ (s.session.station = .leaving ∨ s.outbox.hasLeave = true) ∨ found := .inr (.inr hf)
    rw [if_pos hf, if_pos none]
    rfl
  rw [if_neg hf, if_neg (not_or.2 ⟨ho, not_or.2 ⟨mt s.refuses_iff.2 hr, hf⟩⟩)]
  by_cases room : s.outbox.room b.tier = true
  · simp only [room, if_true]
  · simp only [room]
    rfl

/-- A BEACON submitted (R139). -/
theorem State.submitBeacon_eq : s.submitBeacon =
    if s.sponsor.owedBeacon = true ∨ (s.session.station = .leaving ∨ s.outbox.hasLeave = true) ∨
      (∃ e ∈ s.outbox.entries, e.body.isBeacon = true) then s
    else if s.outbox.room 2 = true then s.setOutbox (s.outbox.place (.beacon 0#16 0#16 false) s.session.tag .session)
    else s.setSponsor { s.sponsor with owedBeacon := true } :=
  s.submit_single (by simp [Outbox.limit]) _ fun t => t.setSponsor { t.sponsor with owedBeacon := true }

/-- An EVICT submitted (R136). -/
theorem State.submitEvict_eq (m : Addr) : s.submitEvict m =
    if s.sponsor.owedEvicts.get m = true ∨ (s.session.station = .leaving ∨ s.outbox.hasLeave = true) ∨
      (∃ e ∈ s.outbox.entries, e.body.isEvictOf m = true) then s
    else if s.outbox.room 3 = true then s.setOutbox (s.outbox.place (.evict m) s.session.tag .session)
    else s.setSponsor { s.sponsor with owedEvicts := s.sponsor.owedEvicts.set m.val true m.isLt } :=
  s.submit_single (by simp [Outbox.limit]) _
    fun t => t.setSponsor { t.sponsor with owedEvicts := t.sponsor.owedEvicts.set m.val true m.isLt }

/-- The absence timer of a member runs below its limit. -/
theorem State.absenceRuns_iff (m : Addr) :
    s.absenceRuns m = true ↔ ∃ k, s.timers.absence.get m = some k ∧ k < s.port.absenceMs := by
  unfold State.absenceRuns
  split <;> simp_all

end

/-- Settles O34: each timer by whether it runs, and its notice by what is owed, placed or refused. -/
theorem beaconAndAbsenceTimersExpire : Obligations.BeaconAndAbsenceTimersExpire := by
  refine fun s => ⟨congrArg Host.Outcome.next ?_, fun m => congrArg Host.Outcome.next ?_⟩
  · unfold State.beaconTimerExpiry
    simp only [Option.isSome_iff_ne_none, State.submitBeacon_eq]
    rfl
  · unfold State.absenceTimerExpiry
    simp only [State.absenceRuns_iff, State.submitEvict_eq]
    rfl

end Sys2Proof.Machine
end

