-- ==== Sys2Proof/Proofs/RecalledEvicts.lean ====
section
/-! PROOFS. An EVICT that is taken back stays so through the event of the notice, and no work of the blocks touches an absence timer
but the application of the notice (R115, R135; O45, O51). -/

namespace Sys2Proof.Machine

/-- The station's own EVICT of a member is taken back: none is owed, and one in the Outbox is offered and asked back (R113, R115). -/
def Recalled (m : Addr) (s : State) : Prop :=
  s.sponsor.owedEvicts.get m = false ∧ (∀ e ∈ s.outbox.entries, e.body.isEvictOf m = true → e.offered = true ∧ e.removal = true) ∧
    ∀ b ∈ s.sponsor.owedAnswer, b.isEvictOf m = false

/-- The absence timers stay, and an EVICT taken back stays so. -/
def Undisturbed (s t : State) : Prop := t.timers.absence = s.timers.absence ∧ ∀ m, Recalled m s → Recalled m t

theorem Undisturbed.refl (s : State) : Undisturbed s s := ⟨rfl, fun _ => id⟩

theorem Undisturbed.trans {s t u : State} (h : Undisturbed s t) (k : Undisturbed t u) : Undisturbed s u :=
  ⟨k.1.trans h.1, fun m => k.2 m ∘ h.2 m⟩

theorem Undisturbed.foldl {α : Type} {f : State → α → State} (h : ∀ s a, Undisturbed s (f s a)) (l : List α) (s : State) :
    Undisturbed s (l.foldl f s) := by
  induction l generalizing s with
  | nil => exact .refl s
  | cons a l ih => exact (h s a).trans (ih _)

/-! ### The Outbox -/

/-- Every EVICT of the second Outbox is one of the first, offered and asked back where that is. -/
def Outbox.addsNoEvict (o x : Outbox) : Prop := ∀ m, ∀ e ∈ x.entries, e.body.isEvictOf m = true →
  ∃ d ∈ o.entries, d.body.isEvictOf m = true ∧ (d.offered = true ∧ d.removal = true → e.offered = true ∧ e.removal = true)

theorem Outbox.submit_addsNoEvict (o : Outbox) {b : Body} (hb : ∀ m, b.isEvictOf m = false) (tag : Word) (w : Owner) :
    o.addsNoEvict (o.submit b tag w).1 := fun m e he hm => by
  rcases mem_submit he with h | h
  · rw [h, hb] at hm; cases hm
  · exact ⟨e, h, hm, id⟩

theorem Outbox.removeUnsent_addsNoEvict (o : Outbox) (test : Entry → Bool) : o.addsNoEvict (o.removeUnsent test) := fun m e he hm => by
  obtain ⟨d, hd, rfl⟩ := List.mem_map.1 (List.mem_of_mem_filter he)
  refine ⟨d, hd, ?_, fun h => ?_⟩
  · revert hm; split <;> exact id
  · split
    · exact ⟨h.1, rfl⟩
    · exact h

theorem Outbox.keepOffered_addsNoEvict (o : Outbox) : o.addsNoEvict o.keepOffered := fun m e he hm => by
  obtain ⟨d, hd, rfl⟩ := List.mem_map.1 he
  exact ⟨d, List.mem_of_mem_filter hd, hm, fun h => ⟨h.1, rfl⟩⟩

theorem isEvictOf_of_claim {b : Body} {c : Client} (h : claimClient b = some c) (m : Addr) : b.isEvictOf m = false := by
  cases b <;> first | rfl | cases h

section
variable (s : State)

/-! ### Small updates -/

theorem Undisturbed.outbox {x : Outbox} (hx : s.outbox.addsNoEvict x) : Undisturbed s (s.setOutbox x) :=
  ⟨rfl, fun m ⟨owed, asked, answer⟩ => ⟨owed, fun e he hm => by
    obtain ⟨d, hd, hdm, marks⟩ := hx m e he hm
    exact marks (asked d hd hdm), answer⟩⟩

/-- No EVICT comes to be owed, and none as an answer. -/
theorem Undisturbed.sponsor {p : Sponsor} (hp : ∀ m, s.sponsor.owedEvicts.get m = false → p.owedEvicts.get m = false)
    (ha : ∀ b ∈ p.owedAnswer, b ∈ s.sponsor.owedAnswer ∨ ∀ m, b.isEvictOf m = false) : Undisturbed s (s.setSponsor p) :=
  ⟨rfl, fun m ⟨owed, asked, answer⟩ => ⟨hp m owed, asked, fun b hb => (ha b hb).elim (answer b) fun h => h m⟩⟩

/-- What the Session Controller owes stays. -/
theorem Undisturbed.answers {p : Sponsor} (hp : p.owedEvicts = s.sponsor.owedEvicts) (ha : p.owedAnswer = s.sponsor.owedAnswer) :
    Undisturbed s (s.setSponsor p) := .sponsor s (fun m h => by rw [hp]; exact h) fun b hb => .inl (by rw [← ha]; exact hb)

theorem State.setSlot_undisturbed (c : Client) (v : Slot) : Undisturbed s (s.setSlot c v) := by
  refine ⟨by rw [State.setSlot_timers], fun m h => ?_⟩
  rw [Recalled, State.setSlot_sponsor, State.setSlot_outbox]
  exact h

theorem State.setPool_undisturbed (x : Pool) : Undisturbed s (s.setPool x) := .refl s

theorem State.setChecker_undisturbed (x : Checker) : Undisturbed s (s.setChecker x) := .refl s

theorem State.post_undisturbed (k : EventKind) (w : Fin 16) : Undisturbed s (s.post k w) := .refl s

theorem State.offer_undisturbed {b : Body} (hb : ∀ m, b.isEvictOf m = false) (w : Owner) :
    Undisturbed s (s.setOutbox (s.offer b w).1) := by
  refine .outbox s ?_
  unfold State.offer; split
  · exact fun _ e he hm => ⟨e, he, hm, id⟩
  · exact s.outbox.submit_addsNoEvict hb _ w

theorem State.dropOwed_undisturbed : Undisturbed s s.dropOwed :=
  (Undisturbed.sponsor s (fun m _ => by simp [Sponsor.none, Vector.get_eq_getElem]) fun b hb => by cases hb).trans
    (Undisturbed.foldl (fun s c => s.setSlot_undisturbed c _) sixteen _)

theorem State.enter_undisturbed (st : StationState) (c : Cause) : Undisturbed s (s.enter st c) := by
  rw [State.enter_eq]
  by_cases h : st = .active
  · simp only [h, if_true]; exact .refl s
  · simp only [h, if_false]
    exact Undisturbed.answers s (p := { s.sponsor with answers := Vector.replicate 16 none, serving := none }) rfl rfl

theorem State.queueLeave_undisturbed (r : LeaveReason) : Undisturbed s (s.queueLeave r) := by
  have purge : Undisturbed s s.purge := (Undisturbed.outbox s s.outbox.keepOffered_addsNoEvict).trans (State.dropOwed_undisturbed _)
  have close : ∀ t : State, Undisturbed t t.closeSlots := Undisturbed.foldl (fun t c => t.setSlot_undisturbed c _) sixteen
  have leave : ∀ t : State, Undisturbed t (t.placeLeave r) := fun t =>
    .outbox t (t.outbox.submit_addsNoEvict (fun _ => rfl) _ _)
  have record : ∀ t : State, Undisturbed t (t.stopLoading.recordLeave r) := fun t => .refl t
  exact (((purge.trans (close _)).trans (leave _)).trans (record _)).trans (State.enter_undisturbed _ _ _)

/-! ### Storage upsets -/

theorem State.upset_undisturbed : Undisturbed s s.upset := by
  have leave : Undisturbed s (s.markUpset.queueLeave .resync) :=
    Undisturbed.trans (t := s.markUpset) (.refl s) (State.queueLeave_undisturbed _ _)
  unfold State.upset
  split
  · exact .refl s
  · split
    iterate 3 exact leave
    all_goals exact .refl s

theorem State.freeze_undisturbed : Undisturbed s s.freeze := (s.setPool_undisturbed _).trans (State.upset_undisturbed _)

theorem State.readMembers_undisturbed (as : List Addr) : Undisturbed s (s.readMembers as) := by
  unfold State.readMembers; split
  · exact s.upset_undisturbed
  · exact .refl s

theorem State.mismatch_undisturbed : Undisturbed s s.mismatch := by
  unfold State.mismatch
  cases s.session.station <;> first | exact s.upset_undisturbed | exact .refl s

/-! ### Answers -/

theorem State.submitAnswer_undisturbed {b : Body} (hb : ∀ m, b.isEvictOf m = false) : Undisturbed s (s.submitAnswer b) := by
  unfold State.submitAnswer; dsimp only; split
  · refine (s.offer_undisturbed hb .session).trans (.sponsor _ (fun _ => id) fun x hx => .inr ?_)
    rw [← Option.some.inj hx]; exact hb
  all_goals exact s.offer_undisturbed hb .session

theorem Serving.make_noEvict {v : Serving} {b : Body} {n : NextItem} (h : v.make = some (b, n)) (m : Addr) : b.isEvictOf m = false := by
  unfold Serving.make at h
  split at h
  · cases h; rfl
  · split at h
    · cases h; rfl
    · cases h
  · cases h; rfl
  · cases h

theorem State.makeSnap_undisturbed : Undisturbed s s.makeSnap := by
  unfold State.makeSnap
  split
  · exact .refl s
  · split
    · split
      · exact .refl s
      · exact (Undisturbed.answers s rfl rfl).trans (State.submitAnswer_undisturbed _ (Serving.make_noEvict ‹_›))
    · exact .refl s

theorem State.answerBody_noEvict (a : Addr) (w : Answer) (m : Addr) : (s.answerBody a w).isEvictOf m = false := by
  unfold State.answerBody
  split
  · rfl
  · rfl
  · split <;> rfl

theorem State.makeAnswer_undisturbed (a : Addr) : Undisturbed s (s.makeAnswer a) := by
  unfold State.makeAnswer
  split
  · split
    · exact .refl s
    · dsimp only
      split
      · exact ((s.readMembers_undisturbed _).trans (.answers _ rfl rfl)).trans
          (State.submitAnswer_undisturbed _ (State.answerBody_noEvict _ a _))
      · exact s.readMembers_undisturbed _
  · exact .refl s

theorem State.makeAnswers_undisturbed : Undisturbed s s.makeAnswers :=
  (s.makeSnap_undisturbed.trans (State.makeSnap_undisturbed _)).trans (Undisturbed.foldl (fun s a => s.makeAnswer_undisturbed a) _ _)

/-! ### Owed notices (R112) -/

/-- An EVICT that is owed is none taken back: what is placed is another member's. -/
theorem State.serveEvict_undisturbed (t : Addr) : Undisturbed s (s.serveEvict t) := by
  refine ⟨by unfold State.serveEvict; dsimp only; split_ifs; split <;> rfl; rfl, fun m ⟨owed, asked, answer⟩ => ?_⟩
  unfold State.serveEvict
  dsimp only
  split
  · rename_i ht
    have other : t ≠ m := fun e => by rw [e, owed] at ht; cases ht
    have served : Recalled m ((s.submit (.evict t)).1.setSponsor
        { s.sponsor with owedEvicts := s.sponsor.owedEvicts.set t.val false t.isLt }) := by
      refine ⟨?_, fun e he hm => ?_, answer⟩
      · simp only [State.setSponsor_sponsor, Vector.get_eq_getElem, Vector.getElem_set]
        split
        · rfl
        · exact owed
      · rcases s.mem_offer he with h | h
        · rw [h] at hm; exact absurd (of_decide_eq_true hm) other
        · exact asked e h hm
    split
    iterate 2 exact served
    all_goals exact ⟨owed, asked, answer⟩
  · exact ⟨owed, asked, answer⟩

theorem State.serveSlot_undisturbed (claims : Bool) (c : Client) : Undisturbed s (State.serveSlot claims s c) := by
  unfold State.serveSlot
  dsimp only
  split
  · split
    · exact .refl s
    · rename_i hb
      split
      · exact (s.offer_undisturbed (isEvictOf_of_claim (slotBody_claims hb).1) _).trans (State.setSlot_undisturbed _ _ _)
      · exact s.mismatch_undisturbed
      all_goals exact .refl s
  · exact .refl s

theorem State.serveAnswer_undisturbed : Undisturbed s s.serveAnswer := by
  refine ⟨by unfold State.serveAnswer; dsimp only; split; rfl; split <;> rfl, fun m ⟨owed, asked, answer⟩ => ?_⟩
  unfold State.serveAnswer
  dsimp only
  split
  · exact ⟨owed, asked, answer⟩
  · rename_i b hb
    split
    · refine ⟨owed, fun e he hm => ?_, nofun⟩
      rcases s.mem_offer he with h | h
      · rw [h, answer b hb] at hm; cases hm
      · exact asked e h hm
    all_goals exact ⟨owed, asked, answer⟩

theorem State.serveBeacon_undisturbed : Undisturbed s s.serveBeacon := by
  unfold State.serveBeacon; dsimp only; split
  · split
    iterate 2 exact (s.offer_undisturbed (fun _ => rfl) .session).trans (.answers _ rfl rfl)
    all_goals exact .refl s
  · exact .refl s

theorem State.serveOwed_undisturbed : Undisturbed s s.serveOwed :=
  ((((Undisturbed.foldl (fun s t => s.serveEvict_undisturbed t) sixteen s).trans
    (Undisturbed.foldl (fun s c => s.serveSlot_undisturbed false c) sixteen _)).trans (State.serveAnswer_undisturbed _)).trans
      (State.serveBeacon_undisturbed _)).trans (Undisturbed.foldl (fun s c => s.serveSlot_undisturbed true c) sixteen _)

end

end Sys2Proof.Machine
end


-- ==== Sys2Proof/Proofs/UndisturbedNotices.lean ====
section
/-! PROOFS. The same through indications, the Table Engine, the local effects of a notice and what ends its event (R115, R135; O45). -/

namespace Sys2Proof.Machine

section
variable (s : State)

/-! ### Slots, lines and indications -/

/-- A slot's notice handed in. -/
theorem State.handedIn_undisturbed (c : Client) {b : Body} (hb : claimClient b = some c) (v w x : Slot) :
    Undisturbed s (s.handedIn c b v w x) := by
  rw [s.handedIn_eq c hb]
  split
  · exact (s.offer_undisturbed (isEvictOf_of_claim hb) _).trans (State.setSlot_undisturbed _ _ _)
  · exact s.setSlot_undisturbed _ _
  · exact s.setSlot_undisturbed _ _
  all_goals exact s.mismatch_undisturbed

theorem State.testLine_undisturbed (n : LineNo) : Undisturbed s (s.testLine n) := by
  rw [State.testLine_eq]
  unfold State.risen
  split
  · exact s.handedIn_undisturbed _ rfl _ _ _
  · exact .refl s

theorem State.testLines_undisturbed : Undisturbed s s.testLines := Undisturbed.foldl (fun s n => s.testLine_undisturbed n) eight s

theorem State.testClient_undisturbed (c : Client) : Undisturbed s (s.testClient c) := by
  unfold State.testClient; split
  · exact s.testLine_undisturbed _
  · exact .refl s

theorem State.rearmIfHigh_undisturbed (c : Client) : Undisturbed s (s.rearmIfHigh c) := by
  unfold State.rearmIfHigh; split
  · split <;> exact .refl s
  · exact .refl s

/-- The end of a claim, and the test of its line. -/
theorem State.endSlot_undisturbed (c : Client) (r : EndReason) : Undisturbed s (s.endSlot c r) := s.setSlot_undisturbed _ _

theorem State.endTested_undisturbed (c : Client) (r : EndReason) : Undisturbed s ((s.endSlot c r).testClient c) :=
  (s.endSlot_undisturbed c r).trans (State.testClient_undisturbed _ _)

theorem State.teardownSlot_undisturbed (r : Option EndReason) (c : Client) : Undisturbed s (State.teardownSlot r s c) := by
  unfold State.teardownSlot
  split
  · exact .refl s
  · exact s.setSlot_undisturbed c _
  · exact s.endSlot_undisturbed c _
  · exact s.setSlot_undisturbed c _

theorem State.refuseQueued_undisturbed (c : Client) (r : ClaimRefusal) : Undisturbed s (s.refuseQueued c r) := by
  unfold State.refuseQueued
  dsimp only
  split
  · exact s.setSlot_undisturbed _ _
  · split
    · exact s.endTested_undisturbed c _
    · exact ((s.endSlot_undisturbed c _).trans (State.rearmIfHigh_undisturbed _ _)).trans (State.testClient_undisturbed _ _)

theorem State.indicate_undisturbed (c : Client) (i : Indication) (r : Option EndReason) : Undisturbed s (s.indicate c i r) := by
  unfold State.indicate
  dsimp only
  split
  · exact s.setSlot_undisturbed _ _
  · split
    · split
      · exact s.setSlot_undisturbed _ _
      · exact s.mismatch_undisturbed
    · split
      · rw [State.submitWithdraw_eq]
        exact s.handedIn_undisturbed c rfl _ _ _
      · exact s.mismatch_undisturbed
  · exact s.refuseQueued_undisturbed c _
  · split
    · exact s.endTested_undisturbed c _
    · exact s.mismatch_undisturbed
  · exact s.setSlot_undisturbed _ _
  · exact .refl s
  · exact s.endTested_undisturbed c _
  · exact s.endTested_undisturbed c _
  · exact ((s.endSlot_undisturbed c _).trans (State.rearmIfHigh_undisturbed _ _)).trans (State.testClient_undisturbed _ _)
  · exact s.teardownSlot_undisturbed _ c
  · exact s.mismatch_undisturbed

theorem State.tellOwn_undisturbed (tell : Bool) (a : Addr) (c : Client) (i : Indication) (r : Option EndReason) :
    Undisturbed s (s.tellOwn tell a c i r) := by
  unfold State.tellOwn; split
  · exact s.indicate_undisturbed c i r
  · exact .refl s

/-! ### The Table Engine -/

theorem State.runPass_undisturbed (tell : Bool) : Undisturbed s (s.runPass tell) := by
  have told := (s.setPool_undisturbed { s.pool with records := (grantPass s.port.threshold s.pool.records).records }).trans
    (Undisturbed.foldl (f := State.tellGrants tell) (fun u r => u.tellOwn_undisturbed tell r.station r.client .granted none)
      (grantPass s.port.threshold s.pool.records).granted _)
  unfold State.runPass
  dsimp only
  split
  · exact told.trans (State.freeze_undisturbed _)
  · exact told

theorem State.withPool_undisturbed {work : State → State} (h : Undisturbed s (work s)) : Undisturbed s (s.withPool work) := by
  unfold State.withPool; split
  · exact .refl s
  · exact h

theorem State.takeClaim_undisturbed (tell : Bool) (a : Addr) (c : Client) (k : Class) (m : Mask) :
    Undisturbed s (s.takeClaim tell a c k m) := by
  refine s.withPool_undisturbed ?_
  split
  · exact s.tellOwn_undisturbed _ _ _ _ _
  · unfold State.admitClaim
    split
    · exact s.freeze_undisturbed
    · exact s.tellOwn_undisturbed _ _ _ _ _
    · split
      · exact s.tellOwn_undisturbed _ _ _ _ _
      · exact ((s.setPool_undisturbed _).trans (State.tellOwn_undisturbed _ _ _ _ _ _)).trans (State.runPass_undisturbed _ _)

theorem State.dropRecord_undisturbed (tell : Bool) (a : Addr) (c : Client) (i : Option Standing → Indication) :
    Undisturbed s (State.dropRecord tell a c i s) := by
  unfold State.dropRecord
  dsimp only
  split
  · exact s.freeze_undisturbed
  · exact s.tellOwn_undisturbed _ _ _ _ _
  · exact ((s.setPool_undisturbed _).trans (State.tellOwn_undisturbed _ _ _ _ _ _)).trans (State.runPass_undisturbed _ _)

theorem State.removeRecords_undisturbed (tell : Bool) (k : RemovalCause) (r : Option EndReason) (as : List Addr) :
    Undisturbed s (s.removeRecords tell k r as) := by
  unfold State.removeRecords
  split
  · exact .refl s
  · refine s.withPool_undisturbed ?_
    unfold State.dropStations
    dsimp only
    split
    · exact s.freeze_undisturbed
    · split
      · exact .refl s
      · exact ((s.setPool_undisturbed _).trans (Undisturbed.foldl (f := State.tellRemoved tell k r)
          (fun t x => t.tellOwn_undisturbed tell x.station x.client (.removed k x.standing) r) _ _)).trans (State.runPass_undisturbed _ _)

theorem State.poolEffect_undisturbed (tell : Bool) (n : Notice) (r : Option EndReason) (as : List Addr) :
    Undisturbed s (s.poolEffect tell n r as) := by
  unfold State.poolEffect
  split
  · exact s.takeClaim_undisturbed _ _ _ _ _
  · exact s.withPool_undisturbed (s.dropRecord_undisturbed _ _ _ _)
  · exact s.withPool_undisturbed (s.dropRecord_undisturbed _ _ _ _)
  · exact s.removeRecords_undisturbed _ _ _ _
  · exact s.removeRecords_undisturbed _ _ _ _
  all_goals exact .refl s

/-! ### The room of the notice -/

theorem State.askBack_undisturbed (test : Entry → Bool) : Undisturbed s (s.askBack test) :=
  .outbox s (s.outbox.removeUnsent_addsNoEvict test)

theorem State.dropOwedSnap_undisturbed : Undisturbed s s.dropOwedSnap := by
  unfold State.dropOwedSnap; split
  · split
    · exact .sponsor s (fun _ => id) nofun
    · exact .refl s
  · exact .refl s

theorem State.recallSnaps_undisturbed (n : Notice) : Undisturbed s (s.recallSnaps n) := by
  unfold State.recallSnaps; split
  · exact .refl s
  · split
    · have stopped := Undisturbed.answers s (p := { s.sponsor with serving := none }) rfl rfl
      exact (stopped.trans (State.dropOwedSnap_undisturbed _)).trans (State.askBack_undisturbed _ _)
    · exact .refl s

theorem State.recallEvict_undisturbed (n : Notice) : Undisturbed s (s.recallEvict n) := by
  unfold State.recallEvict; split
  · rename_i t _
    refine (Undisturbed.sponsor s (p := { s.sponsor with owedEvicts := s.sponsor.owedEvicts.set t.val false t.isLt })
      (fun m hm => ?_) fun _ => .inl).trans (State.askBack_undisturbed _ _)
    simp only [Vector.get_eq_getElem, Vector.getElem_set]
    split
    · rfl
    · exact hm
  · exact .refl s

/-- Dated work, and the room that is offered with no slot ended. -/
theorem State.offerDated_undisturbed (n : Notice) (r : Bool) : Undisturbed s (s.dated n fun u => u.offerRoom r none) := by
  have room : ∀ t : State, Undisturbed t (t.offerRoom r none) := fun t => by
    unfold State.offerRoom State.testEnded; dsimp only; split
    · exact t.serveOwed_undisturbed
    · exact .refl t
  exact room (s.setCount (s.countAfter n))

/-! ### Local effects (R125 step 5) -/

theorem State.kindEffects_undisturbed (h : Heard) (e : TableChange) : Undisturbed s (s.kindEffects h e) := by
  have listed : ∀ a x, Undisturbed s (s.setAnswer a x) := fun a x => .answers s rfl rfl
  have serves : ∀ j, Undisturbed s (s.startServing j) := fun j => by
    unfold State.startServing
    split
    · exact s.freeze_undisturbed
    · split
      · exact s.upset_undisturbed
      · exact .answers s rfl rfl
  have compared : ∀ a b, Undisturbed s (s.compared a b) := fun a b => by
    unfold State.compared
    split
    · exact .refl s
    · split
      · exact .refl s
      · exact (Undisturbed.refl s).trans (State.queueLeave_undisturbed
          ((s.setChecker { s.checker with suspect := none, resyncPending := true }).post (.divergence .resync) a) _)
    · exact .refl s
    · exact .refl s
  unfold State.kindEffects
  split
  · unfold State.listJoin
    split
    · split
      · split
        · exact listed _ _
        · exact .refl s
      iterate 2
        split
        · exact listed _ _
        · exact .refl s
      · exact .refl s
    · exact .refl s
  · unfold State.ownAdmit
    split
    · split
      · exact serves _
      · split
        · exact listed _ _
        · exact .refl s
    · exact .refl s
  · unfold State.takeBeacon
    split
    · split
      · exact (Undisturbed.refl s : Undisturbed s (s.change .active)).trans (State.testLines_undisturbed _)
      · exact .refl s
    · split
      · exact compared _ _
      · exact .refl s
    all_goals exact .refl s
  all_goals exact .refl s

theorem State.localEffects_undisturbed (h : Heard) (e : TableChange) : Undisturbed s (s.localEffects h e) := by
  have suspect : ∀ t : State, Undisturbed t t.clearSuspect := fun t => by
    unfold State.clearSuspect; split
    · split <;> exact .refl t
    · exact .refl t
  have serving : ∀ t : State, Undisturbed t (t.checkServing h) := fun t => by
    unfold State.checkServing; split
    · exact .answers t rfl rfl
    · exact .refl t
  have prune : Undisturbed s s.pruneAnswers := .answers s rfl rfl
  exact ((prune.trans (suspect _)).trans (serving _)).trans (State.kindEffects_undisturbed _ h e)

/-! ### The end of the event -/

theorem State.afterHandling_undisturbed (b : State) (st : StationState) :
    Undisturbed s (State.postActive st (State.recheck b s).makeAnswers) := by
  have recheck : Undisturbed s (State.recheck b s) := by
    unfold State.recheck
    dsimp only
    split
    · exact .refl s
    · split
      · exact (s.setChecker_undisturbed _).trans (State.freeze_undisturbed _)
      · exact (s.setChecker_undisturbed _).trans (State.readMembers_undisturbed _ _)
  have post : ∀ t : State, Undisturbed t (State.postActive st t) := fun t => by
    unfold State.postActive; split <;> exact .refl t
  exact (recheck.trans (State.makeAnswers_undisturbed _)).trans (post _)

end

end Sys2Proof.Machine
end


-- ==== Sys2Proof/Proofs/MembershipChanges.lean ====
section
/-! PROOFS. The records that a notice changes, the absence timers by them, and the events they lead to (R121, R133, R135, R166; O45). -/

namespace Sys2Proof.Machine

/-! ### The changes of a membership effect (R125 step 3) -/

/-- The changes listed are the changes made: each with the state that the record has then and did not have before. -/
def TableChange.reports (e : TableChange) (t : Table) : Prop :=
  ∀ a st, (a, st) ∈ e.changes ↔ (e.table.get a).state = st ∧ st ≠ (t.get a).state

section
variable (t : Table)

theorem TableChange.reports_none : (⟨t, []⟩ : TableChange).reports t := fun a st => by
  simpa using fun e => e.symm

theorem Table.write_reports {b : Addr} {x : MemberState} (h : x ≠ (t.get b).state) (p : Option Addr) :
    (⟨t.write b x p, [(b, x)]⟩ : TableChange).reports t := fun a st => by
  simp only [Table.get_write, List.mem_singleton, Prod.ext_iff]
  by_cases e : a = b
  · rw [if_pos e, e]
    exact ⟨fun ⟨_, k⟩ => ⟨k.symm, k ▸ h⟩, fun ⟨k, _⟩ => ⟨rfl, k.symm⟩⟩
  · rw [if_neg e]
    exact ⟨fun ⟨k, _⟩ => absurd k e, fun ⟨k, n⟩ => absurd k.symm n⟩

/-- A record written anew in the state it has. -/
theorem Table.write_reports_none {b : Addr} {x : MemberState} (h : (t.get b).state = x) (p : Option Addr) :
    (⟨t.write b x p, []⟩ : TableChange).reports t := fun a st => by
  have same : ((t.write b x p).get a).state = (t.get a).state := by
    rw [Table.get_write]
    split
    · rename_i e; rw [e, h]
    · rfl
  rw [same]
  simpa using fun e => e.symm

theorem Table.remove_reports {b : Addr} (h : (t.get b).state ≠ .absent) : (t.remove b).reports t := fun a st => by
  have absent : (a, st) ∈ (t.remove b).changes → st = .absent := fun k => by
    simp only [Table.remove, List.mem_cons, List.mem_map, Prod.ext_iff] at k
    rcases k with ⟨-, k⟩ | ⟨_, -, -, k⟩
    · exact k
    · exact k.symm
  constructor
  · intro k
    obtain ⟨gone, was⟩ := (Table.mem_remove_changes h a).1 (List.mem_map.2 ⟨_, k, rfl⟩)
    rw [absent k]
    exact ⟨gone, was.symm⟩
  · rintro ⟨rfl, was⟩
    have mem : a ∈ (t.remove b).changes.map Prod.fst := by
      by_contra stays
      rw [Table.get_remove, if_neg stays] at was
      exact was rfl
    rw [((Table.mem_remove_changes h a).1 mem).1]
    exact Table.remove_change mem

theorem memberEffect_reports (n : Notice) : (memberEffect t n).reports t := by
  have none := TableChange.reports_none t
  unfold memberEffect
  split
  · split
    · rename_i e _
      exact t.write_reports (by rw [show (t.get n.sender).state = _ from e]; nofun) _
    · rename_i e _
      exact t.write_reports_none e _
    · exact none
  · rename_i j _ _
    split
    · rename_i e
      simp only [Table.admitEffective, Table.stateOf, Bool.and_eq_true] at e
      exact t.write_reports (by rw [of_decide_eq_true e.1.1]; nofun) _
    · exact none
  · split
    · rename_i e
      exact t.write_reports (by rw [show (t.get _).state = _ from e.2.1]; nofun) _
    · exact none
  · split
    · exact none
    · exact t.remove_reports ‹_›
  · split
    · rename_i e
      exact t.remove_reports fun k => by
        rcases e with e | e <;> rw [Table.stateOf, k] at e <;> cases e
    · exact none
  · split
    · rename_i e
      exact t.write_reports (by rw [show (t.get n.sender).state = _ from e.2]; nofun) _
    · exact none
  all_goals exact none

/-- The leaver or the evicted one is reported first, then those it sponsored in ascending order (R133, R137). -/
theorem Table.remove_ascending (m : Addr) : ∃ others : List Addr,
    (t.remove m).changes = (m, .absent) :: others.map (fun a => (a, .absent)) ∧ others.Pairwise (· < ·) :=
  ⟨_, rfl, (by decide : sixteen.Pairwise (· < ·)).filter _⟩

theorem memberEffect_single {n : Notice} (hn : namedTarget n = none) : (memberEffect t n).changes.length ≤ 1 := by
  unfold memberEffect
  cases hb : n.body <;> simp only [namedTarget, hb, reduceCtorEq] at hn <;> dsimp only
  case join => split <;> simp
  case admitJoiner | refuse | beacon => split <;> simp
  all_goals exact Nat.zero_le _

end

section
variable {s : State} {h : Heard}

/-! ### The absence timers (R135) -/

/-- Station state and sync flag left with decide whether absence timers run, and an upset's LEAVE keeps what they decide. -/
theorem Steady.runsAbsence {t : State} (k : Steady s t) : t.runsAbsence = s.runsAbsence := by
  rcases k with ⟨station, left, -⟩ | ⟨-, station, left⟩
  · simp only [State.runsAbsence, station, left]
  · rw [State.runsAbsence, station]
    exact left

theorem State.memberChanged_timer (c : Addr × MemberState) (a : Addr) :
    (s.memberChanged c).timers.absence.get a = if a = c.1 then s.changedTimer a c.2 else s.timers.absence.get a := by
  show (s.timers.absence.set c.1.val (s.changedTimer c.1 c.2) c.1.isLt).get a = _
  simp only [Vector.get_eq_getElem, Vector.getElem_set, ← Fin.ext_iff, eq_comm (a := c.1)]
  split
  · rename_i e; rw [e]
  · rfl

/-- The timer of a changed record, seen once more, is the same. -/
theorem State.memberChanged_changedTimer (c : Addr × MemberState) {a : Addr} {x : MemberState} (hc : c.1 = a → c.2 = x) :
    (s.memberChanged c).changedTimer a x = s.changedTimer a x := by
  have timer := s.memberChanged_timer c a
  have same : (s.memberChanged c).timers.absence.get a = s.timers.absence.get a ∨
      (s.memberChanged c).timers.absence.get a = s.changedTimer a x := by
    rw [timer]
    split
    · rename_i e; rw [hc e.symm]; exact .inr rfl
    · exact .inl rfl
  cases x
  case absent => rfl
  case syncing =>
    by_cases runs : a ≠ s.own ∧ s.runsAbsence = true
    · exact (if_pos runs).trans (if_pos runs).symm
    · have stays : s.changedTimer a .syncing = s.timers.absence.get a := if_neg runs
      rw [stays, or_self] at same
      exact (if_neg runs).trans (same.trans stays.symm)
  case joining | present =>
    exact same.elim id id

/-- The absence timers after the changes of a notice, each record changed to one state at most. -/
theorem State.foldl_memberChanged_timer (l : List (Addr × MemberState)) {a : Addr} {x : MemberState} (hl : ∀ c ∈ l, c.1 = a → c.2 = x) :
    (l.foldl State.memberChanged s).timers.absence.get a = if (a, x) ∈ l then s.changedTimer a x else s.timers.absence.get a := by
  induction l generalizing s with
  | nil => rfl
  | cons c l ih =>
    have rest := fun d hd => hl d (List.mem_cons_of_mem _ hd)
    rw [List.foldl_cons, ih rest, s.memberChanged_changedTimer c (hl c (by simp)), s.memberChanged_timer]
    by_cases first : c = (a, x)
    · rw [first]; simp
    · have other : a ≠ c.1 := fun e => first (Prod.ext e.symm (hl c (by simp) e.symm))
      simp [List.mem_cons, Ne.symm first, other]

/-- The sender's running timer restarts. -/
theorem State.restartAbsence_timer (sender a : Addr) : (s.restartAbsence sender).timers.absence.get a =
    if a = sender ∧ a ≠ s.own ∧ ((s.session.members.get a).state = .syncing ∨ (s.session.members.get a).state = .present) then
      (s.timers.absence.get a).map fun _ => 0
    else s.timers.absence.get a := by
  have set : ∀ v : Option Nat, (s.timers.absence.set sender.val v sender.isLt).get a =
      if a = sender then v else s.timers.absence.get a := fun v => by
    simp only [Vector.get_eq_getElem, Vector.getElem_set, ← Fin.ext_iff, eq_comm]
  unfold State.restartAbsence Table.stateOf
  dsimp only
  split
  · rename_i runs
    rw [State.setTimers_timers, set]
    by_cases e : a = sender
    · rw [if_pos e, if_pos ⟨e, by rw [e]; exact runs.symm⟩, e]
    · rw [if_neg e, if_neg fun k => e k.1]
  · rename_i stopped
    exact (if_neg fun ⟨e, k⟩ => stopped (by rw [← e]; exact k.symm)).symm

/-- The timers after steps 1 to 3 of R125. -/
theorem State.stepped_timer (a : Addr) :
    (let old := s.session.members
    let new := (memberEffect old h.notice).table
    ((s.stepped h).liveMembers (memberEffect old h.notice)).timers.absence.get a =
      if (new.get a).state ≠ (old.get a).state ∧ (new.get a).state = .absent then none
      else if (new.get a).state ≠ (old.get a).state ∧ (new.get a).state = .syncing ∧ a ≠ s.own ∧ s.runsAbsence = true then some 0
      else if a = h.notice.sender ∧ a ≠ s.own ∧ ((old.get a).state = .syncing ∨ (old.get a).state = .present) then
        (s.timers.absence.get a).map fun _ => 0
      else s.timers.absence.get a) := by
  dsimp only
  have reports := memberEffect_reports s.session.members h.notice
  have one : (s.stepOne h).timers.absence = s.timers.absence := by
    have counts : Undisturbed s (s.countNotice h.notice.body) := by unfold State.countNotice; split <;> exact .refl s
    have clash : ∀ t : State, Undisturbed t (t.noteClash h) := fun t => by unfold State.noteClash; split <;> exact .refl t
    exact ((counts.trans (clash _)).trans (State.readMembers_undisturbed _ _)).1
  have own : (s.stepped h).own = s.own :=
    congrArg Straps.address ((s.stepOne_moves h).comp (State.restartAbsence_moves _ _)).straps
  have runs : (s.stepped h).runsAbsence = s.runsAbsence :=
    ((s.stepOne_steady h).trans (State.restartAbsence_kept _ _).steady).runsAbsence
  have timer : (s.stepped h).timers.absence.get a = _ := (s.stepOne h).restartAbsence_timer h.notice.sender a
  rw [State.stepOne_members, one, show (s.stepOne h).own = s.own from congrArg Straps.address (s.stepOne_moves h).straps] at timer
  generalize s.stepped h = u at own runs timer
  generalize memberEffect s.session.members h.notice = e at reports
  have changed : ∀ x, (u.setMembers e.table).changedTimer a x = match x with
      | .absent => none
      | .syncing => if a ≠ s.own ∧ s.runsAbsence = true then some 0 else u.timers.absence.get a
      | .joining | .present => u.timers.absence.get a := fun x => by
    rw [← own, ← runs]
    cases x <;> rfl
  rw [State.liveMembers, State.foldl_memberChanged_timer (x := (e.table.get a).state) e.changes fun c hc ha => by
    rw [← ha]; exact ((reports c.1 c.2).1 hc).1.symm, changed, ← timer]
  have mem := reports a (e.table.get a).state
  rw [eq_self_iff_true, true_and] at mem
  rw [if_congr mem rfl rfl]
  by_cases same : (e.table.get a).state = (s.session.members.get a).state
  · have still : (u.setMembers e.table).timers = u.timers := rfl
    simp [same, still]
  · simp only [ne_eq, same, not_false_eq_true, true_and, if_true]
    cases (e.table.get a).state <;> simp

/-! ### A notice that leaves the station its place -/

/-- A notice of the session taken by a member recalls what R115 and R153 say. -/
theorem State.recall_member (hs : s.session.station.member) (ht : h.notice.tag = s.session.tag) (hf : h.notice.body.isFound = false) :
    s.recall h = (s.recallEvict h.notice).recallSnaps h.notice := by
  unfold State.recall
  rcases hs with e | e | e <;> rw [e] <;> exact if_pos ⟨ht, hf⟩

theorem State.makeRoom_undisturbed (hs : s.session.station.member) (ht : h.notice.tag = s.session.tag) (hf : h.notice.body.isFound = false) :
    Undisturbed s (s.makeRoom h false none) := by
  have asks : Undisturbed s (s.recall h) := by
    rw [State.recall_member hs ht hf]
    exact (s.recallEvict_undisturbed _).trans (State.recallSnaps_undisturbed _ _)
  exact asks.trans (State.offerDated_undisturbed _ _ _)

/-- What is asked back is not left unsent. -/
theorem Outbox.removeUnsent_asked {o : Outbox} {test : Entry → Bool} {e : Entry} (he : e ∈ (o.removeUnsent test).entries)
    (hm : test e = true) : e.offered = true ∧ e.removal = true := by
  obtain ⟨mem, kept⟩ := List.mem_filter.1 he
  obtain ⟨d, -, rfl⟩ := List.mem_map.1 mem
  by_cases k : (test d && d.offered) = true
  · rw [if_pos k]
    exact ⟨(Bool.and_eq_true_iff.1 k).2, rfl⟩
  · rw [if_neg k] at kept hm
    have unsent : d.offered = false := by simpa [hm] using k
    simp [hm, unsent] at kept

/-- The own EVICT of the target is taken back (R115). -/
theorem State.recallEvict_recalled {m : Addr} (hn : namedTarget h.notice = some m) (ha : ∀ b ∈ s.sponsor.owedAnswer, b.tier = 2) :
    Recalled m (s.recallEvict h.notice) := by
  have asks : s.recallEvict h.notice = (s.setSponsor { s.sponsor with
      owedEvicts := s.sponsor.owedEvicts.set m.val false m.isLt }).askBack fun e => e.body.isEvictOf m := by
    rw [State.recallEvict, hn]
  rw [asks]
  refine ⟨?_, fun e he hm => Outbox.removeUnsent_asked he hm, fun b hb => ?_⟩
  · simp [State.askBack, Vector.get_eq_getElem]
  · have tier := ha b hb
    cases b <;> first | rfl | cases tier

theorem State.makeRoom_recalled (hs : s.session.station.member) (ht : h.notice.tag = s.session.tag) (hf : h.notice.body.isFound = false)
    {m : Addr} (hn : namedTarget h.notice = some m) (ha : ∀ b ∈ s.sponsor.owedAnswer, b.tier = 2) :
    Recalled m (s.makeRoom h false none) := by
  refine (State.offerDated_undisturbed _ _ _).2 m ?_
  rw [State.recall_member hs ht hf]
  exact (State.recallSnaps_undisturbed _ _).2 m (State.recallEvict_recalled hn ha)

/-- The application of a notice takes no EVICT up again. -/
theorem State.stepped_recalled {m : Addr} (e : TableChange) (k : Recalled m s) : Recalled m ((s.stepped h).liveMembers e) := by
  have one : Recalled m (s.stepOne h) := by
    have counts : Undisturbed s (s.countNotice h.notice.body) := by unfold State.countNotice; split <;> exact .refl s
    have clash : ∀ t : State, Undisturbed t (t.noteClash h) := fun t => by unfold State.noteClash; split <;> exact .refl t
    exact ((counts.trans (clash _)).trans (State.readMembers_undisturbed _ _)).2 m k
  have stepped : Recalled m (s.stepped h) := by
    unfold State.stepped State.restartAbsence; dsimp only; split <;> exact one
  have changes : ∀ (l : List (Addr × MemberState)) (t : State), Recalled m t → Recalled m (l.foldl State.memberChanged t) := fun l => by
    induction l with
    | nil => exact fun _ => id
    | cons c l ih => exact fun t k => ih (t.memberChanged c) k
  exact changes _ _ stepped

/-- The whole event of such a notice: room, steps 1 to 4 of R125, local effects, and what follows the handling. -/
theorem State.takeNotice_stays (hs : s.session.station.member) (ht : h.notice.tag = s.session.tag) (hf : h.notice.body.isFound = false)
    (hp : OwedApart s) (he : ending s.own s.session.station h (memberEffect s.session.members h.notice) = none) :
    (let e := memberEffect s.session.members h.notice
    s.takeNotice h false none = State.postActive s.session.station (State.recheck s
      (((((s.makeRoom h false none).stepped h).liveMembers e).poolEffect true h.notice (some .evicted)
        (removedStations h.notice e.changes)).localEffects h e)).makeAnswers) := by
  obtain ⟨⟨session, -, -, -, straps⟩, -, -⟩ := s.makeRoom_roomed h false (.inr hp)
  have own : (s.makeRoom h false none).own = s.own := congrArg Straps.address straps
  rw [State.takeNotice, State.handle_member (by rw [session]; exact hs) (by rw [session]; exact ht) hf,
    State.applyNotice_stays (e := memberEffect s.session.members h.notice) (by rw [session]) (by rw [own, session]; exact he)]
  rfl

/-- What it does to absence timers and to the own EVICT of the member it names. -/
theorem State.takeNotice_timers (hs : s.session.station.member) (ht : h.notice.tag = s.session.tag) (hf : h.notice.body.isFound = false)
    (hp : OwedApart s) (he : ending s.own s.session.station h (memberEffect s.session.members h.notice) = none) :
    (let old := s.session.members
    let new := (memberEffect old h.notice).table
    (∀ a, (s.takeNotice h false none).timers.absence.get a =
      if (new.get a).state ≠ (old.get a).state ∧ (new.get a).state = .absent then none
      else if (new.get a).state ≠ (old.get a).state ∧ (new.get a).state = .syncing ∧ a ≠ s.own ∧ s.runsAbsence = true then some 0
      else if a = h.notice.sender ∧ a ≠ s.own ∧ ((old.get a).state = .syncing ∨ (old.get a).state = .present) then
        (s.timers.absence.get a).map fun _ => 0
      else s.timers.absence.get a) ∧
    ∀ m, namedTarget h.notice = some m → Recalled m (s.takeNotice h false none)) := by
  obtain ⟨⟨session, -, -, -, straps⟩, -, -⟩ := s.makeRoom_roomed h false (.inr hp)
  have own : (s.makeRoom h false none).own = s.own := congrArg Straps.address straps
  have runs : (s.makeRoom h false none).runsAbsence = s.runsAbsence := State.syncFlag_congr session
  have room := State.makeRoom_undisturbed hs ht hf
  have recalled := fun m hn => State.makeRoom_recalled (m := m) hs ht hf hn hp.2
  dsimp only
  rw [State.takeNotice_stays hs ht hf hp he]
  generalize s.makeRoom h false none = u at session own runs room recalled
  have rest := ((State.poolEffect_undisturbed ((u.stepped h).liveMembers (memberEffect s.session.members h.notice)) true h.notice
    (some .evicted) (removedStations h.notice (memberEffect s.session.members h.notice).changes)).trans
      (State.localEffects_undisturbed _ h (memberEffect s.session.members h.notice))).trans
        (State.afterHandling_undisturbed _ s s.session.station)
  refine ⟨fun a => ?_, fun m hn => rest.2 m (State.stepped_recalled _ (recalled m hn))⟩
  have timer := u.stepped_timer (h := h) a
  dsimp only at timer
  rw [session, own, runs, room.1] at timer
  rw [rest.1, timer]

end

end Sys2Proof.Machine
end

