-- ==== Sys2Proof/Proofs/MembershipReports.lean ====
section
/-! PROOFS. The events of a notice that leaves the station its place and has no other effect, and the settling of O45 (R121, R141,
R166). -/

namespace Sys2Proof.Machine

section
variable {s : State} {h : Heard}

/-! ### Steps 1 to 4 of R125 -/

/-- Steps 1 and 2 with member records that pass their check, whether the notice counts or not. -/
theorem State.stepped_clash (hf : s.session.founded = true) (hm : ∀ a, (s.session.members.get a).sound = true) :
    Reports (clashEvents s.own h (s.countNotice h.notice.body).session.count) s (s.stepped h) := by
  have count : Reports [] s (s.countNotice h.notice.body) ∧ (s.countNotice h.notice.body).session.founded = true := by
    unfold State.countNotice; split <;> exact ⟨⟨rfl, fun _ => rfl, rfl, rfl⟩, hf⟩
  have members := (s.countNotice_same h.notice.body).1
  obtain ⟨count, founded⟩ := count
  rw [State.stepped, State.stepOne]
  generalize s.countNotice h.notice.body = t at count founded members
  have clash : Reports (clashEvents t.own h t.session.count) t (t.noteClash h) ∧ (t.noteClash h).session = t.session := by
    unfold State.noteClash clashEvents
    split
    · rename_i e
      rw [e.1]
      exact ⟨⟨congrArg (fun n => enqueue t.own t.port.events ⟨.addressClash, t.own, n⟩) (if_pos founded), fun _ => rfl, rfl, rfl⟩, rfl⟩
    · exact ⟨⟨rfl, fun _ => rfl, rfl, rfl⟩, rfl⟩
  rw [← count.own]
  refine count.trans ?_
  rw [State.readMembers_sound fun a _ => by rw [clash.2, members]; exact hm a]
  generalize t.noteClash h = u at clash
  unfold State.restartAbsence; dsimp only; split
  · exact ⟨clash.1.events, clash.1.slots, clash.1.pool, clash.1.straps⟩
  · exact clash.1

theorem State.liveMembers_checker (e : TableChange) : (s.liveMembers e).checker = s.checker := by
  have each : ∀ (l : List (Addr × MemberState)) (t : State), (l.foldl State.memberChanged t).checker = t.checker := fun l => by
    induction l with
    | nil => exact fun _ => rfl
    | cons c l ih => exact fun t => ih (t.memberChanged c)
  exact each _ _

/-- No claim notice, and an empty pool: the Table Engine has nothing to do. -/
theorem State.poolEffect_empty (hp : s.pool = ⟨[], false⟩) {n : Notice} (hn : claimClient n.body = none) (tell : Bool) (x : Option EndReason)
    (as : List Addr) : s.poolEffect tell n x as = s := by
  have removes : ∀ k, s.removeRecords tell k x as = s := fun k => by
    simp [State.removeRecords, State.withPool, State.dropStations, State.poolFails, hp]
  unfold State.poolEffect
  cases hb : n.body <;> rw [hb] at hn
  case claim | withdraw | release => cases hn
  case leave | evict => exact removes _

/-! ### Local effects -/

/-- Of the local effects by kind, a BEACON's apart, only the answers and the serving state are touched where every record passes. -/
theorem State.kindEffects_sponsor (hb : h.notice.body.isBeacon = false) (ha : AllSound s) (e : TableChange) :
    ∃ p, s.kindEffects h e = s.setSponsor p := by
  have same : ∃ p, s = s.setSponsor p := ⟨s.sponsor, rfl⟩
  have members : s.membersFail sixteen = false := by
    simp only [State.membersFail, List.any_eq_false]
    exact fun a _ => by rw [ha.2 a]; nofun
  unfold State.kindEffects
  cases hk : h.notice.body <;> rw [hk] at hb
  case beacon => cases hb
  case join =>
    dsimp only
    split
    · unfold State.listJoin
      split
      iterate 3
        split
        · exact ⟨_, rfl⟩
        · exact same
      exact same
    · exact same
  case admitJoiner =>
    dsimp only
    split
    · unfold State.ownAdmit State.startServing
      rw [State.poolFails_sound ha.1, members]
      split
      · exact ⟨_, rfl⟩
      · split
        · exact ⟨_, rfl⟩
        · exact same
    · exact same
  all_goals exact same

/-- DIVERGENCE of a suspect that left PRESENT (R166). -/
def suspectEvents (suspect : Option Addr) (t : Table) (n : Word) : List Event :=
  match suspect with
  | some a => if (t.get a).state = .present then [] else [⟨.divergence .cleared, a, n⟩]
  | none => []

/-- These events are posted; session, pool and straps stay. -/
def Tells (l : List Event) (s t : State) : Prop :=
  t.port.events = l.foldl (enqueue s.own) s.port.events ∧ t.session = s.session ∧ t.pool = s.pool ∧ t.straps = s.straps

theorem Tells.trans {l k : List Event} {s t u : State} (h : Tells l s t) (g : Tells k t u) : Tells (l ++ k) s u := by
  obtain ⟨events, session, pool, straps⟩ := h
  obtain ⟨events', session', pool', straps'⟩ := g
  have own : t.own = s.own := congrArg Straps.address straps
  exact ⟨by rw [events', events, own, List.foldl_append], session'.trans session, pool'.trans pool, straps'.trans straps⟩

theorem Tells.refl (s : State) : Tells [] s s := ⟨rfl, rfl, rfl, rfl⟩

theorem Tells.sound {l : List Event} {t : State} (k : Tells l s t) (ha : AllSound s) : AllSound t := by
  obtain ⟨-, session, pool, -⟩ := k
  rw [AllSound, pool, session]; exact ha

/-- An event posted in a session carries its count (R183). -/
theorem State.post_tells (hf : s.session.founded = true) (k : EventKind) (w : Fin 16) :
    Tells [⟨k, w, s.session.count⟩] s (s.post k w) :=
  ⟨congrArg (fun n => enqueue s.own s.port.events ⟨k, w, n⟩) (if_pos hf), rfl, rfl, rfl⟩

theorem State.setSponsor_tells (s : State) (p : Sponsor) : Tells [] s (s.setSponsor p) := .refl s

theorem State.setChecker_tells (s : State) (k : Checker) : Tells [] s (s.setChecker k) := .refl s

theorem State.clearSuspect_tells (hf : s.session.founded = true) :
    Tells (suspectEvents s.checker.suspect s.session.members s.session.count) s s.clearSuspect := by
  unfold State.clearSuspect suspectEvents Table.stateOf
  cases s.checker.suspect with
  | none => exact .refl s
  | some a =>
    dsimp only
    split
    · exact .refl s
    · exact (s.setChecker_tells _).trans (State.post_tells (s := s.setChecker _) hf _ _)

theorem State.checkServing_tells (s : State) (h : Heard) : Tells [] s (s.checkServing h) := by
  unfold State.checkServing; split
  · exact s.setSponsor_tells _
  · exact .refl s

theorem State.localEffects_tells (hf : s.session.founded = true) (hb : h.notice.body.isBeacon = false) (ha : AllSound s) (e : TableChange) :
    Tells (suspectEvents s.checker.suspect s.session.members s.session.count) s (s.localEffects h e) := by
  have prune : Tells [] s s.pruneAnswers := s.setSponsor_tells _
  have suspect := State.clearSuspect_tells (s := s.pruneAnswers) hf
  have before := (prune.trans suspect).trans (State.checkServing_tells _ h)
  rw [List.append_nil, List.nil_append] at before
  unfold State.localEffects
  generalize s.pruneAnswers.clearSuspect.checkServing h = t at before
  obtain ⟨p, kind⟩ := State.kindEffects_sponsor hb (before.sound ha) e
  have effect := before.trans (t.setSponsor_tells p)
  rw [List.append_nil] at effect
  rw [kind]
  exact effect

/-! ### What follows the handling -/

theorem State.submitAnswer_tells (s : State) (b : Body) : Tells [] s (s.submitAnswer b) := by
  unfold State.submitAnswer; dsimp only; split <;> exact .refl s

theorem State.makeSnap_tells (s : State) : Tells [] s s.makeSnap := by
  unfold State.makeSnap
  split
  · exact .refl s
  · split
    · split
      · exact .refl s
      · exact (s.setSponsor_tells _).trans (State.submitAnswer_tells _ _)
    · exact .refl s

theorem State.makeAnswer_tells (ha : AllSound s) (a : Addr) : Tells [] s (s.makeAnswer a) := by
  unfold State.makeAnswer
  have sound : ∀ as, s.readMembers as = s := fun as => State.readMembers_sound fun b _ => ha.2 b
  split
  · split
    · exact .refl s
    · dsimp only
      rw [sound, if_pos ‹_›]
      exact (s.setSponsor_tells _).trans (State.submitAnswer_tells _ _)
  · exact .refl s

/-- Where every record passes its check, answers are made without an event. -/
theorem State.makeAnswers_tells (ha : AllSound s) : Tells [] s s.makeAnswers := by
  have each : ∀ (l : List Addr) (t : State), AllSound t → Tells [] t (l.foldl State.makeAnswer t) := fun l => by
    induction l with
    | nil => exact fun t _ => .refl t
    | cons a l ih =>
      intro t ht
      have first := State.makeAnswer_tells ht a
      exact first.trans (ih _ (first.sound ht))
  have snaps : Tells [] s s.makeSnap.makeSnap := s.makeSnap_tells.trans (State.makeSnap_tells _)
  exact snaps.trans (each _ _ (snaps.sound ha))

/-- Where every record passes its check, it is worked out afresh without an event. -/
theorem State.recheck_tells (ha : AllSound s) (b : State) : Tells [] s (State.recheck b s) := by
  cases keeps : s.keepsCheck b with
  | true => rw [State.recheck, keeps]; exact .refl s
  | false =>
    rw [State.recheck_new keeps (State.poolFails_sound ha.1) ?_]
    · exact .refl s
    · simp only [State.membersFail, List.any_eq_false]
      exact fun a _ => by rw [ha.2 a]; nofun

/-! ### The whole event -/

/-- The count with the notice applied (R123). -/
theorem State.countNotice_count (hf : h.notice.body.isFound = false) (hb : h.notice.body.isBeacon = false) :
    (s.countNotice h.notice.body).session.count = if h.notice.body.isSnap = true then s.session.count else s.session.count + 1#16 := by
  cases hk : h.notice.body <;> rw [hk] at hf hb
  case found => cases hf
  case beacon => cases hb
  all_goals rfl

theorem State.takeNotice_reports (hs : s.session.station.member) (ht : h.notice.tag = s.session.tag) (hf : h.notice.body.isFound = false)
    (hp : OwedApart s) (he : ending s.own s.session.station h (memberEffect s.session.members h.notice) = none) (ha : AllSound s)
    (hc : claimClient h.notice.body = none) (hb : h.notice.body.isBeacon = false) (hq : s.pool = ⟨[], false⟩)
    (hr : s.session.founded = true) :
    (let n := if h.notice.body.isSnap = true then s.session.count else s.session.count + 1#16
    (s.takeNotice h false none).port.events =
      (clashEvents s.own h n ++ memberEvents (memberEffect s.session.members h.notice).changes n ++
        suspectEvents s.checker.suspect (memberEffect s.session.members h.notice).table n).foldl (enqueue s.own) s.port.events) := by
  dsimp only
  obtain ⟨⟨session, pool, checker, port, straps⟩, -, -⟩ := s.makeRoom_roomed h false (.inr hp)
  have own : (s.makeRoom h false none).own = s.own := congrArg Straps.address straps
  rw [State.takeNotice_stays hs ht hf hp he, ← session, ← own, ← checker, ← port]
  rw [← pool] at hq
  rw [AllSound, ← pool, ← session] at ha
  rw [← session] at hr hs
  generalize s.makeRoom h false none = u at *
  rw [← State.countNotice_count hf hb]
  -- steps 1 to 3 of R125
  have clash := State.stepped_clash (h := h) hr ha.2
  obtain ⟨stepped, -, checker⟩ := State.stepped_parts (s := u) (h := h) fun a _ => ha.2 a
  have counts : (u.countNotice h.notice.body).session.founded = true := by unfold State.countNotice; split <;> exact hr
  have station := (u.countNotice_same h.notice.body).2.2.2.1
  have sound := memberEffect_sound ha.2 h.notice
  generalize memberEffect u.session.members h.notice = e at sound
  obtain ⟨members, replica⟩ := State.liveMembers_reports (s := u.stepped h) (by rw [stepped]; exact counts) e
  have suspect := (u.stepped h).liveMembers_checker e
  have first := clash.trans members
  rw [stepped] at replica first
  rw [checker] at suspect
  generalize (u.stepped h).liveMembers e = v at replica first suspect
  have pool := first.pool.trans hq
  -- step 4 has nothing to do
  rw [State.poolEffect_empty pool hc]
  -- the local effects and what follows
  have all : AllSound v := ⟨by rw [pool]; nofun, by rw [replica]; exact sound⟩
  have effects := State.localEffects_tells (h := h) (by rw [replica]; exact counts) hb all e
  have checked := State.recheck_tells (effects.sound all) s
  have answers := State.makeAnswers_tells (checked.sound (effects.sound all))
  obtain ⟨events, session', -, -⟩ := (effects.trans checked).trans answers
  have stays : (State.recheck s (v.localEffects h e)).makeAnswers.session.station = u.session.station := by
    rw [session', replica]; exact station
  rw [State.postActive_none]
  · simp only [events, first.own, first.events, suspect, replica, List.append_nil, List.foldl_append]
  · rw [stays]
    rcases hs with k | k | k <;> simp [k]

end

end Sys2Proof.Machine

namespace Sys2Proof.Machine

/-- The station states of which O45 speaks, and the taken station (R125). -/
theorem State.runsAbsence_member {s : State} (hs : s.session.station.member) :
    s.runsAbsence = true ↔ s.session.station ≠ .leaving ∨ s.session.leftSynced = true := by
  unfold State.runsAbsence
  rcases hs with e | e | e <;> simp [e]

/-- Settles O45: the absence timers and the recalled EVICT by what leaves them alone, the events step by step, and the table change by
the body of the notice. -/
theorem membershipChangesAreReported : Obligations.MembershipChangesAreReported := by
  refine ⟨fun s h hs hd ht hf _ hp he => ⟨?_, ?_⟩, fun t n => ⟨memberEffect_reports t n, ?_, memberEffect_single t⟩⟩
  · obtain ⟨timers, recalled⟩ := State.takeNotice_timers (s := s.taking) hs ht hf hp he
    refine ⟨_, exec_noticeEffectsMade hd, fun a => ?_, fun m hn => ?_⟩
    · rw [timers a]
      simp only [State.runsAbsence_member (s := s.taking) hs]
      rfl
    · obtain ⟨owed, asked, -⟩ := recalled m hn
      exact ⟨owed, asked⟩
  · intro ha _ _ hc hb hq hr
    exact ⟨_, exec_noticeEffectsMade hd, State.takeNotice_reports (s := s.taking) hs ht hf hp he ha hc hb hq hr⟩
  · intro m hn changed
    rw [memberEffect_of_target hn changed]
    exact t.remove_ascending m

end Sys2Proof.Machine
end

