-- ==== Sys2Proof/Proofs/RecalledRoom.lean ====
section
/-! PROOFS. The room of a recalled EVICT, offered ahead of the notice that recalls it (R112, R115, R183; O51). -/

namespace Sys2Proof.Machine

/-- Nothing is left to ask back among entries that are asked back. -/
theorem Outbox.removeUnsent_same {o : Outbox} {test : Entry → Bool}
    (h : ∀ e ∈ o.entries, test e = true → e.offered = true ∧ e.removal = true) :
    o.removeUnsent test = o := by
  have marked : (o.entries.map fun e => if test e && e.offered then { e with removal := true } else e) = o.entries := by
    rw [List.map_congr_left (g := id), List.map_id]
    intro e he
    split
    · rename_i k
      obtain ⟨named, -⟩ := Bool.and_eq_true_iff.1 k
      have asked := (h e he named).2
      obtain ⟨body, tag, owner, number, voids, offered, removal⟩ := e
      cases asked
      rfl
    · rfl
  have stay : o.entries.filter (fun e => !(test e && !e.offered)) = o.entries := List.filter_eq_self.2 fun e he => by
    cases named : test e
    · rfl
    · simp [(h e he named).1]
  simp only [Outbox.removeUnsent, Outbox.map, Outbox.without, marked, stay]

section
variable {s : State} {h : Heard} {m : Addr}

theorem State.recallEvict_target (hn : namedTarget h.notice = some m) :
    s.recallEvict h.notice = (s.setSponsor { s.sponsor with owedEvicts := s.sponsor.owedEvicts.set m.val false m.isLt }).askBack
      fun e => e.body.isEvictOf m := by
  rw [State.recallEvict, hn]

/-- An EVICT that is taken back is not taken back again. -/
theorem State.recallEvict_same (hn : namedTarget h.notice = some m) (hm : Recalled m s) : s.recallEvict h.notice = s := by
  obtain ⟨owed, asked, -⟩ := hm
  have evicts : s.sponsor.owedEvicts.set m.val false m.isLt = s.sponsor.owedEvicts := by
    rw [← owed, Vector.get_eq_getElem, Vector.set_getElem_self]
  rw [State.recallEvict_target hn, evicts]
  exact congrArg s.setOutbox (Outbox.removeUnsent_same asked)

theorem State.recallSnaps_same (hv : s.sponsor.serving = none) (n : Notice) : s.recallSnaps n = s := by
  rw [State.recallSnaps, hv]

/-- The notice finds nothing to recall once its room is made. -/
theorem State.recall_makeRoom (hs : s.session.station.member) (ht : h.notice.tag = s.session.tag) (hn : namedTarget h.notice = some m)
    (hv : s.sponsor.serving = none) (ha : ∀ b ∈ s.sponsor.owedAnswer, b.tier = 2) :
    (s.makeRoom h false none).recall h = s.makeRoom h false none := by
  obtain ⟨-, hf⟩ := counted_of_claim_or_target (.inr (by rw [hn]; nofun))
  have recalled := State.makeRoom_recalled hs ht hf hn ha
  obtain ⟨-, serving, session⟩ := s.makeRoom_mild h false none
  generalize s.makeRoom h false none = r at recalled serving session
  rw [hv, or_self] at serving
  have place : r.session.station.member ∧ h.notice.tag = r.session.tag := by
    rcases session with ⟨e, -⟩ | ⟨-, e, -⟩
    · rw [e]; exact ⟨hs, ht⟩
    · rw [e]; exact ⟨.inr (.inr rfl), ht⟩
  rw [State.recall_member place.1 place.2 hf, State.recallEvict_same hn recalled, State.recallSnaps_same serving]

/-- The room made by the recall of an unsent EVICT, dated with the notice applied (R183). -/
theorem State.makeRoom_evict (hs : s.session.station.member) (ht : h.notice.tag = s.session.tag) (hn : namedTarget h.notice = some m)
    (hv : s.sponsor.serving = none) (he : ∃ e ∈ s.outbox.entries, e.body.isEvictOf m = true ∧ e.offered = false) :
    s.makeRoom h false none =
      ((s.recallEvict h.notice).setCount (s.session.count + 1#16)).serveOwed.setCount s.session.count := by
  obtain ⟨counts, hf⟩ := counted_of_claim_or_target (.inr (by rw [hn]; nofun))
  have asks : s.recall h = s.recallEvict h.notice := by
    have serving : (s.recallEvict h.notice).sponsor.serving = none := by rw [State.recallEvict_target hn]; exact hv
    rw [State.recall_member hs ht hf, State.recallSnaps_same serving]
  have applies : s.session.station.applies = true := by rcases hs with e | e | e <;> rw [e] <;> rfl
  have session : (s.recallEvict h.notice).session = s.session := by rw [State.recallEvict_target hn]; rfl
  have count : (s.recallEvict h.notice).countAfter h.notice = s.session.count + 1#16 := by
    simp [State.countAfter, session, applies, ht, counts]
  have shorter : (s.recallEvict h.notice).outbox.entries.length < s.outbox.entries.length := by
    rw [State.recallEvict_target hn]
    refine (s.outbox.removeUnsent_shorter _).2 (List.any_eq_true.2 ?_)
    obtain ⟨e, mem, named, unsent⟩ := he
    exact ⟨e, mem, by simp [named, unsent]⟩
  unfold State.makeRoom
  rw [asks, State.dated, count, session, decide_eq_true shorter]
  rfl

/-- The second part of O51. -/
theorem State.noticeEffectsMade_recalled {t : State} (hd : s.bus.delivered = some h) (hs : s.session.station.member)
    (ht : h.notice.tag = s.session.tag) (hn : namedTarget h.notice = some m) (hv : s.sponsor.serving = none)
    (ha : s.sponsor.owedAnswer = none ∨ (NothingToAnswer s ∧ ∀ b, s.sponsor.owedAnswer = some b → b.tier = 2))
    (he : ∃ e ∈ s.outbox.entries, e.body.isEvictOf m = true ∧ e.offered = false)
    (hx : exec .owedNoticePlaced ((s.taking.recallEvict h.notice).setCount (s.session.count + 1#16)) = .next t) :
    exec .noticeEffectsMade s = exec .noticeEffectsMade { t.setCount s.session.count with bus := s.bus } := by
  have tier : ∀ b ∈ s.sponsor.owedAnswer, b.tier = 2 := fun b hb => by
    rcases ha with e | ⟨-, e⟩
    · rw [e] at hb; cases hb
    · exact e b hb
  have room := State.makeRoom_evict (s := s.taking) hs ht hn hv he
  have same := State.takeNotice_roomed (y := s.taking) false none
    (State.makeRoom_same (State.recall_makeRoom (s := s.taking) hs ht hn hv tier))
  have recalled := State.recallEvict_target (s := s.taking) hn
  generalize hu : (s.taking.recallEvict h.notice).setCount (s.session.count + 1#16) = u at hx
  have bus : u.bus = s.taking.bus := by rw [← hu, recalled]; rfl
  have served : t = u.serveOwed := by
    rw [exec_owedNoticePlaced_room, State.flush_none (by rw [bus]; rfl), State.roomEvent_eq] at hx
    · exact (Host.Outcome.next.inj hx).symm
    · rw [← hu, recalled]
      exact ha.imp id fun e => State.serveOwed_roomWork.silent _ e.1
  have offered : ({ t.setCount s.session.count with bus := s.bus } : State).taking = s.taking.makeRoom h false none := by
    have kept : t.bus = s.taking.bus := by rw [served, State.serveOwed_roomWork.bus_same, bus]
    calc ({ t.setCount s.session.count with bus := s.bus } : State).taking
        = (t.setCount s.session.count).setBus s.taking.bus := rfl
      _ = t.setCount s.session.count := by rw [← kept]; rfl
      _ = s.taking.makeRoom h false none := by rw [room, served, ← hu]; rfl
  rw [exec_noticeEffectsMade hd, exec_noticeEffectsMade (s := { t.setCount s.session.count with bus := s.bus }) hd, offered, same]

end

/-! ### The place of a notice in the Outbox (R107 to R109) -/

theorem insertEntry_splits (e : Entry) (l : List Entry) : ∃ front back, insertEntry e l = front ++ e :: back ∧ l = front ++ back := by
  induction l with
  | nil => exact ⟨[], [], rfl, rfl⟩
  | cons x l ih =>
    rw [insertEntry]
    split
    · exact ⟨[], x :: l, rfl, rfl⟩
    · obtain ⟨front, back, placed, was⟩ := ih
      exact ⟨x :: front, back, by rw [placed]; rfl, by rw [was]; rfl⟩

/-- The fifth part of O51. -/
theorem Outbox.place_splits (o : Outbox) (b : Body) (tag : Word) (w : Owner) :
    ∃ e front back, (o.place b tag w).entries = front ++ e :: back ∧ o.entries = front ++ back ∧ e.body = b ∧ e.tag = tag ∧
      e.owner = w ∧ e.voids = 0 ∧ e.offered = false ∧ e.removal = false ∧
      e.number = (if o.entries = [] then 1 else o.nextNumber) ∧ (o.place b tag w).nextNumber = e.number + 1 := by
  obtain ⟨front, back, placed, was⟩ :=
    insertEntry_splits ⟨b, tag, w, if o.entries.isEmpty then 1 else o.nextNumber, 0, false, false⟩ o.entries
  refine ⟨_, front, back, placed, was, rfl, rfl, rfl, rfl, rfl, rfl, ?_, rfl⟩
  simp only [List.isEmpty_iff]

end Sys2Proof.Machine
end

