-- ==== Sys2Proof/Proofs/OwedNotices.lean ====
section
/-! PROOFS. The owed notices tested one by one, in the order of R112 (O51). -/

namespace Sys2Proof.Machine

/-- The slot whose owed notice is placed (R49, R112). -/
def Slot.placed (v : Slot) : Slot :=
  { v with owed := .none, outboxEntry := v.owed, state := if v.owed = .claim then .queued else v.state }

section
variable {s : State}

/-! ### One owed notice -/

/-- A notice that no limit forbids, offered to a station that refuses none. -/
theorem State.offer_tested (hr : s.refuses = false) {b : Body} (hb : s.outbox.limit b = none) (w : Owner) :
    s.offer b w = if s.outbox.room b.tier then (s.outbox.place b s.session.tag w, .placed) else (s.outbox, .noRoom) := by
  unfold State.offer Outbox.submit
  rw [hr, hb]
  rfl

theorem State.serveEvict_owed {a : Addr} (hr : s.refuses = false) (ho : s.sponsor.owedEvicts.get a = true)
    (he : ∀ e ∈ s.outbox.entries, e.body.isEvictOf a = false) :
    s.serveEvict a = if s.outbox.room 3 then
        (s.setOutbox (s.outbox.place (.evict a) s.session.tag .session)).setSponsor
          { s.sponsor with owedEvicts := s.sponsor.owedEvicts.set a.val false a.isLt }
      else s := by
  have limit : s.outbox.limit (.evict a) = none := if_neg (by simpa using he)
  unfold State.serveEvict State.submit
  rw [if_pos ho, State.offer_tested hr limit]
  by_cases room : s.outbox.room 3 = true
  · simp only [Body.tier, room, if_true]
    rfl
  · simp only [Body.tier, room]
    rfl

theorem State.serveSlot_owed {c : Client} {b : Body} (hr : s.refuses = false) (hb : slotBody c (s.slot c) (s.slot c).owed = some b)
    (he : ∀ e ∈ s.outbox.entries, claimClient e.body ≠ some c) :
    State.serveSlot (decide ((s.slot c).owed = .claim)) s c = if s.outbox.room b.tier then
        (s.setOutbox (s.outbox.place b s.session.tag (.claimUnit c))).setSlot c (s.slot c).placed
      else s := by
  have limit : s.outbox.limit b = none := by
    rw [s.outbox.limit_claim (slotBody_claims hb).1, if_neg]
    simpa [Outbox.hasClaimNotice] using he
  unfold State.serveSlot
  rw [if_pos rfl, hb]
  dsimp only
  rw [State.offer_tested hr limit]
  by_cases room : s.outbox.room b.tier = true
  · simp only [room, if_true, Slot.placed, decide_eq_true_eq]
  · simp only [room, if_false, Bool.false_eq_true]

/-- A slot's owed notice of the other sort waits. -/
theorem State.serveSlot_other {c : Client} {claims : Bool} (h : decide ((s.slot c).owed = .claim) ≠ claims) :
    State.serveSlot claims s c = s := if_neg h

theorem State.serveAnswer_owed {b : Body} (hr : s.refuses = false) (ho : s.sponsor.owedAnswer = some b) (ht : b.tier = 2)
    (hb : b.isBeacon = false) :
    s.serveAnswer = if s.outbox.room 2 then
        (s.setOutbox (s.outbox.place b s.session.tag .session)).setSponsor { s.sponsor with owedAnswer := none }
      else s := by
  have limit : s.outbox.limit b = none := by
    cases b
    case beacon => cases hb
    case claim | withdraw | release | evict => cases ht
    all_goals rfl
  unfold State.serveAnswer State.submit
  rw [ho]
  dsimp only
  rw [State.offer_tested hr limit, ht]
  by_cases room : s.outbox.room 2 = true
  · simp only [room, if_true]
    rfl
  · simp only [room, if_false, Bool.false_eq_true]

theorem State.serveBeacon_owed (hr : s.refuses = false) (ho : s.sponsor.owedBeacon = true)
    (he : ∀ e ∈ s.outbox.entries, e.body.isBeacon = false) :
    s.serveBeacon = if s.outbox.room 2 then
        (s.setOutbox (s.outbox.place (.beacon 0#16 0#16 false) s.session.tag .session)).setSponsor { s.sponsor with owedBeacon := false }
      else s := by
  have limit : s.outbox.limit (.beacon 0#16 0#16 false) = none := if_neg (by simpa using he)
  unfold State.serveBeacon State.submit
  rw [if_pos ho, State.offer_tested hr limit]
  by_cases room : s.outbox.room 2 = true
  · simp only [Body.tier, room, if_true]
    rfl
  · simp only [Body.tier, room]
    rfl

/-! ### One notice owed and no other -/

/-- Elements that change nothing change nothing. -/
theorem foldl_still {α : Type} {f : State → α → State} {l : List α} {t : State} (h : ∀ d ∈ l, f t d = t) : l.foldl f t = t := by
  induction l with
  | nil => rfl
  | cons d l ih => rw [List.foldl_cons, h d (by simp), ih fun e he => h e (List.mem_cons_of_mem _ he)]

/-- A fold in which one element alone does something. -/
theorem foldl_only {α : Type} {f : State → α → State} {l : List α} {c : α} (hc : c ∈ l) (hl : l.Nodup)
    (before : ∀ d, d ≠ c → f s d = s) (after : ∀ d, d ≠ c → f (f s c) d = f s c) : l.foldl f s = f s c := by
  obtain ⟨front, back, rfl⟩ := List.append_of_mem hc
  obtain ⟨-, rest, apart⟩ := List.nodup_append.1 hl
  have first : front.foldl f s = s := foldl_still fun d hd => before d (apart d hd c (List.mem_cons_self ..))
  have last : back.foldl f (f s c) = f s c := foldl_still fun d hd => after d fun e => (List.nodup_cons.1 rest).1 (e ▸ hd)
  rw [List.foldl_append, List.foldl_cons, first, last]

/-- One slot's notice is all that the Outbox is offered. -/
theorem State.serveOwed_slot {c : Client} {b : Body} (hr : s.refuses = false) (hb : slotBody c (s.slot c) (s.slot c).owed = some b)
    (he : ∀ e ∈ s.outbox.entries, claimClient e.body ≠ some c) (hs : ∀ d, d ≠ c → (s.slot d).owed = .none)
    (ha : s.sponsor.owedAnswer = none) (hk : s.sponsor.owedBeacon = false) (hv : ∀ a, s.sponsor.owedEvicts.get a = false) :
    s.serveOwed = if s.outbox.room b.tier then
        (s.setOutbox (s.outbox.place b s.session.tag (.claimUnit c))).setSlot c (s.slot c).placed
      else s := by
  have served := State.serveSlot_owed hr hb he
  generalize hu : (if s.outbox.room b.tier then
    (s.setOutbox (s.outbox.place b s.session.tag (.claimUnit c))).setSlot c (s.slot c).placed else s) = u at served
  have sponsor : u.sponsor = s.sponsor := by rw [← hu]; split <;> simp
  have others : ∀ d, d ≠ c → (u.slot d).owed = .none := fun d hd => by
    rw [← hu]; split
    · rw [State.setSlot_slot, if_neg hd]
      exact hs d hd
    · exact hs d hd
  have fold : sixteen.foldl (State.serveSlot (decide ((s.slot c).owed = .claim))) s = u := by
    rw [foldl_only (mem_sixteen c) nodup_sixteen (fun d hd => s.serveSlot_none _ (hs d hd)), served]
    intro d hd
    rw [served]
    exact u.serveSlot_none _ (others d hd)
  have evicts : sixteen.foldl State.serveEvict s = s := foldl_same (fun a => by simp [State.serveEvict, hv]) _
  have answers : ∀ t : State, t.sponsor = s.sponsor → t.serveAnswer.serveBeacon = t := fun t ht => by
    simp [State.serveAnswer, State.serveBeacon, ht, ha, hk]
  have waits : ∀ claims, claims ≠ decide ((s.slot c).owed = .claim) → sixteen.foldl (State.serveSlot claims) s = s := fun claims hc => by
    refine foldl_same (fun d => ?_) _
    by_cases hd : d = c
    · rw [hd]; exact State.serveSlot_other (Ne.symm hc)
    · exact s.serveSlot_none _ (hs d hd)
  unfold State.serveOwed
  dsimp only
  rw [evicts]
  cases claim : decide ((s.slot c).owed = .claim) with
  | true =>
    rw [claim] at fold waits
    rw [waits false (by decide), answers s rfl, fold]
  | false =>
    rw [claim] at fold
    rw [fold, answers u sponsor]
    refine foldl_same (fun d => ?_) _
    by_cases hd : d = c
    · subst hd
      have none : (u.slot d).owed ≠ .claim := by
        rw [← hu]; split
        · rw [State.setSlot_slot, if_pos rfl]; nofun
        · exact of_decide_eq_false claim
      exact State.serveSlot_other (by simpa using none)
    · exact u.serveSlot_none _ (others d hd)

end

end Sys2Proof.Machine
end

