-- ==== Sys2Proof/Proofs/OwedNoticesServed.lean ====
section
/-! PROOFS. What the tests of the owed notices leave, test by test, and the settling of O51 (R109 to R112). -/

namespace Sys2Proof.Machine

/-- The Outbox holds a notice of this sort. -/
def Outbox.holds (o : Outbox) (p : Body → Bool) : Bool := o.entries.any fun e => p e.body

theorem Outbox.holds_iff (o : Outbox) (p : Body → Bool) : o.holds p = true ↔ ∃ e ∈ o.entries, p e.body = true := List.any_eq_true

theorem Outbox.holds_none (o : Outbox) (p : Body → Bool) : o.holds p = false ↔ ∀ e ∈ o.entries, p e.body = false := by
  simp [Outbox.holds]

theorem Outbox.holds_place (o : Outbox) (b : Body) (tag : Word) (w : Owner) (p : Body → Bool) :
    (o.place b tag w).holds p = (p b || o.holds p) := by
  rw [Bool.eq_iff_iff, Bool.or_eq_true, Outbox.holds_iff, Outbox.holds_iff]
  simp only [Outbox.place, mem_insertEntry, or_and_right, exists_or, exists_eq_left]

/-- A claim notice of the client. -/
def claimsFor (c : Client) (b : Body) : Bool := decide (claimClient b = some c)

theorem claimsFor_iff {c : Client} {b : Body} : claimsFor c b = true ↔ claimClient b = some c := decide_eq_true_iff

/-- The station `t` after tests of the owed notices `l` of `s`, with `answer` owed still. -/
structure Tested (s : State) (l : List (Body × Owner)) (answer : Option Body) (t : State) : Prop where
  outbox : t.outbox = l.foldl (Outbox.served s.session.tag) s.outbox
  slots : ∀ c, t.slot c =
    if (s.slot c).owed ≠ .none ∧ t.outbox.holds (claimsFor c) = true then (s.slot c).placed else s.slot c
  evicts : ∀ a, t.sponsor.owedEvicts.get a = (s.sponsor.owedEvicts.get a && !t.outbox.holds (Body.isEvictOf a))
  beacon : t.sponsor.owedBeacon = (s.sponsor.owedBeacon && !t.outbox.holds Body.isBeacon)
  answers : t.sponsor.owedAnswer = answer
  session : t.session = s.session
  pool : t.pool = s.pool
  port : t.port = s.port
  refuses : t.refuses = false

section
variable {s t : State} {l : List (Body × Owner)} {k : Option Body}

/-! ### One test -/

/-- What is in the Outbox was there before or is one of the notices tested. -/
theorem Outbox.holds_served {o : Outbox} {tag : Word} {p : Body → Bool} (ho : o.holds p = false) (hl : ∀ x ∈ l, p x.1 = false) :
    (l.foldl (Outbox.served tag) o).holds p = false := by
  induction l generalizing o with
  | nil => exact ho
  | cons x l ih =>
    refine ih ?_ fun y hy => hl y (.tail _ hy)
    unfold Outbox.served; split
    · rw [Outbox.holds_place, hl x (.head _), ho]; rfl
    · exact ho

/-- A notice for which there is no room stays owed. -/
theorem Tested.waits (h : Tested s l k t) {x : Body × Owner} (room : ¬ t.outbox.room x.1.tier = true) : Tested s (l ++ [x]) k t where
  __ := h
  outbox := by rw [List.foldl_append, ← h.outbox]; exact (if_neg room).symm

/-- A notice that is placed, its slot or the Session Controller told. -/
theorem Tested.places (h : Tested s l k t) (x : Body × Owner) (room : t.outbox.room x.1.tier = true) {u : State} {k' : Option Body}
    (leave : x.1.isLeave = false) (outbox : u.outbox = t.outbox.place x.1 t.session.tag x.2)
    (slots : ∀ c, u.slot c = if claimsFor c x.1 = true then (s.slot c).placed else t.slot c)
    (owed : ∀ c, claimsFor c x.1 = true → (s.slot c).owed ≠ .none)
    (evicts : ∀ a, u.sponsor.owedEvicts.get a = (t.sponsor.owedEvicts.get a && !x.1.isEvictOf a))
    (beacon : u.sponsor.owedBeacon = (t.sponsor.owedBeacon && !x.1.isBeacon))
    (answers : u.sponsor.owedAnswer = k') (session : u.session = t.session) (pool : u.pool = t.pool) (port : u.port = t.port) :
    Tested s (l ++ [x]) k' u where
  outbox := by
    rw [List.foldl_append, ← h.outbox, outbox, h.session]
    exact (if_pos room).symm
  slots c := by
    rw [slots, outbox, Outbox.holds_place, h.slots]
    by_cases own : claimsFor c x.1 = true
    · simp [own, owed c own]
    · simp [own]
  evicts a := by rw [evicts, outbox, Outbox.holds_place, h.evicts, Bool.not_or, Bool.and_assoc, Bool.and_comm (!x.1.isEvictOf a)]
  beacon := by rw [beacon, outbox, Outbox.holds_place, h.beacon, Bool.not_or, Bool.and_assoc, Bool.and_comm (!x.1.isBeacon)]
  answers := answers
  session := session.trans h.session
  pool := pool.trans h.pool
  port := port.trans h.port
  refuses := by
    have refuses := h.refuses
    simp only [State.refuses, Bool.or_eq_false_iff, Outbox.hasLeave, List.any_eq_false] at refuses ⊢
    refine ⟨by rw [session]; exact refuses.1, fun e he => ?_⟩
    rw [outbox] at he
    rcases mem_insertEntry.1 he with rfl | he
    · simp [leave]
    · exact refuses.2 e he

theorem Tested.evict (h : Tested s l k t) {a : Addr} (ho : s.sponsor.owedEvicts.get a = true)
    (he : t.outbox.holds (Body.isEvictOf a) = false) : Tested s (l ++ [(.evict a, .session)]) k (t.serveEvict a) := by
  rw [State.serveEvict_owed h.refuses (by rw [h.evicts, ho, he]; rfl) ((Outbox.holds_none ..).1 he)]
  split
  · rename_i room
    refine h.places (.evict a, .session) room rfl rfl (fun _ => rfl) (fun _ e => by cases e) (fun b => ?_) ?_ h.answers rfl rfl rfl
    · simp only [State.setSponsor_sponsor, Vector.get_eq_getElem, Vector.getElem_set, Body.isEvictOf, Fin.ext_iff]
      split <;> simp [*]
    · simp [Body.isBeacon]
  · exact h.waits (x := (.evict a, .session)) ‹_›

theorem Tested.slot (h : Tested s l k t) {c : Client} {b : Body} (hb : slotBody c (s.slot c) (s.slot c).owed = some b)
    (he : t.outbox.holds (claimsFor c) = false) :
    Tested s (l ++ [(b, .claimUnit c)]) k (State.serveSlot (decide ((s.slot c).owed = .claim)) t c) := by
  obtain ⟨client, owed⟩ := slotBody_claims hb
  have slot : t.slot c = s.slot c := by simp [h.slots, he]
  have claims : ∀ d, claimsFor d b = true ↔ d = c := fun d => by rw [claimsFor_iff, client, Option.some.injEq, eq_comm]
  rw [← slot, State.serveSlot_owed h.refuses (by rw [slot]; exact hb) fun e hm => of_decide_eq_false ((Outbox.holds_none ..).1 he e hm)]
  split
  · rename_i room
    refine h.places (b, .claimUnit c) room ?_ (by simp) (fun d => ?_) (fun d hd => ?_) (fun a => ?_) ?_ (by simpa using h.answers) (by simp)
      (by simp) (by simp)
    · cases b <;> first | rfl | cases client
    · rw [State.setSlot_slot, slot]
      simp only [claims]
      split
      · rename_i e; rw [e]
      · rfl
    · rw [(claims d).1 hd]; exact owed
    · simp [isEvictOf_of_claim client]
    · have other : b.isBeacon = false := by cases b <;> first | rfl | cases client
      simp [other]
  · exact h.waits (x := (b, .claimUnit c)) ‹_›

theorem Tested.answer (h : Tested s l s.sponsor.owedAnswer t) {b : Body} (ho : s.sponsor.owedAnswer = some b) (ht : b.tier = 2)
    (hb : b.isBeacon = false) :
    Tested s (l ++ [(b, .session)]) (if t.outbox.room 2 then none else s.sponsor.owedAnswer) t.serveAnswer := by
  have client := claimClient_of_tier ht
  rw [State.serveAnswer_owed h.refuses (h.answers.trans ho) ht hb]
  split
  · rename_i room
    have leave : b.isLeave = false := by cases b <;> first | rfl | cases ht
    have evict : ∀ a, b.isEvictOf a = false := by cases b <;> first | exact fun _ => rfl | cases ht
    have claims : ∀ c, claimsFor c b = false := fun c => by rw [claimsFor, client]; rfl
    refine h.places (b, .session) (by rw [ht]; exact room) leave rfl (fun c => ?_) (fun c hc => ?_) (fun a => ?_) ?_ rfl rfl rfl rfl
    · rw [claims]; rfl
    · rw [claims] at hc; cases hc
    · simp [evict]
    · simp [hb]
  · rename_i room
    exact h.waits (x := (b, .session)) (by rw [ht]; exact room)

theorem Tested.beaconOwed (h : Tested s l k t) (ho : s.sponsor.owedBeacon = true) (he : t.outbox.holds Body.isBeacon = false) :
    Tested s (l ++ [(.beacon 0#16 0#16 false, .session)]) k t.serveBeacon := by
  rw [State.serveBeacon_owed h.refuses (by rw [h.beacon, ho, he]; rfl) ((Outbox.holds_none ..).1 he)]
  split
  · rename_i room
    refine h.places (.beacon 0#16 0#16 false, .session) room rfl rfl (fun _ => rfl) (fun _ e => by cases e) (fun b => ?_) ?_ h.answers rfl rfl rfl
    · simp [Body.isEvictOf]
    · simp [Body.isBeacon]
  · exact h.waits (x := (.beacon 0#16 0#16 false, .session)) ‹_›

/-! ### The tests of one pass -/

/-- A pass over addresses or clients, each with a notice of its own or none. -/
theorem Tested.pass {f : State → Fin 16 → State} {g : Fin 16 → Option (Body × Owner)} {own : Fin 16 → Body → Bool}
    (apart : ∀ a, ∀ x ∈ g a, ∀ b, own b x.1 = true → b = a) (before : ∀ a, g a ≠ none → s.outbox.holds (own a) = false)
    (step : ∀ l t a, Tested s l k t → (g a ≠ none → t.outbox.holds (own a) = false) → Tested s (l ++ (g a).toList) k (f t a))
    {as : List (Fin 16)} (nodup : as.Nodup) (h : Tested s l k t) (fresh : ∀ a, g a ≠ none → ∀ x ∈ l, own a x.1 = false) :
    Tested s (l ++ as.filterMap g) k (as.foldl f t) := by
  have several : ∀ (as : List (Fin 16)) (l : List (Body × Owner)) (t : State), as.Nodup → Tested s l k t →
      (∀ a ∈ as, g a ≠ none → ∀ x ∈ l, own a x.1 = false) → Tested s (l ++ as.filterMap g) k (as.foldl f t) := fun as => by
    induction as with
    | nil => exact fun l t _ h _ => by rw [List.filterMap_nil, List.append_nil]; exact h
    | cons a as ih =>
      intro l t nodup h fresh
      obtain ⟨new, nodup⟩ := List.nodup_cons.1 nodup
      have one := step l t a h fun ha => by
        rw [h.outbox]
        exact Outbox.holds_served (before a ha) (fresh a (.head _) ha)
      have rest := ih _ _ nodup one fun b hb hgb x hx => by
        rcases List.mem_append.1 hx with hx | hx
        · exact fresh b (.tail _ hb) hgb x hx
        · refine Bool.eq_false_iff.2 fun e => new ?_
          rw [← apart a x (Option.mem_toList.1 hx) b e]
          exact hb
      have items : l ++ (g a).toList ++ as.filterMap g = l ++ (a :: as).filterMap g := by
        rw [List.filterMap_cons, List.append_assoc]
        cases g a <;> rfl
      rw [items] at rest
      exact rest
  exact several as l t nodup h fun a _ => fresh a

end

section
variable (s : State)

/-- The owed EVICT of a member. -/
def State.owedEvict (a : Addr) : Option (Body × Owner) := if s.sponsor.owedEvicts.get a then some (.evict a, .session) else none

/-- A slot's owed notice, of one of the two sorts that R112 keeps apart. -/
def State.owedClaimNotice (claims : Bool) (c : Client) : Option (Body × Owner) :=
  if decide ((s.slot c).owed = .claim) = claims then (slotBody c (s.slot c) (s.slot c).owed).map fun b => (b, .claimUnit c) else none

/-- The owed notices of tier 3. -/
def State.owedFirst : List (Body × Owner) := sixteen.filterMap s.owedEvict ++ sixteen.filterMap (s.owedClaimNotice false)

theorem State.owedNotices_eq : s.owedNotices = s.owedFirst ++ (s.sponsor.owedAnswer.toList.map fun b => (b, .session)) ++
    (if s.sponsor.owedBeacon then [(.beacon 0#16 0#16 false, .session)] else []) ++ sixteen.filterMap (s.owedClaimNotice true) := by
  have ends : s.owedClaimNotice false = fun c => match (s.slot c).owed with
      | .withdraw => some (.withdraw c, .claimUnit c)
      | .release => some (.release c (if (s.slot c).reason = .forced then 1 else 0), .claimUnit c)
      | .none | .claim => none := funext fun c => by
    unfold State.owedClaimNotice slotBody
    cases (s.slot c).owed <;> rfl
  have claims : s.owedClaimNotice true = fun c =>
      if (s.slot c).owed = .claim then some (.claim c (s.slot c).cls (s.slot c).set, .claimUnit c) else none := funext fun c => by
    unfold State.owedClaimNotice slotBody
    cases (s.slot c).owed <;> rfl
  rw [State.owedFirst, ends, claims]
  rfl

variable {s}

theorem State.owedEvict_body {a : Addr} {x : Body × Owner} (hx : x ∈ s.owedEvict a) : x.1 = .evict a := by
  unfold State.owedEvict at hx
  split at hx
  · rw [← Option.some.inj hx]
  · cases hx

theorem State.owedClaimNotice_some {claims : Bool} {c : Client} {x : Body × Owner} (hx : x ∈ s.owedClaimNotice claims c) :
    slotBody c (s.slot c) (s.slot c).owed = some x.1 ∧ x.2 = .claimUnit c ∧ decide ((s.slot c).owed = .claim) = claims := by
  unfold State.owedClaimNotice at hx
  split at hx
  · rename_i sort
    obtain ⟨b, body, rfl⟩ := Option.map_eq_some_iff.1 hx
    exact ⟨body, rfl, sort⟩
  · cases hx

theorem State.owedClaimNotice_client {claims : Bool} {c d : Client} {x : Body × Owner} (hx : x ∈ s.owedClaimNotice claims c) :
    claimsFor d x.1 = true ↔ d = c := by
  rw [claimsFor_iff, (slotBody_claims (State.owedClaimNotice_some hx).1).1, Option.some.injEq, eq_comm]

/-- The tier of a slot's notice (R86). -/
theorem State.owedClaimNotice_tier {claims : Bool} {c : Client} {x : Body × Owner} (hx : x ∈ s.owedClaimNotice claims c) :
    x.1.tier = if claims then 1 else 3 := by
  obtain ⟨body, -, sort⟩ := State.owedClaimNotice_some hx
  cases owed : (s.slot c).owed <;> simp only [owed, slotBody, reduceCtorEq, Option.some.injEq] at body sort <;> rw [← body, ← sort] <;> rfl

/-- A notice owed in tier 3 is an EVICT or ends a claim. -/
theorem State.owedFirst_mem {x : Body × Owner} (hx : x ∈ s.owedFirst) : x.1.tier = 3 ∧ x.1.isBeacon = false ∧
    ∀ c, (s.slot c).owed = .claim → claimsFor c x.1 = false := by
  rcases List.mem_append.1 hx with hx | hx
  · obtain ⟨a, -, hx⟩ := List.mem_filterMap.1 hx
    rw [State.owedEvict_body hx]
    exact ⟨rfl, rfl, fun _ _ => rfl⟩
  · obtain ⟨c, -, hx⟩ := List.mem_filterMap.1 hx
    have tier := State.owedClaimNotice_tier hx
    refine ⟨tier, ?_, fun d hd => Bool.eq_false_iff.2 fun e => ?_⟩
    · cases hb : x.1 <;> rw [hb] at tier <;> first | rfl | cases tier
    · rw [(State.owedClaimNotice_client hx).1 e] at hd
      exact absurd hd (of_decide_eq_false (State.owedClaimNotice_some hx).2.2)

/-! ### The passes -/

variable {t : State} {l : List (Body × Owner)} {k : Option Body}

theorem Tested.evicts_pass (h : Tested s [] k t) (ho : ∀ a, s.sponsor.owedEvicts.get a = true → s.outbox.holds (Body.isEvictOf a) = false) :
    Tested s (sixteen.filterMap s.owedEvict) k (sixteen.foldl State.serveEvict t) := by
  have owed : ∀ a, s.owedEvict a ≠ none → s.sponsor.owedEvicts.get a = true := fun a ha => by
    unfold State.owedEvict at ha
    by_contra e
    exact ha (if_neg e)
  refine Tested.pass (own := Body.isEvictOf) (fun a x hx b hb => ?_) (fun a ha => ho a (owed a ha)) (fun l t a h he => ?_) nodup_sixteen h nofun
  · rw [State.owedEvict_body hx] at hb
    exact (of_decide_eq_true hb).symm
  · by_cases ha : s.sponsor.owedEvicts.get a = true
    · have item : s.owedEvict a = some (.evict a, .session) := if_pos ha
      rw [item] at he ⊢
      exact h.evict ha (he nofun)
    · have item : s.owedEvict a = none := if_neg ha
      have none : t.serveEvict a = t := if_neg (by rw [h.evicts, Bool.eq_false_iff.2 ha]; nofun)
      rw [item, none, Option.toList_none, List.append_nil]
      exact h

theorem Tested.slots_pass (claims : Bool) (h : Tested s l k t) (hp : OwedApart s)
    (fresh : ∀ c, s.owedClaimNotice claims c ≠ none → ∀ x ∈ l, claimsFor c x.1 = false) :
    Tested s (l ++ sixteen.filterMap (s.owedClaimNotice claims)) k (sixteen.foldl (State.serveSlot claims) t) := by
  refine Tested.pass (own := claimsFor) (fun c x hx d hd => (State.owedClaimNotice_client hx).1 hd) (fun c hc => ?_) (fun l t c h he => ?_)
    nodup_sixteen h fresh
  · obtain ⟨x, hx⟩ := Option.ne_none_iff_exists'.1 hc
    have owed := (slotBody_claims (State.owedClaimNotice_some hx).1).2
    exact (Outbox.holds_none ..).2 fun e hm => decide_eq_false (hp.1 c owed e hm)
  · cases item : s.owedClaimNotice claims c with
    | some x =>
      obtain ⟨body, owner, rfl⟩ := State.owedClaimNotice_some item
      have pair : x = (x.1, .claimUnit c) := Prod.ext rfl owner
      rw [pair]
      exact h.slot body (he (by rw [item]; nofun))
    | none =>
      have still : State.serveSlot claims t c = t := by
        by_cases owed : (t.slot c).owed = .none
        · exact t.serveSlot_none _ owed
        · have slot := h.slots c
          split at slot
          · rw [slot] at owed
            exact absurd rfl owed
          · rw [slot] at owed
            refine State.serveSlot_other fun sort => ?_
            rw [slot] at sort
            rw [State.owedClaimNotice, if_pos sort, Option.map_eq_none_iff] at item
            cases e : (s.slot c).owed <;> rw [e] at item owed
            case none => exact owed rfl
            all_goals cases item
      rw [still, Option.toList_none, List.append_nil]
      exact h

/-- The owed answer or snapshot notice, where there is one. -/
theorem Tested.answer_pass (h : Tested s l s.sponsor.owedAnswer t) (ha : ∀ b, s.sponsor.owedAnswer = some b → b.tier = 2 ∧ b.isBeacon = false) :
    Tested s (l ++ s.sponsor.owedAnswer.toList.map fun b => (b, .session)) (if t.outbox.room 2 then none else s.sponsor.owedAnswer)
      t.serveAnswer := by
  cases owed : s.sponsor.owedAnswer with
  | some b =>
    obtain ⟨tier, beacon⟩ := ha b owed
    have placed := h.answer owed tier beacon
    rw [owed] at placed
    exact placed
  | none =>
    have none : t.serveAnswer = t := by rw [State.serveAnswer, h.answers, owed]
    rw [none, ite_self, Option.toList_none, List.map_nil, List.append_nil, ← owed]
    exact h

theorem Tested.beacon_pass (h : Tested s l k t) (he : s.sponsor.owedBeacon = true → s.outbox.holds Body.isBeacon = false)
    (hl : ∀ x ∈ l, x.1.isBeacon = false) :
    Tested s (l ++ if s.sponsor.owedBeacon then [(.beacon 0#16 0#16 false, .session)] else []) k t.serveBeacon := by
  split
  · rename_i owed
    exact h.beaconOwed owed (by rw [h.outbox]; exact Outbox.holds_served (he owed) hl)
  · rename_i owed
    have none : t.serveBeacon = t := if_neg (by rw [h.beacon, Bool.eq_false_iff.2 owed]; nofun)
    rw [none, List.append_nil]
    exact h

/-- Tests of notices of tier 3 leave room for one of tier 2 exactly where all of them and it fit (R109). -/
theorem Outbox.served_room {tag : Word} (hl : ∀ x ∈ l, x.1.tier = 3) (o : Outbox) :
    (l.foldl (Outbox.served tag) o).room 2 = true ↔ o.entries.length + l.length < 8 ∧ o.room 2 = true := by
  induction l generalizing o with
  | nil => simp [Outbox.room_iff]
  | cons x l ih =>
    have top := hl x (.head _)
    rw [List.foldl_cons, ih (fun y hy => hl y (.tail _ hy)), List.length_cons]
    unfold Outbox.served
    rw [top]
    split
    · have placed := insertEntry_perm ⟨x.1, tag, x.2, if o.entries.isEmpty then 1 else o.nextNumber, 0, false, false⟩ o.entries
      have longer : (o.place x.1 tag x.2).entries.length = o.entries.length + 1 := placed.length_eq
      have low : lowTier (o.place x.1 tag x.2).entries = lowTier o.entries := by
        unfold lowTier
        rw [Outbox.place, (placed.filter _).length_eq, List.filter_cons_of_neg (by simp [top])]
      simp only [Outbox.room_iff, longer, low]
      omega
    · rename_i full
      simp only [Outbox.room_iff] at full ⊢
      omega

/-- All the tests of R112. -/
theorem State.serveOwed_tested (hr : s.refuses = false) (hp : OwedApart s)
    (hb : s.sponsor.owedBeacon = true → s.outbox.holds Body.isBeacon = false)
    (he : ∀ a, s.sponsor.owedEvicts.get a = true → s.outbox.holds (Body.isEvictOf a) = false)
    (ha : ∀ b, s.sponsor.owedAnswer = some b → b.tier = 2 ∧ b.isBeacon = false) :
    Tested s s.owedNotices
      (if (s.owedFirst.foldl (Outbox.served s.session.tag) s.outbox).room 2 then none else s.sponsor.owedAnswer) s.serveOwed := by
  have start : Tested s [] s.sponsor.owedAnswer s := by
    refine ⟨rfl, fun c => ?_, fun a => ?_, ?_, rfl, rfl, rfl, rfl, hr⟩
    · refine (if_neg fun ⟨owed, held⟩ => ?_).symm
      obtain ⟨e, hm, k⟩ := (Outbox.holds_iff ..).1 held
      exact hp.1 c owed e hm (claimsFor_iff.1 k)
    · cases owed : s.sponsor.owedEvicts.get a
      · rfl
      · rw [he a owed]; rfl
    · cases owed : s.sponsor.owedBeacon
      · rfl
      · rw [hb owed]; rfl
  have claims : ∀ c claims, s.owedClaimNotice claims c ≠ none → (s.slot c).owed = .claim ∨ claims = false := fun c claims hc => by
    obtain ⟨x, hx⟩ := Option.ne_none_iff_exists'.1 hc
    have sort := (State.owedClaimNotice_some hx).2.2
    cases claims
    · exact .inr rfl
    · exact .inl (of_decide_eq_true sort)
  have evicts := start.evicts_pass he
  have first := evicts.slots_pass false hp fun c _ x hx => by
    obtain ⟨a, -, hx⟩ := List.mem_filterMap.1 hx
    rw [State.owedEvict_body hx]; rfl
  have answered := first.answer_pass ha
  rw [first.outbox] at answered
  have answer : ∀ x ∈ s.sponsor.owedAnswer.toList.map fun b => (b, Owner.session), x.1.isBeacon = false ∧ ∀ c, claimsFor c x.1 = false := by
    intro x hx
    obtain ⟨b, hb, rfl⟩ := List.mem_map.1 hx
    obtain ⟨tier, beacon⟩ := ha b (Option.mem_toList.1 hb)
    exact ⟨beacon, fun c => by rw [claimsFor, claimClient_of_tier tier]; rfl⟩
  have beacon := answered.beacon_pass hb fun x hx => (List.mem_append.1 hx).elim (fun k => (State.owedFirst_mem k).2.1) fun k => (answer x k).1
  rw [State.owedNotices_eq]
  refine beacon.slots_pass true hp fun c hc x hx => ?_
  have owed := (claims c true hc).resolve_right nofun
  rcases List.mem_append.1 hx with hx | hx
  · rcases List.mem_append.1 hx with hx | hx
    · exact (State.owedFirst_mem hx).2.2 c owed
    · exact (answer x hx).2 c
  · split at hx
    · rw [List.mem_singleton.1 hx]; rfl
    · cases hx

/-- The owed notices of tier 3 are those tested first (R112). -/
theorem State.owedNotices_top (ha : ∀ b, s.sponsor.owedAnswer = some b → b.tier = 2) :
    s.owedNotices.filter (fun x => decide (x.1.tier = 3)) = s.owedFirst := by
  have first : s.owedFirst.filter (fun x => decide (x.1.tier = 3)) = s.owedFirst :=
    List.filter_eq_self.2 fun x hx => decide_eq_true (State.owedFirst_mem hx).1
  have answer : (s.sponsor.owedAnswer.toList.map fun b => (b, Owner.session)).filter (fun x => decide (x.1.tier = 3)) = [] :=
    List.filter_eq_nil_iff.2 fun x hx => by
      obtain ⟨b, hb, rfl⟩ := List.mem_map.1 hx
      simp [ha b (Option.mem_toList.1 hb)]
  have beacon : (if s.sponsor.owedBeacon then [(Body.beacon 0#16 0#16 false, Owner.session)] else []).filter
      (fun x => decide (x.1.tier = 3)) = [] := by
    split <;> rfl
  have claims : (sixteen.filterMap (s.owedClaimNotice true)).filter (fun x => decide (x.1.tier = 3)) = [] :=
    List.filter_eq_nil_iff.2 fun x hx => by
      obtain ⟨c, -, hx⟩ := List.mem_filterMap.1 hx
      simp [State.owedClaimNotice_tier hx]
  rw [State.owedNotices_eq, List.filter_append, List.filter_append, List.filter_append, first, answer, beacon, claims]
  simp

end

/-- Settles O51: a single owed notice by the one test that does something, several by the tests in their order, the recalled EVICT by
its room offered ahead, and the place by the order of the entries. -/
theorem owedNoticeIsPlaced : Obligations.OwedNoticeIsPlaced := by
  refine ⟨fun s hd ho => ?_, fun s h m t hd hs ht hn hv ha he hx => ?_, fun s c b hd hs ha hk hv hl hst hc hb => ?_,
    fun s hd hst hl hp hk hv _ ha hn => ?_, Outbox.place_splits⟩
  · rw [exec_owedNoticePlaced_room, State.flush_none hd, State.roomEvent_none ho]
  · refine State.noticeEffectsMade_recalled hd hs ht hn hv ha he ?_
    rw [State.recallEvict_target hn]
    exact hx
  · have refuses : s.refuses = false := by simp [State.refuses, hl, hst]
    have body : slotBody c (s.slot c) (s.slot c).owed = some b := by
      rcases hb with ⟨owed, -, rfl⟩ | ⟨owed, rfl⟩ | ⟨owed, rfl⟩ <;> rw [owed] <;> rfl
    have free : ∀ e ∈ s.outbox.entries, claimClient e.body ≠ some c := by simpa [Outbox.hasClaimNotice] using hc
    rw [exec_owedNoticePlaced_room, State.flush_none hd, State.roomEvent_eq (.inl ha),
      State.serveOwed_slot refuses body free hs ha hk hv]
    simp only [Outbox.room_iff]
    rfl
  · have refuses : s.refuses = false := by simp [State.refuses, hl, hst]
    have tested := State.serveOwed_tested refuses hp (fun k => (Outbox.holds_none ..).2 (hk k)) (fun a k => (Outbox.holds_none ..).2 (hv a k)) ha
    refine ⟨s.serveOwed, ?_, tested.outbox, fun c => ?_, fun a => ?_, ?_, ?_, tested.session, tested.pool, tested.port⟩
    · rw [exec_owedNoticePlaced_room, State.flush_none hd, State.roomEvent_eq (.inr (State.serveOwed_roomWork.silent s hn))]
    · have held : s.serveOwed.outbox.holds (claimsFor c) = true ↔ ∃ e ∈ s.serveOwed.outbox.entries, claimClient e.body = some c := by
        simp only [Outbox.holds_iff, claimsFor_iff]
      rw [tested.slots]
      exact if_congr (and_congr_right' held) rfl rfl
    · rw [tested.evicts, Bool.and_eq_true, Bool.not_eq_true', Outbox.holds_none]
    · rw [tested.beacon, Bool.and_eq_true, Bool.not_eq_true', Outbox.holds_none]
    · rw [tested.answers, State.owedNotices_top fun b k => (ha b k).1]
      simp only [Outbox.served_room fun x hx => (State.owedFirst_mem (s := s) hx).1]

end Sys2Proof.Machine
end

