-- ==== Sys2Proof/Proofs/Configuration.lean ====
section
/-! PROOFS. Changes of station state, START, and the LOAD and READ commands of the configuration image. -/

namespace Sys2Proof.Machine

/-! ### Changes of station state (R120, R177) -/

/-- The states in which the image is locked. -/
theorem StationState.locked_eq (st : StationState) : st.locked = decide (st ≠ .offline ∧ st ≠ .faulted) := by cases st <;> rfl

/-- Settles O6: the change of state block by block. -/
theorem enteringAStatePostsAndLocks : Obligations.EnteringAStatePostsAndLocks := by
  intro s st cause
  rw [State.enter_eq, StationState.locked_eq]
  rfl

/-! ### START (R126, R180) -/

/-- Settles O7: `State.decideStart` by station state and by the first check of the image that fails. -/
theorem startDecidesByTheImage : Obligations.StartDecidesByTheImage := by
  intro s hr hd
  have decided : exec .start s = .next (s.decideStart.state.answered s.decideStart.status s.decideStart.data) := by
    have e : exec .start s = .next (s.frame s.flush.decideStart) := rfl
    rw [e, State.flush_none hd, s.frame_eq _ hr]
  rw [decided]
  refine ⟨fun hs => ?_, fun hs => ⟨fun sect off hf => ?_, fun hf => ?_⟩⟩
  · rw [State.decideStart, if_neg hs]
    rfl
  · rw [State.decideStart, if_pos hs, Port.firstFailure_eq, hf]
  · rw [State.decideStart, if_pos hs, Port.firstFailure_eq, hf]
    rfl

/-! ### LOAD and READ_CONFIG (R178, R179) -/

section
variable {s : State}

/-- The image with bytes written from an offset on (R178). -/
theorem writeBytes_eq {k : Nat} (v : Vector Byte k) (o : Nat) (d : List Byte) : writeBytes v o d =
    Vector.ofFn fun i : Fin k => if o ≤ i.val ∧ i.val < o + d.length then d.getD (i.val - o) 0#8 else v.get i := by
  ext i hi
  rw [writeBytes_get, Vector.getElem_ofFn]
  rfl

/-- The tests of a LOAD in their order, answered. -/
theorem State.loadTests_answered (o : Byte) (d : List Byte) (k : Nat) (t : State) :
    (s.loadTests o d k t).state.answered (s.loadTests o d k t).status (s.loadTests o d k t).data =
      if d.length < 1 ∨ 39 < d.length then s.answered .badFrame []
      else if s.port.locked then s.answered .locked []
      else if k < o.toNat + d.length then s.answered .badParameter []
      else t.answered .ok [] := by
  have empty : d.isEmpty = true ↔ d.length < 1 := by cases d <;> simp
  simp only [State.loadTests, empty, Config.loadMax]
  split_ifs <;> rfl

theorem exec_readConfig (hr : s.resetHeld = false) (sect o n : Byte) : exec (.readConfig sect o n) s =
    .next (s.answered (s.decideReadConfig sect o n).status (s.decideReadConfig sect o n).data) := by
  have e : exec (.readConfig sect o n) s = .next (s.frame (s.decideReadConfig sect o n)) := rfl
  rw [e, s.frame_eq _ hr, State.decideReadConfig_state]

/-- The lock as the station state shows it in READ_STATUS. -/
theorem statusBytes_head (s : State) : s.statusBytes[0]? = some s.session.station.code := rfl

/-- Every station state has a code of its own (11.5). -/
theorem StationState.code_inj {a b : StationState} : a.code = b.code ↔ a = b := by
  cases a <;> cases b <;> decide

theorem lockFollows_iff (h : LockFollows s) :
    s.port.locked = true ↔ s.session.station ≠ .offline ∧ s.session.station ≠ .faulted := by
  rw [show s.port.locked = _ from h, decide_eq_true_eq]

/-- The bytes of a range of one section of the image, where the section holds it. -/
theorem State.decideReadConfig_eq (sect o n : Byte) : s.decideReadConfig sect o n =
    if n.toNat = 0 ∨ 40 < n.toNat then s.deny .badParameter
    else if sect = 0#8 ∧ o.toNat + n.toNat ≤ 53 then ⟨s, .ok, (s.port.system.toList.drop o.toNat).take n.toNat⟩
    else if sect = 1#8 ∧ o.toNat + n.toNat ≤ 25 then ⟨s, .ok, (s.port.loc.toList.drop o.toNat).take n.toNat⟩
    else s.deny .badParameter := by
  have range : ∀ bytes : List Byte, (if n.toNat = 0 ∨ Config.readMax < n.toNat ∨ bytes.length < o.toNat + n.toNat then s.deny .badParameter
      else ⟨s, .ok, readBytes bytes o.toNat n.toNat⟩) =
        if n.toNat = 0 ∨ 40 < n.toNat then s.deny .badParameter
        else if o.toNat + n.toNat ≤ bytes.length then ⟨s, .ok, (bytes.drop o.toNat).take n.toNat⟩
        else s.deny .badParameter := fun bytes => by
    rw [← ite_not (p := o.toNat + n.toNat ≤ bytes.length), ← ite_or]
    simp only [Config.readMax, or_assoc, not_le]
    rfl
  unfold State.decideReadConfig Port.section?
  by_cases system : sect = 0#8
  · simpa [system] using range s.port.system.toList
  · by_cases loc : sect = 1#8
    · simpa [loc] using range s.port.loc.toList
    · simp [system, loc]

end

/-- Settles O5: the lock by the station's state, and a LOAD and a READ_CONFIG by their tests in order. -/
theorem loadWritesTheImage : Obligations.LoadWritesTheImage := by
  refine ⟨fun s h => ⟨lockFollows_iff h, fun hr hd => ?lock⟩, fun s o d hr => ?load, fun s sect o n hr => ?read⟩
  case lock =>
    refine ⟨_, exec_readStatus hr |>.trans (by rw [State.flush_none hd]), ?_⟩
    rw [lockFollows_iff h, statusBytes_head]
    simp only [ne_eq, Option.some.injEq, StationState.code_inj]
  case load =>
    refine ⟨s.flush, exec_noticeEffectsMade_flush s, State.flush_none, ?_, ?_⟩
    · have e : exec (.loadProfile o d) s = .next (s.frame (s.flush.decideLoadProfile o d)) := rfl
      rw [e, s.frame_eq _ hr, State.decideLoadProfile, State.loadTests_answered, writeBytes_eq]
      rfl
    · have e : exec (.loadLocal o d) s = .next (s.frame (s.flush.decideLoadLocal o d)) := rfl
      rw [e, s.frame_eq _ hr, State.decideLoadLocal, State.loadTests_answered, writeBytes_eq]
      rfl
  case read =>
    rw [exec_readConfig hr, State.decideReadConfig_eq]
    split_ifs <;> rfl

end Sys2Proof.Machine
end

