-- ==== Sys2Proof/Proofs/StationTimers.lean ====
section
/-! PROOFS. The ends of the listen window, of the answer limit and of the backoff wait. -/

namespace Sys2Proof.Machine

section
variable {s : State}

/-! ### The timers of the station state (R124, R128, R143, R145) -/

/-- The founding counter after a founding attempt: one more, and from 4095 to 1 (R124). -/
def nextCounter (k : BitVec 12) : BitVec 12 := if k = 4095#12 then 1#12 else k + 1#12

/-- The tag of a counter and an address (R124). -/
def foundingTag (k : BitVec 12) (own : Addr) : Word := BitVec.ofNat 16 (k.toNat * 16 + own.val)

/-- The counter stands above the address in the tag. -/
theorem foundingTag_append (k : BitVec 12) (own : Addr) : k ++ BitVec.ofNat 4 own.val = foundingTag k own := by
  have low := own.isLt
  have high := k.isLt
  apply BitVec.eq_of_toNat_eq
  rw [BitVec.toNat_append, foundingTag, ← Nat.shiftLeft_add_eq_or_of_lt (by simp)]
  simp [Nat.shiftLeft_eq]
  omega

theorem State.nextTag_eq (s : State) : s.nextTag = s.setSession
    { s.session with counter := nextCounter s.session.counter, tag := foundingTag (nextCounter s.session.counter) s.own } := by
  rw [← foundingTag_append]
  rfl

/-- An expiry with no delivered notice left. -/
theorem State.expire_undelivered (hd : s.bus.delivered = none) (runs : State → Bool) (act : State → State) :
    s.expire runs act = if runs s = true then act s else s := by
  rw [State.expire, State.flush_none hd]
  split <;> rfl

theorem State.listenRuns_iff :
    s.listenRuns = true ↔ s.timers.listen ≠ none ∧ s.session.station = .listening ∧ s.bus.stuck = false := by
  simp [State.listenRuns, Option.isSome_iff_ne_none, and_assoc]

theorem State.answerRuns_iff :
    s.answerRuns = true ↔ s.timers.answer ≠ none ∧ s.session.station = .seeking ∧ s.bus.stuck = false := by
  simp [State.answerRuns, Option.isSome_iff_ne_none, and_assoc]

theorem State.backoffRuns_iff : s.backoffRuns = true ↔ s.timers.backoff ≠ none ∧ s.session.station = .backoff := by
  simp [State.backoffRuns, Option.isSome_iff_ne_none]

/-- A FOUND placed outside LEAVING. -/
theorem State.placeFound_eq (hs : s.session.station ≠ .leaving) :
    s.placeFound = s.setOutbox (s.outbox.offeredTo (.found s.checker.profileCheck) s.session.tag) :=
  congrArg s.setOutbox (s.offer_offeredTo rfl hs)

/-- A JOIN placed outside LEAVING. -/
theorem State.placeJoin_eq (hs : s.session.station ≠ .leaving) :
    s.placeJoin = s.setOutbox (s.outbox.offeredTo (.join s.checker.profileCheck) s.session.tag) :=
  congrArg s.setOutbox (s.offer_offeredTo rfl hs)

/-- The end of a listen window in silence (R124, R128). -/
theorem State.endListening_eq (hs : s.session.station = .listening) : s.endListening =
    (let counter := nextCounter s.session.counter
    ({ s with
        timers := { s.timers with listen := none }
        session := { s.session with counter := counter, tag := foundingTag counter s.own }
        bus := { s.bus with pointer := 0 }
        outbox := s.outbox.offeredTo (.found s.checker.profileCheck) (foundingTag counter s.own) } : State).enter
      .founding .listenEnd) := by
  have listening : s.stopListen.nextTag.zeroPointer.session.station ≠ .leaving := by
    rw [State.nextTag_eq]
    exact fun e => nomatch hs.symm.trans e
  rw [State.endListening, State.placeFound_eq listening, State.nextTag_eq]
  rfl

/-- The answer limit: a JOIN anew where a station was heard, the listen window else (R143). -/
theorem State.endSeeking_eq (hs : s.session.station = .seeking) : s.endSeeking =
    if s.timers.heard = true then
      { s with
        timers := { s.timers with answer := none }
        outbox := s.outbox.offeredTo (.join s.checker.profileCheck) s.session.tag }
    else ({ s with
      timers := { s.timers with answer := none, listen := some 0 }
      session := { s.session with tag := 0#16 } } : State).enter .listening .sessionSilent := by
  have seeking : s.stopAnswer.session.station ≠ .leaving := fun e => nomatch hs.symm.trans e
  rw [State.endSeeking, State.placeJoin_eq seeking]
  rfl

/-- The end of the backoff wait (R145). -/
theorem State.endBackoff_eq : s.endBackoff =
    ({ s with
        timers := { s.timers with backoff := none, heard := false }
        outbox := s.outbox.offeredTo (.join s.checker.profileCheck) s.session.tag } : State).enter .seeking .backoffEnd := by
  rw [State.endBackoff, State.seek_eq]
  rfl

end

/-- Settles O32: each expiry acts where its timer runs, by the end of the listen window, of the answer limit and of the wait. -/
theorem stationTimersExpire : Obligations.StationTimersExpire := by
  refine fun s hd => ⟨congrArg Host.Outcome.next ?_, congrArg Host.Outcome.next ?_, congrArg Host.Outcome.next ?_⟩
  · rw [State.listenWindowExpiry, State.expire_undelivered hd]
    simp only [State.listenRuns_iff]
    split
    · exact State.endListening_eq (And.left (And.right ‹_›))
    · rfl
  · rw [State.answerLimitExpiry, State.expire_undelivered hd]
    simp only [State.answerRuns_iff]
    split
    · exact State.endSeeking_eq (And.left (And.right ‹_›))
    · rfl
  · rw [State.backoffEnd, State.expire_undelivered hd]
    simp only [State.backoffRuns_iff, State.endBackoff_eq]

end Sys2Proof.Machine
end

