-- ==== Sys2Proof/Proofs/MembershipTable.lean ====
section
/-! PROOFS. The membership effects of the notices, record by record. -/

namespace Sys2Proof.Machine

/-! ### The membership effects as a table (R125 step 3; O37) -/

/-- A list in ascending order finds the least element that passes the test. -/
theorem find?_least {l : List (Fin 16)} (sorted : l.Pairwise (· < ·)) {test : Fin 16 → Bool} (p : Fin 16) :
    l.find? test = some p ↔ p ∈ l ∧ test p = true ∧ ∀ q ∈ l, test q = true → p ≤ q := by
  induction l with
  | nil => simp
  | cons x xs ih =>
    obtain ⟨below, rest⟩ := List.pairwise_cons.1 sorted
    rw [List.find?_cons]
    cases hx : test x with
    | true =>
      constructor
      · rintro ⟨⟩
        exact ⟨by simp, hx, fun q hq _ => (List.mem_cons.1 hq).elim (fun e => e ▸ le_refl _) fun h => (below q h).le⟩
      · rintro ⟨mem, -, least⟩
        rcases List.mem_cons.1 mem with rfl | mem
        · rfl
        · exact absurd (least x (by simp) hx) (not_le.2 (below p mem))
    | false =>
      have passes : ∀ q, q = x → test q ≠ true := fun q e => by rw [e, hx]; nofun
      rw [ih rest]
      constructor
      · rintro ⟨mem, ht, least⟩
        exact ⟨List.mem_cons_of_mem _ mem, ht, fun q hq h => (List.mem_cons.1 hq).elim (fun e => absurd h (passes q e)) (least q · h)⟩
      · rintro ⟨mem, ht, least⟩
        exact ⟨(List.mem_cons.1 mem).resolve_left fun e => passes p e ht, ht, fun q hq => least q (List.mem_cons_of_mem _ hq)⟩

section
variable (t : Table)

/-- The current sponsor of R146. -/
theorem Table.currentSponsor_iff (a p : Addr) : t.currentSponsor a = some p ↔
    p ≠ a ∧ (t.get p).state = .present ∧ ∀ q : Addr, q ≠ a → (t.get q).state = .present → p ≤ q := by
  rw [Table.currentSponsor, find?_least (by decide)]
  simp only [mem_sixteen, Bool.and_eq_true, decide_eq_true_eq, true_and, forall_const, and_imp, and_assoc]
  rfl

theorem Table.anySyncing_false : t.anySyncing = false ↔ ∀ b : Addr, (t.get b).state ≠ .syncing := by
  simp only [Table.anySyncing, List.any_eq_false, mem_sixteen, decide_eq_true_eq, forall_const]
  rfl

/-- The removal of a member, record by record (R133, R137). -/
theorem Table.remove_get (m a : Addr) : (t.remove m).table.get a =
    if a = m ∨ (((t.get a).state = .joining ∨ (t.get a).state = .syncing) ∧ (t.get a).sponsor = some m) then .absent
    else t.get a := by
  rw [Table.get_remove]
  refine if_congr ?_ rfl rfl
  rw [Table.remove_changes_iff]
  tauto

variable {t} {n : Notice} (a : Addr)

theorem memberEffect_join {k : Word} (hb : n.body = .join k) :
    (a ≠ n.sender → (memberEffect t n).table.get a = t.get a) ∧
    (a = n.sender →
      (∀ p, t.currentSponsor a = some p → (t.get a).state = .absent ∨ (t.get a).state = .joining →
        (memberEffect t n).table.get a = ⟨.joining, some p, true⟩) ∧
      (t.currentSponsor a = none ∨ (t.get a).state = .syncing ∨ (t.get a).state = .present →
        (memberEffect t n).table.get a = t.get a)) := by
  simp only [memberEffect, hb, Table.stateOf]
  refine ⟨fun other => ?_, ?_⟩
  · split
    · simp [Table.get_write, other]
    · simp [Table.get_write, other]
    · rfl
  · rintro rfl
    refine ⟨fun p hp hs => ?_, fun hs => ?_⟩
    · rcases hs with hs | hs <;> simp [hs, hp, Table.get_write]
    · split
      · simp_all
      · simp_all
      · rfl

theorem memberEffect_admit {j : Addr} {k : Word} (hb : n.body = .admitJoiner j k) : (memberEffect t n).table.get a =
    if a = j ∧ (t.get a).state = .joining ∧ (t.get a).sponsor = some n.sender ∧ (∀ b : Addr, (t.get b).state ≠ .syncing) then
      ⟨.syncing, some n.sender, true⟩ else t.get a := by
  have effective : t.admitEffective n.sender j = true ↔
      (t.get j).state = .joining ∧ (t.get j).sponsor = some n.sender ∧ ∀ b : Addr, (t.get b).state ≠ .syncing := by
    rw [← t.anySyncing_false]
    simp only [Table.admitEffective, Bool.and_eq_true, Bool.not_eq_true', decide_eq_true_eq, and_assoc]
    rfl
  simp only [memberEffect, hb]
  by_cases admitted : t.admitEffective n.sender j = true
  · rw [if_pos admitted, Table.get_write]
    obtain ⟨joining, sponsor, alone⟩ := effective.1 admitted
    rw [sponsor]
    exact if_congr (iff_self_and.2 fun e => e ▸ ⟨joining, sponsor, alone⟩) rfl rfl
  · rw [if_neg admitted, if_neg]
    rintro ⟨rfl, shows⟩
    exact admitted (effective.2 shows)

theorem memberEffect_refuse {j : Addr} {r : Fin 16} (hb : n.body = .refuse j r) : (memberEffect t n).table.get a =
    if a = j ∧ (t.get a).state = .joining ∧ (t.get a).sponsor = some n.sender ∧ (r = 1 ∨ r = 2) then .absent else t.get a := by
  simp only [memberEffect, hb]
  by_cases refused : (r = refuseBusy ∨ r = refuseProfile) ∧ t.stateOf j = .joining ∧ (t.get j).sponsor = some n.sender
  · rw [if_pos refused, Table.get_write]
    obtain ⟨reason, joining, sponsor⟩ := refused
    exact if_congr (iff_self_and.2 fun e => e ▸ ⟨joining, sponsor, reason⟩) rfl rfl
  · rw [if_neg refused, if_neg]
    rintro ⟨rfl, joining, sponsor, reason⟩
    exact refused ⟨reason, joining, sponsor⟩

theorem memberEffect_leave {r : Byte} (hb : n.body = .leave r) : (memberEffect t n).table.get a =
    if (t.get n.sender).state ≠ .absent ∧
      (a = n.sender ∨ ((t.get a).state = .joining ∨ (t.get a).state = .syncing) ∧ (t.get a).sponsor = some n.sender) then .absent
    else t.get a := by
  simp only [memberEffect, hb]
  by_cases unknown : t.stateOf n.sender = .absent
  · rw [if_pos unknown, if_neg fun h => h.1 unknown]
  · rw [if_neg unknown, Table.remove_get]
    exact if_congr (iff_and_self.2 fun _ => unknown) rfl rfl

theorem memberEffect_evict {e : Addr} (hb : n.body = .evict e) : (memberEffect t n).table.get a =
    if ((t.get e).state = .syncing ∨ (t.get e).state = .present) ∧
      (a = e ∨ ((t.get a).state = .joining ∨ (t.get a).state = .syncing) ∧ (t.get a).sponsor = some e) then .absent
    else t.get a := by
  simp only [memberEffect, hb]
  by_cases known : t.stateOf e = .syncing ∨ t.stateOf e = .present
  · rw [if_pos known, Table.remove_get]
    exact if_congr (iff_and_self.2 fun _ => known) rfl rfl
  · rw [if_neg known, if_neg fun h => known h.1]

theorem memberEffect_beaconed {k c : Word} {f : Bool} (hb : n.body = .beacon k c f) : (memberEffect t n).table.get a =
    if a = n.sender ∧ (t.get a).state = .syncing ∧ f = true then ⟨.present, none, true⟩ else t.get a := by
  simp only [memberEffect, hb]
  by_cases synced : f = true ∧ t.stateOf n.sender = .syncing
  · rw [if_pos synced, Table.get_write]
    obtain ⟨flag, syncing⟩ := synced
    exact if_congr (iff_self_and.2 fun e => e ▸ ⟨syncing, flag⟩) rfl rfl
  · rw [if_neg synced, if_neg]
    rintro ⟨rfl, syncing, flag⟩
    exact synced ⟨flag, syncing⟩

/-- FOUND, the snapshot notices and the claim notices. -/
theorem memberEffect_none (hb : n.body.tier = 1 ∨ n.body.isSnap = true ∨ n.body.isFound = true ∨ claimClient n.body ≠ none) :
    memberEffect t n = ⟨t, []⟩ := by
  cases h : n.body <;> simp [h, Body.tier, Body.isSnap, Body.isFound, claimClient] at hb <;> simp [memberEffect, h]

end

/-- Settles O37, kind by kind. -/
theorem membershipEffects : Obligations.MembershipEffects := by
  refine fun t n a => ⟨⟨fun _ => memberEffect_join a, fun _ _ hb => ?_, fun _ _ hb => ?_, fun _ hb => ?_, fun _ hb => ?_, fun _ _ _ hb => ?_,
    fun hb => ?_⟩, t.currentSponsor_iff a⟩
  · rw [memberEffect_admit a hb]; split <;> rfl
  · rw [memberEffect_refuse a hb]; split <;> rfl
  · rw [memberEffect_leave a hb]; split <;> rfl
  · rw [memberEffect_evict a hb]; split <;> rfl
  · rw [memberEffect_beaconed a hb]; split <;> rfl
  · rw [memberEffect_none hb]

end Sys2Proof.Machine
end

