-- ==== Sys2Proof/Proofs/IgnoredNotices.lean ====
section
/-! PROOFS. The notices that a station passes over. -/

namespace Sys2Proof.Machine

section
variable {s : State} {h : Heard}

/-- A notice that recalls nothing and that the station's state passes over leaves the station as it is. -/
theorem State.takeNotice_ignored (room : s.recall h = s) (handled : s.handle h = s) (ha : NothingToAnswer s) :
    s.takeNotice h false none = s := by
  have check : State.recheck s s = s := by
    by_cases hl : s.session.station = .loading
    · rw [State.recheck, State.keepsCheck_loading hl, hl]
      rfl
    · exact State.recheck_same hl rfl rfl rfl
  have entry : State.postActive s.session.station s = s := by
    refine State.postActive_none ?_
    cases s.session.station <;> simp
  rw [State.takeNotice, State.makeRoom_same room, handled, check, State.makeAnswers_none (.inl ha), entry]

/-- The notices that a station of no session, or one that waits, does not look at (R125). -/
theorem State.ignores_outside (hs : s.session.station = .offline ∨ s.session.station = .backoff ∨ s.session.station = .faulted) :
    s.recall h = s ∧ s.handle h = s := by
  rcases hs with hs | hs | hs <;> exact ⟨by rw [State.recall, hs], by rw [State.handle, hs]⟩

/-- A FOUND by its kind. -/
theorem Body.isFound_iff (b : Body) : b.isFound = true ↔ ∃ k, b = .found k := by
  cases b <;> simp [Body.isFound]

/-- A SEEKING station passes over a FOUND and every notice of another tag (R130, R169). -/
theorem State.ignores_seeking (hs : s.session.station = .seeking) (hn : h.notice.body.isFound = true ∨ h.notice.tag ≠ s.session.tag) :
    s.recall h = s ∧ s.handle h = s := by
  have passed : s.answersJoin h.notice = false ∧ s.takeSeeking h = s := by
    rcases hn with hf | ht
    · obtain ⟨k, hb⟩ := (Body.isFound_iff _).1 hf
      exact ⟨by rw [State.answersJoin, hb, Bool.and_false], by rw [State.takeSeeking, hb, ite_self]⟩
    · exact ⟨by rw [State.answersJoin, decide_eq_false ht, Bool.false_and], if_pos ht⟩
  obtain ⟨unanswered, passed⟩ := passed
  exact ⟨by rw [State.recall, hs]; exact if_neg (by rw [unanswered]; nofun), by rw [State.handle, hs]; exact passed⟩

/-- A notice that is not one of the session to apply asks nothing back in a session (R113). -/
theorem State.recall_unapplied (hs : s.session.station.inSession = true)
    (hn : ¬ (h.notice.tag = s.session.tag ∧ h.notice.body.isFound = false)) : s.recall h = s := by
  rw [State.recall]
  cases st : s.session.station <;> simp only [st, StationState.inSession, Bool.false_eq_true] at hs
  case loading => rfl
  all_goals exact if_neg hn

/-- What LOADING and the states of a member pass over, a station of a session passes over. -/
theorem State.handle_ignores (hs : s.session.station.inSession = true) (loading : s.takeLoading h = s) (member : s.takeMember h = s) :
    s.handle h = s := by
  rw [State.handle]
  cases st : s.session.station <;> simp only [st, StationState.inSession, Bool.false_eq_true] at hs
  case loading => exact loading
  all_goals exact member

/-- A station of a session passes over a FOUND, a lower tag, and a JOIN of another tag (R130, R169). -/
theorem State.ignores_session (hs : s.session.station.inSession = true)
    (hn : h.notice.body.isFound = true ∨ h.notice.tag < s.session.tag ∨ (h.notice.body.isJoin = true ∧ h.notice.tag ≠ s.session.tag)) :
    s.recall h = s ∧ s.handle h = s := by
  by_cases hf : h.notice.body.isFound = true
  · exact ⟨State.recall_unapplied hs fun e => Bool.false_ne_true (e.2.symm.trans hf), State.handle_ignores hs (if_pos hf) (if_pos hf)⟩
  · have passed : h.notice.tag ≠ s.session.tag ∧ s.otherTag h.notice = s := by
      rcases hn with e | lower | ⟨join, other⟩
      · exact absurd e hf
      · exact ⟨by bv_omega, if_pos lower⟩
      · exact ⟨other, by rw [State.otherTag, join, Bool.or_true, if_pos rfl, ite_self]⟩
    obtain ⟨other, ignored⟩ := passed
    exact ⟨State.recall_unapplied hs fun e => other e.1, State.handle_ignores hs
      (by rw [State.takeLoading, if_neg hf, if_neg other, ignored]) (by rw [State.takeMember, if_neg hf, if_neg other, ignored])⟩

end

/-- Settles O30: in each of the states the notice recalls nothing and is passed over. -/
theorem noticeWithoutEffect : Obligations.NoticeWithoutEffect := by
  intro s h hd ha hs
  rw [exec_noticeEffectsMade hd]
  have ignored : s.taking.recall h = s.taking ∧ s.taking.handle h = s.taking := by
    rcases hs with hs | hs | hs | ⟨hs, hn⟩ | ⟨hs, hn⟩
    · exact State.ignores_outside (s := s.taking) (.inl hs)
    · exact State.ignores_outside (s := s.taking) (.inr (.inl hs))
    · exact State.ignores_outside (s := s.taking) (.inr (.inr hs))
    · exact State.ignores_seeking (s := s.taking) hs hn
    · exact State.ignores_session (s := s.taking) (StationState.inSession_iff _ |>.2 hs) hn
  rw [State.takeNotice_ignored ignored.1 ignored.2 ha]

end Sys2Proof.Machine
end

