-- ==== Sys2Proof/Proofs/AppliedNotices.lean ====
section
/-! PROOFS. A notice that leaves the station its place: the count, the table, the tag and the founded flag after it (O39). -/

namespace Sys2Proof.Machine

/-! ### A notice that leaves the station its place -/

/-- A notice that neither evicts the station nor costs it its sponsor ends no membership. -/
theorem ending_none {own : Addr} {st : StationState} {h : Heard} {t : Table} (carried : h.own = true → h.notice.sender = own)
    (leave : ¬ ∃ r, h.notice.body = .leave r ∧ h.notice.sender = own) (evict : h.notice.body ≠ .evict own)
    (sponsor : ¬ (st = .announcing ∧ (t.get own).state ≠ .absent ∧ ((memberEffect t h.notice).table.get own).state = .absent)) :
    ending own st h (memberEffect t h.notice) = none := by
  have keeps : losesPlace own h.notice = false := by
    rw [losesPlace, decide_eq_false_iff_not, namedTarget]
    cases hb : h.notice.body <;> simp only [reduceCtorEq, not_false_eq_true, Option.some.injEq]
    case leave r => exact fun e => leave ⟨r, hb, e⟩
    case evict m => exact fun e => evict (by rw [hb, e])
  have sponsored : ¬ (st = .announcing ∧
      (memberEffect t h.notice).changes.any (fun c => decide (c = (own, MemberState.absent))) = true) := by
    rintro ⟨announcing, change⟩
    obtain ⟨c, mem, e⟩ := List.any_eq_true.1 change
    rw [of_decide_eq_true e] at mem
    obtain ⟨gone, was⟩ := (memberEffect_reports t h.notice own .absent).1 mem
    exact sponsor ⟨announcing, was.symm, gone⟩
  unfold ending
  split
  · rename_i r ho hb
    exact absurd ⟨r, hb, carried ho⟩ leave
  · rw [keeps, if_neg Bool.false_ne_true, if_neg sponsored]

/-- Table, session count, tag and founded flag stay. -/
def Seated (s t : State) : Prop :=
  t.session.members = s.session.members ∧ t.session.count = s.session.count ∧ t.session.tag = s.session.tag ∧
    t.session.founded = s.session.founded

theorem Seated.trans {s t u : State} (h : Seated s t) (k : Seated t u) : Seated s u :=
  ⟨k.1.trans h.1, k.2.1.trans h.2.1, k.2.2.1.trans h.2.2.1, k.2.2.2.trans h.2.2.2⟩

theorem Seated.of_session {s t : State} (h : t.session = s.session) : Seated s t := by rw [Seated, h]; exact ⟨rfl, rfl, rfl, rfl⟩

/-- A LEAVE(RESYNC) queued ends no membership yet. -/
theorem SessionKept.seated {s t : State} (k : SessionKept s t) : Seated s t := by
  rcases k with ⟨e, -⟩ | ⟨-, e⟩
  · exact .of_session e
  · rw [Seated, e]; exact ⟨rfl, rfl, rfl, rfl⟩

section
variable (s : State)

theorem State.queueLeave_seated (r : LeaveReason) : Seated s (s.queueLeave r) := by
  rw [Seated, State.queueLeave_session]; exact ⟨rfl, rfl, rfl, rfl⟩

theorem State.listJoin_session (a : Addr) (k : Word) : (s.listJoin a k).session = s.session := by
  unfold State.listJoin
  split
  · split <;> rfl
  · split <;> rfl
  · split <;> rfl
  · rfl

theorem State.ownAdmit_seated (a : Addr) (effective : Bool) : Seated s (s.ownAdmit a effective) := by
  unfold State.ownAdmit State.startServing
  split
  · split
    · exact s.freeze_kept.session.seated
    · split
      · exact s.upset_kept.session.seated
      · exact .of_session rfl
  · split <;> exact .of_session rfl

theorem State.compared_seated (a : Addr) (equal : Bool) : Seated s (s.compared a equal) := by
  unfold State.compared
  split
  · exact .of_session rfl
  · split
    · exact .of_session rfl
    · have told : Seated s ((s.setChecker { s.checker with suspect := none, resyncPending := true }).post (.divergence .resync) a) :=
        .of_session rfl
      generalize State.post _ _ _ = u at told ⊢
      exact told.trans (u.queueLeave_seated _)
  · exact .of_session rfl
  · exact .of_session rfl

theorem State.takeBeacon_seated (h : Heard) (promoted : Bool) (k n : Word) (sync : Bool) :
    Seated s (s.takeBeacon h promoted k n sync) := by
  unfold State.takeBeacon
  split
  · split
    · exact Seated.trans ⟨rfl, rfl, rfl, rfl⟩ (State.testLines_kept _).session.seated
    · exact .of_session rfl
  · split
    · exact s.compared_seated _ _
    · exact .of_session rfl
  all_goals exact .of_session rfl

theorem State.localEffects_seated (h : Heard) (e : TableChange) : Seated s (s.localEffects h e) := by
  have before : Kept s (s.pruneAnswers.clearSuspect.checkServing h) :=
    ((s.setSponsor_kept _).trans (State.clearSuspect_kept _)).trans (State.checkServing_kept _ h)
  unfold State.localEffects
  generalize State.checkServing _ h = u at before ⊢
  refine before.session.seated.trans ?_
  unfold State.kindEffects
  split
  · split
    · exact .of_session (State.listJoin_session _ _ _)
    · exact .of_session rfl
  · split
    · exact State.ownAdmit_seated _ _ _
    · exact .of_session rfl
  · exact State.takeBeacon_seated _ _ _ _ _ _
  all_goals exact .of_session rfl

theorem State.countNotice_session (b : Body) : (s.countNotice b).session =
    { s.session with count := if counted b then s.session.count + 1#16 else s.session.count } := by
  unfold State.countNotice
  split <;> rfl

/-- Steps 1 to 4 of R125: the count by the kind, the table by the membership effect. -/
theorem State.fourSteps_session (h : Heard) (e : TableChange) (x : Option EndReason) :
    Seated { s with session := { s.session with
      members := e.table, count := if counted h.notice.body then s.session.count + 1#16 else s.session.count } } (s.fourSteps h e x) := by
  have one : Seated (s.countNotice h.notice.body) (s.stepOne h) := by
    refine Seated.trans ?_ (State.readMembers_kept _ _).session.seated
    unfold State.noteClash
    split <;> exact .of_session rfl
  have two : Seated (s.countNotice h.notice.body) ((s.stepOne h).restartAbsence h.notice.sender) :=
    one.trans (State.restartAbsence_kept _ _).session.seated
  unfold State.fourSteps
  dsimp only
  generalize (s.stepOne h).restartAbsence h.notice.sender = u at two ⊢
  have later : Seated (u.setMembers e.table) ((u.liveMembers e).poolEffect true h.notice x (removedStations h.notice e.changes)) :=
    (State.liveMembers_kept u e).session.seated.trans (State.poolEffect_kept _ _ _ _ _).session.seated
  refine Seated.trans ?_ later
  obtain ⟨-, count, tag, founded⟩ := two
  rw [s.countNotice_session] at count tag founded
  exact ⟨rfl, count, tag, founded⟩

variable {s} {h : Heard}

/-- The whole event of a notice that leaves the station its place (R123, R125). -/
theorem State.takeNotice_seated (hs : s.session.station.member) (ht : h.notice.tag = s.session.tag) (hf : h.notice.body.isFound = false)
    (hx : ending s.own s.session.station h (memberEffect s.session.members h.notice) = none)
    (hl : ending s.own .leaving h (memberEffect s.session.members h.notice) = none) :
    Seated { s with session := { s.session with
      members := (memberEffect s.session.members h.notice).table,
      count := if counted h.notice.body then s.session.count + 1#16 else s.session.count } } (s.takeNotice h false none) := by
  have room := s.makeRoom_kept h false none
  have own := (s.makeRoom_moves h false none).straps
  unfold State.takeNotice
  dsimp only
  generalize s.makeRoom h false none = m at room own
  obtain ⟨member, tag, members⟩ := room.session.member hs
  have stays : ending m.own m.session.station h (memberEffect m.session.members h.notice) = none := by
    rw [show m.own = s.own from congrArg Straps.address own, members]
    rcases room.session with ⟨e, -⟩ | ⟨-, e⟩
    · rw [e]; exact hx
    · rw [e]; exact hl
  obtain ⟨-, count, -, founded⟩ := room.session.seated
  rw [State.handle_member member (ht.trans tag.symm) hf, State.applyNotice_stays rfl stays, members]
  have handled := (m.fourSteps_session h (memberEffect s.session.members h.notice) (some .evicted)).trans
    (State.localEffects_seated _ h (memberEffect s.session.members h.notice))
  generalize State.localEffects _ h _ = v at handled ⊢
  have after := ((State.recheck_kept v s).trans (State.makeAnswers_kept _)).trans (State.postActive_kept _ s.session.station)
  obtain ⟨table, counted, tagged, found⟩ := handled.trans after.session.seated
  exact ⟨table, counted.trans (by dsimp only; rw [count]), tagged.trans tag, found.trans founded⟩

end

/-- Settles O39: the notice costs the station neither its place nor its sponsor, so only its count and its membership effect show. -/
theorem appliedNoticeCounts : Obligations.AppliedNoticeCounts := by
  intro s h hs hd ht hf carried leave evict sponsor
  have kinds : counted h.notice.body = true ↔ ¬ (h.notice.body.isBeacon = true ∨ h.notice.body.isSnap = true) := by
    cases hb : h.notice.body <;> simp_all [counted, Body.isBeacon, Body.isSnap, Body.isFound]
  have leaving : ¬ (StationState.leaving = .announcing ∧ (s.session.members.get s.own).state ≠ .absent ∧
      ((memberEffect s.session.members h.notice).table.get s.own).state = .absent) := fun e => nomatch e.1
  obtain ⟨members, count, tag, founded⟩ := State.takeNotice_seated (s := s.taking) hs ht hf (ending_none carried leave evict sponsor)
    (ending_none carried leave evict leaving)
  refine ⟨_, exec_noticeEffectsMade hd, count.trans ?_, members, tag, founded⟩
  dsimp only
  simp only [kinds, ite_not]
  rfl

end Sys2Proof.Machine
end

