-- ==== Sys2Proof/Proofs/BeaconsCompared.lean ====
section
/-! PROOFS. The comparison of the synchronized BEACON of another station (O42). -/

namespace Sys2Proof.Machine

section
variable {s : State} {sender : Addr} {check count : Word}

/-- The synchronized BEACON of another station of the session. -/
def State.beaconOf (s : State) (sender : Addr) (check count : Word) : Heard :=
  ⟨⟨s.session.tag, sender, .beacon check count true⟩, false⟩

/-- The comparison of R166, made with the table check and the count of `s`. -/
def State.comparison (s : State) (sender : Addr) (check count : Word) (t : State) : State :=
  t.compared sender (decide (check = s.checker.tableCheck) && decide (count = s.session.count))

/-- The table of R166: it speaks of the suspect of `s`, and `t` is written. -/
theorem State.comparison_eq {t : State} (checker : t.checker = s.checker) : s.comparison sender check count t =
    (match s.checker.suspect with
    | none => if check = s.checker.tableCheck ∧ count = s.session.count then t
      else ({ t with checker := { s.checker with suspect := some sender } } : State).post (.divergence .recorded) sender
    | some a => if check = s.checker.tableCheck ∧ count = s.session.count then
        ({ t with checker := { s.checker with suspect := none } } : State).post (.divergence .cleared) a
      else if a = sender then t
      else (({ t with checker := { s.checker with suspect := none, resyncPending := true } } : State).post
        (.divergence .resync) sender).queueLeave .resync) := by
  by_cases equal : check = s.checker.tableCheck ∧ count = s.session.count
  · have agrees : (decide (check = s.checker.tableCheck) && decide (count = s.session.count)) = true := by simpa using equal
    unfold State.comparison State.compared
    rw [checker, agrees]
    cases s.checker.suspect
    · exact (if_pos equal).symm
    · exact (if_pos equal).symm
  · have differs : (decide (check = s.checker.tableCheck) && decide (count = s.session.count)) = false := by
      simpa using equal
    unfold State.comparison State.compared
    rw [checker, differs]
    cases s.checker.suspect
    · exact (if_neg equal).symm
    · exact (if_neg equal).symm

/-- A comparison queues a LEAVE or leaves the answers and the serving alone. -/
theorem State.compared_nothingToAnswer (h : NothingToAnswer s) (a : Addr) (equal : Bool) : NothingToAnswer (s.compared a equal) := by
  unfold State.compared
  split
  · exact h
  · split
    · exact h
    · exact State.queueLeave_nothingToAnswer _
  all_goals exact h

theorem State.comparison_nothingToAnswer {t : State} (h : NothingToAnswer t) : NothingToAnswer (s.comparison sender check count t) :=
  State.compared_nothingToAnswer h _ _

/-- It leaves the replica. -/
theorem State.comparison_replica {t : State} (active : t.session.station = .active) :
    (s.comparison sender check count t).session.members = t.session.members ∧
      (s.comparison sender check count t).pool.records = t.pool.records ∧
      (s.comparison sender check count t).checker.tableCheck = t.checker.tableCheck := by
  obtain ⟨quiets, -⟩ := State.compared_cases t active sender
    (decide (check = s.checker.tableCheck) && decide (count = s.session.count))
  obtain ⟨members, -, -, records, tableCheck⟩ := quiets.replica
  exact ⟨members, records, tableCheck⟩

/-! ### Steps 1 to 4 of R125 for such a BEACON -/

theorem State.stepOne_beaconOf (other : sender ≠ s.own) (sound : (s.session.members.get sender).sound = true) :
    s.stepOne (s.beaconOf sender check count) = s := by
  have clash : (s.countNotice (.beacon check count true)).noteClash (s.beaconOf sender check count) = s := by
    simp [State.countNotice, counted, State.noteClash, State.beaconOf, other]
  have read : s.readMembers [sender] = s := State.readMembers_sound fun a ha => List.mem_singleton.1 ha ▸ sound
  exact (congrArg (fun t => State.readMembers t [sender]) clash).trans read

theorem State.restartAbsence_eq : s.restartAbsence sender = { s with timers := s.restarted sender } := by
  unfold State.restartAbsence State.restarted
  by_cases running : (s.session.members.stateOf sender = .syncing ∨ s.session.members.stateOf sender = .present) ∧ sender ≠ s.own
  · rw [if_pos running]
    exact congrArg s.setTimers (if_pos running.symm).symm
  · rw [if_neg running]
    exact congrArg s.setTimers (if_neg fun e => running e.symm).symm

/-- With no changed record only the absence timer shows. -/
theorem State.fourSteps_unchanged (other : sender ≠ s.own) (sound : (s.session.members.get sender).sound = true)
    (x : Option EndReason) : s.fourSteps (s.beaconOf sender check count) ⟨s.session.members, []⟩ x =
      { s with timers := s.restarted sender } := by
  rw [State.fourSteps, State.stepOne_beaconOf other sound]
  exact congrArg (fun t : State => t.setMembers s.session.members) State.restartAbsence_eq

/-- The station with the table `t`, in which the sender's record became PRESENT. -/
def State.promoted (s : State) (sender : Addr) (t : Table) : State :=
  ({ s with timers := s.restarted sender, session := { s.session with members := t } } : State).post (.memberState .present) sender

/-- The record made PRESENT is posted. -/
theorem State.fourSteps_promoted (other : sender ≠ s.own) (sound : (s.session.members.get sender).sound = true)
    (t : Table) (x : Option EndReason) : s.fourSteps (s.beaconOf sender check count) ⟨t, [(sender, .present)]⟩ x =
      s.promoted sender t := by
  rw [State.fourSteps, State.stepOne_beaconOf other sound]
  have timer : (s.restarted sender).absence.set sender.val ((s.restarted sender).absence.get sender) sender.isLt =
      (s.restarted sender).absence := absence_set_get _ _
  have two : s.restartAbsence (s.beaconOf sender check count).notice.sender = { s with timers := s.restarted sender } :=
    State.restartAbsence_eq
  rw [two]
  change State.post { s with
    timers := { s.restarted sender with
      absence := (s.restarted sender).absence.set sender.val ((s.restarted sender).absence.get sender) sender.isLt }
    session := { s.session with members := t } } _ _ = _
  rw [timer]
  rfl

/-! ### The event as a whole -/

/-- The local effect is the comparison. -/
theorem State.localEffects_beaconOf {t : State} (active : t.session.station = .active) (checker : t.checker = s.checker)
    (counts : t.session.count = s.session.count) (other : sender ≠ t.own) (answers : NothingToAnswer t)
    (suspect : ∀ a, t.checker.suspect = some a → (t.session.members.get a).state = .present)
    (present : (t.session.members.get sender).state = .present) (e : TableChange) :
    t.localEffects (s.beaconOf sender check count) e = s.comparison sender check count t := by
  have cleared : t.clearSuspect = t := by
    unfold State.clearSuspect
    split
    · exact if_pos (suspect _ ‹_›)
    · rfl
  have effect : t.kindEffects (s.beaconOf sender check count) e =
      t.takeBeacon (s.beaconOf sender check count) (decide (e.changes ≠ [])) check count true := rfl
  rw [State.localEffects, State.pruneAnswers_none answers, cleared]
  refine effect.trans ?_
  rw [State.takeBeacon, active]
  refine (if_pos ⟨rfl, other, present⟩).trans ?_
  rw [checker, counts]
  rfl

/-- An ACTIVE station handles such a BEACON as a notice applied that costs it nothing, and asks nothing of it afterwards but the
table check. -/
theorem State.takeNotice_beaconOf (active : s.session.station = .active) (answers : NothingToAnswer s) {e : TableChange}
    (effect : memberEffect s.session.members (s.beaconOf sender check count).notice = e) {t u v : State}
    (steps : s.fourSteps (s.beaconOf sender check count) e (some .evicted) = t)
    (effects : t.localEffects (s.beaconOf sender check count) e = u) (checks : State.recheck s u = v) (quiet : NothingToAnswer v) :
    s.takeNotice (s.beaconOf sender check count) false none = v := by
  have recalls : s.recall (s.beaconOf sender check count) = s := by
    refine State.recall_same (.inr (.inr (.inr (.inr ⟨.inr (.inl active), rfl, fun v hv => ?_⟩))))
    obtain ⟨-, serving⟩ := answers
    rw [serving] at hv
    cases hv
  have stays : ending s.own s.session.station (s.beaconOf sender check count) e = none := by
    simp [ending, active, losesPlace, namedTarget, State.beaconOf]
  have entry : State.postActive s.session.station v = v :=
    State.postActive_none (by rw [active]; simp)
  rw [State.takeNotice, State.makeRoom_same recalls, State.handle_member (.inr (.inl active)) rfl rfl,
    State.applyNotice_stays effect stays, steps, effects, checks,
    State.makeAnswers_none (.inl quiet), entry]

/-- The table check follows a changed table whose records, and those of the pool, pass their check. -/
theorem State.recheck_tabled {u : State} {table : Table} (active : s.session.station = .active) (changed : table ≠ s.session.members)
    (members : u.session.members = table) (records : u.pool.records = s.pool.records) (sound : ∀ r ∈ s.pool.records, r.sound = true)
    (intact : ∀ a, (table.get a).sound = true) :
    State.recheck s u = { u with checker := { u.checker with tableCheck := tableCheckOf table s.pool.records } } := by
  have changes : u.keepsCheck s = false := by
    rw [State.keepsCheck, active, decide_eq_false_iff_not, members]
    exact fun e => changed e.1
  have pool : u.poolFails = false := State.poolFails_sound (records ▸ sound)
  have intact : u.membersFail sixteen = false := by
    simp [State.membersFail, members, intact]
  rw [State.recheck_new changes pool intact, members, records]
  rfl

variable (active : s.session.station = .active) (other : sender ≠ s.own) (answers : NothingToAnswer s)
    (suspect : ∀ a, s.checker.suspect = some a → (s.session.members.get a).state = .present)
include active other answers suspect

/-- The BEACON of a PRESENT station is compared. -/
theorem State.takeNotice_present (present : (s.session.members.get sender).state = .present)
    (sound : (s.session.members.get sender).sound = true) :
    s.takeNotice (s.beaconOf sender check count) false none =
      s.comparison sender check count { s with timers := s.restarted sender } := by
  have effect : memberEffect s.session.members (s.beaconOf sender check count).notice = ⟨s.session.members, []⟩ := by
    simp [memberEffect, State.beaconOf, Table.stateOf, present]
  have compares := State.localEffects_beaconOf (s := s) (t := { s with timers := s.restarted sender }) (check := check) (count := count)
    active rfl rfl other answers suspect present ⟨s.session.members, []⟩
  have same : State.recheck s (s.comparison sender check count { s with timers := s.restarted sender }) =
      s.comparison sender check count { s with timers := s.restarted sender } := by
    obtain ⟨members, records, tableCheck⟩ := State.comparison_replica (s := s) (sender := sender) (check := check) (count := count)
      (t := { s with timers := s.restarted sender }) active
    exact State.recheck_same (by rw [active]; nofun) members records tableCheck
  exact State.takeNotice_beaconOf active answers effect (State.fourSteps_unchanged other sound _) compares same
    (State.comparison_nothingToAnswer answers)

/-- The BEACON of a SYNCING station makes its record PRESENT and is compared. -/
theorem State.takeNotice_syncing (syncing : (s.session.members.get sender).state = .syncing) (sound : AllSound s) :
    (let table := s.session.members.write sender .present none
    let u := s.comparison sender check count (s.promoted sender table)
    s.takeNotice (s.beaconOf sender check count) false none =
      { u with checker := { u.checker with tableCheck := tableCheckOf table s.pool.records } }) := by
  intro table u
  obtain ⟨records, members⟩ := sound
  have wrote : ∀ a, table.get a = if a = sender then ⟨.present, none, true⟩ else s.session.members.get a :=
    fun a => Table.get_write ..
  have handled := State.fourSteps_promoted (check := check) (count := count) other (members sender) table (some .evicted)
  have stays : ∀ a, s.checker.suspect = some a → (table.get a).state = .present := fun a ha => by
    rw [wrote]
    split
    · rfl
    · exact suspect a ha
  obtain ⟨v, hv⟩ : ∃ v : State, v = s.promoted sender table := ⟨_, rfl⟩
  have before : v.session.members = table ∧ v.pool = s.pool ∧ v.session.station = .active ∧ v.checker = s.checker ∧
    v.session.count = s.session.count ∧ v.own = s.own ∧ v.sponsor = s.sponsor := by
    rw [hv]; exact ⟨rfl, rfl, active, rfl, rfl, rfl, rfl⟩
  obtain ⟨tabled, pooled, actives, checked, counts, owns, sponsored⟩ := before
  have quiet : NothingToAnswer v := by rw [NothingToAnswer, sponsored]; exact answers
  rw [← hv] at handled
  have hu : u = s.comparison sender check count v := by rw [hv]
  rw [hu]
  have compares := State.localEffects_beaconOf (check := check) (count := count) actives checked counts (owns ▸ other) quiet
    (by rw [checked, tabled]; exact stays) (by rw [tabled, wrote, if_pos rfl]) ⟨table, [(sender, .present)]⟩
  obtain ⟨tables, pools, -⟩ := State.comparison_replica (s := s) (sender := sender) (check := check) (count := count) actives
  rw [tabled] at tables
  rw [pooled] at pools
  have checks := State.recheck_tabled active (fun e => by
    have present := wrote sender
    rw [e, if_pos rfl] at present
    rw [present] at syncing
    cases syncing) tables pools records (Table.write_sound members sender · .present none)
  exact State.takeNotice_beaconOf active answers (memberEffect_beacon syncing) handled compares checks
    (State.comparison_nothingToAnswer (s := s) quiet)

end

/-- Settles O42: the comparison made by the station, for a BEACON of a PRESENT station and for one of a SYNCING station. -/
theorem beaconIsCompared : Obligations.BeaconIsCompared := by
  intro s sender check count active other hd answers suspect compared heard
  have compares : ∀ t : State, t.checker = s.checker → s.taking.comparison sender check count t = compared t :=
    fun t checker => State.comparison_eq (s := s.taking) checker
  refine ⟨fun present sound => (exec_noticeEffectsMade hd).trans (congrArg Host.Outcome.next ?_),
    fun syncing sound => (exec_noticeEffectsMade hd).trans (congrArg Host.Outcome.next ?_)⟩
  · rw [← compares heard rfl]
    exact State.takeNotice_present (s := s.taking) active other answers suspect present sound
  · have event := State.takeNotice_syncing (s := s.taking) (check := check) (count := count) active other answers suspect syncing sound
    dsimp only at event
    rw [compares (s.taking.promoted sender _) rfl, Table.write_ofFn] at event
    exact event

end Sys2Proof.Machine
end

