-- ==== Sys2Proof/Proofs/CounterUnread.lean ====
section
/-! PROOFS. The founding counter is not read by the making of a notice's effects (O33, first part). -/

namespace Sys2Proof.Machine

/-- The station with another founding counter. Every part of the making of a notice's effects passes it on unread, so that the effects
themselves do (`State.flush_counterAt`). -/
def State.counterAt (s : State) (k : BitVec 12) : State := { s with session := { s.session with counter := k } }

section
variable (s : State) (k : BitVec 12)

/-! ### What does not read the counter -/

@[simp] theorem State.outbox_counterAt : (s.counterAt k).outbox = s.outbox := rfl
@[simp] theorem State.bus_counterAt : (s.counterAt k).bus = s.bus := rfl
@[simp] theorem State.timers_counterAt : (s.counterAt k).timers = s.timers := rfl
@[simp] theorem State.joiner_counterAt : (s.counterAt k).joiner = s.joiner := rfl
@[simp] theorem State.sponsor_counterAt : (s.counterAt k).sponsor = s.sponsor := rfl
@[simp] theorem State.pool_counterAt : (s.counterAt k).pool = s.pool := rfl
@[simp] theorem State.port_counterAt : (s.counterAt k).port = s.port := rfl
@[simp] theorem State.checker_counterAt : (s.counterAt k).checker = s.checker := rfl
@[simp] theorem State.own_counterAt : (s.counterAt k).own = s.own := rfl
@[simp] theorem State.slot_counterAt : (s.counterAt k).slot = s.slot := rfl
@[simp] theorem State.line_counterAt : (s.counterAt k).line = s.line := rfl
@[simp] theorem State.refuses_counterAt : (s.counterAt k).refuses = s.refuses := rfl
@[simp] theorem State.poolFails_counterAt : (s.counterAt k).poolFails = s.poolFails := rfl
@[simp] theorem State.membersFail_counterAt : (s.counterAt k).membersFail = s.membersFail := rfl
@[simp] theorem State.mayAnswer_counterAt : (s.counterAt k).mayAnswer = s.mayAnswer := rfl
@[simp] theorem State.answerBody_counterAt : (s.counterAt k).answerBody = s.answerBody := rfl
@[simp] theorem State.started_counterAt : (s.counterAt k).started = s.started := rfl
@[simp] theorem State.leaseStart_counterAt : (s.counterAt k).leaseStart = s.leaseStart := rfl
@[simp] theorem State.answersJoin_counterAt : (s.counterAt k).answersJoin = s.answersJoin := rfl
@[simp] theorem State.countAfter_counterAt : (s.counterAt k).countAfter = s.countAfter := rfl
@[simp] theorem State.absenceStart_counterAt : (s.counterAt k).absenceStart = s.absenceStart := rfl
@[simp] theorem State.offer_counterAt : (s.counterAt k).offer = s.offer := rfl
@[simp] theorem State.session_station_counterAt : (s.counterAt k).session.station = s.session.station := rfl
@[simp] theorem State.session_members_counterAt : (s.counterAt k).session.members = s.session.members := rfl
@[simp] theorem State.session_tag_counterAt : (s.counterAt k).session.tag = s.session.tag := rfl
@[simp] theorem State.session_count_counterAt : (s.counterAt k).session.count = s.session.count := rfl
@[simp] theorem State.session_leaveDest_counterAt : (s.counterAt k).session.leaveDest = s.session.leaveDest := rfl
@[simp] theorem State.session_leaveReason_counterAt : (s.counterAt k).session.leaveReason = s.session.leaveReason := rfl

/-! ### Branches and folds -/

@[simp] theorem ite_counterAt (c : Prop) [Decidable c] (t : State) :
    (if c then s.counterAt k else t.counterAt k) = (if c then s else t).counterAt k := (apply_ite (State.counterAt · k) c s t).symm

variable {s k} in
/-- A branch by what does not read the counter. -/
theorem if_counterAt {c d : Prop} [Decidable c] [Decidable d] {t u v : State} (h : c ↔ d) (hs : t = s.counterAt k)
    (hv : u = v.counterAt k) :
    (if c then t else u) = (if d then s else v).counterAt k := by
  rw [hs, hv, ite_counterAt]
  exact congrArg (State.counterAt · k) (if_congr h rfl rfl)

theorem foldl_counterAt {α : Type} {f : State → α → State} (h : ∀ s a, f (s.counterAt k) a = (f s a).counterAt k) (l : List α) :
    l.foldl f (s.counterAt k) = (l.foldl f s).counterAt k := by
  induction l generalizing s with
  | nil => rfl
  | cons a l ih => rw [List.foldl_cons, h, ih, List.foldl_cons]

/-! ### The shared operations -/

@[simp] theorem State.setOutbox_counterAt (x : Outbox) : (s.counterAt k).setOutbox x = (s.setOutbox x).counterAt k := rfl
@[simp] theorem State.setBus_counterAt (x : Bus) : (s.counterAt k).setBus x = (s.setBus x).counterAt k := rfl
@[simp] theorem State.setTimers_counterAt (x : Timers) : (s.counterAt k).setTimers x = (s.setTimers x).counterAt k := rfl
@[simp] theorem State.setJoiner_counterAt (x : Joiner) : (s.counterAt k).setJoiner x = (s.setJoiner x).counterAt k := rfl
@[simp] theorem State.setSponsor_counterAt (x : Sponsor) : (s.counterAt k).setSponsor x = (s.setSponsor x).counterAt k := rfl
@[simp] theorem State.setPool_counterAt (x : Pool) : (s.counterAt k).setPool x = (s.setPool x).counterAt k := rfl
@[simp] theorem State.setPort_counterAt (x : Port) : (s.counterAt k).setPort x = (s.setPort x).counterAt k := rfl
@[simp] theorem State.setChecker_counterAt (x : Checker) : (s.counterAt k).setChecker x = (s.setChecker x).counterAt k := rfl
@[simp] theorem State.setLine_counterAt (n : LineNo) (l : Line) : (s.counterAt k).setLine n l = (s.setLine n l).counterAt k := rfl
@[simp] theorem State.driveGnt_counterAt (c : Client) (b : Bool) : (s.counterAt k).driveGnt c b = (s.driveGnt c b).counterAt k := by
  unfold State.driveGnt
  split <;> rfl

@[simp] theorem State.setSlot_counterAt (c : Client) (v : Slot) : (s.counterAt k).setSlot c v = (s.setSlot c v).counterAt k :=
  State.driveGnt_counterAt { s with slots := s.slots.set c.val v c.isLt } k c _

@[simp] theorem State.post_counterAt (e : EventKind) (w : Fin 16) : (s.counterAt k).post e w = (s.post e w).counterAt k := rfl
@[simp] theorem State.atStation_counterAt (st : StationState) : (s.counterAt k).atStation st = (s.atStation st).counterAt k := rfl
@[simp] theorem State.change_counterAt (st : StationState) : (s.counterAt k).change st = (s.change st).counterAt k := by
  simp [State.change]

@[simp] theorem State.enter_counterAt (st : StationState) (c : Cause) : (s.counterAt k).enter st c = (s.enter st c).counterAt k := by
  simp [State.enter]

@[simp] theorem State.discard_counterAt : (s.counterAt k).discard = s.discard.counterAt k := rfl
@[simp] theorem State.dropSlotOwed_counterAt (c : Client) : (s.counterAt k).dropSlotOwed c = (s.dropSlotOwed c).counterAt k := by
  simp [State.dropSlotOwed]

@[simp] theorem State.dropOwed_counterAt : (s.counterAt k).dropOwed = s.dropOwed.counterAt k :=
  foldl_counterAt (s.setSponsor { s.sponsor with owedAnswer := none, owedBeacon := false, owedEvicts := Sponsor.none.owedEvicts }) k
    (fun s => s.dropSlotOwed_counterAt k) sixteen

@[simp] theorem State.clearOutbox_counterAt : (s.counterAt k).clearOutbox = s.clearOutbox.counterAt k := by
  simp [State.clearOutbox]

@[simp] theorem State.submit_counterAt (b : Body) : (s.counterAt k).submit b = ((s.submit b).1.counterAt k, (s.submit b).2) := rfl

@[simp] theorem State.closeSlot_counterAt (c : Client) : (s.counterAt k).closeSlot c = (s.closeSlot c).counterAt k :=
  s.setSlot_counterAt k c _

@[simp] theorem State.purge_counterAt : (s.counterAt k).purge = s.purge.counterAt k := by
  simp [State.purge]

@[simp] theorem State.closeSlots_counterAt : (s.counterAt k).closeSlots = s.closeSlots.counterAt k :=
  foldl_counterAt s k (fun s a => s.closeSlot_counterAt k a) sixteen

@[simp] theorem State.placeLeave_counterAt (r : LeaveReason) : (s.counterAt k).placeLeave r = (s.placeLeave r).counterAt k := rfl
@[simp] theorem State.stopLoading_counterAt : (s.counterAt k).stopLoading = s.stopLoading.counterAt k := rfl
@[simp] theorem State.recordLeave_counterAt (r : LeaveReason) : (s.counterAt k).recordLeave r = (s.recordLeave r).counterAt k := rfl
@[simp] theorem State.queueLeave_counterAt (r : LeaveReason) : (s.counterAt k).queueLeave r = (s.queueLeave r).counterAt k := by
  simp [State.queueLeave]

@[simp] theorem State.markUpset_counterAt : (s.counterAt k).markUpset = s.markUpset.counterAt k := rfl
@[simp] theorem State.upset_counterAt : (s.counterAt k).upset = s.upset.counterAt k := by
  unfold State.upset
  refine if_counterAt Iff.rfl rfl ?_
  rw [State.session_station_counterAt]
  split <;> simp

@[simp] theorem State.freeze_counterAt : (s.counterAt k).freeze = s.freeze.counterAt k := by
  simp [State.freeze]

@[simp] theorem State.readMembers_counterAt (as : List Addr) : (s.counterAt k).readMembers as = (s.readMembers as).counterAt k := by
  simp [State.readMembers]

@[simp] theorem State.mismatch_counterAt : (s.counterAt k).mismatch = s.mismatch.counterAt k := by
  unfold State.mismatch
  simp only [State.session_station_counterAt]
  split <;> simp

@[simp] theorem State.waiterQuery_counterAt (m : Mask) :
    (s.counterAt k).waiterQuery m = ((s.waiterQuery m).1.counterAt k, (s.waiterQuery m).2) := by
  simp only [State.waiterQuery, State.pool_counterAt, State.poolFails_counterAt, State.freeze_counterAt]
  by_cases frozen : s.pool.frozen = true
  · simp [frozen]
  · by_cases fails : s.poolFails = true
    · simp [frozen, fails]
    · simp only [frozen, fails, if_false, Bool.false_eq_true]
      rfl

@[simp] theorem State.placeJoin_counterAt : (s.counterAt k).placeJoin = s.placeJoin.counterAt k := rfl
@[simp] theorem State.submitBeacon_counterAt : (s.counterAt k).submitBeacon = s.submitBeacon.counterAt k := by
  unfold State.submitBeacon
  refine if_counterAt Iff.rfl rfl ?_
  simp only [State.submit_counterAt]
  split <;> simp

@[simp] theorem State.submitEvict_counterAt (m : Addr) : (s.counterAt k).submitEvict m = (s.submitEvict m).counterAt k := by
  unfold State.submitEvict
  refine if_counterAt Iff.rfl rfl ?_
  simp only [State.submit_counterAt]
  split <;> simp

@[simp] theorem State.submitAnswer_counterAt (b : Body) : (s.counterAt k).submitAnswer b = (s.submitAnswer b).counterAt k := by
  unfold State.submitAnswer
  simp only [State.submit_counterAt]
  split <;> simp

@[simp] theorem State.makeSnap_counterAt : (s.counterAt k).makeSnap = s.makeSnap.counterAt k := by
  unfold State.makeSnap
  rw [State.sponsor_counterAt]
  split
  · rfl
  · refine if_counterAt Iff.rfl ?_ rfl
    split <;> simp

@[simp] theorem State.makeAnswer_counterAt (a : Addr) : (s.counterAt k).makeAnswer a = (s.makeAnswer a).counterAt k := by
  unfold State.makeAnswer
  refine if_counterAt Iff.rfl ?_ rfl
  rw [State.sponsor_counterAt]
  split
  · rfl
  · rw [State.readMembers_counterAt]
    exact if_counterAt Iff.rfl (by simp) rfl

@[simp] theorem State.makeAnswers_counterAt : (s.counterAt k).makeAnswers = s.makeAnswers.counterAt k := by
  simp only [State.makeAnswers, State.makeSnap_counterAt, foldl_counterAt _ k fun s => s.makeAnswer_counterAt k]

@[simp] theorem State.serveEvict_counterAt (t : Addr) : (s.counterAt k).serveEvict t = (s.serveEvict t).counterAt k := by
  unfold State.serveEvict
  refine if_counterAt Iff.rfl ?_ rfl
  simp only [State.submit_counterAt]
  split <;> simp

@[simp] theorem State.serveBeacon_counterAt : (s.counterAt k).serveBeacon = s.serveBeacon.counterAt k := by
  unfold State.serveBeacon
  refine if_counterAt Iff.rfl ?_ rfl
  simp only [State.submit_counterAt]
  split <;> simp

@[simp] theorem State.serveSlot_counterAt (b : Bool) (c : Client) :
    State.serveSlot b (s.counterAt k) c = (State.serveSlot b s c).counterAt k := by
  unfold State.serveSlot
  refine if_counterAt Iff.rfl ?_ rfl
  simp only [State.slot_counterAt, State.offer_counterAt]
  split
  · rfl
  · split <;> simp

@[simp] theorem State.serveAnswer_counterAt : (s.counterAt k).serveAnswer = s.serveAnswer.counterAt k := by
  unfold State.serveAnswer
  simp only [State.submit_counterAt, State.sponsor_counterAt]
  split
  · rfl
  · split <;> simp

@[simp] theorem State.serveOwed_counterAt : (s.counterAt k).serveOwed = s.serveOwed.counterAt k := by
  simp only [State.serveOwed, foldl_counterAt _ k fun s => s.serveEvict_counterAt k, foldl_counterAt _ k fun s => s.serveSlot_counterAt k _,
    State.serveAnswer_counterAt, State.serveBeacon_counterAt]

/-! ### Slots, lines and indications -/

@[simp] theorem State.startClaim_counterAt (c : Client) (m : Mask) (q : Class) :
    (s.counterAt k).startClaim c m q = (s.startClaim c m q).counterAt k := by
  unfold State.startClaim
  simp only [State.offer_counterAt, State.started_counterAt]
  split <;> simp

@[simp] theorem State.lineClaim_counterAt (n : LineNo) : (s.counterAt k).lineClaim n = (s.lineClaim n).counterAt k :=
  s.startClaim_counterAt k _ _ _

@[simp] theorem State.testLine_counterAt (n : LineNo) : (s.counterAt k).testLine n = (s.testLine n).counterAt k :=
  if_counterAt Iff.rfl (s.lineClaim_counterAt k n) rfl

@[simp] theorem State.testLines_counterAt : (s.counterAt k).testLines = s.testLines.counterAt k :=
  foldl_counterAt s k (fun s a => s.testLine_counterAt k a) eight

@[simp] theorem State.testClient_counterAt (c : Client) : (s.counterAt k).testClient c = (s.testClient c).counterAt k := by
  unfold State.testClient
  split <;> simp

@[simp] theorem State.rearmIfHigh_counterAt (c : Client) : (s.counterAt k).rearmIfHigh c = (s.rearmIfHigh c).counterAt k := by
  unfold State.rearmIfHigh
  split
  · exact if_counterAt Iff.rfl rfl rfl
  · rfl

@[simp] theorem State.endSlot_counterAt (c : Client) (r : EndReason) : (s.counterAt k).endSlot c r = (s.endSlot c r).counterAt k := by
  simp [State.endSlot]

@[simp] theorem State.freeSlot_counterAt (c : Client) : (s.counterAt k).freeSlot c = (s.freeSlot c).counterAt k := by
  simp [State.freeSlot]

@[simp] theorem State.teardownSlot_counterAt (r : Option EndReason) (c : Client) :
    State.teardownSlot r (s.counterAt k) c = (State.teardownSlot r s c).counterAt k := by
  unfold State.teardownSlot
  simp only [State.slot_counterAt]
  split <;> simp

@[simp] theorem State.teardown_counterAt (r : Option EndReason) : (s.counterAt k).teardown r = (s.teardown r).counterAt k :=
  foldl_counterAt s k (fun s a => s.teardownSlot_counterAt k r a) sixteen

@[simp] theorem State.submitWithdraw_counterAt (c : Client) : (s.counterAt k).submitWithdraw c = (s.submitWithdraw c).counterAt k := by
  unfold State.submitWithdraw
  simp only [State.offer_counterAt, State.slot_counterAt]
  split <;> simp

@[simp] theorem State.refuseQueued_counterAt (c : Client) (r : ClaimRefusal) :
    (s.counterAt k).refuseQueued c r = (s.refuseQueued c r).counterAt k := by
  simp [State.refuseQueued]

@[simp] theorem State.indicate_counterAt (c : Client) (i : Indication) (r : Option EndReason) :
    (s.counterAt k).indicate c i r = (s.indicate c i r).counterAt k := by
  unfold State.indicate
  simp only [State.slot_counterAt]
  split <;> simp

@[simp] theorem State.tellOwn_counterAt (b : Bool) (a : Addr) (c : Client) (i : Indication) (r : Option EndReason) :
    (s.counterAt k).tellOwn b a c i r = (s.tellOwn b a c i r).counterAt k :=
  if_counterAt Iff.rfl (s.indicate_counterAt k c i r) rfl

@[simp] theorem State.tellGrants_counterAt (b : Bool) (r : PoolRecord) :
    State.tellGrants b (s.counterAt k) r = (State.tellGrants b s r).counterAt k :=
  s.tellOwn_counterAt k b _ _ _ _

/-! ### The Table Engine -/

@[simp] theorem State.runPass_counterAt (b : Bool) : (s.counterAt k).runPass b = (s.runPass b).counterAt k := by
  simp only [State.runPass, State.pool_counterAt, State.port_counterAt, State.setPool_counterAt,
    foldl_counterAt _ k fun s => s.tellGrants_counterAt k b, State.freeze_counterAt, ite_counterAt]

theorem State.withPool_counterAt {f : State → State} (h : f (s.counterAt k) = (f s).counterAt k) :
    (s.counterAt k).withPool f = (s.withPool f).counterAt k := by
  simp [State.withPool, h]

@[simp] theorem State.admitClaim_counterAt (b : Bool) (a : Addr) (c : Client) (q : Class) (m : Mask) :
    State.admitClaim b a c q m (s.counterAt k) = (State.admitClaim b a c q m s).counterAt k := by
  unfold State.admitClaim
  simp only [State.pool_counterAt]
  split <;> simp

@[simp] theorem State.takeClaim_counterAt (b : Bool) (a : Addr) (c : Client) (q : Class) (m : Mask) :
    (s.counterAt k).takeClaim b a c q m = (s.takeClaim b a c q m).counterAt k :=
  s.withPool_counterAt k (by simp)

@[simp] theorem State.dropRecord_counterAt (b : Bool) (a : Addr) (c : Client) (i : Option Standing → Indication) :
    State.dropRecord b a c i (s.counterAt k) = (State.dropRecord b a c i s).counterAt k := by
  unfold State.dropRecord
  simp only [State.pool_counterAt]
  split <;> simp

@[simp] theorem State.takeWithdraw_counterAt (b : Bool) (a : Addr) (c : Client) :
    (s.counterAt k).takeWithdraw b a c = (s.takeWithdraw b a c).counterAt k :=
  s.withPool_counterAt k (by simp)

@[simp] theorem State.takeRelease_counterAt (b : Bool) (a : Addr) (c : Client) (r : Fin 16) :
    (s.counterAt k).takeRelease b a c r = (s.takeRelease b a c r).counterAt k :=
  s.withPool_counterAt k (by simp)

@[simp] theorem State.tellRemoved_counterAt (b : Bool) (x : RemovalCause) (e : Option EndReason) (r : PoolRecord) :
    State.tellRemoved b x e (s.counterAt k) r = (State.tellRemoved b x e s r).counterAt k :=
  s.tellOwn_counterAt k b _ _ _ _

@[simp] theorem State.dropStations_counterAt (b : Bool) (x : RemovalCause) (e : Option EndReason) (l : List Addr) :
    State.dropStations b x e l (s.counterAt k) = (State.dropStations b x e l s).counterAt k := by
  simp [State.dropStations, foldl_counterAt _ k fun s => s.tellRemoved_counterAt k b x e]

@[simp] theorem State.removeRecords_counterAt (b : Bool) (x : RemovalCause) (e : Option EndReason) (l : List Addr) :
    (s.counterAt k).removeRecords b x e l = (s.removeRecords b x e l).counterAt k := by
  simp [State.removeRecords, s.withPool_counterAt k (s.dropStations_counterAt k b x e l)]

@[simp] theorem State.poolEffect_counterAt (b : Bool) (n : Notice) (e : Option EndReason) (l : List Addr) :
    (s.counterAt k).poolEffect b n e l = (s.poolEffect b n e l).counterAt k := by
  unfold State.poolEffect
  split <;> simp

/-! ### The Session Controller -/

@[simp] theorem State.setTag_counterAt (x : Word) : (s.counterAt k).setTag x = (s.setTag x).counterAt k := rfl
@[simp] theorem State.seek_counterAt (c : Cause) : (s.counterAt k).seek c = (s.seek c).counterAt k := by
  simp [State.seek]

@[simp] theorem State.goOffline_counterAt (c : Cause) : (s.counterAt k).goOffline c = (s.goOffline c).counterAt k := by
  simp [State.goOffline]

@[simp] theorem State.goListening_counterAt (c : Cause) : (s.counterAt k).goListening c = (s.goListening c).counterAt k := by
  simp [State.goListening]

@[simp] theorem State.stopListen_counterAt : (s.counterAt k).stopListen = s.stopListen.counterAt k := rfl
@[simp] theorem State.stopAnswer_counterAt : (s.counterAt k).stopAnswer = s.stopAnswer.counterAt k := rfl
@[simp] theorem State.giveUp_counterAt (c : Cause) : (s.counterAt k).giveUp c = (s.giveUp c).counterAt k := by
  simp [State.giveUp]

@[simp] theorem State.abandon_counterAt : (s.counterAt k).abandon = s.abandon.counterAt k := by
  simp [State.abandon]

@[simp] theorem State.yieldTo_counterAt (x : Word) : (s.counterAt k).yieldTo x = (s.yieldTo x).counterAt k := by
  simp [State.yieldTo]

@[simp] theorem State.ownLeave_counterAt : (s.counterAt k).ownLeave = s.ownLeave.counterAt k := by
  simp [State.ownLeave]

@[simp] theorem State.evicted_counterAt (st : StationState) : (s.counterAt k).evicted st = (s.evicted st).counterAt k := by
  unfold State.evicted
  simp only [State.teardown_counterAt, State.discard_counterAt, State.clearOutbox_counterAt]
  split <;> simp

@[simp] theorem State.found_counterAt (x : Word) : (s.counterAt k).found x = (s.found x).counterAt k := by
  have before : State.change _ .active = State.counterAt (State.change _ .active) k := State.change_counterAt
    (((s.setSession { s.session with members := founderTable s.own, founded := true, tag := x, count := 0#16, leaveDest := none }).setPool
      ⟨[], false⟩).setTimers { s.timers with beacon := some 0, absence := Timers.stopped.absence } |>.setChecker
        { s.checker with suspect := none, resyncPending := false }) k .active
  exact (congrArg State.testLines before).trans (State.testLines_counterAt _ k)

@[simp] theorem State.hearSession_counterAt (x : Word) : (s.counterAt k).hearSession x = (s.hearSession x).counterAt k := by
  simp [State.hearSession]

@[simp] theorem State.refuseFounder_counterAt : (s.counterAt k).refuseFounder = s.refuseFounder.counterAt k := by
  simp [State.refuseFounder]

@[simp] theorem State.hear_counterAt (h : Heard) : (s.counterAt k).hear h = (s.hear h).counterAt k := by
  unfold State.hear
  split <;> simp

@[simp] theorem State.takeFounding_counterAt (h : Heard) : (s.counterAt k).takeFounding h = (s.takeFounding h).counterAt k := by
  simp [State.takeFounding]

@[simp] theorem State.noteHeard_counterAt (b : Bool) : (s.counterAt k).noteHeard b = (s.noteHeard b).counterAt k := by
  simp [State.noteHeard]

@[simp] theorem State.enterLoading_counterAt (a : Addr) (n : Word) : (s.counterAt k).enterLoading a n = (s.enterLoading a n).counterAt k :=
  State.enter_counterAt
    (((((s.setSession { s.session with members := .empty, founded := true, count := n }).setPool ⟨[], false⟩).setJoiner
      ⟨some a, .members, []⟩).setTimers { s.timers with answer := none, snapshot := some 0, beacon := some 0 }).setBus
        { s.bus with voidRun := 0 } |>.setChecker { s.checker with tableCheck := emptyCheck, suspect := none, resyncPending := false })
    k .loading .admitted

@[simp] theorem State.refused_counterAt (r : Fin 16) (b : Bool) : (s.counterAt k).refused r b = (s.refused r b).counterAt k := by
  simp [State.refused]

@[simp] theorem State.takeSeeking_counterAt (h : Heard) : (s.counterAt k).takeSeeking h = (s.takeSeeking h).counterAt k := by
  unfold State.takeSeeking
  simp only [State.session_tag_counterAt, State.own_counterAt]
  split
  · rfl
  · split <;> simp

/-! ### A notice applied to the replica (R125) -/

@[simp] theorem State.countNotice_counterAt (b : Body) : (s.counterAt k).countNotice b = (s.countNotice b).counterAt k := by
  unfold State.countNotice
  split <;> rfl

@[simp] theorem State.noteClash_counterAt (h : Heard) : (s.counterAt k).noteClash h = (s.noteClash h).counterAt k :=
  if_counterAt Iff.rfl rfl rfl

@[simp] theorem State.stepOne_counterAt (h : Heard) : (s.counterAt k).stepOne h = (s.stepOne h).counterAt k := by
  simp [State.stepOne]

@[simp] theorem State.restartAbsence_counterAt (a : Addr) : (s.counterAt k).restartAbsence a = (s.restartAbsence a).counterAt k :=
  if_counterAt Iff.rfl rfl rfl

@[simp] theorem State.memberChanged_counterAt (c : Addr × MemberState) :
    (s.counterAt k).memberChanged c = (s.memberChanged c).counterAt k :=
  rfl

@[simp] theorem State.setMembers_counterAt (t : Table) : (s.counterAt k).setMembers t = (s.setMembers t).counterAt k := rfl
@[simp] theorem State.liveMembers_counterAt (e : TableChange) : (s.counterAt k).liveMembers e = (s.liveMembers e).counterAt k := by
  simp only [State.liveMembers, State.setMembers_counterAt, foldl_counterAt _ k fun s => s.memberChanged_counterAt k]

@[simp] theorem State.pruneAnswers_counterAt : (s.counterAt k).pruneAnswers = s.pruneAnswers.counterAt k := rfl
@[simp] theorem State.clearSuspect_counterAt : (s.counterAt k).clearSuspect = s.clearSuspect.counterAt k := by
  unfold State.clearSuspect
  rw [State.checker_counterAt]
  split
  · exact if_counterAt Iff.rfl rfl rfl
  · rfl

@[simp] theorem State.checkServing_counterAt (h : Heard) : (s.counterAt k).checkServing h = (s.checkServing h).counterAt k := by
  unfold State.checkServing
  split <;> simp

@[simp] theorem State.setAnswer_counterAt (a : Addr) (x : Answer) : (s.counterAt k).setAnswer a x = (s.setAnswer a x).counterAt k := rfl
@[simp] theorem State.listJoin_counterAt (a : Addr) (w : Word) : (s.counterAt k).listJoin a w = (s.listJoin a w).counterAt k := by
  unfold State.listJoin
  rw [State.session_members_counterAt]
  split
  iterate 3 exact if_counterAt Iff.rfl rfl rfl
  rfl

@[simp] theorem State.startServing_counterAt (a : Addr) : (s.counterAt k).startServing a = (s.startServing a).counterAt k := by
  simp [State.startServing]

@[simp] theorem State.ownAdmit_counterAt (a : Addr) (b : Bool) : (s.counterAt k).ownAdmit a b = (s.ownAdmit a b).counterAt k :=
  if_counterAt Iff.rfl (s.startServing_counterAt k a) (if_counterAt Iff.rfl rfl rfl)

@[simp] theorem State.compared_counterAt (a : Addr) (b : Bool) : (s.counterAt k).compared a b = (s.compared a b).counterAt k := by
  unfold State.compared
  simp only [State.checker_counterAt]
  split <;> simp

@[simp] theorem State.takeBeacon_counterAt (h : Heard) (p : Bool) (x n : Word) (b : Bool) :
    (s.counterAt k).takeBeacon h p x n b = (s.takeBeacon h p x n b).counterAt k := by
  unfold State.takeBeacon
  rw [State.session_station_counterAt]
  split
  · exact if_counterAt Iff.rfl (by simp) rfl
  · exact if_counterAt Iff.rfl (s.compared_counterAt k _ _) rfl
  all_goals rfl

@[simp] theorem State.kindEffects_counterAt (h : Heard) (e : TableChange) :
    (s.counterAt k).kindEffects h e = (s.kindEffects h e).counterAt k := by
  unfold State.kindEffects
  split <;> simp

@[simp] theorem State.localEffects_counterAt (h : Heard) (e : TableChange) :
    (s.counterAt k).localEffects h e = (s.localEffects h e).counterAt k := by
  simp [State.localEffects]

@[simp] theorem State.fourSteps_counterAt (h : Heard) (e : TableChange) (x : Option EndReason) :
    (s.counterAt k).fourSteps h e x = (s.fourSteps h e x).counterAt k := by
  simp [State.fourSteps]

@[simp] theorem State.endMembership_counterAt (st : StationState) (x : Ending) :
    (s.counterAt k).endMembership st x = (s.endMembership st x).counterAt k := by
  cases x <;> simp [State.endMembership]

@[simp] theorem State.applyNotice_counterAt (h : Heard) : (s.counterAt k).applyNotice h = (s.applyNotice h).counterAt k := by
  unfold State.applyNotice
  simp only [State.own_counterAt, State.session_members_counterAt, State.session_station_counterAt]
  split <;> simp

@[simp] theorem State.otherTag_counterAt (n : Notice) : (s.counterAt k).otherTag n = (s.otherTag n).counterAt k := by
  simp [State.otherTag]

@[simp] theorem State.takeMember_counterAt (h : Heard) : (s.counterAt k).takeMember h = (s.takeMember h).counterAt k := by
  simp [State.takeMember]

/-! ### Loading (R155 to R160) -/

@[simp] theorem State.buildMembers_counterAt (v : Vector Byte 16) : (s.counterAt k).buildMembers v = (s.buildMembers v).counterAt k := by
  simp [State.buildMembers]

@[simp] theorem State.buildClaim_counterAt (p : Byte) (r : Option PoolRecord) :
    (s.counterAt k).buildClaim p r = (s.buildClaim p r).counterAt k := by
  unfold State.buildClaim
  split
  · exact if_counterAt Iff.rfl rfl rfl
  · rfl

@[simp] theorem State.replay_counterAt (h : Heard) : (s.counterAt k).replay h = (s.replay h).counterAt k := by
  simp [State.replay]

@[simp] theorem State.announce_counterAt : (s.counterAt k).announce = s.announce.counterAt k := by
  simp [State.announce]

@[simp] theorem State.finalPass_counterAt : (s.counterAt k).finalPass = s.finalPass.counterAt k :=
  s.withPool_counterAt k (s.runPass_counterAt k false)

@[simp] theorem State.complete_counterAt : (s.counterAt k).complete = s.complete.counterAt k := by
  simp [State.complete, foldl_counterAt _ k fun s => s.replay_counterAt k]

@[simp] theorem State.endSnapshot_counterAt (x : Word) (n : Byte) : (s.counterAt k).endSnapshot x n = (s.endSnapshot x n).counterAt k := by
  simp [State.endSnapshot]

@[simp] theorem State.buffer_counterAt (h : Heard) : (s.counterAt k).buffer h = (s.buffer h).counterAt k := by
  simp [State.buffer]

@[simp] theorem State.load_counterAt (h : Heard) : (s.counterAt k).load h = (s.load h).counterAt k := by
  have buffered := s.buffer_counterAt k h
  unfold State.load
  split
  · rfl
  · exact if_counterAt Iff.rfl (s.buildMembers_counterAt k _) buffered
  · exact if_counterAt Iff.rfl (s.buildClaim_counterAt k _ _) buffered
  · exact if_counterAt Iff.rfl (s.endSnapshot_counterAt k _ _) buffered
  · exact if_counterAt Iff.rfl (s.giveUp_counterAt k _) buffered
  · exact if_counterAt Iff.rfl (s.giveUp_counterAt k _) (if_counterAt Iff.rfl (s.giveUp_counterAt k _) buffered)
  all_goals exact buffered

@[simp] theorem State.takeLoading_counterAt (h : Heard) : (s.counterAt k).takeLoading h = (s.takeLoading h).counterAt k := by
  simp [State.takeLoading]

@[simp] theorem State.handle_counterAt (h : Heard) : (s.counterAt k).handle h = (s.handle h).counterAt k := by
  unfold State.handle
  simp only [State.session_station_counterAt]
  split <;> simp

@[simp] theorem State.setCount_counterAt (n : Word) : (s.counterAt k).setCount n = (s.setCount n).counterAt k := rfl
/-! ### The event of a delivered notice -/

theorem State.dated_counterAt (n : Notice) {f : State → State} (h : ∀ s, f (s.counterAt k) = (f s).counterAt k) :
    (s.counterAt k).dated n f = (s.dated n f).counterAt k := by
  simp [State.dated, h]

@[simp] theorem State.dropOwedSnap_counterAt : (s.counterAt k).dropOwedSnap = s.dropOwedSnap.counterAt k := by
  unfold State.dropOwedSnap
  simp only [State.sponsor_counterAt]
  split <;> simp

@[simp] theorem State.askBack_counterAt (f : Entry → Bool) : (s.counterAt k).askBack f = (s.askBack f).counterAt k := rfl
@[simp] theorem State.recallEvict_counterAt (n : Notice) : (s.counterAt k).recallEvict n = (s.recallEvict n).counterAt k := by
  unfold State.recallEvict
  split <;> simp

@[simp] theorem State.recallSnaps_counterAt (n : Notice) : (s.counterAt k).recallSnaps n = (s.recallSnaps n).counterAt k := by
  unfold State.recallSnaps
  simp only [State.sponsor_counterAt, State.session_members_counterAt]
  split <;> simp

@[simp] theorem State.recall_counterAt (h : Heard) : (s.counterAt k).recall h = (s.recall h).counterAt k := by
  unfold State.recall
  rw [State.session_station_counterAt]
  split
  · rfl
  · split <;> rfl
  · exact if_counterAt Iff.rfl rfl rfl
  iterate 3 exact if_counterAt Iff.rfl (by simp) rfl
  all_goals rfl

@[simp] theorem State.testEnded_counterAt (c : Option Client) : (s.counterAt k).testEnded c = (s.testEnded c).counterAt k := by
  cases c <;> simp [State.testEnded]

@[simp] theorem State.offerRoom_counterAt (b : Bool) (c : Option Client) :
    (s.counterAt k).offerRoom b c = (s.offerRoom b c).counterAt k := by
  simp [State.offerRoom]

@[simp] theorem State.makeRoom_counterAt (h : Heard) (b : Bool) (c : Option Client) :
    (s.counterAt k).makeRoom h b c = (s.makeRoom h b c).counterAt k := by
  simp only [State.makeRoom, State.recall_counterAt, State.outbox_counterAt]
  exact State.dated_counterAt _ k _ fun u => u.offerRoom_counterAt k _ c

@[simp] theorem State.recheck_counterAt (t : State) : State.recheck (s.counterAt k) (t.counterAt k) = (State.recheck s t).counterAt k := by
  have keeps : (t.counterAt k).keepsCheck (s.counterAt k) = t.keepsCheck s := rfl
  simp [State.recheck, keeps]

@[simp] theorem State.postActive_counterAt (st : StationState) :
    State.postActive st (s.counterAt k) = (State.postActive st s).counterAt k := by
  unfold State.postActive
  simp only [State.session_station_counterAt]
  split <;> simp

@[simp] theorem State.takeNotice_counterAt (h : Heard) (b : Bool) (c : Option Client) :
    (s.counterAt k).takeNotice h b c = (s.takeNotice h b c).counterAt k := by
  simp [State.takeNotice]

@[simp] theorem State.flush_counterAt : (s.counterAt k).flush = s.flush.counterAt k := by
  unfold State.flush
  simp only [State.bus_counterAt]
  split <;> simp

end

end Sys2Proof.Machine
end

