-- ==== Sys2Proof/Proofs/CounterAnswers.lean ====
section
/-! PROOFS. No answer to the host depends on the founding counter (O33, second part). -/

namespace Sys2Proof.Machine

section
variable (s : State) (k : BitVec 12)

/-- A command decides the same status and data. -/
def SameAnswer (d e : Decided) : Prop := e.status = d.status ∧ e.data = d.data

theorem SameAnswer.frame {d e : Decided} (h : SameAnswer d e) :
    ((s.counterAt k).frame e).port.response = (s.frame d).port.response :=
  State.frame_response rfl rfl h.1 h.2

theorem SameAnswer.ite {c c' : Prop} [Decidable c] [Decidable c'] {d d' e e' : Decided} (h : c' ↔ c) (hd : SameAnswer d d')
    (he : SameAnswer e e') : SameAnswer (if c then d else e) (if c' then d' else e') := by
  by_cases hc : c
  · rwa [if_pos hc, if_pos (h.2 hc)]
  · rwa [if_neg hc, if_neg fun x => hc (h.1 x)]

theorem State.accept_sameAnswer (t u : State) : SameAnswer t.accept u.accept := ⟨rfl, rfl⟩

theorem State.deny_sameAnswer (t u : State) (x : Status) : SameAnswer (t.deny x) (u.deny x) := ⟨rfl, rfl⟩

/-! The same status and data whatever the counter. -/

theorem State.loadTests_sameAnswer (o : Byte) (d : List Byte) (l : Nat) (t u : State) :
    SameAnswer (s.loadTests o d l t) ((s.counterAt k).loadTests o d l u) :=
  .ite Iff.rfl ⟨rfl, rfl⟩ (.ite Iff.rfl ⟨rfl, rfl⟩ (.ite Iff.rfl ⟨rfl, rfl⟩ ⟨rfl, rfl⟩))

theorem State.decideReadConfig_sameAnswer (p o n : Byte) :
    SameAnswer (s.decideReadConfig p o n) ((s.counterAt k).decideReadConfig p o n) := by
  unfold State.decideReadConfig
  rw [State.port_counterAt]
  split
  · exact ⟨rfl, rfl⟩
  · exact .ite Iff.rfl ⟨rfl, rfl⟩ ⟨rfl, rfl⟩

theorem State.decideStart_sameAnswer : SameAnswer s.decideStart (s.counterAt k).decideStart := by
  refine .ite Iff.rfl ?_ ⟨rfl, rfl⟩
  rw [State.port_counterAt]
  split <;> exact ⟨rfl, rfl⟩

theorem State.decideStop_sameAnswer : SameAnswer s.decideStop (s.counterAt k).decideStop := by
  unfold State.decideStop
  rw [State.session_station_counterAt]
  split
  iterate 8 exact State.accept_sameAnswer _ _
  all_goals exact State.deny_sameAnswer _ _ _

theorem State.decideClaim_sameAnswer (c : Byte) (m : Mask) (q : Byte) :
    SameAnswer (s.decideClaim c m q) ((s.counterAt k).decideClaim c m q) := by
  refine .ite Iff.rfl ⟨rfl, rfl⟩ ?_
  split
  · exact ⟨rfl, rfl⟩
  · exact .ite Iff.rfl ⟨rfl, rfl⟩ (.ite Iff.rfl ⟨rfl, rfl⟩ ⟨rfl, rfl⟩)

theorem State.decideCancel_sameAnswer (c : Byte) : SameAnswer (s.decideCancel c) ((s.counterAt k).decideCancel c) := by
  unfold State.decideCancel
  split
  · exact ⟨rfl, rfl⟩
  · unfold State.cancelSlot
    rw [State.slot_counterAt]
    split
    iterate 3 exact State.accept_sameAnswer _ _
    all_goals exact State.deny_sameAnswer _ _ _

theorem State.decideRelease_sameAnswer (c : Byte) : SameAnswer (s.decideRelease c) ((s.counterAt k).decideRelease c) := by
  unfold State.decideRelease
  split
  · exact ⟨rfl, rfl⟩
  · unfold State.releaseSlot
    rw [State.slot_counterAt]
    split
    iterate 2 exact State.accept_sameAnswer _ _
    all_goals exact State.deny_sameAnswer _ _ _

theorem State.renewal_sameAnswer (c : Client) : ((s.counterAt k).renewal c).2 = (s.renewal c).2 := by
  simp only [State.renewal, State.slot_counterAt, State.waiterQuery_counterAt]
  split
  iterate 3 rfl
  split <;> rfl

theorem State.decideRenew_sameAnswer (c : Byte) : SameAnswer (s.decideRenew c) ((s.counterAt k).decideRenew c) := by
  unfold State.decideRenew
  split
  · exact ⟨rfl, rfl⟩
  · rename_i c _
    refine .ite Iff.rfl ⟨?_, rfl⟩ ⟨rfl, rfl⟩
    dsimp only
    rw [s.renewal_sameAnswer k c]

theorem State.decideReadEvent_sameAnswer : SameAnswer s.decideReadEvent (s.counterAt k).decideReadEvent := by
  unfold State.decideReadEvent
  rw [State.port_counterAt]
  split <;> exact ⟨rfl, rfl⟩

theorem State.decideReadSlot_sameAnswer (c : Byte) : SameAnswer (s.decideReadSlot c) ((s.counterAt k).decideReadSlot c) := by
  unfold State.decideReadSlot
  split <;> exact ⟨rfl, rfl⟩

theorem State.decideReadMember_sameAnswer (a : Byte) : SameAnswer (s.decideReadMember a) ((s.counterAt k).decideReadMember a) := by
  unfold State.decideReadMember
  split <;> exact ⟨rfl, rfl⟩

theorem State.decideReadResource_sameAnswer (r : Byte) :
    SameAnswer (s.decideReadResource r) ((s.counterAt k).decideReadResource r) := .ite Iff.rfl ⟨rfl, rfl⟩ ⟨rfl, rfl⟩

theorem State.reading_response (t : State) : t.reading.port.response = t.port.response := by
  unfold State.reading
  split <;> rfl

/-- The answer of a frame does not depend on the counter. -/
theorem response_counterAt {c : Instr} (frame : (encodeFrame c).isSome = true) {t u : State} (ht : exec c s = .next t)
    (hu : exec c (s.counterAt k) = .next u) : u.port.response = t.port.response := by
  have after : ∀ {f g : State}, Host.Outcome.next f = (Host.Outcome.next t : Outcome) → Host.Outcome.next g = (Host.Outcome.next u : Outcome) →
      g.port.response = f.port.response → u.port.response = t.port.response := by
    rintro f g ⟨⟩ ⟨⟩ h
    exact h
  have flushed : (s.counterAt k).flush = s.flush.counterAt k := s.flush_counterAt k
  have framed : ∀ {decide : State → Decided}, (∀ v : State, SameAnswer (decide v) (decide (v.counterAt k))) →
      ((s.counterAt k).frame (decide (s.counterAt k).flush)).port.response = (s.frame (decide s.flush)).port.response := fun h => by
    rw [flushed]
    exact (h s.flush).frame s k
  cases c with
  | loadProfile o d => exact after ht hu (framed (decide := fun v => v.decideLoadProfile o d) fun v => v.loadTests_sameAnswer k _ _ _ _ _)
  | loadLocal o d => exact after ht hu (framed (decide := fun v => v.decideLoadLocal o d) fun v => v.loadTests_sameAnswer k _ _ _ _ _)
  | readConfig p o n => exact after ht hu ((s.decideReadConfig_sameAnswer k p o n).frame s k)
  | start => exact after ht hu (framed fun v => v.decideStart_sameAnswer k)
  | stop => exact after ht hu (framed fun v => v.decideStop_sameAnswer k)
  | resync => exact after ht hu (framed (decide := State.decideResync) fun v => .ite Iff.rfl ⟨rfl, rfl⟩ ⟨rfl, rfl⟩)
  | clearFault => exact after ht hu (framed (decide := State.decideClearFault) fun v => .ite Iff.rfl ⟨rfl, rfl⟩ ⟨rfl, rfl⟩)
  | claim c m q => exact after ht hu (framed fun v => v.decideClaim_sameAnswer k c m q)
  | cancel c => exact after ht hu (framed fun v => v.decideCancel_sameAnswer k c)
  | release c => exact after ht hu (framed fun v => v.decideRelease_sameAnswer k c)
  | renew c => exact after ht hu (framed fun v => v.decideRenew_sameAnswer k c)
  | readEvent =>
    refine after ht hu ?_
    rw [State.reading_response, State.reading_response]
    exact framed fun v => v.decideReadEvent_sameAnswer k
  | readStatus => exact after ht hu (framed (decide := State.decideReadStatus) fun v => ⟨rfl, rfl⟩)
  | readSlot c => exact after ht hu (framed fun v => v.decideReadSlot_sameAnswer k c)
  | readResource r => exact after ht hu (framed fun v => v.decideReadResource_sameAnswer k r)
  | readMember a => exact after ht hu (framed fun v => v.decideReadMember_sameAnswer k a)
  | badFrame i ps =>
    refine after ht hu ?_
    unfold State.badFrame
    split
    · rfl
    · exact SameAnswer.frame (d := s.deny .badFrame) s k ⟨rfl, rfl⟩
  | _ => cases frame

end

end Sys2Proof.Machine
end

