-- ==== Sys2Proof/Proofs/FoundingEntered.lean ====
section
/-! PROOFS. A LISTENING station comes to FOUNDING only by the end of its listen window (O33, third part). -/

namespace Sys2Proof.Machine

/-! ### No way to FOUNDING but the end of the listen window (R128) -/

/-- A station in no session that does not found one. -/
def Waits (s : State) : Prop := s.session.station.inSession = false ∧ s.session.station ≠ .founding

/-- A station that is not FOUNDING does not come to it. -/
def Unfounding (s t : State) : Prop := s.session.station ≠ .founding → t.session.station ≠ .founding

theorem Unfounding.refl (s : State) : Unfounding s s := id

theorem Unfounding.trans {s t u : State} (h : Unfounding s t) (k : Unfounding t u) : Unfounding s u := fun hs => k (h hs)

theorem Unfounding.to {s t : State} {st : StationState} (h : t.session.station = st) (other : st ≠ .founding := by nofun) :
    Unfounding s t := fun _ => h ▸ other

theorem SessionKept.unfounding {s t : State} (k : SessionKept s t) : Unfounding s t := by
  rcases k with ⟨e, -⟩ | ⟨-, e⟩
  · exact fun h => e ▸ h
  · exact .to (congrArg Session.station e)

theorem Kept.unfounding {s t : State} (k : Kept s t) : Unfounding s t := k.session.unfounding

/-- Outside a session nothing queues a LEAVE. -/
theorem SessionKept.outside {s t : State} (k : SessionKept s t) (h : s.session.station.inSession = false) : t.session = s.session := by
  rcases k with ⟨e, -⟩ | ⟨resyncs, -⟩
  · exact e
  · rcases resyncs with e | e | e <;> rw [e] at h <;> cases h

theorem Waits.kept {s t : State} (h : Waits s) (k : SessionKept s t) : Waits t := by
  rwa [Waits, k.outside h.1]

section
variable {s : State}

theorem State.seek_station (c : Cause) : (s.seek c).session.station = .seeking := by
  rw [State.seek_eq]
  exact congrArg Session.station (State.enter_session s .seeking c)

theorem State.goOffline_station (c : Cause) : (s.goOffline c).session.station = .offline := by
  rw [State.goOffline, State.enter_session]

theorem State.goListening_station (c : Cause) : (s.goListening c).session.station = .listening := by
  rw [State.goListening, State.enter_session]

theorem State.queueLeave_station (r : LeaveReason) : (s.queueLeave r).session.station = .leaving := by
  rw [State.queueLeave_session]

/-- A session heard, or a founder refused. -/
theorem State.hear_station (h : Heard) : (s.hear h).session.station = .seeking ∨ (s.hear h).session.station = .offline := by
  unfold State.hear
  split
  · split
    · exact .inr (State.goOffline_station _)
    · exact .inl (State.seek_station _)
  all_goals exact .inl (State.seek_station _)

theorem State.takeSeeking_unfounding (h : Heard) : Unfounding s (s.takeSeeking h) := by
  have noted : ∀ o, Unfounding s (s.noteHeard o) := fun o => by
    unfold State.noteHeard
    split <;> exact .refl s
  unfold State.takeSeeking
  split
  · exact .refl s
  · split
    · exact .refl s
    · split
      · exact .refl s
      · exact noted _
    · split
      · exact .to (by rw [State.enterLoading, State.enter_session])
      · exact noted _
    · split
      · unfold State.refused
        split
        · exact .to (by rw [State.enter_session])
        · split
          · exact .to (State.goOffline_station _)
          · split
            · exact .to (State.goOffline_station _)
            · exact noted _
      · exact noted _
    all_goals exact noted _

/-- A notice handled outside a session and outside FOUNDING. -/
theorem Waits.handle (hs : Waits s) (h : Heard) : Unfounding s (s.handle h) := by
  obtain ⟨outside, other⟩ := hs
  unfold State.handle
  split
  iterate 3 exact .refl s
  · exact (s.hear_station h).elim .to .to
  · exact fun _ => absurd ‹_› other
  · exact s.takeSeeking_unfounding h
  all_goals
    rename_i e
    rw [e] at outside
    cases outside

/-- The work around the handling of a notice. -/
theorem State.takeNotice_around (h : Heard) (r : Bool) (c : Option Client) :
    ∃ m, SessionKept s m ∧ SessionKept (m.handle h) (s.takeNotice h r c) :=
  ⟨s.makeRoom h r c, (s.makeRoom_kept h r c).session,
    (((State.recheck_kept _ s).trans (State.makeAnswers_kept _)).trans (State.postActive_kept _ _)).session⟩

theorem Waits.takeNotice (hs : Waits s) (h : Heard) (r : Bool) (c : Option Client) : Unfounding s (s.takeNotice h r c) := by
  obtain ⟨m, room, after⟩ := s.takeNotice_around h r c
  exact (room.unfounding.trans ((hs.kept room).handle h)).trans after.unfounding

/-- A notice ends the listening. -/
theorem State.takeNotice_listening (hs : s.session.station = .listening) (h : Heard) (r : Bool) (c : Option Client) :
    (s.takeNotice h r c).session.station = .seeking ∨ (s.takeNotice h r c).session.station = .offline := by
  obtain ⟨m, room, after⟩ := s.takeNotice_around h r c
  have listening : m.session.station = .listening := by
    rw [room.outside (by rw [hs]; rfl)]
    exact hs
  have hears : m.handle h = m.hear h := by rw [State.handle, listening]
  have heard := m.hear_station h
  rw [hears] at after
  rw [after.outside (by rcases heard with e | e <;> rw [e] <;> rfl)]
  exact heard

/-- A LISTENING station goes on listening while nothing is delivered to it, and stops else. -/
theorem State.flush_listening (hs : s.session.station = .listening) :
    (s.bus.delivered = none ∧ s.flush = s) ∨ s.flush.session.station = .seeking ∨ s.flush.session.station = .offline := by
  cases hd : s.bus.delivered with
  | none => exact .inl ⟨rfl, State.flush_none hd⟩
  | some h =>
    have e : s.flush = s.taking.takeNotice h false none := by rw [State.flush, hd]; rfl
    rw [e]
    exact .inr (State.takeNotice_listening (s := s.taking) hs h false none)

theorem State.flush_waits (hs : s.session.station = .listening) : Waits s.flush := by
  rcases State.flush_listening hs with ⟨-, e⟩ | e | e
  · rw [e, Waits, hs]; exact ⟨rfl, nofun⟩
  · rw [Waits, e]; exact ⟨rfl, nofun⟩
  · rw [Waits, e]; exact ⟨rfl, nofun⟩

/-! ### The parts of the commands -/

theorem State.settle_unfounding (taken : Bool) : Unfounding s (s.settle taken).state := (s.settle_sessionKept taken).unfounding

theorem State.endUntaken_unfounding : Unfounding s s.endUntaken := s.settleKept_sessionKept.unfounding

theorem State.enterFaulted_unfounding (c : Cause) : Unfounding s (s.enterFaulted c) :=
  .to (by rw [State.enterFaulted_eq])

theorem State.endVoided_unfounding (c : Bool) (f : Option ReceptionFault) : Unfounding s (s.endVoided c f) := by
  have voided : Unfounding s (s.voidRound c f).state := by
    unfold State.voidRound
    dsimp only
    split
    · exact s.countVoid.settle_unfounding false
    · exact s.settle_unfounding false
  unfold State.endVoided
  dsimp only
  split
  · exact voided.trans (State.enterFaulted_unfounding _)
  · split
    · exact voided.trans (State.enterFaulted_unfounding _)
    · exact voided.trans (Settled.close_kept _ s).unfounding

theorem Waits.endTaken (hs : Waits s) (h : Heard) (e : Timing) : Unfounding s (s.endTaken h e) := by
  obtain ⟨session, -⟩ := s.takeRound_same h
  have round : Unfounding s (s.takeRound h).state := fun hs => session ▸ hs
  have waits : Waits (s.takeRound h).state := by rwa [Waits, session]
  unfold State.endTaken Settled.deliver
  split
  · split
    · exact round.trans (waits.takeNotice _ _ _)
    · exact round.trans fun hs => (State.offerRoom_kept (State.setCount _ _) _ _).unfounding hs
  · exact round.trans (State.offerRoom_kept _ _ _).unfounding

theorem State.expire_unfounding {runs : State → Bool} {act : State → State} (flushed : Unfounding s s.flush)
    (h : ∀ t, Unfounding t (act t)) : Unfounding s (s.expire runs act) := by
  unfold State.expire
  split
  · split
    · exact flushed.trans (h _)
    · exact flushed
  · exact .refl s

theorem State.frame_unfounding {d : Decided} (h : Unfounding s d.state) : Unfounding s (s.frame d) := by
  unfold State.frame
  split
  · exact .refl s
  · exact h

theorem State.loadTests_unfounding (o : Byte) (d : List Byte) (k : Nat) (x : Port) :
    Unfounding s (s.loadTests o d k (s.setPort x)).state := by
  unfold State.loadTests
  split_ifs
  all_goals exact .refl s

theorem State.decideLoadProfile_unfounding (o : Byte) (d : List Byte) : Unfounding s (s.decideLoadProfile o d).state :=
  s.loadTests_unfounding o d _ _

theorem State.decideLoadLocal_unfounding (o : Byte) (d : List Byte) : Unfounding s (s.decideLoadLocal o d).state :=
  s.loadTests_unfounding o d _ _

theorem State.decideStart_unfounding : Unfounding s s.decideStart.state := by
  unfold State.decideStart
  split
  · split
    · exact .to (st := .listening) (by rw [State.accept, State.startUp, State.enter_session])
    · exact .refl s
  · exact .refl s

theorem State.decideStop_unfounding : Unfounding s s.decideStop.state := by
  unfold State.decideStop
  split
  iterate 4 exact .to (State.goOffline_station _)
  iterate 3 exact .to (State.queueLeave_station _)
  all_goals exact .refl s

theorem State.decideResync_unfounding : Unfounding s s.decideResync.state := by
  unfold State.decideResync
  split
  · exact .to (State.queueLeave_station _)
  · exact .refl s

theorem State.decideClearFault_unfounding : Unfounding s s.decideClearFault.state := by
  unfold State.decideClearFault
  split
  · exact .to (st := .offline) (by rw [State.accept, State.enter_session])
  · exact .refl s

theorem State.decideClaim_unfounding (c : Byte) (m : Mask) (k : Byte) : Unfounding s (s.decideClaim c m k).state := by
  unfold State.decideClaim
  split
  · exact .refl s
  · split
    · exact .refl s
    · split_ifs
      iterate 2 exact .refl s
      exact (s.startClaim_kept _ _ _).unfounding

theorem State.decideCancel_unfounding (c : Byte) : Unfounding s (s.decideCancel c).state := by
  unfold State.decideCancel
  split
  · exact .refl s
  · unfold State.cancelSlot
    split
    iterate 3 exact (s.withdrawSlot_kept _).unfounding
    all_goals exact .refl s

theorem State.decideRelease_unfounding (c : Byte) : Unfounding s (s.decideRelease c).state := by
  unfold State.decideRelease
  split
  · exact .refl s
  · unfold State.releaseSlot
    split
    iterate 2 exact (s.submitRelease_kept _ _).unfounding
    all_goals exact .refl s

theorem State.decideRenew_unfounding (c : Byte) : Unfounding s (s.decideRenew c).state := by
  unfold State.decideRenew
  split
  · exact .refl s
  · unfold State.renewSlot
    split
    · exact (s.renewal_kept _).unfounding
    · exact .refl s

theorem State.decideReadResource_unfounding (r : Byte) : Unfounding s (s.decideReadResource r).state := by
  unfold State.decideReadResource
  split
  · dsimp only
    split
    · exact s.freeze_kept.unfounding
    · exact .refl s
  · exact .refl s

theorem State.decideReadMember_unfounding (a : Byte) : Unfounding s (s.decideReadMember a).state := by
  unfold State.decideReadMember
  split
  · exact .refl s
  · exact (s.readMembers_kept _).unfounding

theorem State.endSeeking_unfounding : Unfounding s s.endSeeking := by
  unfold State.endSeeking
  split
  · exact (State.submit_kept s.stopAnswer _).unfounding
  · exact .to (State.goListening_station _)

theorem State.endRetry_unfounding (n : LineNo) : Unfounding s (s.endRetry n) := by
  unfold State.endRetry
  split
  · exact ((s.freeSlot_kept _).trans (State.startClaim_kept _ _ _ _)).unfounding
  · exact ((s.freeSlot_kept _).trans (State.testClient_kept _ _)).unfounding

/-! ### Every command -/

variable (hs : s.session.station = .listening)
include hs

theorem State.roundTaken_unfounding (h : Hearing) (e : Timing) : Unfounding s (s.roundTaken h e) := by
  have flushed : Unfounding s s.flush := fun _ => (State.flush_waits hs).2
  have ended : ∀ x, Unfounding s (s.flush.endTaken x e) := fun x => flushed.trans ((State.flush_waits hs).endTaken x e)
  unfold State.roundTaken
  split
  · exact .refl s
  · split
    · split
      · unfold State.takeOwn
        split
        · exact flushed
        · exact ended _
      · exact .refl s
    · split
      · exact .refl s
      · unfold State.takeOther
        split
        · exact ended _
        · split
          · exact flushed
          · exact flushed.trans State.endUntaken_unfounding

theorem State.edge_unfounding (n : LineNo) (e : Edge) (h : Timing) (l : State → Line) :
    Unfounding s (((s.meet h).setLine n (l (s.meet h))).edge n e h) := by
  have met : Unfounding s (s.meet h) := by
    rcases s.meet_cases h with e | e
    · rw [e]; exact .refl s
    · rw [e]; exact fun _ => (State.flush_waits hs).2
  exact met.trans ((State.setLine_sessionKept _ n _).trans (State.edge_sessionKept _ n e h)).unfounding

/-- A LISTENING station comes to FOUNDING only by the end of its listen window. -/
theorem exec_unfounding {c : Instr} {t : State} (hc : c ≠ .listenWindowExpiry) (ht : exec c s = .next t) :
    t.session.station ≠ .founding := by
  have here : s.session.station ≠ .founding := by rw [hs]; nofun
  have flushed : Unfounding s s.flush := fun _ => (State.flush_waits hs).2
  have ends : ∀ {u : State}, Unfounding s u → (Host.Outcome.next u : Outcome) = .next t → t.session.station ≠ .founding := by
    rintro u h ⟨⟩
    exact h here
  have framed : ∀ {d : Decided}, Unfounding s.flush d.state → Unfounding s (s.frame d) := fun h => State.frame_unfounding (flushed.trans h)
  cases c with
  | loadProfile o d => exact ends (framed (State.decideLoadProfile_unfounding o d)) ht
  | loadLocal o d => exact ends (framed (State.decideLoadLocal_unfounding o d)) ht
  | readConfig p o n =>
    exact ends (State.frame_unfounding (d := s.decideReadConfig p o n) (by rw [State.decideReadConfig_state]; exact .refl s)) ht
  | start => exact ends (framed State.decideStart_unfounding) ht
  | stop => exact ends (framed State.decideStop_unfounding) ht
  | resync => exact ends (framed State.decideResync_unfounding) ht
  | clearFault => exact ends (framed State.decideClearFault_unfounding) ht
  | claim c m k => exact ends (framed (State.decideClaim_unfounding c m k)) ht
  | cancel c => exact ends (framed (State.decideCancel_unfounding c)) ht
  | release c => exact ends (framed (State.decideRelease_unfounding c)) ht
  | renew c => exact ends (framed (State.decideRenew_unfounding c)) ht
  | readEvent =>
    refine ends (Unfounding.trans (framed (d := s.flush.decideReadEvent) ?_) ?_) ht
    · rw [State.decideReadEvent_state]; exact .refl _
    · unfold State.reading
      split <;> exact .refl _
  | readStatus => exact ends (framed (d := s.flush.decideReadStatus) (.refl s.flush)) ht
  | readSlot c =>
    exact ends (framed (d := s.flush.decideReadSlot c) (by rw [State.decideReadSlot_state]; exact .refl _)) ht
  | readResource r => exact ends (framed (State.decideReadResource_unfounding r)) ht
  | readMember a => exact ends (framed (State.decideReadMember_unfounding a)) ht
  | badFrame i ps =>
    refine ends (u := s.badFrame i ps) ?_ ht
    unfold State.badFrame
    split
    · exact .refl s
    · exact State.frame_unfounding (d := s.deny .badFrame) (.refl s)
  | frameAborted bs =>
    refine ends (u := s.frameAborted bs) ?_ ht
    unfold State.frameAborted
    split <;> exact .refl s
  | eventRemoval =>
    refine ends (u := s.eventRemoval) ?_ ht
    unfold State.eventRemoval
    split <;> exact .refl s
  | hardwareReset => exact ends (.to (t := s.hardwareReset) (st := .offline) rfl) ht
  | resetRelease a f =>
    refine ends (u := s.resetRelease a f) ?_ ht
    unfold State.resetRelease
    split <;> exact .refl s
  | reqRise n h =>
    refine ends (u := s.reqRise n h) ?_ ht
    unfold State.reqRise
    split_ifs
    · exact .refl s
    · exact State.edge_unfounding hs n .rise h fun t => { t.line n with req := true }
    · exact (s.setLine_sessionKept n _).unfounding
  | reqFall n h =>
    refine ends (u := s.reqFall n h) ?_ ht
    unfold State.reqFall
    split_ifs
    · exact .refl s
    · exact State.edge_unfounding hs n .fall h fun t => { t.line n with req := false, rearm := false }
    · exact (s.setLine_sessionKept n _).unfounding
  | roundStart =>
    refine ends (u := s.roundStart) ?_ ht
    unfold State.roundStart
    split
    · exact .refl s
    · split
      · exact .refl s
      · split <;> exact .refl s
  | roundTaken h e => exact ends (State.roundTaken_unfounding hs h e) ht
  | roundVoided w f =>
    refine ends (u := s.roundVoided w f) ?_ ht
    unfold State.roundVoided
    split
    · exact .refl s
    · split
      · exact .refl s
      · exact flushed.trans (State.endVoided_unfounding w f)
  | roundMissed f =>
    refine ends (u := s.roundMissed) ?_ ht
    unfold State.roundMissed
    split
    · exact .refl s
    · split
      · exact .refl s
      · exact flushed.trans State.endUntaken_unfounding
  | busStuck =>
    refine ends (u := s.busStuck) ?_ ht
    unfold State.busStuck
    split
    · exact .refl s
    · exact fun h => State.endUntaken_unfounding
        (s := (s.flush.setBus { s.flush.bus with stuck := true }).post .busStuck s.flush.own) (flushed h)
  | busRecovered =>
    refine ends (u := s.busRecovered) ?_ ht
    unfold State.busRecovered
    split <;> exact .refl s
  | listenWindowExpiry => exact absurd rfl hc
  | answerLimitExpiry => exact ends (State.expire_unfounding flushed fun u => u.endSeeking_unfounding) ht
  | backoffEnd => exact ends (State.expire_unfounding flushed fun u => .to (State.seek_station _)) ht
  | snapshotLimitExpiry => exact ends (State.expire_unfounding flushed fun u => .to (State.queueLeave_station _)) ht
  | beaconTimerExpiry =>
    refine ends (u := s.beaconTimerExpiry) ?_ ht
    unfold State.beaconTimerExpiry
    split
    · exact ((s.setTimers_kept _).trans (State.submitBeacon_kept _)).unfounding
    · exact .refl s
  | absenceTimerExpiry m =>
    refine ends (u := s.absenceTimerExpiry m) ?_ ht
    unfold State.absenceTimerExpiry
    split
    · exact ((s.setTimers_kept _).trans (State.submitEvict_kept _ m)).unfounding
    · exact .refl s
  | leaseExpiry c =>
    exact ends (State.expire_unfounding flushed fun u => ((u.setSlot_kept c _).trans (State.leaseExpired_kept _ c)).unfounding) ht
  | yieldExpiry c =>
    exact ends (State.expire_unfounding flushed fun u => ((u.setSlot_kept c _).trans (State.submitRelease_kept _ c _)).unfounding) ht
  | retryExpiry n => exact ends (State.expire_unfounding flushed fun u => u.endRetry_unfounding n) ht
  | owedNoticePlaced => exact ends (flushed.trans (State.roomEvent_kept _).unfounding) ht
  | edgeHandedOn n =>
    refine ends (u := s.edgeHandedOn n) ?_ ht
    unfold State.edgeHandedOn
    split
    · exact .refl s
    · exact flushed.trans ((State.setLine_sessionKept _ n _).trans (State.handEdge_kept _ n _).session).unfounding
  | noticeEffectsMade => exact ends flushed ht

end

end Sys2Proof.Machine
end

