-- ==== Sys2Proof/Proofs/FoundingCounter.lean ====
section
/-! PROOFS. The founding counter and the rotation pointer, command by command (O33). -/

namespace Sys2Proof.Machine

section
variable {s : State}

/-! ### The end of the listen window (R124, R128) -/

/-- The listen window ends in silence: a founding attempt. -/
theorem State.endListening_founds (hs : s.session.station = .listening) :
    s.endListening.session.station = .founding ∧ s.endListening.session.counter = nextCounter s.session.counter ∧
      s.endListening.session.tag = foundingTag (nextCounter s.session.counter) s.own ∧ s.endListening.bus.pointer = 0 := by
  rw [State.endListening_eq hs, State.enter_eq]
  exact ⟨rfl, rfl, rfl, rfl⟩

/-- Its expiry ends a listen window that runs with nothing delivered, and is the making of a delivered notice's effects at most else. -/
theorem State.listenWindowExpiry_cases (s : State) :
    ((s.timers.listen ≠ none ∧ s.session.station = .listening ∧ s.bus.stuck = false) ∧ s.listenWindowExpiry = s.endListening) ∨
      (Moves s s.listenWindowExpiry ∧ (s.session.station = .listening → s.listenWindowExpiry.session.station ≠ .founding) ∧
        ¬ (s.listenRuns = true ∧ s.bus.delivered = none)) := by
  unfold State.listenWindowExpiry State.expire
  split
  · rename_i runs
    obtain ⟨timer, listening, free⟩ := State.listenRuns_iff.1 runs
    rcases State.flush_listening listening with ⟨-, e⟩ | stopped
    · rw [e, if_pos runs]
      exact .inl ⟨⟨timer, listening, free⟩, rfl⟩
    · have quits : ¬ s.flush.listenRuns = true := fun e => by
        rw [(State.listenRuns_iff.1 e).2.1] at stopped
        rcases stopped with e | e <;> cases e
      rw [if_neg quits]
      refine .inr ⟨s.flush_moves, fun _ => (State.flush_waits listening).2, fun silent => ?_⟩
      rw [State.flush_none silent.2] at quits
      exact quits runs
  · exact .inr ⟨.refl, fun e => by rw [e]; nofun, fun e => absurd e.1 ‹_›⟩

/-! ### The end of a taken round (R90, R96) -/

/-- The counter stays and the pointer goes to the sender's address plus one. -/
theorem State.endTaken_turn (h : Heard) (e : Timing) :
    (s.endTaken h e).session.counter = s.session.counter ∧ (s.endTaken h e).bus.pointer = h.notice.sender + 1 := by
  obtain ⟨-, -, -, pointer, counter⟩ := (Settled.deliver_moves (s.takeRound h) h e).kept
  obtain ⟨session, -⟩ := s.takeRound_same h
  exact ⟨counter.trans (by rw [session]), pointer.trans (by rw [s.takeRound_bus])⟩

/-- Where a taken round leaves the rotation pointer. -/
def State.TurnsTo (s : State) (h : Hearing) (p : Addr) : Prop :=
  p = s.bus.pointer ∨ (h = .own ∧ p = s.own + 1) ∨ ∃ w bs n, h = .other w bs ∧ receive w bs = .notice n ∧ p = n.sender + 1

theorem State.roundTaken_turn (h : Hearing) (e : Timing) :
    (s.roundTaken h e).session.counter = s.session.counter ∧ s.TurnsTo h (s.roundTaken h e).bus.pointer := by
  obtain ⟨-, -, straps, pointer, counter⟩ := s.flush_moves.kept
  unfold State.roundTaken
  split
  · exact ⟨rfl, .inl rfl⟩
  · split
    · split
      · unfold State.takeOwn
        split
        · exact ⟨counter, .inl pointer⟩
        · rename_i x _
          obtain ⟨kept, turned⟩ := s.flush.endTaken_turn ⟨s.flush.filled x, true⟩ e
          refine ⟨kept.trans counter, .inr (.inl ⟨rfl, turned.trans ?_⟩)⟩
          rw [State.filled_sender, State.own, straps, ← State.own]
      · exact ⟨rfl, .inl rfl⟩
    · split
      · exact ⟨rfl, .inl rfl⟩
      · rename_i w bs _
        unfold State.takeOther
        split
        · rename_i n received
          obtain ⟨kept, turned⟩ := s.flush.endTaken_turn ⟨n, false⟩ e
          exact ⟨kept.trans counter, .inr (.inr ⟨w, bs, n, rfl, received, turned⟩)⟩
        · split
          · exact ⟨counter, .inl pointer⟩
          · obtain ⟨-, -, -, turned, kept⟩ := s.flush.endUntaken_moves.kept
            exact ⟨kept.trans counter, .inl (turned.trans pointer)⟩

/-! ### Every command -/

theorem State.resetRelease_kept (a : Addr) (f : Bool) :
    (s.resetRelease a f).session.counter = s.session.counter ∧ (s.resetRelease a f).bus.pointer = s.bus.pointer := by
  unfold State.resetRelease
  split <;> exact ⟨rfl, rfl⟩

theorem Outcome.next_inj {t u : State} (h : (Host.Outcome.next t : Outcome) = .next u) : t = u := by cases h; rfl

variable {c : Instr} {t : State}

/-- Away from reset and the end of the listen window, counter and pointer stay, but for the pointer at the end of a taken round. -/
theorem exec_counter_pointer (reset : c ≠ .hardwareReset) (listen : c ≠ .listenWindowExpiry) (ht : exec c s = .next t) :
    t.session.counter = s.session.counter ∧
      (t.bus.pointer = s.bus.pointer ∨ ∃ h e, c = .roundTaken h e ∧ s.TurnsTo h t.bus.pointer) := by
  by_cases release : ∃ a f, c = .resetRelease a f
  · obtain ⟨a, f, rfl⟩ := release
    obtain rfl : s.resetRelease a f = t := Outcome.next_inj ht
    obtain ⟨counter, pointer⟩ := s.resetRelease_kept a f
    exact ⟨counter, .inl pointer⟩
  · by_cases round : ∃ h e, c = .roundTaken h e
    · obtain ⟨h, e, rfl⟩ := round
      obtain rfl : s.roundTaken h e = t := Outcome.next_inj ht
      obtain ⟨counter, turned⟩ := s.roundTaken_turn h e
      exact ⟨counter, .inr ⟨h, e, rfl, turned⟩⟩
    · obtain ⟨u, hu, moves⟩ := exec_moves s c reset (fun a f e => release ⟨a, f, e⟩) (fun h e x => round ⟨h, e, x⟩) listen
      obtain rfl : u = t := Outcome.next_inj (hu.symm.trans ht)
      obtain ⟨-, -, -, pointer, counter⟩ := moves.kept
      exact ⟨counter, .inl pointer⟩

/-- A command founds, from a LISTENING station whose listen window ends in silence, or keeps the counter and comes from LISTENING to
no FOUNDING. -/
theorem exec_founds_or_keeps (reset : c ≠ .hardwareReset) (ht : exec c s = .next t) :
    (c = .listenWindowExpiry ∧ (s.timers.listen ≠ none ∧ s.session.station = .listening ∧ s.bus.stuck = false) ∧ t = s.endListening) ∨
      (t.session.counter = s.session.counter ∧ (s.session.station = .listening → t.session.station ≠ .founding) ∧
        ¬ (c = .listenWindowExpiry ∧ s.listenRuns = true ∧ s.bus.delivered = none)) := by
  by_cases listen : c = .listenWindowExpiry
  · subst listen
    obtain rfl : s.listenWindowExpiry = t := Outcome.next_inj ht
    rcases s.listenWindowExpiry_cases with ⟨runs, e⟩ | ⟨moves, other, silent⟩
    · exact .inl ⟨rfl, runs, e⟩
    · obtain ⟨-, -, -, -, counter⟩ := moves.kept
      exact .inr ⟨counter, other, fun e => silent e.2⟩
  · exact .inr ⟨(exec_counter_pointer reset listen ht).1, fun hs => exec_unfounding hs listen ht, fun e => listen e.1⟩

theorem exec_pointer (ht : exec c s = .next t) :
    t.bus.pointer = s.bus.pointer ∨ (c = .hardwareReset ∧ t.bus.pointer = 0) ∨
      (c = .listenWindowExpiry ∧ s.session.station = .listening ∧ t.session.station = .founding ∧ t.bus.pointer = 0) ∨
      (∃ e, c = .roundTaken .own e ∧ t.bus.pointer = s.own + 1) ∨
      ∃ w bs n e, c = .roundTaken (.other w bs) e ∧ receive w bs = .notice n ∧ t.bus.pointer = n.sender + 1 := by
  by_cases reset : c = .hardwareReset
  · subst reset
    obtain rfl : s.hardwareReset = t := Outcome.next_inj ht
    exact .inr (.inl ⟨rfl, rfl⟩)
  · by_cases listen : c = .listenWindowExpiry
    · subst listen
      obtain rfl : s.listenWindowExpiry = t := Outcome.next_inj ht
      rcases s.listenWindowExpiry_cases with ⟨⟨-, listening, -⟩, e⟩ | ⟨moves, -⟩
      · obtain ⟨founding, -, -, pointer⟩ := State.endListening_founds listening
        exact .inr (.inr (.inl ⟨rfl, listening, e ▸ founding, e ▸ pointer⟩))
      · obtain ⟨-, -, -, pointer, -⟩ := moves.kept
        exact .inl pointer
    · obtain ⟨-, pointer | ⟨h, e, rfl, turned⟩⟩ := exec_counter_pointer reset listen ht
      · exact .inl pointer
      · rcases turned with pointer | ⟨rfl, pointer⟩ | ⟨w, bs, n, rfl, received, pointer⟩
        · exact .inl pointer
        · exact .inr (.inr (.inr (.inl ⟨e, rfl, pointer⟩)))
        · exact .inr (.inr (.inr (.inr ⟨w, bs, n, e, rfl, received, pointer⟩)))

end

/-- Settles O33: no answer reads the counter; it moves at the founding attempt alone, and the pointer where `exec_pointer` says. -/
theorem foundingCounterChangesOnlyAtFounding : Obligations.FoundingCounterChangesOnlyAtFounding := by
  refine ⟨rfl, fun c s t u k frame ht hu => response_counterAt s k frame ht hu, fun c s t ht reset => ?_, fun c s t => exec_pointer⟩
  rcases exec_founds_or_keeps reset ht with ⟨hc, runs, rfl⟩ | ⟨counter, other, silent⟩
  · obtain ⟨founding, counter, tag, -⟩ := State.endListening_founds runs.2.1
    have attempt := And.intro counter (tag.trans (by rw [← counter, foundingTag]))
    exact ⟨fun _ => attempt, fun e => absurd ⟨runs.2.1, founding⟩ e, fun _ _ _ _ _ => attempt, fun e => absurd ⟨hc, runs⟩ e⟩
  · refine ⟨fun e => absurd e.2 (other e.1), fun _ => counter, fun hc timer listening free delivered => ?_, fun _ => counter⟩
    exact absurd ⟨hc, State.listenRuns_iff.2 ⟨timer, listening, free⟩, delivered⟩ silent

end Sys2Proof.Machine
end
